-- ==== Sys2Proof/Word.lean ====
section
/-! DEFINITION. The word types of the block: bytes of `IN`, `OUT` and of the streams (R80, R88), 32-bit host
registers (R21), 64-bit totals (R22). -/

namespace Sys2Proof

/-- One byte of a byte stream or of an address space (R14, R80). -/
abbrev Byte := BitVec 8

/-- One 32-bit register of the `REG` space (R21); also an address of `IN` or `OUT` (R11). -/
abbrev Word := BitVec 32

/-- A 64-bit byte counter, `TOTAL_IN` or `TOTAL_OUT` (R11, R22). -/
abbrev DWord := BitVec 64

/-- A code length, a code, an extra value, a position: naturals of the spec (R13, R520). -/
abbrev Lens := List Nat

end Sys2Proof
end

