-- ==== Sys2Proof/Config.lean ====
section
/-! DEFINITION. What an implementation fixes: the closed enumerations of the options (R8, R123), the types of the five
open parameters (R12), and the free values, which have no body. -/

namespace Sys2Proof

/-- `strategy` (R8, R27), numbered 0 to 4 in this order. -/
inductive Strategy
  | normal | filtered | huffman | rle | fixed
  deriving DecidableEq, Repr

/-- `wrap` (R8, R27), numbered 0 to 2 in this order. -/
inductive Wrap
  | none | zlib | gzip
  deriving DecidableEq, Repr

/-- The flush modes (R123), numbered 0 to 6 in this order; `part` is `partial`. -/
inductive Flush
  | none | block | part | sync | full | finish | trees
  deriving DecidableEq, Repr

/-- The three block types a compressor may choose (R44, R131), numbered 0 to 2 in this order. -/
inductive BlockType
  | stored | fixed | dynamic
  deriving DecidableEq, Repr, Inhabited

/-- A token of the compressor (R19): a literal byte or a match. -/
inductive Token
  | lit (b : Byte)
  | mat (len dist : Nat)
  deriving DecidableEq, Repr

/-- The `mode` column of `LEVEL_TABLE` (R308). -/
inductive MatchMode
  | stored | greedy | lazy
  deriving DecidableEq, Repr

/-- One row of `LEVEL_TABLE` (R308, R309). -/
structure LevelRow where
  good : Nat
  lazy : Nat
  nice : Nat
  chain : Nat
  mode : MatchMode
  deriving DecidableEq, Repr

/-- The open parameter `GZ_HDR` (R262): what the encoder puts in the optional gzip header fields. -/
structure GzHdr where
  text : Bool
  mtime : Word
  xfl : Option Byte
  os : Byte
  extra : Option (List Byte)
  name : Option (List Byte)
  comment : Option (List Byte)
  hcrc : Bool
  deriving DecidableEq, Repr

/-- The open parameter `P_CLSET_ERR` (R445). -/
inductive ClsetErr
  | specific | generic
  deriving DecidableEq, Repr

/-- The open parameter `choose_block` (R398) as plain data: the default comparison of bit costs, or any other function
within the constraints of R398 (`Config.freeChoice`). Log 11. -/
inductive Chooser
  | byCost | other
  deriving DecidableEq, Repr

/-- The five open parameters (R12), carried in the state as plain data. Log 10. -/
structure Params where
  incompleteOk : Bool
  clsetErr : ClsetErr
  levelTable : List LevelRow
  gzHdr : GzHdr
  chooser : Chooser
  deriving DecidableEq, Repr

/-- What `HB.PLAN` computes for a block (R348): the frequencies (R331), the code description (R342 to R345) and the two
costs (R347). -/
structure BlockPlan where
  llFreq : List Nat
  dFreq : List Nat
  xbits : Nat
  llLens : Lens
  dLens : Lens
  hlit : Nat
  hdist : Nat
  rl : List (Nat × Nat)
  clLens : Lens
  hclen : Nat
  dynBits : Nat
  fixBits : Nat
  deriving DecidableEq, Repr

/-- What `choose_block` may look at (R12 "block statistics", R398): the tokens of the block and their plan, the cursors
(R33), the latched configuration they depend on, and `span` and `stored_ok`, which R398 derives from the cursors. -/
structure BlockStats where
  level : Nat
  strategy : Strategy
  wbits : Nat
  toks : List Token
  plan : BlockPlan
  histBase : Nat
  blockStart : Nat
  emitPos : Nat
  pos : Nat
  dataEnd : Nat
  span : Nat
  storedOk : Bool
  deriving DecidableEq, Repr

/-- FREE VALUE. What a 32-bit cursor holds after it was incremented from `0xFFFFFFFF`, indexed by the counter
`Bus.freeCtr`: the spec states no result there (R15, R32, R99). DESIGN CHOICE, safe. Log 8. -/
opaque Config.freeAddr : Nat → Word

/-- FREE VALUE. The choice of a replacement `choose_block` (R12, R398) before the constraints of R398 are applied.
DESIGN CHOICE, safe. Log 11. -/
opaque Config.freeChoice : BlockStats → BlockType

/-- FREE VALUE. The length `HB.BUILD` gives the only symbol of a vector of one: R334 needs two symbols and then has no index
to take, so the spec states no result there. DESIGN CHOICE, safe. Log 30. -/
opaque Config.freeLength : List Nat → Nat → Nat

end Sys2Proof
end

