-- ==== Sys2Proof/Syntax.lean ====
section
/-! DEFINITION. The instructions of the block (R120): host commands (R126), unit operations (R129) and stream elements
(R130 to R161), one constructor for each row of spec/opcode_table.json, and the ports they arrive at. -/

namespace Sys2Proof

/-- The three decode tables of `INFL` (R440). -/
inductive TableId
  | clt | ll | dt
  deriving DecidableEq, Repr

/-- `kind` of `HD.BUILD` (R442). -/
inductive CodeKind
  | codes | lens | dists
  deriving DecidableEq, Repr

/-- The format a stream element is read in (R120, R149): which one comes next is told by `INFL.stage`. `gzId` to
`gzHcrc` are the fields of `GZHDR` and `GZOPT`, one for each stage that reads one; `pseudo` is R161. -/
inductive Fmt
  | blkhdr | stolen | raw | dynhdr | cllen | clsym | llsym | dsym
  | zhdr | dictid | ztrl
  | gzId | gzCmflg | gzMtime | gzXflos | gzXlen | gzExtra | gzName | gzComment | gzHcrc | gzCrc | gzIsize
  | pseudo
  deriving DecidableEq, Repr

/-- Where an instruction's bits arrive: a word written to one of the three `CMD` registers (R122, R124), a unit
operation's selector and operands (R129), or a piece of the compressed stream in a known format (R149). -/
inductive Port
  | deflCmd | inflCmd | cksCmd | uop
  | element (fmt : Fmt)
  deriving DecidableEq, Repr

/-- The instructions. Extra bits and fields of stream elements are bit vectors of the width the format gives them. -/
inductive Instr
  -- host commands (R126)
  | deflReset | deflWriteNone | deflWriteBlock | deflWritePartial | deflWriteSync | deflWriteFull | deflWriteFinish
  | deflWriteTrees
  | inflReset | inflWriteNone | inflWriteBlock | inflWritePartial | inflWriteSync | inflWriteFull | inflWriteFinish
  | inflWriteTrees
  | cksAdlerUpdate | cksCrcUpdate
  -- unit operations (R129); `brPeek k n` is `BR.PEEK n` for k = 0 and `BR.PEEK2 k, n` otherwise (R215, log 26);
  -- the operand `blk` of the two `HB.EMIT` operations is the state field `DEFL.blk` (R384, log 14)
  | bwPut (v : Word) (n : Nat) | bwPutcode (c : Word) (n : Nat) | bwAlign | bwTake
  | brNeed (n : Nat) | brPeek (k n : Nat) | brDrop (n : Nat) | brGet (n : Nat) | brAlign
  | adlerStep (a : Word) (b : Byte) | crcStep (c : Word) (b : Byte)
  | hdrZenc | hdrGzenc | hdrTrailer
  | lzInsert (p : Nat) | lzFind (p chain : Nat) | lzStep | lzClear
  | hbBuild (freq : List Nat) (max : Nat) | hbCanon (lens : Lens) (max : Nat) | hbRle (lens : Lens)
  | hbPlan (toks : List Token) | hbEmitHeader | hbEmitSymbols
  | hdBuild (lens : Lens) (max : Nat) (kind : CodeKind) | hdDecode (t : TableId)
  -- block headers (R131), stored blocks (R132), dynamic headers (R134 to R136)
  | blkhdrStored (final : Bool) | blkhdrFixed (final : Bool) | blkhdrDynamic (final : Bool) | blkhdrReserved (final : Bool)
  | stolen (len nlen : BitVec 16) | storedRaw (b : Byte)
  | dynhdr (hlit hdist : BitVec 5) (hclen : BitVec 4) | cllen (len : BitVec 3)
  | clsymLen (v : BitVec 4) | clsymRep16 (x : BitVec 2) | clsymZero17 (x : BitVec 3) | clsymZero18 (x : BitVec 7)
  -- literal/length symbols (R142, R143)
  | lit (b : Byte) | eob
  | len257 | len258 | len259 | len260 | len261 | len262 | len263 | len264
  | len265 (x : BitVec 1) | len266 (x : BitVec 1) | len267 (x : BitVec 1) | len268 (x : BitVec 1)
  | len269 (x : BitVec 2) | len270 (x : BitVec 2) | len271 (x : BitVec 2) | len272 (x : BitVec 2)
  | len273 (x : BitVec 3) | len274 (x : BitVec 3) | len275 (x : BitVec 3) | len276 (x : BitVec 3)
  | len277 (x : BitVec 4) | len278 (x : BitVec 4) | len279 (x : BitVec 4) | len280 (x : BitVec 4)
  | len281 (x : BitVec 5) | len282 (x : BitVec 5) | len283 (x : BitVec 5) | len284 (x : BitVec 5)
  | len285
  | llsymReserved (hi : Bool)
  -- distance symbols (R144)
  | dist0 | dist1 | dist2 | dist3
  | dist4 (x : BitVec 1) | dist5 (x : BitVec 1) | dist6 (x : BitVec 2) | dist7 (x : BitVec 2)
  | dist8 (x : BitVec 3) | dist9 (x : BitVec 3) | dist10 (x : BitVec 4) | dist11 (x : BitVec 4)
  | dist12 (x : BitVec 5) | dist13 (x : BitVec 5) | dist14 (x : BitVec 6) | dist15 (x : BitVec 6)
  | dist16 (x : BitVec 7) | dist17 (x : BitVec 7) | dist18 (x : BitVec 8) | dist19 (x : BitVec 8)
  | dist20 (x : BitVec 9) | dist21 (x : BitVec 9) | dist22 (x : BitVec 10) | dist23 (x : BitVec 10)
  | dist24 (x : BitVec 11) | dist25 (x : BitVec 11) | dist26 (x : BitVec 12) | dist27 (x : BitVec 12)
  | dist28 (x : BitVec 13) | dist29 (x : BitVec 13)
  | dsymReserved (hi : Bool)
  -- containers (R150 to R158); the two check bytes and the gzip identification bytes are operands, so that a wrong
  -- one is an element with the error the spec gives it (R148)
  | zhdr (cmf flg : Byte) | zdictid (id : Word) | ztrl (adler : Word)
  | gzMagic (id1 id2 : Byte) | gzCmflg (cm flg : Byte) | gzMtime (t : Word) | gzXflos (xfl os : Byte)
  | gzXlen (n : BitVec 16) | gzExtra (b : Byte) | gzName (b : Byte) | gzComment (b : Byte) | gzHcrc (c : BitVec 16)
  | gzCrc32 (c : Word) | gzIsize (n : Word)
  -- pseudo-elements (R161)
  | syncMarker | partialMarker | emptyFinal
  deriving DecidableEq, Repr

end Sys2Proof
end

