-- ==== Sys2Proof/WellFormed.lean ====
section
/-! DEFINITION. Which instructions are well formed: the operand ranges the unit operations state (R202 to R217, R294,
R297, R333, R340, R344, R348, R442), with the sizes the model's operand layout can carry (log 3). Host commands have
no explicit operand and stream elements carry fields of their format's width, so each of those is well formed. -/

namespace Sys2Proof

/-- A token in the ranges of R42 and R291 (a): `3 ≤ len ≤ 258`, `1 ≤ dist ≤ 32768`. -/
def Token.wf : Token → Bool
  | .lit _ => true
  | .mat len dist => decide (3 ≤ len ∧ len ≤ 258 ∧ 1 ≤ dist ∧ dist ≤ 32768)

/-- A list short enough for the 16-bit count of the operand layout, every entry at most `top`. -/
def listWf (top : Nat) (l : List Nat) : Bool :=
  decide (l.length < 65536) && l.all fun x => decide (x ≤ top)

/-- Well-formedness of an instruction. -/
def Instr.wf : Instr → Bool
  | .bwPut v n => decide (n ≤ 32 ∧ v.toNat < 2 ^ n)
  | .bwPutcode c n => decide (1 ≤ n ∧ n ≤ 15 ∧ c.toNat < 2 ^ n)
  | .brNeed n | .brGet n => decide (n ≤ 32)
  | .brPeek k n => decide (k + n ≤ 39)
  | .brDrop n => decide (n ≤ 39)
  | .lzInsert p => decide (p < 2 ^ 64)
  | .lzFind p chain => decide (p < 2 ^ 64 ∧ chain < 2 ^ 32)
  | .hbBuild freq max => decide (max < 256 ∧ freq.length ≤ 2 ^ max) && listWf 4294967295 freq
  | .hbCanon lens max | .hdBuild lens max _ => decide (max < 256) && listWf max lens
  | .hbRle lens => listWf 15 lens
  | .hbPlan toks => decide (toks.length < 65536) && toks.all Token.wf
  | .bwAlign | .bwTake | .brAlign | .adlerStep _ _ | .crcStep _ _ | .hdrZenc | .hdrGzenc | .hdrTrailer | .lzStep
  | .lzClear | .hbEmitHeader | .hbEmitSymbols | .hdDecode _ => true
  | .deflReset | .deflWriteNone | .deflWriteBlock | .deflWritePartial | .deflWriteSync | .deflWriteFull
  | .deflWriteFinish | .deflWriteTrees | .inflReset | .inflWriteNone | .inflWriteBlock | .inflWritePartial
  | .inflWriteSync | .inflWriteFull | .inflWriteFinish | .inflWriteTrees | .cksAdlerUpdate | .cksCrcUpdate => true
  | .blkhdrStored _ | .blkhdrFixed _ | .blkhdrDynamic _ | .blkhdrReserved _ | .stolen _ _ | .storedRaw _
  | .dynhdr _ _ _ | .cllen _ | .clsymLen _ | .clsymRep16 _ | .clsymZero17 _ | .clsymZero18 _ => true
  | .lit _ | .eob | .len257 | .len258 | .len259 | .len260 | .len261 | .len262 | .len263 | .len264 | .len265 _
  | .len266 _ | .len267 _ | .len268 _ | .len269 _ | .len270 _ | .len271 _ | .len272 _ | .len273 _ | .len274 _
  | .len275 _ | .len276 _ | .len277 _ | .len278 _ | .len279 _ | .len280 _ | .len281 _ | .len282 _ | .len283 _
  | .len284 _ | .len285 | .llsymReserved _ => true
  | .dist0 | .dist1 | .dist2 | .dist3 | .dist4 _ | .dist5 _ | .dist6 _ | .dist7 _ | .dist8 _ | .dist9 _ | .dist10 _
  | .dist11 _ | .dist12 _ | .dist13 _ | .dist14 _ | .dist15 _ | .dist16 _ | .dist17 _ | .dist18 _ | .dist19 _
  | .dist20 _ | .dist21 _ | .dist22 _ | .dist23 _ | .dist24 _ | .dist25 _ | .dist26 _ | .dist27 _ | .dist28 _
  | .dist29 _ | .dsymReserved _ => true
  | .zhdr _ _ | .zdictid _ | .ztrl _ | .gzMagic _ _ | .gzCmflg _ _ | .gzMtime _ | .gzXflos _ _ | .gzXlen _ | .gzExtra _
  | .gzName _ | .gzComment _ | .gzHcrc _ | .gzCrc32 _ | .gzIsize _ => true
  | .syncMarker | .partialMarker | .emptyFinal => true

end Sys2Proof
end

