-- ==== Sys2Proof/Decode.lean ====
section
/-! DEFINITION. Decoding, total on any bytes and rejecting by name, and the encoder written from the same formats:
host command words (R122 to R126), unit-operation selectors (R129) with the model's operand layout (log 3), and stream
elements as the table numbers them: fixed fields as `BR` reads them (R131 to R158), Huffman-coded symbols as the
decoded symbol number with the extra bits above it (R142 to R146). Byte-order helpers stand here too. -/

namespace Sys2Proof

/-! ## Byte order (R90, R92) -/

/-- The number a list of bytes spells, least significant byte first (R90). -/
def leNat : List Byte → Nat
  | [] => 0
  | b :: bs => b.toNat + 256 * leNat bs

/-- The low `m` bytes of a number, least significant first (R90, `le16`, `le32` of R262). -/
def leBytes : Nat → Nat → List Byte
  | 0, _ => []
  | m + 1, a => BitVec.ofNat 8 a :: leBytes m (a / 256)

/-- The low `m` bytes of a number, most significant first (`be32` of R265). -/
def beBytes (m a : Nat) : List Byte := (leBytes m a).reverse

/-- The field of width `n` that starts `lo` bits into the number `w` (R13, `w[lo+n-1:lo]`). -/
def field (lo n w : Nat) : Nat := w / 2 ^ lo % 2 ^ n

/-! ## Rejections -/

/-- Why bytes are no instruction. -/
inductive DecodeError
  | tooShort          -- fewer bytes than the instruction has
  | reservedCommand   -- a reserved host command word (R125)
  | noSuchUnitOp      -- a selector R129 does not list
  | noSuchSymbol      -- a symbol number outside its alphabet (R142, R144, R146)
  | noSuchPseudo      -- no pseudo-element of R161
  | operandRange      -- an operand outside the unit operation's stated range
  deriving DecidableEq, Repr

/-! ## Host commands (R122 to R126) -/

/-- The flush mode numbered `f` (R123); 7 is reserved. -/
def flushOf : Nat → Option Flush
  | 0 => some .none
  | 1 => some .block
  | 2 => some .part
  | 3 => some .sync
  | 4 => some .full
  | 5 => some .finish
  | 6 => some .trees
  | _ => none

/-- The number of a flush mode (R123). -/
def flushNum : Flush → Nat
  | .none => 0
  | .block => 1
  | .part => 2
  | .sync => 3
  | .full => 4
  | .finish => 5
  | .trees => 6

/-- Format `HCMD` (R122, R125): `none` for a reserved word, `some none` for `RESET`, `some (some f)` for `WRITE f`. -/
def hcmdOf (w : Nat) : Option (Option Flush) :=
  if w / 128 ≠ 0 then none
  else if w % 16 = 1 then (if w / 16 = 0 then some none else none)
  else if w % 16 = 2 then (flushOf (w / 16)).map some
  else none

/-- The commands of the `DEFL` bank (R126). -/
def deflCommand : Option Flush → Instr
  | none => .deflReset
  | some .none => .deflWriteNone
  | some .block => .deflWriteBlock
  | some .part => .deflWritePartial
  | some .sync => .deflWriteSync
  | some .full => .deflWriteFull
  | some .finish => .deflWriteFinish
  | some .trees => .deflWriteTrees

/-- The commands of the `INFL` bank (R126). -/
def inflCommand : Option Flush → Instr
  | none => .inflReset
  | some .none => .inflWriteNone
  | some .block => .inflWriteBlock
  | some .part => .inflWritePartial
  | some .sync => .inflWriteSync
  | some .full => .inflWriteFull
  | some .finish => .inflWriteFinish
  | some .trees => .inflWriteTrees

/-- Format `CCMD` (R124): the commands of the `CKS` bank. -/
def ccmdOf (w : Nat) : Option Instr :=
  if w = 1 then some .cksAdlerUpdate else if w = 2 then some .cksCrcUpdate else none

/-- The word of `WRITE f` (R122, R127): `2 + 16·f`. -/
def writeWord (f : Flush) : Nat := 2 + 16 * flushNum f

/-! ## Unit operations (R129), with the model's operand layout (log 3) -/

/-- `k` bytes of `bs` from offset `off`, as a number. -/
def rd (off k : Nat) (bs : List Byte) : Nat := leNat ((bs.drop off).take k)

/-- `n` numbers of `k` bytes each. -/
def rdList (k : Nat) : Nat → List Byte → List Nat
  | 0, _ => []
  | n + 1, bs => leNat (bs.take k) :: rdList k n (bs.drop k)

/-- The bytes of a list operand: its length in two bytes, then each entry in `k` bytes. -/
def listBytes (k : Nat) (l : List Nat) : List Byte := leBytes 2 l.length ++ l.flatMap (leBytes k)

/-- A token in four bytes: length 0 for a literal. -/
def tokenNum : Token → Nat
  | .lit b => 65536 * b.toNat
  | .mat len dist => len + 65536 * dist

/-- The token a four-byte number spells. A literal is the low 8 bits of what stands in place of the byte: a number above 255 there
spells the same literal as those bits do, and the higher bits are dropped (DESIGN CHOICE, log 3). -/
def tokenOf (n : Nat) : Token :=
  if n % 65536 = 0 then .lit (BitVec.ofNat 8 (n / 65536)) else .mat (n % 65536) (n / 65536)

/-- The number of a kind of code in the operand layout (log 3). -/
def kindNum : CodeKind → Nat
  | .codes => 0
  | .lens => 1
  | .dists => 2

/-- The kind of code a number names (log 3). -/
def kindOf : Nat → Option CodeKind
  | 0 => some .codes
  | 1 => some .lens
  | 2 => some .dists
  | _ => none

/-- The number of a table in the operand layout (log 3). -/
def tableNum : TableId → Nat
  | .clt => 0
  | .ll => 1
  | .dt => 2

/-- The table a number names (log 3). -/
def tableOf : Nat → Option TableId
  | 0 => some .clt
  | 1 => some .ll
  | 2 => some .dt
  | _ => none

/-- How many bytes a unit operation has after its selector: a fixed part, and for the five operations with a list
operand the bytes of one entry (the list's length stands in the last two bytes of the fixed part). -/
def uopSize : Nat → Option (Nat × Nat)
  | 0x10 => some (5, 0)   -- n, v
  | 0x11 => some (5, 0)   -- n - 1, c
  | 0x12 => some (0, 0)
  | 0x13 => some (0, 0)
  | 0x20 => some (1, 0)   -- n
  | 0x21 => some (2, 0)   -- k, n
  | 0x22 => some (1, 0)   -- n
  | 0x23 => some (1, 0)   -- n
  | 0x24 => some (0, 0)
  | 0x30 => some (5, 0)   -- a, b
  | 0x31 => some (5, 0)   -- c, b
  | 0x40 => some (0, 0)
  | 0x41 => some (0, 0)
  | 0x42 => some (0, 0)
  | 0x50 => some (8, 0)   -- p
  | 0x51 => some (12, 0)  -- p, chain
  | 0x52 => some (0, 0)
  | 0x53 => some (0, 0)
  | 0x60 => some (3, 4)   -- max, count; frequencies
  | 0x61 => some (3, 1)   -- max, count; lengths
  | 0x62 => some (2, 1)   -- count; lengths
  | 0x63 => some (2, 4)   -- count; tokens
  | 0x64 => some (0, 0)
  | 0x65 => some (0, 0)
  | 0x70 => some (4, 1)   -- kind, max, count; lengths
  | 0x71 => some (1, 0)   -- table
  | _ => none

/-- The instruction a selector and its operand bytes stand for (R129), before its operand ranges are checked. The order of the
operands, their sizes and the numbers of kinds and tables are the model's (DESIGN CHOICE, log 3). -/
def uopOf (sel : Nat) (o : List Byte) : Option Instr :=
  match sel with
  | 0x10 => some (.bwPut (BitVec.ofNat 32 (rd 1 4 o)) (rd 0 1 o))
  | 0x11 => some (.bwPutcode (BitVec.ofNat 32 (rd 1 4 o)) (rd 0 1 o + 1))
  | 0x12 => some .bwAlign
  | 0x13 => some .bwTake
  | 0x20 => some (.brNeed (rd 0 1 o))
  | 0x21 => some (.brPeek (rd 0 1 o) (rd 1 1 o))
  | 0x22 => some (.brDrop (rd 0 1 o))
  | 0x23 => some (.brGet (rd 0 1 o))
  | 0x24 => some .brAlign
  | 0x30 => some (.adlerStep (BitVec.ofNat 32 (rd 0 4 o)) (BitVec.ofNat 8 (rd 4 1 o)))
  | 0x31 => some (.crcStep (BitVec.ofNat 32 (rd 0 4 o)) (BitVec.ofNat 8 (rd 4 1 o)))
  | 0x40 => some .hdrZenc
  | 0x41 => some .hdrGzenc
  | 0x42 => some .hdrTrailer
  | 0x50 => some (.lzInsert (rd 0 8 o))
  | 0x51 => some (.lzFind (rd 0 8 o) (rd 8 4 o))
  | 0x52 => some .lzStep
  | 0x53 => some .lzClear
  | 0x60 => some (.hbBuild (rdList 4 (rd 1 2 o) (o.drop 3)) (rd 0 1 o))
  | 0x61 => some (.hbCanon (rdList 1 (rd 1 2 o) (o.drop 3)) (rd 0 1 o))
  | 0x62 => some (.hbRle (rdList 1 (rd 0 2 o) (o.drop 2)))
  | 0x63 => some (.hbPlan ((rdList 4 (rd 0 2 o) (o.drop 2)).map tokenOf))
  | 0x64 => some .hbEmitHeader
  | 0x65 => some .hbEmitSymbols
  | 0x70 => (kindOf (rd 0 1 o)).map (.hdBuild (rdList 1 (rd 2 2 o) (o.drop 4)) (rd 1 1 o))
  | 0x71 => (tableOf (rd 0 1 o)).map .hdDecode
  | _ => none

/-- Decoding of a unit operation: selector known, bytes enough, operands in range. -/
def decodeUop : List Byte → Except DecodeError Instr
  | [] => .error .tooShort
  | sel :: o =>
    match uopSize sel.toNat with
    | none => .error .noSuchUnitOp
    | some (k, each) =>
      if o.length < k ∨ (each ≠ 0 ∧ o.length < k + each * rd (k - 2) 2 o) then .error .tooShort
      else
        match uopOf sel.toNat o with
        | none => .error .operandRange
        | some i => if i.wf then .ok i else .error .operandRange

/-! ## Stream elements -/

/-- The length symbol `s` (257 to 285) with the extra value `x` (R143). -/
def lenInstr (s x : Nat) : Option Instr :=
  match s with
  | 257 => some .len257
  | 258 => some .len258
  | 259 => some .len259
  | 260 => some .len260
  | 261 => some .len261
  | 262 => some .len262
  | 263 => some .len263
  | 264 => some .len264
  | 265 => some (.len265 (BitVec.ofNat 1 x))
  | 266 => some (.len266 (BitVec.ofNat 1 x))
  | 267 => some (.len267 (BitVec.ofNat 1 x))
  | 268 => some (.len268 (BitVec.ofNat 1 x))
  | 269 => some (.len269 (BitVec.ofNat 2 x))
  | 270 => some (.len270 (BitVec.ofNat 2 x))
  | 271 => some (.len271 (BitVec.ofNat 2 x))
  | 272 => some (.len272 (BitVec.ofNat 2 x))
  | 273 => some (.len273 (BitVec.ofNat 3 x))
  | 274 => some (.len274 (BitVec.ofNat 3 x))
  | 275 => some (.len275 (BitVec.ofNat 3 x))
  | 276 => some (.len276 (BitVec.ofNat 3 x))
  | 277 => some (.len277 (BitVec.ofNat 4 x))
  | 278 => some (.len278 (BitVec.ofNat 4 x))
  | 279 => some (.len279 (BitVec.ofNat 4 x))
  | 280 => some (.len280 (BitVec.ofNat 4 x))
  | 281 => some (.len281 (BitVec.ofNat 5 x))
  | 282 => some (.len282 (BitVec.ofNat 5 x))
  | 283 => some (.len283 (BitVec.ofNat 5 x))
  | 284 => some (.len284 (BitVec.ofNat 5 x))
  | 285 => some .len285
  | _ => none

/-- The distance symbol `s` (0 to 29) with the extra value `x` (R144). -/
def distInstr (s x : Nat) : Option Instr :=
  match s with
  | 0 => some .dist0
  | 1 => some .dist1
  | 2 => some .dist2
  | 3 => some .dist3
  | 4 => some (.dist4 (BitVec.ofNat 1 x))
  | 5 => some (.dist5 (BitVec.ofNat 1 x))
  | 6 => some (.dist6 (BitVec.ofNat 2 x))
  | 7 => some (.dist7 (BitVec.ofNat 2 x))
  | 8 => some (.dist8 (BitVec.ofNat 3 x))
  | 9 => some (.dist9 (BitVec.ofNat 3 x))
  | 10 => some (.dist10 (BitVec.ofNat 4 x))
  | 11 => some (.dist11 (BitVec.ofNat 4 x))
  | 12 => some (.dist12 (BitVec.ofNat 5 x))
  | 13 => some (.dist13 (BitVec.ofNat 5 x))
  | 14 => some (.dist14 (BitVec.ofNat 6 x))
  | 15 => some (.dist15 (BitVec.ofNat 6 x))
  | 16 => some (.dist16 (BitVec.ofNat 7 x))
  | 17 => some (.dist17 (BitVec.ofNat 7 x))
  | 18 => some (.dist18 (BitVec.ofNat 8 x))
  | 19 => some (.dist19 (BitVec.ofNat 8 x))
  | 20 => some (.dist20 (BitVec.ofNat 9 x))
  | 21 => some (.dist21 (BitVec.ofNat 9 x))
  | 22 => some (.dist22 (BitVec.ofNat 10 x))
  | 23 => some (.dist23 (BitVec.ofNat 10 x))
  | 24 => some (.dist24 (BitVec.ofNat 11 x))
  | 25 => some (.dist25 (BitVec.ofNat 11 x))
  | 26 => some (.dist26 (BitVec.ofNat 12 x))
  | 27 => some (.dist27 (BitVec.ofNat 12 x))
  | 28 => some (.dist28 (BitVec.ofNat 13 x))
  | 29 => some (.dist29 (BitVec.ofNat 13 x))
  | _ => none

/-- A block header by `BTYPE` (R131). -/
def blkhdrInstr (final : Bool) : Nat → Instr
  | 0 => .blkhdrStored final
  | 1 => .blkhdrFixed final
  | 2 => .blkhdrDynamic final
  | _ => .blkhdrReserved final

/-- A literal/length symbol number with its extra value (R142). -/
def llsymInstr (s x : Nat) : Option Instr :=
  if s < 256 then some (.lit (BitVec.ofNat 8 s))
  else if s = 256 then some .eob
  else if s = 286 then some (.llsymReserved false)
  else if s = 287 then some (.llsymReserved true)
  else lenInstr s x

/-- A distance symbol number with its extra value (R144). -/
def dsymInstr (s x : Nat) : Option Instr :=
  if s = 30 then some (.dsymReserved false) else if s = 31 then some (.dsymReserved true) else distInstr s x

/-- A code-length symbol number with its extra value (R146). -/
def clsymInstr (s x : Nat) : Option Instr :=
  if s < 16 then some (.clsymLen (BitVec.ofNat 4 s))
  else if s = 16 then some (.clsymRep16 (BitVec.ofNat 2 x))
  else if s = 17 then some (.clsymZero17 (BitVec.ofNat 3 x))
  else if s = 18 then some (.clsymZero18 (BitVec.ofNat 7 x))
  else none

/-- The pseudo-element at the front of a byte sequence (R161): ten bits, or `00` (three header bits and their padding)
and `00 00 ff ff`. -/
def pseudoInstr (bs : List Byte) : Option Instr :=
  if field 0 10 (leNat (bs.take 2)) = 2 then some .partialMarker
  else if field 0 10 (leNat (bs.take 2)) = 3 then some .emptyFinal
  else if bs.take 5 = [0x00, 0x00, 0x00, 0xFF, 0xFF] then some .syncMarker
  else none

/-- How many bytes hold an element of each format. -/
def fmtBytes : Fmt → Nat
  | .blkhdr | .raw | .cllen | .gzExtra | .gzName | .gzComment => 1
  | .dynhdr | .clsym | .llsym | .zhdr | .gzId | .gzCmflg | .gzXflos | .gzXlen | .gzHcrc | .pseudo => 2
  | .dsym => 3
  | .stolen | .dictid | .ztrl | .gzMtime | .gzCrc | .gzIsize => 4

/-- The element of a format whose bits are the number `w` (least significant bit first, R90; the most significant
byte first for the fields R92 says so of). The spec numbers the symbols of the Huffman-coded formats; that the extra value
stands above the symbol number here, from bit 9 (`LLSYM`) or bit 5 (`DSYM`, `CLSYM`) on, and that bits past its width are
dropped, is the model's (DESIGN CHOICE, log 5). So it is that the bits of the last byte above the width of a fixed format are
dropped (`BLKHDR` and `CLLEN` have 3 bits, `DYNHDR` 14, two of the pseudo-elements 10), which in a stream begin the next
element (DESIGN CHOICE, log 5). -/
def elementOf (fmt : Fmt) (bs : List Byte) : Option Instr :=
  let w := leNat bs
  match fmt with
  | .blkhdr => some (blkhdrInstr (field 0 1 w == 1) (field 1 2 w))
  | .stolen => some (.stolen (BitVec.ofNat 16 w) (BitVec.ofNat 16 (w / 65536)))
  | .raw => some (.storedRaw (BitVec.ofNat 8 w))
  | .dynhdr => some (.dynhdr (BitVec.ofNat 5 w) (BitVec.ofNat 5 (w / 32)) (BitVec.ofNat 4 (w / 1024)))
  | .cllen => some (.cllen (BitVec.ofNat 3 w))
  | .clsym => clsymInstr (field 0 5 w) (w / 32)
  | .llsym => llsymInstr (field 0 9 w) (w / 512)
  | .dsym => dsymInstr (field 0 5 w) (w / 32)
  | .zhdr => some (.zhdr (BitVec.ofNat 8 w) (BitVec.ofNat 8 (w / 256)))
  | .dictid => some (.zdictid (BitVec.ofNat 32 (leNat (bs.take 4).reverse)))
  | .ztrl => some (.ztrl (BitVec.ofNat 32 (leNat (bs.take 4).reverse)))
  | .gzId => some (.gzMagic (BitVec.ofNat 8 w) (BitVec.ofNat 8 (w / 256)))
  | .gzCmflg => some (.gzCmflg (BitVec.ofNat 8 w) (BitVec.ofNat 8 (w / 256)))
  | .gzMtime => some (.gzMtime (BitVec.ofNat 32 w))
  | .gzXflos => some (.gzXflos (BitVec.ofNat 8 w) (BitVec.ofNat 8 (w / 256)))
  | .gzXlen => some (.gzXlen (BitVec.ofNat 16 w))
  | .gzExtra => some (.gzExtra (BitVec.ofNat 8 w))
  | .gzName => some (.gzName (BitVec.ofNat 8 w))
  | .gzComment => some (.gzComment (BitVec.ofNat 8 w))
  | .gzHcrc => some (.gzHcrc (BitVec.ofNat 16 w))
  | .gzCrc => some (.gzCrc32 (BitVec.ofNat 32 w))
  | .gzIsize => some (.gzIsize (BitVec.ofNat 32 w))
  | .pseudo => pseudoInstr bs

/-- Decoding of a stream element in a known format (R149). -/
def decodeElement (fmt : Fmt) (bs : List Byte) : Except DecodeError Instr :=
  if bs.length < fmtBytes fmt then .error .tooShort
  else
    match elementOf fmt bs with
    | some i => .ok i
    | none => .error (if fmt = .pseudo then .noSuchPseudo else .noSuchSymbol)

/-! ## The decoder -/

/-- The instruction at the front of a byte sequence that arrives at a port. Bytes after it are not looked at. -/
def decode (p : Port) (bs : List Byte) : Except DecodeError Instr :=
  match p with
  | .deflCmd =>
    if bs.length < 4 then .error .tooShort
    else
      match hcmdOf (leNat (bs.take 4)) with
      | some c => .ok (deflCommand c)
      | none => .error .reservedCommand
  | .inflCmd =>
    if bs.length < 4 then .error .tooShort
    else
      match hcmdOf (leNat (bs.take 4)) with
      | some c => .ok (inflCommand c)
      | none => .error .reservedCommand
  | .cksCmd =>
    if bs.length < 4 then .error .tooShort
    else
      match ccmdOf (leNat (bs.take 4)) with
      | some i => .ok i
      | none => .error .reservedCommand
  | .uop => decodeUop bs
  | .element fmt => decodeElement fmt bs

/-! ## The encoder -/

/-- Where an instruction arrives. -/
def Instr.port : Instr → Port
  | .deflReset | .deflWriteNone | .deflWriteBlock | .deflWritePartial | .deflWriteSync | .deflWriteFull
  | .deflWriteFinish | .deflWriteTrees => .deflCmd
  | .inflReset | .inflWriteNone | .inflWriteBlock | .inflWritePartial | .inflWriteSync | .inflWriteFull
  | .inflWriteFinish | .inflWriteTrees => .inflCmd
  | .cksAdlerUpdate | .cksCrcUpdate => .cksCmd
  | .bwPut _ _ | .bwPutcode _ _ | .bwAlign | .bwTake | .brNeed _ | .brPeek _ _ | .brDrop _ | .brGet _ | .brAlign
  | .adlerStep _ _ | .crcStep _ _ | .hdrZenc | .hdrGzenc | .hdrTrailer | .lzInsert _ | .lzFind _ _ | .lzStep | .lzClear
  | .hbBuild _ _ | .hbCanon _ _ | .hbRle _ | .hbPlan _ | .hbEmitHeader | .hbEmitSymbols | .hdBuild _ _ _
  | .hdDecode _ => .uop
  | .blkhdrStored _ | .blkhdrFixed _ | .blkhdrDynamic _ | .blkhdrReserved _ => .element .blkhdr
  | .stolen _ _ => .element .stolen
  | .storedRaw _ => .element .raw
  | .dynhdr _ _ _ => .element .dynhdr
  | .cllen _ => .element .cllen
  | .clsymLen _ | .clsymRep16 _ | .clsymZero17 _ | .clsymZero18 _ => .element .clsym
  | .lit _ | .eob | .len257 | .len258 | .len259 | .len260 | .len261 | .len262 | .len263 | .len264 | .len265 _
  | .len266 _ | .len267 _ | .len268 _ | .len269 _ | .len270 _ | .len271 _ | .len272 _ | .len273 _ | .len274 _
  | .len275 _ | .len276 _ | .len277 _ | .len278 _ | .len279 _ | .len280 _ | .len281 _ | .len282 _ | .len283 _
  | .len284 _ | .len285 | .llsymReserved _ => .element .llsym
  | .dist0 | .dist1 | .dist2 | .dist3 | .dist4 _ | .dist5 _ | .dist6 _ | .dist7 _ | .dist8 _ | .dist9 _ | .dist10 _
  | .dist11 _ | .dist12 _ | .dist13 _ | .dist14 _ | .dist15 _ | .dist16 _ | .dist17 _ | .dist18 _ | .dist19 _
  | .dist20 _ | .dist21 _ | .dist22 _ | .dist23 _ | .dist24 _ | .dist25 _ | .dist26 _ | .dist27 _ | .dist28 _
  | .dist29 _ | .dsymReserved _ => .element .dsym
  | .zhdr _ _ => .element .zhdr
  | .zdictid _ => .element .dictid
  | .ztrl _ => .element .ztrl
  | .gzMagic _ _ => .element .gzId
  | .gzCmflg _ _ => .element .gzCmflg
  | .gzMtime _ => .element .gzMtime
  | .gzXflos _ _ => .element .gzXflos
  | .gzXlen _ => .element .gzXlen
  | .gzExtra _ => .element .gzExtra
  | .gzName _ => .element .gzName
  | .gzComment _ => .element .gzComment
  | .gzHcrc _ => .element .gzHcrc
  | .gzCrc32 _ => .element .gzCrc
  | .gzIsize _ => .element .gzIsize
  | .syncMarker | .partialMarker | .emptyFinal => .element .pseudo

/-- A literal/length symbol number with its extra value in two bytes. -/
def llsymBytes (s x : Nat) : List Byte := leBytes 2 (s + 512 * x)

/-- A distance symbol number with its extra value in three bytes. -/
def dsymBytes (s x : Nat) : List Byte := leBytes 3 (s + 32 * x)

/-- A code-length symbol number with its extra value in two bytes. -/
def clsymBytes (s x : Nat) : List Byte := leBytes 2 (s + 32 * x)

/-- The bytes of a block header (R131): `BFINAL + 2·BTYPE`. -/
def blkhdrBytes (final : Bool) (t : Nat) : List Byte := leBytes 1 (final.toNat + 2 * t)

/-- The bytes of an instruction at its port. -/
def encode : Instr → List Byte
  | .deflReset | .inflReset => leBytes 4 1
  | .deflWriteNone | .inflWriteNone => leBytes 4 (writeWord .none)
  | .deflWriteBlock | .inflWriteBlock => leBytes 4 (writeWord .block)
  | .deflWritePartial | .inflWritePartial => leBytes 4 (writeWord .part)
  | .deflWriteSync | .inflWriteSync => leBytes 4 (writeWord .sync)
  | .deflWriteFull | .inflWriteFull => leBytes 4 (writeWord .full)
  | .deflWriteFinish | .inflWriteFinish => leBytes 4 (writeWord .finish)
  | .deflWriteTrees | .inflWriteTrees => leBytes 4 (writeWord .trees)
  | .cksAdlerUpdate => leBytes 4 1
  | .cksCrcUpdate => leBytes 4 2
  | .bwPut v n => 0x10 :: (leBytes 1 n ++ leBytes 4 v.toNat)
  | .bwPutcode c n => 0x11 :: (leBytes 1 (n - 1) ++ leBytes 4 c.toNat)
  | .bwAlign => [0x12]
  | .bwTake => [0x13]
  | .brNeed n => 0x20 :: leBytes 1 n
  | .brPeek k n => 0x21 :: (leBytes 1 k ++ leBytes 1 n)
  | .brDrop n => 0x22 :: leBytes 1 n
  | .brGet n => 0x23 :: leBytes 1 n
  | .brAlign => [0x24]
  | .adlerStep a b => 0x30 :: (leBytes 4 a.toNat ++ leBytes 1 b.toNat)
  | .crcStep c b => 0x31 :: (leBytes 4 c.toNat ++ leBytes 1 b.toNat)
  | .hdrZenc => [0x40]
  | .hdrGzenc => [0x41]
  | .hdrTrailer => [0x42]
  | .lzInsert p => 0x50 :: leBytes 8 p
  | .lzFind p chain => 0x51 :: (leBytes 8 p ++ leBytes 4 chain)
  | .lzStep => [0x52]
  | .lzClear => [0x53]
  | .hbBuild freq max => 0x60 :: (leBytes 1 max ++ listBytes 4 freq)
  | .hbCanon lens max => 0x61 :: (leBytes 1 max ++ listBytes 1 lens)
  | .hbRle lens => 0x62 :: listBytes 1 lens
  | .hbPlan toks => 0x63 :: listBytes 4 (toks.map tokenNum)
  | .hbEmitHeader => [0x64]
  | .hbEmitSymbols => [0x65]
  | .hdBuild lens max kind => 0x70 :: (leBytes 1 (kindNum kind) ++ (leBytes 1 max ++ listBytes 1 lens))
  | .hdDecode t => 0x71 :: leBytes 1 (tableNum t)
  | .blkhdrStored final => blkhdrBytes final 0
  | .blkhdrFixed final => blkhdrBytes final 1
  | .blkhdrDynamic final => blkhdrBytes final 2
  | .blkhdrReserved final => blkhdrBytes final 3
  | .stolen len nlen => leBytes 4 (len.toNat + 65536 * nlen.toNat)
  | .storedRaw b => [b]
  | .dynhdr hlit hdist hclen => leBytes 2 (hlit.toNat + 32 * hdist.toNat + 1024 * hclen.toNat)
  | .cllen len => leBytes 1 len.toNat
  | .clsymLen v => clsymBytes v.toNat 0
  | .clsymRep16 x => clsymBytes 16 x.toNat
  | .clsymZero17 x => clsymBytes 17 x.toNat
  | .clsymZero18 x => clsymBytes 18 x.toNat
  | .lit b => llsymBytes b.toNat 0
  | .eob => llsymBytes 256 0
  | .len257 => llsymBytes 257 0
  | .len258 => llsymBytes 258 0
  | .len259 => llsymBytes 259 0
  | .len260 => llsymBytes 260 0
  | .len261 => llsymBytes 261 0
  | .len262 => llsymBytes 262 0
  | .len263 => llsymBytes 263 0
  | .len264 => llsymBytes 264 0
  | .len265 x => llsymBytes 265 x.toNat
  | .len266 x => llsymBytes 266 x.toNat
  | .len267 x => llsymBytes 267 x.toNat
  | .len268 x => llsymBytes 268 x.toNat
  | .len269 x => llsymBytes 269 x.toNat
  | .len270 x => llsymBytes 270 x.toNat
  | .len271 x => llsymBytes 271 x.toNat
  | .len272 x => llsymBytes 272 x.toNat
  | .len273 x => llsymBytes 273 x.toNat
  | .len274 x => llsymBytes 274 x.toNat
  | .len275 x => llsymBytes 275 x.toNat
  | .len276 x => llsymBytes 276 x.toNat
  | .len277 x => llsymBytes 277 x.toNat
  | .len278 x => llsymBytes 278 x.toNat
  | .len279 x => llsymBytes 279 x.toNat
  | .len280 x => llsymBytes 280 x.toNat
  | .len281 x => llsymBytes 281 x.toNat
  | .len282 x => llsymBytes 282 x.toNat
  | .len283 x => llsymBytes 283 x.toNat
  | .len284 x => llsymBytes 284 x.toNat
  | .len285 => llsymBytes 285 0
  | .llsymReserved hi => llsymBytes (286 + hi.toNat) 0
  | .dist0 => dsymBytes 0 0
  | .dist1 => dsymBytes 1 0
  | .dist2 => dsymBytes 2 0
  | .dist3 => dsymBytes 3 0
  | .dist4 x => dsymBytes 4 x.toNat
  | .dist5 x => dsymBytes 5 x.toNat
  | .dist6 x => dsymBytes 6 x.toNat
  | .dist7 x => dsymBytes 7 x.toNat
  | .dist8 x => dsymBytes 8 x.toNat
  | .dist9 x => dsymBytes 9 x.toNat
  | .dist10 x => dsymBytes 10 x.toNat
  | .dist11 x => dsymBytes 11 x.toNat
  | .dist12 x => dsymBytes 12 x.toNat
  | .dist13 x => dsymBytes 13 x.toNat
  | .dist14 x => dsymBytes 14 x.toNat
  | .dist15 x => dsymBytes 15 x.toNat
  | .dist16 x => dsymBytes 16 x.toNat
  | .dist17 x => dsymBytes 17 x.toNat
  | .dist18 x => dsymBytes 18 x.toNat
  | .dist19 x => dsymBytes 19 x.toNat
  | .dist20 x => dsymBytes 20 x.toNat
  | .dist21 x => dsymBytes 21 x.toNat
  | .dist22 x => dsymBytes 22 x.toNat
  | .dist23 x => dsymBytes 23 x.toNat
  | .dist24 x => dsymBytes 24 x.toNat
  | .dist25 x => dsymBytes 25 x.toNat
  | .dist26 x => dsymBytes 26 x.toNat
  | .dist27 x => dsymBytes 27 x.toNat
  | .dist28 x => dsymBytes 28 x.toNat
  | .dist29 x => dsymBytes 29 x.toNat
  | .dsymReserved hi => dsymBytes (30 + hi.toNat) 0
  | .zhdr cmf flg => [cmf, flg]
  | .zdictid id => beBytes 4 id.toNat
  | .ztrl adler => beBytes 4 adler.toNat
  | .gzMagic id1 id2 => [id1, id2]
  | .gzCmflg cm flg => [cm, flg]
  | .gzMtime t => leBytes 4 t.toNat
  | .gzXflos xfl os => [xfl, os]
  | .gzXlen n => leBytes 2 n.toNat
  | .gzExtra b => [b]
  | .gzName b => [b]
  | .gzComment b => [b]
  | .gzHcrc c => leBytes 2 c.toNat
  | .gzCrc32 c => leBytes 4 c.toNat
  | .gzIsize n => leBytes 4 n.toNat
  | .syncMarker => [0x00, 0x00, 0x00, 0xFF, 0xFF]
  | .partialMarker => leBytes 2 2
  | .emptyFinal => leBytes 2 3

/-! ## Words as the opcode table numbers them (log 6) -/

/-- The port a table word is given to. Several rows share a word and a width (the same command word is written to two or
three `CMD` registers; a selector, a symbol number and a header field can be the same number): the spec tells them
apart by the register or by `INFL.stage`, which a word alone does not say. DESIGN CHOICE, log 6. -/
def tablePort (nbits w : Nat) : Port :=
  if nbits ≤ 8 then
    if w = 0 ∨ w = 2 ∨ w = 4 ∨ w = 6 then .element .blkhdr
    else if w < 8 ∨ w = 30 ∨ w = 31 then .element .dsym
    else .uop
  else if nbits ≤ 16 then
    if w = 2 ∨ w = 3 then .element .pseudo
    else if w = 0x8B1F then .element .gzId
    else if w % 256 = 8 ∧ w / 8192 = 0 ∧ w ≠ 0x108 then .element .gzCmflg
    else if w / 256 % 16 = 8 then .element .zhdr
    else if 8 < w ∧ w < 16 then .element .dsym
    else .element .llsym
  else if nbits ≤ 24 then
    if w = 16 ∨ w = 17 ∨ w = 18 then .element .clsym else .element .dsym
  else if (hcmdOf w).isSome then .deflCmd
  else if 24 ≤ w ∧ w < 32 then .element .dsym
  else .element .stolen

/-- The bytes a table word is laid out in, the bits above it zero: `CMF` before `FLG` for the zlib header, which the
table numbers `CMF·256 + FLG`; least significant byte first for every other format. -/
def tableBytes (p : Port) (w : Nat) : List Byte :=
  if p = .element .zhdr then beBytes 2 w ++ leBytes 14 0 else leBytes 16 w

/-- The instruction the decoder reads from a table word. -/
def decodeTableWord (nbits w : Nat) : Option Instr :=
  match decode (tablePort nbits w) (tableBytes (tablePort nbits w) w) with
  | .ok i => some i
  | .error _ => none

end Sys2Proof
end

