-- ==== Sys2Proof/Machine/Tables.lean ====
section
/-! DEFINITION. The constants and constant tables of the block (R9, R10, R61): the format constants, the length and
distance tables (R145), the order of the code-length alphabet (R147), the fixed code lengths (R140, R141), the default
effort table (R308) and the default parameters (R12). No operation writes them. -/

namespace Sys2Proof.Machine

/-! ## Format constants (R9) and fixed sizes (R10) -/

def minMatch : Nat := 3
def maxMatch : Nat := 258
def storedMax : Nat := 65535
def maxBits : Nat := 15
def maxClBits : Nat := 7
def eobSym : Nat := 256
def adlerBase : Nat := 65521
def minLookahead : Nat := 262
def tooFar : Nat := 4096

/-! ## Length, distance and code-length tables (R145 to R147) -/

def lenBase : List Nat :=
  [3, 4, 5, 6, 7, 8, 9, 10, 11, 13, 15, 17, 19, 23, 27, 31, 35, 43, 51, 59, 67, 83, 99, 115, 131, 163, 195, 227, 258]

def lenXb : List Nat :=
  [0, 0, 0, 0, 0, 0, 0, 0, 1, 1, 1, 1, 2, 2, 2, 2, 3, 3, 3, 3, 4, 4, 4, 4, 5, 5, 5, 5, 0]

def distBase : List Nat :=
  [1, 2, 3, 4, 5, 7, 9, 13, 17, 25, 33, 49, 65, 97, 129, 193, 257, 385, 513, 769, 1025, 1537, 2049, 3073, 4097, 6145,
    8193, 12289, 16385, 24577]

def distXb : List Nat :=
  [0, 0, 0, 0, 1, 1, 2, 2, 3, 3, 4, 4, 5, 5, 6, 6, 7, 7, 8, 8, 9, 9, 10, 10, 11, 11, 12, 12, 13, 13]

def clOrder : List Nat := [16, 17, 18, 0, 8, 7, 9, 6, 10, 5, 11, 4, 12, 3, 13, 2, 14, 1, 15]

/-- Extra bits of a code-length symbol (R146): 2, 3, 7 for 16, 17, 18 and 0 otherwise. -/
def clXb (s : Nat) : Nat := if s = 16 then 2 else if s = 17 then 3 else if s = 18 then 7 else 0

/-! ## The fixed code lengths (R140, R141) -/

/-- Lengths of the fixed literal/length code, symbols 0 to 287 (R140). -/
def fixLl : Lens :=
  List.replicate 144 8 ++ List.replicate 112 9 ++ List.replicate 24 7 ++ List.replicate 8 8

/-- Lengths of the fixed distance code, symbols 0 to 31 (R141). -/
def fixD : Lens := List.replicate 32 5

/-! ## The default parameters (R12) -/

/-- Default `LEVEL_TABLE` (R308), rows 0 to 9. -/
def defaultLevelTable : List LevelRow :=
  [⟨0, 0, 0, 0, .stored⟩, ⟨4, 4, 8, 4, .greedy⟩, ⟨4, 5, 16, 8, .greedy⟩, ⟨4, 6, 32, 32, .greedy⟩,
    ⟨4, 4, 16, 16, .lazy⟩, ⟨8, 16, 32, 32, .lazy⟩, ⟨8, 16, 128, 128, .lazy⟩, ⟨8, 32, 128, 256, .lazy⟩,
    ⟨32, 128, 258, 1024, .lazy⟩, ⟨32, 258, 258, 4096, .lazy⟩]

/-- Default `GZ_HDR` (R262). -/
def defaultGzHdr : GzHdr := ⟨false, 0, none, 255, none, none, none, false⟩

/-- The defaults of the five open parameters (R12). -/
def defaultParams : Params := ⟨false, .specific, defaultLevelTable, defaultGzHdr, .byCost⟩

/-- The row of `LEVEL_TABLE` for a level; an absent row is the stored row (DESIGN CHOICE, log 10). -/
def levelRow (p : Params) (level : Nat) : LevelRow := p.levelTable.getD level ⟨0, 0, 0, 0, .stored⟩

/-! ## Derived sizes (R10) -/

def wsize (wbits : Nat) : Nat := 2 ^ wbits
def hashBits (mem : Nat) : Nat := mem + 7
def hashShift (mem : Nat) : Nat := (hashBits mem + 2) / 3
def symCap (mem : Nat) : Nat := 2 ^ (mem + 6)

end Sys2Proof.Machine
end

