-- ==== Sys2Proof/Machine/State.lean ====
section
/-! DEFINITION. The state of the block as plain data (10_state.md), the host memory spaces it reaches (R80), the host's
pending requests (log 1), the faults and refusals of the model, and the state right after a hardware reset (R70). -/

namespace Sys2Proof.Machine

/-! ## Status codes (R541) -/

/-- The status codes, numbered 0 to 23 in this order (R541). -/
inductive Status
  | ok | needBuffers | endOfStream | needDict | streamError
  | invalidBlockType | invalidStoredLength | tooManySymbols | invalidCodeLengths | invalidBitLengthRepeat
  | missingEob | invalidLiteralLength | invalidDistanceCode | invalidDistance
  | incorrectHeaderCheck | incorrectDataCheck | incorrectLengthCheck | unknownCompressionMethod | invalidWindowSize
  | headerCrcMismatch | unknownHeaderFlags | overSubscribedLength | incompleteLengthSet | general
  deriving DecidableEq, Repr

/-! ## Sequencing state (R30, R31) -/

/-- `DEFL.stage` (R30). -/
inductive DStage
  | init | body | flushPending | done
  deriving DecidableEq, Repr

/-- `DEFL.phase` (R30). -/
inductive DPhase
  | collect | blkHeader | blkSymbols | trailer
  deriving DecidableEq, Repr

/-- `INFL.stage` (R31), in the order of its numbers. -/
inductive IStage
  | zhdr | dictid | gzMagic | gzCmflg | gzMtime | gzXflos | gzExlen | gzExtra | gzName | gzComment | gzHcrc
  | blockType | storedLen | storedCopy | dynCounts | dynClens | dynLens
  | sym | lit | lenext | dist | distext | mat | trailer | gzIsize | done | bad
  deriving DecidableEq, Repr

/-! ## Memories -/

/-- A byte space in canonical form (R80): the listed bytes, addresses rising, none equal to what an unlisted address
reads as (log 7). -/
abbrev Memory := List Host.Cell

/-- A sparse table of positions (`head`, `prev`; R40, R41): an unlisted index holds `NIL`. -/
abbrev PosTable := List (Nat × Option Nat)

/-- What the engines reach outside themselves: the `IN` and `OUT` spaces (R80), and the counter of free values used
(the MODEL's own, log 8). -/
structure Bus where
  inMem : Memory
  outMem : Memory
  freeCtr : Nat
  deriving DecidableEq, Repr

/-- The six stream parameter registers of an engine (R24). -/
structure StreamRegs where
  nextIn : Word
  availIn : Word
  nextOut : Word
  availOut : Word
  totalIn : DWord
  totalOut : DWord
  deriving DecidableEq, Repr

/-! ## `DEFL` (R35 to R48) -/

/-- The deferred match (R42). -/
structure Deferred where
  valid : Bool
  len : Nat
  dist : Nat
  deriving DecidableEq, Repr

/-- The planned block (R44). -/
structure Blk where
  final : Bool
  typ : BlockType
  toks : List Token
  raw : List Byte
  llLens : Lens
  dLens : Lens
  hlit : Nat
  hdist : Nat
  rl : List (Nat × Nat)
  clLens : Lens
  hclen : Nat
  deriving DecidableEq, Repr

/-- The compressor engine. `data_end` (R33, R38) is the length of `data`. -/
structure Defl where
  config : Word
  ec : Status
  regs : StreamRegs
  configured : Bool
  sticky : Status
  level : Nat
  wbits : Nat
  mem : Nat
  strategy : Strategy
  wrap : Wrap
  stage : DStage
  phase : DPhase
  finishing : Bool
  sat : Nat
  data : List Byte
  pos : Nat
  emitPos : Nat
  blockStart : Nat
  histBase : Nat
  nextIns : Nat
  head : PosTable
  prev : PosTable
  deferred : Deferred
  syms : List Token
  blk : Blk
  bitBuf : Nat
  bitCnt : Nat
  pending : List Byte
  check : Word
  isize : Word
  deriving DecidableEq, Repr

/-! ## `INFL` (R50 to R58) -/

/-- The decompressor engine. `whave` (R52) is `min(produced, WSIZE)`; a decode table is its length vector (R441). -/
structure Infl where
  config : Word
  ec : Status
  regs : StreamRegs
  configured : Bool
  sticky : Status
  wbits : Nat
  wrap : Wrap
  stage : IStage
  last : Bool
  fresh : Bool
  hold : Nat
  cnt : Nat
  win : Memory
  produced : Nat
  check : Word
  isize : Word
  gzflags : Byte
  xlen : Nat
  hcrc : Word
  dictid : Word
  nlen : Nat
  ndist : Nat
  ncode : Nat
  nhave : Nat
  cl : Lens
  lens : Lens
  clt : Lens
  ll : Lens
  dt : Lens
  lit : Byte
  lsym : Nat
  length : Nat
  dsym : Nat
  dist : Nat
  remaining : Nat
  deriving DecidableEq, Repr

/-! ## `CKS` (R23, R60) -/

/-- The standalone checksum port. -/
structure Cks where
  ec : Status
  nextIn : Word
  availIn : Word
  adler : Word
  crc : Word
  deriving DecidableEq, Repr

/-! ## The host's side -/

/-- What the host asks of the block, one request a step (log 1): register accesses (R21, R535), accesses to its own
buffers (R80, log 19), the hardware reset event (R600), and, so that every row of the opcode table runs as an
instruction, a unit operation by selector (log 4) or a stream element in a known format (log 5). -/
inductive Request
  | writeReg (off : BitVec 12) (v : Word)
  | readReg (off : BitVec 12)
  | storeIn (a : Word) (b : Byte)
  | loadOut (a : Word)
  | hwReset
  | unitOp (bytes : List Byte)
  | element (fmt : Fmt) (bytes : List Byte)
  deriving DecidableEq, Repr

/-- What the last unit operation yielded (R129, log 4). -/
inductive Yield
  | nothing                          -- no value
  | value (n : Nat)                  -- a number (`BR.PEEK`, `BR.GET`, `ADLER.STEP`, `CRC.STEP`)
  | pair (a b : Nat)                 -- `LZ.FIND` (len, dist); `HD.DECODE` (symbol, code length)
  | costs (dynBits fixBits : Nat)    -- `HB.PLAN`
  | numbers (l : List Nat)           -- `HB.BUILD`, `HB.CANON`; the table of `HD.BUILD` as its length vector
  | pairs (l : List (Nat × Nat))     -- `HB.RLE`
  | raised (e : Status)              -- `HD.BUILD` raised an error instead of yielding a table (R442)
  | invalid                          -- `HD.DECODE` found no code
  | suspended                        -- more input is needed (R213)
  deriving DecidableEq, Repr

/-- The whole state. -/
structure State where
  defl : Defl
  infl : Infl
  cks : Cks
  bus : Bus
  params : Params
  queue : List Request
  readData : Word
  result : Yield
  deriving DecidableEq, Repr

/-! ## Stops -/

/-- The ways the model stops with a fault. -/
inductive Fault
  /-- Raised by a unit operation whose operand is outside the range its rule states; the spec defines no effect there
  (R203, R215, R216, R333, U16). Safe. Log 23. -/
  | operandRange
  /-- Raised by a `WRITE` whose work loop passed its bound; R414 and R516 say that a `WRITE` always ends, and
  Sys2Proof/Laws/ proves it of this model. Safe. Log 12. -/
  | workBound
  deriving DecidableEq, Repr

/-- The ways the model gives an instruction no meaning. -/
inductive Refusal
  /-- Raised by `exec` for an instruction with no meaning yet. Safe. -/
  | notModelled (mnemonic : String)
  deriving DecidableEq, Repr

/-! ## Reset (R70, left column; R600) -/

/-- All six stream parameter registers 0 (R70). -/
def StreamRegs.reset : StreamRegs := ⟨0, 0, 0, 0, 0, 0⟩

/-- An empty planned block: `blk` is unspecified in R70 (log 9). -/
def Blk.reset : Blk := ⟨false, .stored, [], [], [], [], 0, 0, [], [], 0⟩

/-- `DEFL` after hardware reset (R70); the latched configuration, `head`, `prev` and `blk` are unspecified there and
named by log 9. -/
def Defl.reset : Defl :=
  { config := 0, ec := .ok, regs := .reset, configured := false, sticky := .ok
    level := 6, wbits := 15, mem := 8, strategy := .normal, wrap := .none
    stage := .init, phase := .collect, finishing := false, sat := 0
    data := [], pos := 0, emitPos := 0, blockStart := 0, histBase := 0, nextIns := 0
    head := [], prev := [], deferred := ⟨false, 0, 0⟩, syms := [], blk := .reset
    bitBuf := 0, bitCnt := 0, pending := [], check := 0, isize := 0 }

/-- `INFL` after hardware reset (R70); the latched configuration, `win`, the tables and the symbol registers are
unspecified there and named by log 9. -/
def Infl.reset : Infl :=
  { config := 0, ec := .ok, regs := .reset, configured := false, sticky := .ok, wbits := 15, wrap := .none
    stage := .bad, last := false, fresh := false, hold := 0, cnt := 0, win := [], produced := 0, check := 0, isize := 0
    gzflags := 0, xlen := 0, hcrc := 0, dictid := 0, nlen := 0, ndist := 0, ncode := 0, nhave := 0, cl := [], lens := []
    clt := [], ll := [], dt := [], lit := 0, lsym := 0, length := 0, dsym := 0, dist := 0, remaining := 0 }

/-- `CKS` after hardware reset: the seeds 1 and 0, the registers 0 (R70, R600). -/
def Cks.reset : Cks := ⟨.ok, 0, 0, 1, 0⟩

/-- The block right after a hardware reset, with no request pending, both memory spaces with nothing listed (log 7) and
the default parameters (R12, log 10). -/
def State.reset : State :=
  { defl := .reset, infl := .reset, cks := .reset, bus := ⟨[], [], 0⟩, params := defaultParams
    queue := [], readData := 0, result := .nothing }

end Sys2Proof.Machine
end

