-- ==== Sys2Proof/Machine/Ops.lean ====
section
/-! DEFINITION. The shared operations over memories, cursors and status: sparse tables in canonical form, the one load
and the one store form (R15, R530), raising an error (R16, R463, R552), refusing a command (R553), ending a command
with a status code (R540). -/

namespace Sys2Proof.Machine

/-! ## Sparse tables in canonical form -/

/-- The value at an index; an unlisted index holds `d`. -/
def sparseGet {α : Type} (d : α) : List (Nat × α) → Nat → α
  | [], _ => d
  | (k, v) :: m, i => if i = k then v else sparseGet d m i

/-- `v :: m` unless `v` is what an unlisted index holds. -/
def sparseCons {α : Type} [DecidableEq α] (d : α) (i : Nat) (v : α) (m : List (Nat × α)) : List (Nat × α) :=
  if v = d then m else (i, v) :: m

/-- Write, keeping the list sorted and free of entries equal to `d`. -/
def sparseSet {α : Type} [DecidableEq α] (d : α) : List (Nat × α) → Nat → α → List (Nat × α)
  | [], i, v => sparseCons d i v []
  | (k, w) :: m, i, v =>
    if i < k then sparseCons d i v ((k, w) :: m)
    else if i = k then sparseCons d i v m
    else (k, w) :: sparseSet d m i v

/-- The canonical form: indices strictly rising, no entry equal to `d`. -/
abbrev sparseWf {α : Type} [DecidableEq α] (d : α) (m : List (Nat × α)) : Prop :=
  m.Pairwise (fun a b => a.1 < b.1) ∧ ∀ e ∈ m, e.2 ≠ d

/-! ## Byte spaces (R80, R96) -/

/-- What an unlisted byte of `IN`, `OUT` or the window reads as. DESIGN CHOICE, unsafe. Log 7. -/
def unlistedByte : Byte := 0

/-- `MemRead(_, a, 1)` (R15). -/
def memRead (m : Memory) (a : Nat) : Byte := sparseGet unlistedByte m a

/-- `MemWrite(_, a, 1, v)` (R15). -/
def memWrite (m : Memory) (a : Nat) (v : Byte) : Memory := sparseSet unlistedByte m a v

/-- A space that holds the given bytes from address 0 on, and nothing else. -/
def memOf (bs : List Byte) : Memory := bs.zipIdx.foldl (fun m x => memWrite m x.2 x.1) []

/-- The canonical form of a memory. -/
abbrev Memory.wf (m : Memory) : Prop := sparseWf unlistedByte m

/-! ## Cursors: `in_byte` and `out_byte` (R15, R530) -/

/-- The last address of a space. -/
def topAddr : Word := 0xFFFFFFFF

/-- `NEXT + 1`; after the last address the spec states no value: a free one. DESIGN CHOICE, safe. Log 8. -/
def cursorNext (ctr : Nat) (a : Word) : Word := if a = topAddr then Config.freeAddr ctr else a + 1

/-- The counter of free values, advanced when one is used. -/
def tickFree (a : Word) (b : Bus) : Bus := if a = topAddr then { b with freeCtr := b.freeCtr + 1 } else b

/-- The byte `in_byte` yields. -/
def inByteVal (r : StreamRegs) (b : Bus) : Byte := memRead b.inMem r.nextIn.toNat

/-- The registers after `in_byte` (R15); called only with `AVAIL_IN > 0`. -/
def inByteRegs (r : StreamRegs) (b : Bus) : StreamRegs :=
  { r with nextIn := cursorNext b.freeCtr r.nextIn, availIn := r.availIn - 1, totalIn := r.totalIn + 1 }

/-- The bus after `in_byte`: `IN` is only read. -/
def inByteBus (r : StreamRegs) (b : Bus) : Bus := tickFree r.nextIn b

/-- The registers after `out_byte` (R15); called only with `AVAIL_OUT > 0`. -/
def outByteRegs (r : StreamRegs) (b : Bus) : StreamRegs :=
  { r with nextOut := cursorNext b.freeCtr r.nextOut, availOut := r.availOut - 1, totalOut := r.totalOut + 1 }

/-- The bus after `out_byte(E, v)`: one byte of `OUT` stored. -/
def outByteBus (r : StreamRegs) (b : Bus) (v : Byte) : Bus :=
  tickFree r.nextOut { b with outMem := memWrite b.outMem r.nextOut.toNat v }

/-- The region check (R99, R557): the sums are taken in the naturals. -/
def regionOk (r : StreamRegs) : Bool :=
  decide (r.nextIn.toNat + r.availIn.toNat ≤ 2 ^ 32 ∧ r.nextOut.toNat + r.availOut.toNat ≤ 2 ^ 32)

/-! ## Status: the block's exceptions (R540 to R565) -/

/-- `raise E` in `INFL` (R16, R463, R552): the error is recorded, the stage becomes `BAD`, and the command returns `E`.
Nothing else is saved (R543). The way back is `RESET` (R565). -/
def inflRaise (e : Status) (i : Infl) : Infl := { i with sticky := e, stage := .bad, ec := e }

/-- `raise E` in `DEFL` (R16, R380 steps 4 and 5): the error is recorded and returned. -/
def deflRaise (e : Status) (d : Defl) : Defl := { d with sticky := e, ec := e }

/-- A command of `INFL` returns a status code (R540) without recording it; a refusal is the code `stream_error` (R553). -/
def inflReturn (e : Status) (s : State) : State := { s with infl := { s.infl with ec := e } }

/-- A command of `DEFL` returns a status code (R540) without recording it; a refusal is the code `stream_error` (R553). -/
def deflReturn (e : Status) (s : State) : State := { s with defl := { s.defl with ec := e } }

/-- A command of `CKS` returns a status code (R540). -/
def cksReturn (e : Status) (s : State) : State := { s with cks := { s.cks with ec := e } }

/-! ## Outcomes -/

/-- The outcome type of the machine. -/
abbrev Result := Host.Outcome State Fault Refusal

/-- A unit operation ends, yielding `y` (R129, log 4). -/
def yielding (y : Yield) (s : State) : Result := .next { s with result := y }

/-- A unit operation is performed where its stated operand range holds (R203, R215, R216, R333; log 23). -/
def inRange (c : Prop) [Decidable c] (r : Result) : Result := if c then r else .fault .operandRange

end Sys2Proof.Machine
end

