-- ==== Sys2Proof/Machine/Operands.lean ====
section
/-! DEFINITION. The implicit operands of the commands: the fields of `CONFIG` (R27), their legality (R378, R461), and the
operands a match is assembled from and taken apart into (R145, R346). -/

namespace Sys2Proof.Machine

/-! ## `CONFIG` (R27) -/

def cfgLevel (c : Word) : Nat := field 0 4 c.toNat
def cfgWindowBits (c : Word) : Nat := field 4 4 c.toNat
def cfgMemLevel (c : Word) : Nat := field 8 4 c.toNat
def cfgStrategy (c : Word) : Nat := field 12 3 c.toNat
def cfgWrap (c : Word) : Nat := field 16 2 c.toNat

/-- Bit 15 and bits 31:18, which must be 0 (R27). -/
def cfgReserved (c : Word) : Nat := field 15 1 c.toNat + field 18 14 c.toNat

/-- `strategy` by number (R27). -/
def strategyOf : Nat → Option Strategy
  | 0 => some .normal
  | 1 => some .filtered
  | 2 => some .huffman
  | 3 => some .rle
  | 4 => some .fixed
  | _ => none

/-- `wrap` by number (R27). -/
def wrapOf : Nat → Option Wrap
  | 0 => some .none
  | 1 => some .zlib
  | 2 => some .gzip
  | _ => none

/-- The legality test of `DEFL.RESET` (R378). -/
def deflLegal (c : Word) : Bool :=
  decide (cfgLevel c ≤ 9 ∨ cfgLevel c = 15) && decide (9 ≤ cfgWindowBits c) &&
    decide (1 ≤ cfgMemLevel c ∧ cfgMemLevel c ≤ 9) && (strategyOf (cfgStrategy c)).isSome &&
    (wrapOf (cfgWrap c)).isSome && decide (cfgReserved c = 0)

/-- The legality test of `INFL.RESET` (R461): `LEVEL`, `MEM_LEVEL` and `STRATEGY` are ignored. -/
def inflLegal (c : Word) : Bool :=
  decide (9 ≤ cfgWindowBits c) && (wrapOf (cfgWrap c)).isSome && decide (cfgReserved c = 0)

/-! ## The operands of a match (R145, R346) -/

/-- The largest index below `n` of a rising list whose entry is at most `v`; 0 if there is none. -/
def largestLe (base : List Nat) (v : Nat) : Nat → Nat
  | 0 => 0
  | n + 1 => if base.getD n 0 ≤ v then n else largestLe base v n

/-- `lsym(len)` (R346): 28 for length 258, else the largest i in 0..27 with `LEN_BASE[i] ≤ len`. -/
def lsymOf (len : Nat) : Nat := if len = 258 then 28 else largestLe lenBase len 28

/-- `dsym(dist)` (R346): the largest i in 0..29 with `DIST_BASE[i] ≤ dist`. -/
def dsymOf (dist : Nat) : Nat := largestLe distBase dist 30

/-- The number of a strategy (R27). -/
def strategyNum : Strategy → Nat
  | .normal => 0
  | .filtered => 1
  | .huffman => 2
  | .rle => 3
  | .fixed => 4

/-- The number of a block type, the value of `BTYPE` (R44, R131). -/
def blockTypeNum : BlockType → Nat
  | .stored => 0
  | .fixed => 1
  | .dynamic => 2

/-- The rank of a flush (R403). -/
def flushRank : Flush → Nat
  | .none => 0
  | .block => 1
  | .part => 2
  | .trees => 3
  | .sync => 4
  | .full => 5
  | .finish => 6

end Sys2Proof.Machine
end

