-- ==== Sys2Proof/Machine/Flags.lean ====
section
/-! DEFINITION. The status flags and the words they are read in: the numbers of the status codes (R541) and of the stages
and phases (R30, R31), and the `STATUS` registers (R26, R23). -/

namespace Sys2Proof.Machine

/-- The number of a status code (R541). -/
def Status.code : Status → Nat
  | .ok => 0
  | .needBuffers => 1
  | .endOfStream => 2
  | .needDict => 3
  | .streamError => 4
  | .invalidBlockType => 5
  | .invalidStoredLength => 6
  | .tooManySymbols => 7
  | .invalidCodeLengths => 8
  | .invalidBitLengthRepeat => 9
  | .missingEob => 10
  | .invalidLiteralLength => 11
  | .invalidDistanceCode => 12
  | .invalidDistance => 13
  | .incorrectHeaderCheck => 14
  | .incorrectDataCheck => 15
  | .incorrectLengthCheck => 16
  | .unknownCompressionMethod => 17
  | .invalidWindowSize => 18
  | .headerCrcMismatch => 19
  | .unknownHeaderFlags => 20
  | .overSubscribedLength => 21
  | .incompleteLengthSet => 22
  | .general => 23

/-- The number of a `DEFL` stage (R30). -/
def DStage.num : DStage → Nat
  | .init => 0
  | .body => 1
  | .flushPending => 2
  | .done => 3

/-- The number of a `DEFL` phase (R30). -/
def DPhase.num : DPhase → Nat
  | .collect => 0
  | .blkHeader => 1
  | .blkSymbols => 2
  | .trailer => 3

/-- The number of an `INFL` stage (R31). -/
def IStage.num : IStage → Nat
  | .zhdr => 0
  | .dictid => 1
  | .gzMagic => 2
  | .gzCmflg => 3
  | .gzMtime => 4
  | .gzXflos => 5
  | .gzExlen => 6
  | .gzExtra => 7
  | .gzName => 8
  | .gzComment => 9
  | .gzHcrc => 10
  | .blockType => 11
  | .storedLen => 12
  | .storedCopy => 13
  | .dynCounts => 14
  | .dynClens => 15
  | .dynLens => 16
  | .sym => 17
  | .lit => 18
  | .lenext => 19
  | .dist => 20
  | .distext => 21
  | .mat => 22
  | .trailer => 23
  | .gzIsize => 24
  | .done => 25
  | .bad => 26

/-- A `STATUS` word from its fields (R26): `EC`, `STAGE`, `FLAG`, `STICKY`, `CONFIGURED`, `PHASE`. -/
def statusWord (ec stage : Nat) (flag sticky configured : Bool) (phase : Nat) : Word :=
  BitVec.ofNat 32 (ec + 256 * stage + 8192 * flag.toNat + 16384 * sticky.toNat + 32768 * configured.toNat + 65536 * phase)

/-- `DEFL.STATUS` (R26): `FLAG` is `finishing`. -/
def deflStatus (d : Defl) : Word :=
  statusWord d.ec.code d.stage.num d.finishing (d.sticky != .ok) d.configured d.phase.num

/-- `INFL.STATUS` (R26): `FLAG` is `last`, `PHASE` is 0. -/
def inflStatus (i : Infl) : Word := statusWord i.ec.code i.stage.num i.last (i.sticky != .ok) i.configured 0

/-- `CKS_STATUS` (R23): the code alone. -/
def cksStatus (c : Cks) : Word := BitVec.ofNat 32 c.ec.code

end Sys2Proof.Machine
end

