-- ==== Sys2Proof/Machine/Checksum.lean ====
section
/-! DEFINITION. The checksum units (41_checksums.md): `ADLER.STEP`, `CRC.STEP`, their folds, the checksum an engine runs
(R240), and the two updates of the `CKS` port (R241, R242). -/

namespace Sys2Proof.Machine

/-- `ADLER.STEP a, b` (R232). -/
def adlerStep (a : Word) (b : Byte) : Word :=
  let s1 := (a.toNat % 65536 + b.toNat) % adlerBase
  let s2 := (a.toNat / 65536 + s1) % adlerBase
  BitVec.ofNat 32 (s2 * 65536 + s1)

/-- `adler32(a, s)` (R233). -/
def adler32 (a : Word) (s : List Byte) : Word := s.foldl adlerStep a

/-- `k` of the 8 conditional shift steps that make an entry of `CRC_TAB` (R238). -/
def crcShift : Nat → Word → Word
  | 0, c => c
  | k + 1, c => crcShift k (if c.getLsbD 0 then (c >>> 1) ^^^ 0xEDB88320 else c >>> 1)

/-- `CRC_TAB[n]` (R238). -/
def crcTab (n : Nat) : Word := crcShift 8 (BitVec.ofNat 32 n)

/-- `CRC.STEP c, b` (R237). -/
def crcStep (c : Word) (b : Byte) : Word :=
  let r := c ^^^ 0xFFFFFFFF
  (crcTab ((r.toNat ^^^ b.toNat) % 256) ^^^ (r >>> 8)) ^^^ 0xFFFFFFFF

/-- `crc32(c, s)` (R239). -/
def crc32 (c : Word) (s : List Byte) : Word := s.foldl crcStep c

/-- The step of the checksum `wrap` selects (R240, R388, R468): none for a raw stream. -/
def checkStep (w : Wrap) (c : Word) (b : Byte) : Word :=
  match w with
  | .none => c
  | .zlib => adlerStep c b
  | .gzip => crcStep c b

/-- The value `check` starts from (R70, R240): 1 for zlib, 0 otherwise. -/
def checkInit (w : Wrap) : Word := if w = .zlib then 1 else 0

/-- The loop of R241 and R242: `n` bytes at `CKS_NEXT_IN`, each stepped by `f` into the value `g` selects. -/
def cksLoop (step : Cks → Byte → Cks) : Nat → Cks × Bus → Cks × Bus
  | 0, x => x
  | n + 1, (c, b) =>
    cksLoop step n
      (step { c with nextIn := cursorNext b.freeCtr c.nextIn, availIn := c.availIn - 1 } (memRead b.inMem c.nextIn.toNat),
        tickFree c.nextIn b)

/-- A `CKS` update (R241, R242): the region check, then the whole run. -/
def cksUpdate (step : Cks → Byte → Cks) (s : State) : Result :=
  if s.cks.nextIn.toNat + s.cks.availIn.toNat > 2 ^ 32 then .next (cksReturn .streamError s)
  else
    let x := cksLoop step s.cks.availIn.toNat (s.cks, s.bus)
    .next { s with cks := { x.1 with ec := .ok }, bus := x.2 }

/-- `CKS.ADLER_UPDATE` (R241). -/
def execCksAdlerUpdate (s : State) : Result := cksUpdate (fun c b => { c with adler := adlerStep c.adler b }) s

/-- `CKS.CRC_UPDATE` (R242). -/
def execCksCrcUpdate (s : State) : Result := cksUpdate (fun c b => { c with crc := crcStep c.crc b }) s

/-- `ADLER.STEP a, b` as a unit operation (R232). -/
def execAdlerStep (a : Word) (b : Byte) (s : State) : Result := yielding (.value (adlerStep a b).toNat) s

/-- `CRC.STEP c, b` as a unit operation (R237). -/
def execCrcStep (c : Word) (b : Byte) (s : State) : Result := yielding (.value (crcStep c b).toNat) s

end Sys2Proof.Machine
end

