-- ==== Sys2Proof/Machine/BitIO.lean ====
section
/-! DEFINITION. Bit I/O (40_bit_io.md): the bit writer `BW` of `DEFL`, the bit reader `BR` of `INFL`, and their unit
operations. Requested on its own, a unit operation makes none of the checks of a `WRITE` (R380, R462): it runs in every state
of its engine (DESIGN CHOICE, log 4). -/

namespace Sys2Proof.Machine

/-- `DEFL` and what it reaches (R531). -/
structure DeflCtx where
  d : Defl
  bus : Bus
  deriving DecidableEq, Repr

/-- `INFL` and what it reaches (R531). -/
structure InflCtx where
  e : Infl
  bus : Bus
  deriving DecidableEq, Repr

/-! ## The bit writer -/

/-- `BW.PUT v, n` (R203): whole bytes of the accumulator go to `pending`, the rest stays. -/
def bwPut (v n : Nat) (d : Defl) : Defl :=
  let acc := d.bitBuf + v * 2 ^ d.bitCnt
  let k := d.bitCnt + n
  { d with pending := d.pending ++ leBytes (k / 8) acc, bitBuf := acc / 2 ^ (8 * (k / 8)), bitCnt := k % 8 }

/-- `rev(c, n)` (R13): the `n`-bit value whose bit i is bit n-1-i of `c`. -/
def revBits : Nat → Nat → Nat
  | 0, _ => 0
  | n + 1, c => c % 2 * 2 ^ n + revBits n (c / 2)

/-- `BW.PUTCODE c, n` (R204): most significant code bit first. -/
def bwPutcode (c n : Nat) (d : Defl) : Defl := bwPut (revBits n c) n d

/-- `BW.ALIGN` (R205): the partial byte is completed with zero bits. -/
def bwAlign (d : Defl) : Defl :=
  if 0 < d.bitCnt then { d with pending := d.pending ++ [BitVec.ofNat 8 d.bitBuf], bitBuf := 0, bitCnt := 0 } else d

/-- The loop of `BW.TAKE` (R206) over the queue: bytes leave in order while there is output space. -/
def bwTakeLoop : List Byte → DeflCtx → DeflCtx
  | [], c => { c with d := { c.d with pending := [] } }
  | v :: q, c =>
    if c.d.regs.availOut = 0 then { c with d := { c.d with pending := v :: q } }
    else bwTakeLoop q { d := { c.d with regs := outByteRegs c.d.regs c.bus }, bus := outByteBus c.d.regs c.bus v }

/-- `BW.TAKE` (R206). -/
def bwTake (c : DeflCtx) : DeflCtx := bwTakeLoop c.d.pending c

/-! ## The bit reader -/

/-- The stages in which a fetched byte steps `hcrc` (R213, R275). -/
def headerCrcStage : IStage → Bool
  | .gzMagic | .gzCmflg | .gzMtime | .gzXflos | .gzExlen | .gzExtra | .gzName | .gzComment => true
  | _ => false

/-- One round of `BR.NEED` (R213): fetch a byte on top of the accumulator. -/
def brFetch (c : InflCtx) : InflCtx :=
  let b := inByteVal c.e.regs c.bus
  { e := { c.e with
            regs := inByteRegs c.e.regs c.bus
            hcrc := if headerCrcStage c.e.stage then crcStep c.e.hcrc b else c.e.hcrc
            hold := c.e.hold + b.toNat * 2 ^ c.e.cnt
            cnt := c.e.cnt + 8 }
    bus := inByteBus c.e.regs c.bus }

/-- The loop of `BR.NEED` (R213), at most `k` rounds; false when it suspended. -/
def brNeedLoop : Nat → Nat → InflCtx → Bool × InflCtx
  | 0, n, c => (decide (n ≤ c.e.cnt), c)
  | k + 1, n, c =>
    if n ≤ c.e.cnt then (true, c)
    else if c.e.regs.availIn = 0 then (false, c)
    else brNeedLoop k n (brFetch c)

/-- `BR.NEED n` (R213): a byte brings 8 bits, so `n` rounds are more than enough. -/
def brNeed (n : Nat) (c : InflCtx) : Bool × InflCtx := brNeedLoop n n c

/-- `BR.PEEK2 k, n` (R215); `BR.PEEK n` is `k = 0`. -/
def brPeek2 (k n : Nat) (i : Infl) : Nat := i.hold / 2 ^ k % 2 ^ n

/-- `BR.PEEK n` (R215). -/
def brPeek (n : Nat) (i : Infl) : Nat := i.hold % 2 ^ n

/-- `BR.DROP n` (R216). -/
def brDrop (n : Nat) (i : Infl) : Infl := { i with hold := i.hold / 2 ^ n, cnt := i.cnt - n }

/-- `BR.ALIGN` (R218). -/
def brAlign (i : Infl) : Infl := brDrop (i.cnt % 8) i

/-! ## Unit operations on the whole state -/

/-- Run an operation of `DEFL` on the state. -/
def onDefl (g : DeflCtx → DeflCtx) (s : State) : State :=
  let c := g ⟨s.defl, s.bus⟩
  { s with defl := c.d, bus := c.bus }

/-- Put an `INFL` context back into the state. -/
def withInfl (c : InflCtx) (s : State) : State := { s with infl := c.e, bus := c.bus }

/-- `BW.PUT v, n` (R203): `n ≤ 32` and `v < 2^n`; "the operation is not defined otherwise". -/
def execBwPut (v : Word) (n : Nat) (s : State) : Result :=
  inRange (n ≤ 32 ∧ v.toNat < 2 ^ n) (yielding .nothing { s with defl := bwPut v.toNat n s.defl })

/-- `BW.PUTCODE c, n` (R204): `n ∈ 1..15` and `c < 2^n`. -/
def execBwPutcode (c : Word) (n : Nat) (s : State) : Result :=
  inRange (1 ≤ n ∧ n ≤ 15 ∧ c.toNat < 2 ^ n) (yielding .nothing { s with defl := bwPutcode c.toNat n s.defl })

/-- `BW.ALIGN` (R205). -/
def execBwAlign (s : State) : Result := yielding .nothing { s with defl := bwAlign s.defl }

/-- `BW.TAKE` (R206). On its own it makes no region check (R99) and runs in every state of `DEFL`, unconfigured, in error and
at the end too (DESIGN CHOICE, log 4). -/
def execBwTake (s : State) : Result := yielding .nothing (onDefl bwTake s)

/-- `BR.NEED n` (R213): `n ∈ 0..32`; suspends when the input is exhausted. On its own it makes no region check (R99) and runs
in every state of `INFL`, unconfigured, in error and at the end too, where it takes bytes that no `WRITE` takes (R214,
R565; DESIGN CHOICE, log 4). Elsewhere the bytes it leaves in `hold` stay there for a later `WRITE`, so that `cnt` can pass
7 after a micro-step (R214 (a)) and 0 at the end (R214 (b)). -/
def execBrNeed (n : Nat) (s : State) : Result :=
  inRange (n ≤ 32)
    (let r := brNeed n ⟨s.infl, s.bus⟩
     yielding (if r.1 then .nothing else .suspended) (withInfl r.2 s))

/-- `BR.PEEK n` (k = 0) and `BR.PEEK2 k, n` (R215): `k + n ≤ cnt`. -/
def execBrPeek (k n : Nat) (s : State) : Result :=
  inRange (k + n ≤ s.infl.cnt) (yielding (.value (brPeek2 k n s.infl)) s)

/-- `BR.DROP n` (R216): `n ≤ cnt`. -/
def execBrDrop (n : Nat) (s : State) : Result :=
  inRange (n ≤ s.infl.cnt) (yielding .nothing { s with infl := brDrop n s.infl })

/-- `BR.GET n` (R217): `n ∈ 0..32`; if `NEED` suspends, nothing is dropped. On its own it runs where
`BR.NEED` does (DESIGN CHOICE, log 4). -/
def execBrGet (n : Nat) (s : State) : Result :=
  inRange (n ≤ 32)
    (let r := brNeed n ⟨s.infl, s.bus⟩
     if r.1 then yielding (.value (brPeek n r.2.e)) (withInfl { r.2 with e := brDrop n r.2.e } s)
     else yielding .suspended (withInfl r.2 s))

/-- `BR.ALIGN` (R218). -/
def execBrAlign (s : State) : Result := yielding .nothing { s with infl := brAlign s.infl }

end Sys2Proof.Machine
end

