-- ==== Sys2Proof/Machine/Header.lean ====
section
/-! DEFINITION. The header codec `HDR` (42_header_codec.md): the encode operations of `DEFL` and the decode-side checks
of `INFL` (R269, R272). -/

namespace Sys2Proof.Machine

/-! ## Encode -/

/-- `FLEVEL` (R255): the first condition that holds. -/
def flevel (strategy : Strategy) (level : Nat) : Nat :=
  if strategy = .huffman ∨ strategy = .rle ∨ strategy = .fixed ∨ level < 2 then 0
  else if level < 6 then 1
  else if level = 6 then 2
  else 3

/-- `CMF` of the zlib header (R255, R256). -/
def zencCmf (wbits : Nat) : Nat := 8 + 16 * (wbits - 8)

/-- `FLG` of the zlib header (R256): `FCHECK` completes the multiple of 31. -/
def zencFlg (wbits fl : Nat) : Nat := fl * 64 + (31 - (zencCmf wbits * 256 + fl * 64) % 31)

/-- `HDR.ZENC` (R256). -/
def hdrZenc (d : Defl) : Defl :=
  { d with pending := d.pending ++
      [BitVec.ofNat 8 (zencCmf d.wbits), BitVec.ofNat 8 (zencFlg d.wbits (flevel d.strategy d.level))] }

/-- The default `XFL` (R260). -/
def xflOf (strategy : Strategy) (level : Nat) : Byte :=
  if level = 9 then 2
  else if strategy = .huffman ∨ strategy = .rle ∨ strategy = .fixed ∨ level < 2 then 4
  else 0

/-- The `FLG` byte of the gzip header (R262). -/
def gzFlg (g : GzHdr) : Nat :=
  g.text.toNat + 2 * g.hcrc.toNat + 4 * g.extra.isSome.toNat + 8 * g.name.isSome.toNat + 16 * g.comment.isSome.toNat

/-- The gzip header before its CRC16 (R262). A `GZ_HDR` outside the type R262 gives it is written out as it stands, its `XLEN`
modulo 65536 (DESIGN CHOICE, log 10). -/
def gzFixed (g : GzHdr) (strategy : Strategy) (level : Nat) : List Byte :=
  [0x1F, 0x8B, 8, BitVec.ofNat 8 (gzFlg g)] ++ leBytes 4 g.mtime.toNat ++ [g.xfl.getD (xflOf strategy level), g.os] ++
    (match g.extra with | some x => leBytes 2 x.length ++ x | none => []) ++
    (match g.name with | some x => x ++ [0] | none => []) ++
    (match g.comment with | some x => x ++ [0] | none => [])

/-- The whole gzip header (R262). -/
def gzHeader (g : GzHdr) (strategy : Strategy) (level : Nat) : List Byte :=
  let h := gzFixed g strategy level
  if g.hcrc then h ++ leBytes 2 ((crc32 0 h).toNat % 65536) else h

/-- `HDR.GZENC` (R262). -/
def hdrGzenc (p : Params) (d : Defl) : Defl := { d with pending := d.pending ++ gzHeader p.gzHdr d.strategy d.level }

/-- The bytes of `HDR.TRAILER` (R265). -/
def trailerBytes (w : Wrap) (check isize : Word) : List Byte :=
  match w with
  | .none => []
  | .zlib => beBytes 4 check.toNat
  | .gzip => leBytes 4 check.toNat ++ leBytes 4 isize.toNat

/-- `HDR.TRAILER` (R265). -/
def hdrTrailer (d : Defl) : Defl := { d with pending := d.pending ++ trailerBytes d.wrap d.check d.isize }

/-! ## Decode-side checks -/

/-- `zhdr_check(cmf, flg, wbits)` (R269): the first test that fails decides. -/
def zhdrCheck (cmf flg : Byte) (wbits : Nat) : Option Status :=
  if (cmf.toNat * 256 + flg.toNat) % 31 ≠ 0 then some .incorrectHeaderCheck
  else if cmf.toNat % 16 ≠ 8 then some .unknownCompressionMethod
  else if wbits < cmf.toNat / 16 + 8 then some .invalidWindowSize
  else none

/-- The gzip method and flag tests (R272). -/
def gzCmflgCheck (cm flg : Byte) : Option Status :=
  if cm ≠ 8 then some .unknownCompressionMethod
  else if flg.toNat / 32 ≠ 0 then some .unknownHeaderFlags
  else none

/-! ## Unit operations -/

/-- `HDR.ZENC` (R256). -/
def execHdrZenc (s : State) : Result := yielding .nothing { s with defl := hdrZenc s.defl }

/-- `HDR.GZENC` (R262), with the open parameter `GZ_HDR`. -/
def execHdrGzenc (s : State) : Result := yielding .nothing { s with defl := hdrGzenc s.params s.defl }

/-- `HDR.TRAILER` (R265). -/
def execHdrTrailer (s : State) : Result := yielding .nothing { s with defl := hdrTrailer s.defl }

end Sys2Proof.Machine
end

