-- ==== Sys2Proof/Machine/Matcher.lean ====
section
/-! DEFINITION. The LZ77 matcher `LZ` (43_lz77_matcher.md): the hash chains, the longest-match search, and the tokeniser
step in its three modes. -/

namespace Sys2Proof.Machine

/-! ## The source buffer and the hash chains -/

/-- `data_end` (R33, R38). -/
def dataEnd (d : Defl) : Nat := d.data.length

/-- `data[q]` (R38). -/
def srcByte (d : Defl) (q : Nat) : Nat := (d.data.getD q 0).toNat

/-- `hash(q)` (R292). -/
def hash (d : Defl) (q : Nat) : Nat :=
  let s := hashShift d.mem
  ((srcByte d q * 2 ^ (2 * s)) ^^^ (srcByte d (q + 1) * 2 ^ s) ^^^ srcByte d (q + 2)) % 2 ^ hashBits d.mem

/-- `head[h]` (R40). -/
def headAt (d : Defl) (h : Nat) : Option Nat := sparseGet none d.head h

/-- `prev[q]`, stored at index `q mod WSIZE` (R41). -/
def prevAt (d : Defl) (q : Nat) : Option Nat := sparseGet none d.prev (q % wsize d.wbits)

/-- One round of `LZ.INSERT` (R294): position `q = next_ins` enters its chain. -/
def insertOne (d : Defl) : Defl :=
  let q := d.nextIns
  let h := hash d q
  { d with prev := sparseSet none d.prev (q % wsize d.wbits) (headAt d h), head := sparseSet none d.head h (some q)
           nextIns := q + 1 }

/-- The loop of `LZ.INSERT p` (R294), at most `k` rounds. -/
def lzInsertLoop : Nat → Nat → Defl → Defl
  | 0, _, d => d
  | k + 1, p, d => if d.nextIns ≤ p ∧ d.nextIns + 3 ≤ dataEnd d then lzInsertLoop k p (insertOne d) else d

/-- `LZ.INSERT p` (R294): each round advances `next_ins` by 1 towards `p + 1`. -/
def lzInsert (p : Nat) (d : Defl) : Defl := lzInsertLoop (p + 1 - d.nextIns) p d

/-- `LZ.INSERT p - 1` for a position `p`: nothing for position 0 (R294, R303 to R305). -/
def lzInsertBelow (p : Nat) (d : Defl) : Defl := if p = 0 then d else lzInsert (p - 1) d

/-! ## Searching -/

/-- The number of leading positions at which two byte lists agree, capped. -/
def commonPrefix : Nat → List Byte → List Byte → Nat
  | m + 1, x :: xs, y :: ys => if x = y then commonPrefix m xs ys + 1 else 0
  | _, _, _ => 0

/-- `mlen(c, p, m)` (R296). -/
def mlen (d : Defl) (c p m : Nat) : Nat := commonPrefix m (d.data.drop c) (d.data.drop p)

/-- The candidate loop of `LZ.FIND` (R297): `n` candidates left, the best length and distance so far. -/
def findLoop (d : Defl) (p maxlen nice : Nat) : Nat → Option Nat → Nat × Nat → Nat × Nat
  | n + 1, some cand, best =>
    if wsize d.wbits < p - cand ∨ cand < d.histBase then best
    else
      let l := mlen d cand p maxlen
      if best.1 < l then
        if nice ≤ l ∨ l = maxlen then (l, p - cand)
        else findLoop d p maxlen nice n (prevAt d cand) (l, p - cand)
      else findLoop d p maxlen nice n (prevAt d cand) best
  | _, _, best => best

/-- The drop rules at the end of `LZ.FIND` (R297, R298). -/
def keepMatch (strategy : Strategy) (m : Nat × Nat) : Nat × Nat :=
  if m.1 < 3 then (0, 0)
  else if m.1 = 3 ∧ tooFar < m.2 then (0, 0)
  else if strategy = .filtered ∧ m.1 ≤ 5 then (0, 0)
  else m

/-- `LZ.FIND` by hash chain (R297). -/
def findChain (d : Defl) (p chain nice : Nat) : Nat × Nat :=
  if dataEnd d - p < 3 then (0, 0)
  else keepMatch d.strategy
    (findLoop d p (min maxMatch (dataEnd d - p)) nice chain (headAt d (hash d p)) (2, 0))

/-- The length of the run of one byte at the front of a list, capped. -/
def runLen (b : Byte) : Nat → List Byte → Nat
  | m + 1, x :: xs => if x = b then runLen b m xs + 1 else 0
  | _, _ => 0

/-- `LZ.FIND` for `strategy = rle` (R299): distance 1 only. -/
def findRle (d : Defl) (p : Nat) : Nat × Nat :=
  if dataEnd d - p < 3 ∨ p ≤ d.histBase then (0, 0)
  else
    let l := runLen (d.data.getD (p - 1) 0) (min maxMatch (dataEnd d - p)) (d.data.drop p)
    if 3 ≤ l then (l, 1) else (0, 0)

/-- `LZ.FIND p, chain` (R297, R299): `(len, dist)`, or `(0, 0)` for no match. -/
def lzFind (pr : Params) (p chain : Nat) (d : Defl) : Nat × Nat :=
  if d.strategy = .rle then findRle d p else findChain d p chain (levelRow pr d.level).nice

/-! ## The tokeniser step -/

/-- The positions a token covers (R300). -/
def tokenLen : Token → Nat
  | .lit _ => 1
  | .mat len _ => len

/-- `emit(t)` (R300). -/
def emitToken (t : Token) (d : Defl) : Defl := { d with syms := d.syms ++ [t], emitPos := d.emitPos + tokenLen t }

/-- `emit(LIT data[q])`. -/
def emitLit (q : Nat) (d : Defl) : Defl := emitToken (.lit (d.data.getD q 0)) d

/-- The modes of `LZ.STEP` (R301). -/
inductive StepMode
  | literal | greedy | lazy
  deriving DecidableEq, Repr

/-- Mode selection (R301): the first condition that holds. -/
def stepMode (pr : Params) (d : Defl) : StepMode :=
  if d.level = 0 then .literal
  else if d.strategy = .huffman then .literal
  else if d.strategy = .rle then .greedy
  else if (levelRow pr d.level).mode = .greedy then .greedy
  else .lazy

/-- `LZ.STEP`, literal-only mode (R302). -/
def stepLiteral (d : Defl) : Defl := { emitLit d.pos d with pos := d.pos + 1 }

/-- `LZ.STEP`, greedy mode (R303). Where `LZ.INSERT` on its own has inserted `pos` or later positions, R297's requirement
fails here, and the search runs all the same (DESIGN CHOICE, log 27); so in R304 and R305. -/
def stepGreedy (pr : Params) (d : Defl) : Defl :=
  let p := d.pos
  let d1 := lzInsertBelow p d
  let m := lzFind pr p (levelRow pr d.level).chain d1
  let d2 := lzInsert p d1
  if 3 ≤ m.1 then { emitToken (.mat m.1 m.2) d2 with pos := p + m.1 } else { emitLit p d2 with pos := p + 1 }

/-- `LZ.STEP`, lazy mode, no deferred match (R304). -/
def stepLazyFresh (pr : Params) (d : Defl) : Defl :=
  let p := d.pos
  let d1 := lzInsertBelow p d
  let m := lzFind pr p (levelRow pr d.level).chain d1
  let d2 := lzInsert p d1
  if 3 ≤ m.1 then { d2 with deferred := ⟨true, m.1, m.2⟩, pos := p + 1 } else { emitLit p d2 with pos := p + 1 }

/-- The search of `LZ.STEP` with a deferred match of length `pl` (R305). -/
def lazySearch (pr : Params) (p pl : Nat) (d : Defl) : Nat × Nat :=
  let row := levelRow pr d.level
  if row.lazy ≤ pl then (0, 0) else lzFind pr p (if row.good ≤ pl then row.chain / 4 else row.chain) d

/-- `LZ.STEP`, lazy mode, with a deferred match found at `p - 1` (R305). -/
def stepLazyDeferred (pr : Params) (d : Defl) : Defl :=
  let p := d.pos
  let d1 := lzInsertBelow p d
  let m := lazySearch pr p d.deferred.len d1
  let d2 := lzInsert p d1
  if d.deferred.len < m.1 then { emitLit (p - 1) d2 with deferred := ⟨true, m.1, m.2⟩, pos := p + 1 }
  else
    { emitToken (.mat d.deferred.len d.deferred.dist) d2 with
      deferred := { d.deferred with valid := false }, pos := p - 1 + d.deferred.len }

/-- `LZ.STEP` at the end of the data with a deferred match (R306). -/
def stepAtEnd (d : Defl) : Defl :=
  { emitToken (.mat d.deferred.len d.deferred.dist) d with
    deferred := { d.deferred with valid := false }, pos := d.pos - 1 + d.deferred.len }

/-- `LZ.STEP` (R302 to R306). With no byte ahead the only step is R306's; in a state no rule steps in (no byte ahead and
nothing deferred) it changes nothing (log 17). -/
def lzStep (pr : Params) (d : Defl) : Defl :=
  if d.pos < dataEnd d then
    match stepMode pr d with
    | .literal => stepLiteral d
    | .greedy => stepGreedy pr d
    | .lazy => if d.deferred.valid then stepLazyDeferred pr d else stepLazyFresh pr d
  else if d.deferred.valid then stepAtEnd d
  else d

/-- `emit_pos - block_start` (R389, R398). -/
def blockSpan (d : Defl) : Nat := d.emitPos - d.blockStart

/-- Whether the block is full (R389). R400 names only the bound in bytes for level 0; the bound in tokens holds there too,
as R389, R43 and R10 say (DESIGN CHOICE, log 28). The spec tests for equality; tokens arrive one at a time, so the two agree in
the engine, and with "at least" a block that `LZ.STEP` filled on its own still closes (log 17). -/
def blockFull (d : Defl) : Bool :=
  decide (symCap d.mem - 1 ≤ d.syms.length) ||
    (decide (d.level = 0) && decide (min (wsize d.wbits) storedMax ≤ blockSpan d))

/-- Where `LZ.STEP` is defined: a rule of R302 to R306 applies, and the symbol buffer has room for a token (R43, R389). -/
def canLzStep (d : Defl) : Bool := (decide (d.pos < dataEnd d) || d.deferred.valid) && !blockFull d

/-- `LZ.CLEAR` (R307). -/
def lzClear (d : Defl) : Defl := { d with head := [], histBase := d.pos, nextIns := d.pos }

/-! ## Unit operations -/

/-- `LZ.INSERT p` (R294). On its own it also takes a `p` at or past `pos`, after which R318 (d) does not hold and a step can
find a match of distance 0 (DESIGN CHOICE, log 27). -/
def execLzInsert (p : Nat) (s : State) : Result := yielding .nothing { s with defl := lzInsert p s.defl }

/-- `LZ.FIND p, chain` (R297, R299). Where the positions R297 requires are not the inserted ones, the search runs all the
same, over the chains as they stand (DESIGN CHOICE, log 27). -/
def execLzFind (p chain : Nat) (s : State) : Result :=
  let m := lzFind s.params p chain s.defl
  yielding (.pair m.1 m.2) s

/-- `LZ.STEP` (R302 to R306), where it is defined. On its own it does not ask for `can_step` (R300, R390), nor for the state
of the engine: a byte ahead or a deferred match is enough (DESIGN CHOICE, log 27). -/
def execLzStep (s : State) : Result :=
  inRange (canLzStep s.defl = true) (yielding .nothing { s with defl := lzStep s.params s.defl })

/-- `LZ.CLEAR` (R307). On its own it acts also where R307 does not call it, with a match deferred or tokens in the open
block; the deferred match stays (DESIGN CHOICE, log 27). -/
def execLzClear (s : State) : Result := yielding .nothing { s with defl := lzClear s.defl }

end Sys2Proof.Machine
end

