-- ==== Sys2Proof/Machine/Huffman.lean ====
section
/-! DEFINITION. The Huffman builder and encoder `HB` (44_huffman_builder.md): building code lengths, canonical codes,
run-length coding of the lengths, planning and costing a block, emitting it. -/

namespace Sys2Proof.Machine

/-! ## Frequencies (R331) -/

/-- Add 1 at an index of a vector. -/
def bump (i : Nat) (l : List Nat) : List Nat := l.set i (l.getD i 0 + 1)

/-- The literal/length frequencies of a token list on top of `f` (R331). -/
def llCount : List Token → List Nat → List Nat
  | [], f => f
  | .lit b :: ts, f => llCount ts (bump b.toNat f)
  | .mat len _ :: ts, f => llCount ts (bump (257 + lsymOf len) f)

/-- The distance frequencies of a token list on top of `f` (R331). -/
def dCount : List Token → List Nat → List Nat
  | [], f => f
  | .lit _ :: ts, f => dCount ts f
  | .mat _ dist :: ts, f => dCount ts (bump (dsymOf dist) f)

/-- `llf[0..285]` (R331): the end-of-block symbol occurs once. -/
def llFreq (toks : List Token) : List Nat := (llCount toks (List.replicate 286 0)).set 256 1

/-- `df[0..29]` (R331). -/
def dFreq (toks : List Token) : List Nat := dCount toks (List.replicate 30 0)

/-- Extra bits of one token (R331). -/
def tokenXb : Token → Nat
  | .lit _ => 0
  | .mat len dist => lenXb.getD (lsymOf len) 0 + distXb.getD (dsymOf dist) 0

/-- `xbits` (R331). -/
def xbits (toks : List Token) : Nat := (toks.map tokenXb).sum

/-! ## `HB.BUILD` (R333 to R339) -/

/-- The number of symbols with a positive frequency. -/
def usedCount (f : List Nat) : Nat := (f.filter (fun x => decide (0 < x))).length

/-- Give the first symbol of frequency 0 the frequency 1 (R334). -/
def forceOne : List Nat → List Nat
  | [] => []
  | x :: xs => if x = 0 then 1 :: xs else x :: forceOne xs

/-- Step 1 (R334): at least two used symbols. It is used on vectors of two symbols or more (log 30). -/
def forceTwo (f : List Nat) : List Nat :=
  let g := if usedCount f < 2 then forceOne f else f
  if usedCount g < 2 then forceOne g else g

/-- A node of the merge (R335): its weight, its id, and the depths of its leaves below it. -/
structure HNode where
  weight : Nat
  id : Nat
  depths : List Nat
  deriving DecidableEq, Repr

/-- The lexicographic order on `(weight, id)` (R335). -/
def HNode.lt (a b : HNode) : Bool := decide (a.weight < b.weight ∨ (a.weight = b.weight ∧ a.id < b.id))

/-- Insert a node into a list sorted by `(weight, id)`. -/
def insertNode (a : HNode) : List HNode → List HNode
  | [] => [a]
  | b :: bs => if a.lt b then a :: b :: bs else b :: insertNode a bs

/-- The leaves (R335), sorted: symbol `i` and the frequencies from it on. -/
def leavesFrom (i : Nat) : List Nat → List HNode
  | [] => []
  | x :: xs => if x = 0 then leavesFrom (i + 1) xs else insertNode ⟨x, i, [0]⟩ (leavesFrom (i + 1) xs)

/-- Step 2, merge (R335): the two smallest nodes get a parent with the next id; at most `k` rounds. The result is the
list of leaf depths of the one node left. -/
def mergeLoop : Nat → Nat → List HNode → List Nat
  | k + 1, id, a :: b :: rest =>
    mergeLoop k (id + 1) (insertNode ⟨a.weight + b.weight, id, (a.depths ++ b.depths).map (· + 1)⟩ rest)
  | _, _, [a] => a.depths
  | _, _, _ => []

/-- The leaf depths of the merge of a frequency vector (R335). -/
def leafDepths (f : List Nat) : List Nat := mergeLoop (usedCount f) f.length (leavesFrom 0 f)

/-- Step 3, clamp (R336): `bl[b]`, index `b` from 0 to `max`, counting depths clamped to `max`. -/
def clampCounts (max : Nat) (depths : List Nat) : List Nat :=
  depths.foldl (fun bl dep => bump (min dep max) bl) (List.replicate (max + 1) 0)

/-- `Σ_b bl[b]·2^(max - b)` over `b = 1..max` (R336): index `b` and the counts from it on. -/
def kraftCountsFrom (max b : Nat) : List Nat → Nat
  | [] => 0
  | x :: xs => (if b = 0 then 0 else x * 2 ^ (max - b)) + kraftCountsFrom max (b + 1) xs

/-- `K` (R336). -/
def kraftCounts (max : Nat) (bl : List Nat) : Nat := kraftCountsFrom max 0 bl

/-- The largest `b` with `1 ≤ b ≤ n` and `bl[b] > 0` (R337); 0 if there is none. -/
def deepest (bl : List Nat) : Nat → Nat
  | 0 => 0
  | n + 1 => if 0 < bl.getD (n + 1) 0 then n + 1 else deepest bl n

/-- Subtract 1 at an index. -/
def dent (i : Nat) (l : List Nat) : List Nat := l.set i (l.getD i 0 - 1)

/-- One round of step 4 (R337). -/
def rebalanceRound (max b : Nat) (bl : List Nat) : List Nat := dent max (bump (b + 1) (bump (b + 1) (dent b bl)))

/-- Step 4, rebalance (R337): `k` rounds, each lowering the Kraft sum by 1; `none` where a round is stuck. -/
def rebalance (max : Nat) : Nat → List Nat → Option (List Nat)
  | 0, bl => some bl
  | k + 1, bl =>
    let b := deepest bl (max - 1)
    if b = 0 ∨ bl.getD max 0 = 0 then none else rebalance max k (rebalanceRound max b bl)

/-- Insert a used symbol into the order of R338: frequency descending, symbol ascending. -/
def insertByFreq (s : Nat × Nat) : List (Nat × Nat) → List (Nat × Nat)
  | [] => [s]
  | t :: ts => if t.2 < s.2 ∨ (t.2 = s.2 ∧ s.1 < t.1) then s :: t :: ts else t :: insertByFreq s ts

/-- The used symbols with their frequencies, in the order of R338. -/
def orderFrom (i : Nat) : List Nat → List (Nat × Nat)
  | [] => []
  | x :: xs => if x = 0 then orderFrom (i + 1) xs else insertByFreq (i, x) (orderFrom (i + 1) xs)

/-- The lengths in the order they are handed out (R338): `bl[b]` copies of `b`, for `b` from `from` on. -/
def handOut (b : Nat) : List Nat → List Nat
  | [] => []
  | x :: xs => (if b = 0 then [] else List.replicate x b) ++ handOut (b + 1) xs

/-- Give each symbol of an order the length at the same place of a list. -/
def assignLens : List (Nat × Nat) → List Nat → List Nat → List Nat
  | s :: ss, l :: ls, acc => assignLens ss ls (acc.set s.1 l)
  | _, _, acc => acc

/-- The least `k` with `m ≤ 2^k` (R339). -/
def ceilLog : Nat → Nat → Nat
  | 0, _ => 0
  | fuel + 1, m => if m ≤ 1 then 0 else ceilLog fuel ((m + 1) / 2) + 1

/-- The balanced complete code on `m` symbols (R339), as lengths in the order they are handed out. -/
def balancedLens (m : Nat) : List Nat :=
  let k := ceilLog m m
  List.replicate (2 ^ k - m) (k - 1) ++ List.replicate (m - (2 ^ k - m)) k

/-- The lengths in hand-out order (R336 to R339). -/
def builtLens (f : List Nat) (max : Nat) : List Nat :=
  let bl := clampCounts max (leafDepths f)
  match rebalance max (kraftCounts max bl - 2 ^ max) bl with
  | some bl' => handOut 0 bl'
  | none => balancedLens (usedCount f)

/-- `HB.BUILD freq, max` (R333). R334 has no second index to take in a vector of one symbol: its length is a free value within
the limit (DESIGN CHOICE, log 30). -/
def hbBuild (freq : List Nat) (max : Nat) : Lens :=
  if freq.length < 2 then freq.map fun _ => min max (Config.freeLength freq max)
  else
    let f := forceTwo freq
    assignLens (orderFrom 0 f) (builtLens f max) (List.replicate f.length 0)

/-! ## `HB.CANON` (R340) -/

/-- How many symbols have length `b`; length 0 is not counted (R340: `bl[0] <- 0`). -/
def blCount (lens : Lens) (b : Nat) : Nat := if b = 0 then 0 else lens.count b

/-- The first code of length `b` (R340). -/
def firstCode (lens : Lens) : Nat → Nat
  | 0 => 0
  | b + 1 => (firstCode lens b + blCount lens b) * 2

/-- `next[0..max]` (R340). -/
def firstCodes (lens : Lens) (max : Nat) : List Nat := (List.range (max + 1)).map (firstCode lens)

/-- The assignment loop of R340, in increasing symbol order; a symbol of length 0 has no code and holds 0 (log 21). -/
def canonLoop : List Nat → Lens → List Nat
  | _, [] => []
  | next, l :: ls =>
    if l = 0 then 0 :: canonLoop next ls else next.getD l 0 :: canonLoop (bump l next) ls

/-- `HB.CANON lens, max` (R340). -/
def hbCanon (lens : Lens) (max : Nat) : List Nat := canonLoop (firstCodes lens max) lens

/-! ## `HB.RLE` (R342 to R345) -/

/-- The repeats of a run of zeros of length `r` (R344), at most `k` of them. -/
def rleZeros : Nat → Nat → List (Nat × Nat)
  | 0, _ => []
  | k + 1, r =>
    if 11 ≤ r then (18, min r 138 - 11) :: rleZeros k (r - min r 138)
    else if 3 ≤ r then [(17, r - 3)]
    else List.replicate r (0, 0)

/-- The repeats of a run of `r` more copies of `v` (R344), at most `k` of them. -/
def rleCopies (v : Nat) : Nat → Nat → List (Nat × Nat)
  | 0, _ => []
  | k + 1, r =>
    if 3 ≤ r then (16, min r 6 - 3) :: rleCopies v k (r - min r 6) else List.replicate r (v, 0)

/-- One maximal run of `r ≥ 1` copies of `v` (R344). -/
def rleRun (v r : Nat) : List (Nat × Nat) := if v = 0 then rleZeros (r + 1) r else (v, 0) :: rleCopies v r (r - 1)

/-- Cut a sequence into maximal runs: the run of `v` so far has length `r`. -/
def rleFrom (v r : Nat) : Lens → List (Nat × Nat)
  | [] => rleRun v r
  | l :: ls => if l = v then rleFrom v (r + 1) ls else rleRun v r ++ rleFrom l 1 ls

/-- `HB.RLE lens` (R344). -/
def hbRle : Lens → List (Nat × Nat)
  | [] => []
  | l :: ls => rleFrom l 1 ls

/-- The smallest value in `low..n` such that every entry from it on is 0 (R342). -/
def trimTo (lens : Lens) (low : Nat) : Nat → Nat
  | 0 => low
  | n + 1 => if n + 1 ≤ low then low else if lens.getD n 0 = 0 then trimTo lens low n else n + 1

/-- `hclen` (R345): the smallest value in 4..19 such that `cl_lens[CL_ORDER[i]] = 0` from it on. -/
def hclenOf (clLens : Lens) : Nat := trimTo (clOrder.map fun s => clLens.getD s 0) 4 19

/-- `clf[0..18]` (R345). -/
def clFreq (rl : List (Nat × Nat)) : List Nat := rl.foldl (fun f q => bump q.1 f) (List.replicate 19 0)

/-! ## Planning (R347, R348) -/

/-- `Σ_s f[s]·l[s]` (R347). -/
def dot : List Nat → List Nat → Nat
  | x :: xs, y :: ys => x * y + dot xs ys
  | _, _ => 0

/-- The bits of the code-length sequence (R347). -/
def rlBits (clLens : Lens) (rl : List (Nat × Nat)) : Nat := (rl.map fun q => clLens.getD q.1 0 + clXb q.1).sum

/-- `dyn_bits` of a planned block (R347). -/
def dynBits (b : Blk) (toks : List Token) : Nat :=
  14 + 3 * b.hclen + rlBits b.clLens b.rl + dot (llFreq toks) b.llLens + dot (dFreq toks) b.dLens + xbits toks

/-- `fix_bits` (R347). -/
def fixBits (toks : List Token) : Nat := dot (llFreq toks) fixLl + 5 * (dFreq toks).sum + xbits toks

/-- `HB.PLAN toks` (R348): the results fill the code description of the `blk` record. -/
def hbPlan (toks : List Token) (b : Blk) : Blk :=
  let llLens := hbBuild (llFreq toks) 15
  let dLens := hbBuild (dFreq toks) 15
  let hlit := trimTo llLens 257 286
  let hdist := trimTo dLens 1 30
  let rl := hbRle (llLens.take hlit) ++ hbRle (dLens.take hdist)
  let clLens := hbBuild (clFreq rl) 7
  { b with llLens, dLens, hlit, hdist, rl, clLens, hclen := hclenOf clLens }

/-! ## Emitting (R352, R354) -/

/-- One pair of the code-length sequence (R352). -/
def emitPair (cc clLens : List Nat) (d : Defl) (q : Nat × Nat) : Defl :=
  bwPut q.2 (clXb q.1) (bwPutcode (cc.getD q.1 0) (clLens.getD q.1 0) d)

/-- The tree description of a dynamic block (R352). -/
def emitTrees (b : Blk) (d : Defl) : Defl :=
  let d1 := bwPut (b.hclen - 4) 4 (bwPut (b.hdist - 1) 5 (bwPut (b.hlit - 257) 5 d))
  let d2 := (clOrder.take b.hclen).foldl (fun d s => bwPut (b.clLens.getD s 0) 3 d) d1
  b.rl.foldl (emitPair (hbCanon b.clLens 7) b.clLens) d2

/-- The length field pair of a stored block (R352). -/
def emitStoredLen (n : Nat) (d : Defl) : Defl := bwPut (65535 - n) 16 (bwPut n 16 (bwAlign d))

/-- `HB.EMIT_HEADER blk` (R352). -/
def hbEmitHeader (b : Blk) (d : Defl) : Defl :=
  let d1 := bwPut (blockTypeNum b.typ) 2 (bwPut b.final.toNat 1 d)
  match b.typ with
  | .stored => emitStoredLen b.raw.length d1
  | .fixed => d1
  | .dynamic => emitTrees b d1

/-- One token under a literal/length code and a distance code (R354). A symbol of length 0 has no code, and no bits are
appended for it, as in `emitPair` (DESIGN CHOICE, log 31). -/
def emitSymbol (lc ll dc dl : List Nat) (d : Defl) (t : Token) : Defl :=
  match t with
  | .lit b => bwPutcode (lc.getD b.toNat 0) (ll.getD b.toNat 0) d
  | .mat len dist =>
    let i := lsymOf len
    let j := dsymOf dist
    let d1 := bwPut (len - lenBase.getD i 0) (lenXb.getD i 0) (bwPutcode (lc.getD (257 + i) 0) (ll.getD (257 + i) 0) d)
    bwPut (dist - distBase.getD j 0) (distXb.getD j 0) (bwPutcode (dc.getD j 0) (dl.getD j 0) d1)

/-- The symbols of a Huffman block, and its end of block (R354). -/
def emitCoded (toks : List Token) (ll dl : Lens) (d : Defl) : Defl :=
  let lc := hbCanon ll 15
  let dc := hbCanon dl 15
  bwPutcode (lc.getD 256 0) (ll.getD 256 0) (toks.foldl (emitSymbol lc ll dc dl) d)

/-- `HB.EMIT_SYMBOLS blk` (R354). -/
def hbEmitSymbols (b : Blk) (d : Defl) : Defl :=
  match b.typ with
  | .stored => b.raw.foldl (fun d x => bwPut x.toNat 8 d) d
  | .fixed => emitCoded b.toks fixLl fixD d
  | .dynamic => emitCoded b.toks b.llLens b.dLens d

/-! ## Unit operations -/

/-- `HB.BUILD freq, max` (R333): `n ≤ 2^max`. -/
def execHbBuild (freq : List Nat) (max : Nat) (s : State) : Result :=
  inRange (freq.length ≤ 2 ^ max) (yielding (.numbers (hbBuild freq max)) s)

/-- `HB.CANON lens, max` (R340): every length at most the limit. -/
def execHbCanon (lens : Lens) (max : Nat) (s : State) : Result :=
  inRange (∀ l ∈ lens, l ≤ max) (yielding (.numbers (hbCanon lens max)) s)

/-- `HB.RLE lens` (R344): a sequence of code lengths. -/
def execHbRle (lens : Lens) (s : State) : Result := yielding (.pairs (hbRle lens)) s

/-- `HB.PLAN toks` (R348): fills `blk` and yields the two costs. -/
def execHbPlan (toks : List Token) (s : State) : Result :=
  let b := hbPlan toks s.defl.blk
  yielding (.costs (dynBits b toks) (fixBits toks)) { s with defl := { s.defl with blk := b } }

/-- `HB.EMIT_HEADER blk` (R352). On its own it emits what `blk` holds, in phases too where R44 does not call it valid (DESIGN
CHOICE, log 14). -/
def execHbEmitHeader (s : State) : Result := yielding .nothing { s with defl := hbEmitHeader s.defl.blk s.defl }

/-- `HB.EMIT_SYMBOLS blk` (R354). On its own it emits what `blk` holds, in phases too where R44 does not call it valid (DESIGN
CHOICE, log 14). -/
def execHbEmitSymbols (s : State) : Result := yielding .nothing { s with defl := hbEmitSymbols s.defl.blk s.defl }

end Sys2Proof.Machine
end

