-- ==== Sys2Proof/Machine/Deflator.lean ====
section
/-! DEFINITION. The compressor engine `DEFL` (45_deflator.md, sections 2 to 6): `RESET`, and `WRITE` with its entry
checks, its work loop, the choice of blocks and the flush modes. -/

namespace Sys2Proof.Machine

/-! ## `RESET` (R378, R70, R73) -/

/-- `DEFL` after a successful `RESET` with the configuration `c`: the right-hand column of R70, with `level = 15`
selecting 6 (R27). `prev`, `blk` and the dead fields of `deferred` are unspecified there and named by log 9. -/
def deflStart (c : Word) (regs : StreamRegs) : Defl :=
  let wrap := (wrapOf (cfgWrap c)).getD .none
  { config := c, ec := .ok, regs, configured := true, sticky := .ok
    level := if cfgLevel c = 15 then 6 else cfgLevel c
    wbits := cfgWindowBits c, mem := cfgMemLevel c, strategy := (strategyOf (cfgStrategy c)).getD .normal, wrap
    stage := .init, phase := .collect, finishing := false, sat := 0
    data := [], pos := 0, emitPos := 0, blockStart := 0, histBase := 0, nextIns := 0
    head := [], prev := [], deferred := ⟨false, 0, 0⟩, syms := [], blk := .reset
    bitBuf := 0, bitCnt := 0, pending := [], check := checkInit wrap, isize := 0 }

/-- `DEFL.RESET` (R378): a refused one leaves every other field as it was (R73). -/
def deflReset (d : Defl) : Defl :=
  if deflLegal d.config then deflStart d.config d.regs
  else { d with configured := false, sticky := .ok, ec := .streamError }

/-! ## Accepting input (R388) -/

/-- `la`, the lookahead (R388, R390). -/
def lookahead (d : Defl) : Nat := dataEnd d - d.pos

/-- One byte accepted (R388). -/
def acceptByte (c : DeflCtx) : DeflCtx :=
  let b := inByteVal c.d.regs c.bus
  { d := { c.d with
            regs := inByteRegs c.d.regs c.bus
            data := c.d.data ++ [b]
            check := checkStep c.d.wrap c.d.check b
            isize := c.d.isize + 1 }
    bus := inByteBus c.d.regs c.bus }

/-- `k` bytes accepted. -/
def acceptLoop : Nat → DeflCtx → DeflCtx
  | 0, c => c
  | k + 1, c => acceptLoop k (acceptByte c)

/-- `k` of R388; `LA_CAP = WSIZE` (R10). -/
def acceptCount (d : Defl) : Nat := min d.regs.availIn.toNat (wsize d.wbits - lookahead d)

/-- Accepting input (R388): `sat` is cleared when a byte was accepted. -/
def accept (c : DeflCtx) : DeflCtx :=
  let k := acceptCount c.d
  let c1 := acceptLoop k c
  if 0 < k then { c1 with d := { c1.d with sat := 0 } } else c1

/-! ## Tokenising (R389, R390) -/

/-- `can_step` (R390). -/
def canStep (f : Flush) (d : Defl) : Bool :=
  let flushing := f != .none && decide (d.regs.availIn = 0)
  if lookahead d = 0 then d.deferred.valid && flushing
  else if minLookahead ≤ lookahead d then true
  else flushing

/-- Tokenising (R389), at most `n` steps; true when it stopped at a full block. R389 asks whether the block is full after each
step, so a block that `LZ.STEP` on its own had filled takes one more token before it closes (DESIGN CHOICE, log 27). -/
def tokenise (pr : Params) (f : Flush) : Nat → Defl → Bool × Defl
  | 0, d => (false, d)
  | n + 1, d =>
    if canStep f d then
      if blockFull (lzStep pr d) then (true, lzStep pr d) else tokenise pr f n (lzStep pr d)
    else (false, d)

/-- More steps than tokenising can take: each but the first advances `pos` or ends a deferred match (log 12). -/
def tokeniseFuel (d : Defl) : Nat := 2 * lookahead d + 4

/-! ## Closing a block (R398 to R402) -/

/-- `stored_ok` (R398). -/
def storedOk (d : Defl) : Bool := decide (d.pos - d.blockStart ≤ wsize d.wbits ∧ blockSpan d ≤ storedMax)

/-- The results of `HB.PLAN` for the open block (R348); the code description stands in `b`. -/
def blockPlan (d : Defl) (b : Blk) : BlockPlan :=
  { llFreq := llFreq d.syms, dFreq := dFreq d.syms, xbits := xbits d.syms
    llLens := b.llLens, dLens := b.dLens, hlit := b.hlit, hdist := b.hdist, rl := b.rl, clLens := b.clLens, hclen := b.hclen
    dynBits := dynBits b d.syms, fixBits := fixBits d.syms }

/-- What `choose_block` looks at (R398), for the plan `b` of the open block. -/
def blockStats (d : Defl) (b : Blk) : BlockStats :=
  { level := d.level, strategy := d.strategy, wbits := d.wbits, toks := d.syms, plan := blockPlan d b
    histBase := d.histBase, blockStart := d.blockStart, emitPos := d.emitPos, pos := d.pos, dataEnd := dataEnd d
    span := blockSpan d, storedOk := storedOk d }

/-- The bytes a Huffman block of `bits` bits after its header costs (R398). -/
def costBytes (bits : Nat) : Nat := (3 + bits + 7) / 8

/-- The default `choose_block` (R398). -/
def chooseByCost (st : BlockStats) : BlockType :=
  let fix := costBytes st.plan.fixBits
  let dyn := costBytes st.plan.dynBits
  let best := if st.strategy = .fixed then fix else min fix dyn
  if st.level = 0 then .stored
  else if st.storedOk = true ∧ st.span + 4 ≤ best then .stored
  else if st.strategy = .fixed ∨ fix ≤ dyn then .fixed
  else .dynamic

/-- The constraints of R398 on a replacement: what it wants, where it may. -/
def clampChoice (st : BlockStats) (want : BlockType) : BlockType :=
  if st.level = 0 then .stored
  else
    match want with
    | .stored => if st.storedOk then .stored else .fixed
    | .fixed => .fixed
    | .dynamic => if st.strategy = .fixed then .fixed else .dynamic

/-- `choose_block` (R12, R398): the default, or any replacement within the constraints (log 11). -/
def chooseBlock (ch : Chooser) (st : BlockStats) : BlockType :=
  match ch with
  | .byCost => chooseByCost st
  | .other => clampChoice st (Config.freeChoice st)

/-- `data[block_start : emit_pos]` (R399). It is read from the whole source (log 13), also where `LZ.STEP` on its own has made
the range of a level 0 block one byte longer than the history ring of R38 (DESIGN CHOICE, log 27). -/
def blockRaw (d : Defl) : List Byte := (d.data.drop d.blockStart).take (blockSpan d)

/-- `close_block(final)` (R401). -/
def closeBlock (pr : Params) (final : Bool) (d : Defl) : Defl :=
  let b := hbPlan d.syms d.blk
  let typ := chooseBlock pr.chooser (blockStats d b)
  { d with
    blk := { b with final, typ, toks := d.syms, raw := if typ = .stored then blockRaw d else b.raw }
    syms := [], blockStart := d.emitPos, phase := .blkHeader }

/-! ## Flush markers (R404) -/

/-- `marker(f)` (R404). -/
def marker (f : Flush) (d : Defl) : Defl :=
  match f with
  | .sync | .full => bwPut 0xFFFF 16 (bwPut 0 16 (bwAlign (bwPut 0 3 d)))
  | .part => bwPutcode 0 7 (bwPut 2 3 d)
  | .none | .block | .finish | .trees => d

/-- The last block of the output once `marker(f)` is written: a marker is an empty fixed or an empty stored block (R404). It is
a record of the output, as `blk` is for every other block, and not of the command (R62); R44 reads `blk` in no phase in which
a marker is written (DESIGN CHOICE, log 14). -/
def markerBlock (f : Flush) (b : Blk) : Blk :=
  match f with
  | .sync | .full => { b with typ := .stored, toks := [], raw := [] }
  | .part => { b with typ := .fixed, toks := [] }
  | .none | .block | .finish | .trees => b

/-- `marker(f)` written, as the last block of the output. -/
def writeMarker (f : Flush) (d : Defl) : Defl := { marker f d with blk := markerBlock f d.blk }

/-- Whether bits of data are still in `bit_buf` where a block has ended: the last block is dynamic, and more bits are held than
its end-of-block code has. (The code of a fixed block has 7 bits, and a stored block ends aligned.) `HB.PLAN` requested on its
own here, in a phase in which R44 has no value for `blk`, puts another code in its place, and what it says of the bits held
follows that code (DESIGN CHOICE, log 14 and log 29). -/
def dataHeld (d : Defl) : Bool := d.blk.typ == .dynamic && decide (d.blk.llLens.getD 256 0 < d.bitCnt)

/-- Steps 6 to 8 of R391: the marker, the cleared history of `full`, and the rank of the action done (R403). -/
def completeFlush (f : Flush) (d : Defl) : Defl :=
  let d1 := writeMarker f d
  let d2 := if f = .full then lzClear d1 else d1
  { d2 with sat := flushRank f, stage := .flushPending }

/-! ## The work loop (R382 to R391) -/

/-- What a round of the work loop leaves: whether it said stop, `trees_stop`, and the engine. -/
structure DeflRound where
  stopped : Bool
  trees : Bool
  c : DeflCtx
  deriving DecidableEq, Repr

/-- The round goes on with an engine state. -/
def DeflCtx.cont (c : DeflCtx) (trees : Bool) (d : Defl) : DeflRound := ⟨false, trees, { c with d }⟩

/-- The round stops with an engine state. -/
def DeflCtx.halt (c : DeflCtx) (trees : Bool) (d : Defl) : DeflRound := ⟨true, trees, { c with d }⟩

/-- Deciding (R391), when tokenising has stopped without a full block. Step 4 does not act where the rank is not above `sat`.
There a `partial` after a completed `trees`, which ranks higher and writes no marker, still has the marker written where data
is held, since R376, which R6 makes the normative rule, wants it: `stage` and `sat` are left, and the next time the step stops
(DESIGN CHOICE, log 29). Where output space ran out in a block header under `trees`, the repeated `WRITE trees` comes here and
completes, while an undisturbed one stops at the header with `sat` 0: a later `partial` then writes a marker or does not,
by `AVAIL_OUT`, which R114 and R412 exclude (DESIGN CHOICE, log 33). -/
def decideCollect (pr : Params) (f : Flush) (c : DeflCtx) : DeflRound :=
  let d := c.d
  if 0 < d.regs.availIn.toNat then c.cont false d
  else if f = .none then c.halt false d
  else if f = .finish then c.cont false { closeBlock pr true d with finishing := true }
  else if flushRank f ≤ d.sat then
    if f = .part ∧ dataHeld d = true then c.cont false (writeMarker f d) else c.halt false d
  else if d.syms ≠ [] then c.cont false (closeBlock pr false d)
  else c.cont false (completeFlush f d)

/-- M5, phase `collect` (R387): accept, tokenise, decide. -/
def collect (pr : Params) (f : Flush) (c : DeflCtx) : DeflRound :=
  let c1 := accept c
  let t := tokenise pr f (tokeniseFuel c1.d) c1.d
  if t.1 then c1.cont false (closeBlock pr false t.2) else decideCollect pr f { c1 with d := t.2 }

/-- M1 to M5 (R382), with `pending` empty and no stop at a tree boundary. -/
def deflWork (pr : Params) (f : Flush) (c : DeflCtx) : DeflRound :=
  let d := c.d
  if d.stage = .flushPending then
    if d.finishing then c.halt false { d with stage := .done } else c.cont false { d with stage := .body }
  else
    match d.phase with
    | .blkSymbols =>
      c.cont false { hbEmitSymbols d.blk d with phase := if d.blk.final then .trailer else .collect }
    | .blkHeader => c.cont (f == .trees) { hbEmitHeader d.blk d with phase := .blkSymbols }
    | .trailer => c.cont false { hdrTrailer (bwAlign d) with stage := .flushPending, phase := .collect }
    | .collect => collect pr f c

/-- One round of the work loop (R382): M0, then the selected micro-step. -/
def deflRound (pr : Params) (f : Flush) (trees : Bool) (c : DeflCtx) : DeflRound :=
  let c0 := bwTake c
  if c0.d.pending ≠ [] then c0.halt trees c0.d
  else if trees then c0.halt true c0.d
  else deflWork pr f c0

/-- The work loop (R382), at most `n` rounds; `none` when it did not stop within them. -/
def deflLoop (pr : Params) (f : Flush) : Nat → Bool → DeflCtx → Option (Bool × DeflCtx)
  | 0, _, _ => none
  | n + 1, trees, c =>
    let r := deflRound pr f trees c
    if r.stopped then some (r.trees, r.c) else deflLoop pr f n r.trees r.c

/-- More rounds than a `WRITE` can take (R414, R631; log 12). -/
def deflFuel (d : Defl) : Nat := 30 * d.regs.availIn.toNat + 30 * lookahead d + 64

/-! ## `WRITE` (R380, R381, R386) -/

/-- Stage `init` (R381): the container header, once. -/
def deflInit (pr : Params) (d : Defl) : Defl :=
  if d.stage = .init then
    { (match d.wrap with | .none => d | .zlib => hdrZenc d | .gzip => hdrGzenc pr d) with
      stage := .body, phase := .collect }
  else d

/-- The return code (R386), from the registers at entry, `trees_stop` and the engine at the stop. -/
def deflCode (r0 : StreamRegs) (trees : Bool) (d : Defl) : Status :=
  if d.stage = .done then .endOfStream
  else if d.regs.totalIn ≠ r0.totalIn ∨ d.regs.totalOut ≠ r0.totalOut ∨ trees = true then .ok
  else .needBuffers

/-- The work of a `WRITE` that passed the entry checks (R381, R382, R386). -/
def deflRun (f : Flush) (s : State) : Result :=
  let d := deflInit s.params s.defl
  match deflLoop s.params f (deflFuel d) false ⟨d, s.bus⟩ with
  | none => .fault .workBound
  | some (trees, c) => .next { s with defl := { c.d with ec := deflCode s.defl.regs trees c.d }, bus := c.bus }

/-- `DEFL.WRITE f` (R380): the entry checks in their order. What R413 says of the machine, that it meets R372 to R376, is stated
of the `WRITE`s in Safety.lean (`RoundTrip`, `OutputGrammar`, `FlushObligation`, `FullChunk`, `BlockFlush`, `MarkerWritten`,
`AlignedFlush`, `PortioningIsInvisible`). -/
def deflWrite (f : Flush) (s : State) : Result :=
  let d := s.defl
  if d.configured = false then .next (deflReturn .streamError s)
  else if d.sticky ≠ .ok then .next (deflReturn d.sticky s)
  else if regionOk d.regs = false then .next (deflReturn .streamError s)
  else if d.stage = .done then
    if 0 < d.regs.availIn.toNat then .next { s with defl := deflRaise .streamError d }
    else .next (deflReturn .endOfStream s)
  else if d.finishing then
    if 0 < d.regs.availIn.toNat then .next { s with defl := deflRaise .streamError d } else deflRun .finish s
  else deflRun f s

/-! ## The commands -/

/-- `DEFL.RESET` (R378). -/
def execDeflReset (s : State) : Result := .next { s with defl := deflReset s.defl }

/-- `DEFL.WRITE none` (R405). -/
def execDeflWriteNone (s : State) : Result := deflWrite .none s

/-- `DEFL.WRITE block` (R406). -/
def execDeflWriteBlock (s : State) : Result := deflWrite .block s

/-- `DEFL.WRITE partial` (R407). -/
def execDeflWritePartial (s : State) : Result := deflWrite .part s

/-- `DEFL.WRITE sync` (R408). -/
def execDeflWriteSync (s : State) : Result := deflWrite .sync s

/-- `DEFL.WRITE full` (R409). -/
def execDeflWriteFull (s : State) : Result := deflWrite .full s

/-- `DEFL.WRITE finish` (R411). -/
def execDeflWriteFinish (s : State) : Result := deflWrite .finish s

/-- `DEFL.WRITE trees` (R410). -/
def execDeflWriteTrees (s : State) : Result := deflWrite .trees s

end Sys2Proof.Machine
end

