-- ==== Sys2Proof/Machine/HuffDecoder.lean ====
section
/-! DEFINITION. The Huffman decoder `HD` (46_huffman_decoder.md): the validity test of a code-length set, what a decode
table means, and decoding one symbol. -/

namespace Sys2Proof.Machine

/-! ## `HD.BUILD` (R442 to R445) -/

/-- `K` of `HD.BUILD` (R442): the Kraft sum scaled by `2^max`. -/
def kraft (max : Nat) (lens : Lens) : Nat := (lens.map fun l => if l = 0 then 0 else 2 ^ (max - l)).sum

/-- The two incomplete shapes `P_INCOMPLETE_OK` accepts (R444): no code at all, or one code of one bit. -/
def sparseShape (lens : Lens) : Bool :=
  match lens.filter (fun l => decide (0 < l)) with
  | [] => true
  | [l] => decide (l = 1)
  | _ => false

/-- The error of an over-subscribed set (R443, R445). -/
def overError (p : Params) (kind : CodeKind) : Status :=
  if kind = .codes ∧ p.clsetErr = .generic then .invalidCodeLengths else .overSubscribedLength

/-- The error of an incomplete set (R444, R445). -/
def incompleteError (p : Params) (kind : CodeKind) : Status :=
  if kind = .codes ∧ p.clsetErr = .generic then .invalidCodeLengths else .incompleteLengthSet

/-- `HD.BUILD lens, M, kind` (R442): the table, held as its length vector (R441), or an error. -/
def hdBuild (p : Params) (lens : Lens) (max : Nat) (kind : CodeKind) : Except Status Lens :=
  if 2 ^ max < kraft max lens then .error (overError p kind)
  else if kraft max lens < 2 ^ max ∧ ¬(p.incompleteOk = true ∧ kind ≠ .codes ∧ sparseShape lens = true) then
    .error (incompleteError p kind)
  else .ok lens

/-! ## What a table means (R441) -/

/-- `maxlen(T)` (R441). -/
def maxLen (lens : Lens) : Nat := lens.foldl max 0

/-- `T(n, c)` (R441): the symbol, counted from `s` on, that has length `n` and code `c`. -/
def lookupFrom (s n c : Nat) : Lens → List Nat → Option Nat
  | l :: ls, k :: ks => if l = n ∧ k = c then some s else lookupFrom (s + 1) n c ls ks
  | _, _ => none

/-! ## `HD.DECODE` (R447) -/

/-- One pass over the bits in hand (R447): a symbol with its code length, too few bits, or no code. -/
inductive Scan
  | found (s n : Nat)
  | more
  | invalid
  deriving DecidableEq, Repr

/-- The `for` loop of R447: `left` lengths to try, from `n` on; `c` is the value of the first `n - 1` bits. -/
def scanCodes (lens : Lens) (codes : List Nat) (hold cnt : Nat) : Nat → Nat → Nat → Scan
  | 0, _, _ => .invalid
  | left + 1, n, c =>
    if cnt < n then .more
    else
      match lookupFrom 0 n (2 * c + hold / 2 ^ (n - 1) % 2) lens codes with
      | some s => .found s n
      | none => scanCodes lens codes hold cnt left (n + 1) (2 * c + hold / 2 ^ (n - 1) % 2)

/-- One pass of `HD.DECODE` over `hold` (R447), for a table built with the limit `max`. -/
def scan (lens : Lens) (max hold cnt : Nat) : Scan := scanCodes lens (hbCanon lens max) hold cnt (maxLen lens) 1 0

/-- `HD.DECODE T` (R447): a byte is fetched only when every bit in hand is used and no code has matched; `more` when
the input ran out. At most `k` bytes are fetched. -/
def hdDecodeLoop (lens : Lens) (max : Nat) : Nat → InflCtx → Scan × InflCtx
  | 0, c => (scan lens max c.e.hold c.e.cnt, c)
  | k + 1, c =>
    match scan lens max c.e.hold c.e.cnt with
    | .more => if c.e.regs.availIn = 0 then (.more, c) else hdDecodeLoop lens max k (brFetch c)
    | r => (r, c)

/-- `HD.DECODE T` (R447): a code has at most `maxlen(T)` bits, so that many bytes are more than enough. -/
def hdDecode (lens : Lens) (max : Nat) (c : InflCtx) : Scan × InflCtx := hdDecodeLoop lens max (maxLen lens) c

/-- The table of `INFL` an operand names (R440). -/
def tableLens (t : TableId) (i : Infl) : Lens :=
  match t with
  | .clt => i.clt
  | .ll => i.ll
  | .dt => i.dt

/-- The limit `M` of a table (R440). -/
def tableMax : TableId → Nat
  | .clt => maxClBits
  | .ll | .dt => maxBits

/-! ## Unit operations -/

/-- What `HD.DECODE` yields (R447). -/
def Scan.yield : Scan → Yield
  | .found s n => .pair s n
  | .more => .suspended
  | .invalid => .invalid

/-- Whether stream work can run in `INFL` (R462 steps 1, 2 and 4): configured, no terminal error, not at the end. -/
def inflLive (i : Infl) : Bool := i.configured && i.sticky == .ok && i.stage != .done

/-- `HD.BUILD lens, M, kind` (R442): each entry 0 to M. It yields the table or raises an error, which on its own it yields as
well and records in `INFL`; where no stream work runs nothing is recorded, so that errors do not nest (R565; log 15). -/
def execHdBuild (lens : Lens) (max : Nat) (kind : CodeKind) (s : State) : Result :=
  inRange (∀ l ∈ lens, l ≤ max)
    (match hdBuild s.params lens max kind with
     | .ok t => yielding (.numbers t) s
     | .error e => yielding (.raised e) (if inflLive s.infl then { s with infl := inflRaise e s.infl } else s))

/-- `HD.DECODE T` (R447): it drops no bits. On its own it makes no region check (R99) and runs in every state of `INFL`,
unconfigured, in error and at the end too (DESIGN CHOICE, log 4). -/
def execHdDecode (t : TableId) (s : State) : Result :=
  let r := hdDecode (tableLens t s.infl) (tableMax t) ⟨s.infl, s.bus⟩
  yielding r.1.yield (withInfl r.2 s)

end Sys2Proof.Machine
end

