-- ==== Sys2Proof/Machine/Inflator.lean ====
section
/-! DEFINITION. The decompressor engine `INFL` (47_inflator.md): `RESET`; what each stream element does once its bits are
in hand; the micro-step of each stage; the work loop and `WRITE`. -/

namespace Sys2Proof.Machine

/-! ## `RESET` (R461, R70, R73) -/

/-- The first stage of a stream (R461, R601). -/
def firstStage : Wrap → IStage
  | .none => .blockType
  | .zlib => .zhdr
  | .gzip => .gzMagic

/-- `INFL` after a successful `RESET` with the configuration `c`: the right-hand column of R70. What is unspecified there
(the window, the tables, the symbol registers) is named by log 9. -/
def inflStart (c : Word) (regs : StreamRegs) : Infl :=
  let wrap := (wrapOf (cfgWrap c)).getD .none
  { Infl.reset with
    config := c, regs, configured := true, wbits := cfgWindowBits c, wrap, stage := firstStage wrap
    check := checkInit wrap }

/-- `INFL.RESET` (R461): a refused one leaves every other field as it was (R73). -/
def inflReset (i : Infl) : Infl :=
  if inflLegal i.config then inflStart i.config i.regs
  else { i with configured := false, sticky := .ok, ec := .streamError }

/-! ## Producing a byte (R468) -/

/-- `whave` (R52). -/
def whave (i : Infl) : Nat := min i.produced (wsize i.wbits)

/-- `emit(v)` (R468); called only with `AVAIL_OUT > 0`. -/
def inflEmit (v : Byte) (c : InflCtx) : InflCtx :=
  { e := { c.e with
            regs := outByteRegs c.e.regs c.bus
            win := memWrite c.e.win (c.e.produced % wsize c.e.wbits) v
            produced := c.e.produced + 1
            check := checkStep c.e.wrap c.e.check v
            isize := c.e.isize + 1 }
    bus := outByteBus c.e.regs c.bus v }

/-! ## What each element does, its bits in hand

Each function is one stage rule between its `BR.NEED` and its `BR.DROP`; `bad` is `raise`. -/

/-- The outcome of an element: the engine goes on, or an error is raised. -/
inductive Act
  | good (i : Infl)
  | bad (e : Status) (i : Infl)
  deriving DecidableEq, Repr

/-- Bit `k` of the gzip `FLG` byte (R156). -/
def gzFlag (k : Nat) (i : Infl) : Bool := i.gzflags.getLsbD k

/-- `ZHDR` (R470). -/
def zhdrAct (cmf flg : Byte) (i : Infl) : Act :=
  match zhdrCheck cmf flg i.wbits with
  | some e => .bad e i
  | none => .good { i with stage := if flg.getLsbD 5 then .dictid else .blockType }

/-- `DICTID` (R471): always ends in `need_dict`, with the identifier readable. -/
def dictAct (id : Word) (i : Infl) : Act := .bad .needDict { i with dictid := id }

/-- `GZ_MAGIC` (R472). -/
def gzMagicAct (id1 id2 : Byte) (i : Infl) : Act :=
  if id1 = 0x1F ∧ id2 = 0x8B then .good { i with stage := .gzCmflg } else .bad .incorrectHeaderCheck i

/-- `GZ_CMFLG` (R473): `gzflags` is assigned before the tests. -/
def gzCmflgAct (cm flg : Byte) (i : Infl) : Act :=
  let i' := { i with gzflags := flg }
  match gzCmflgCheck cm flg with
  | some e => .bad e i'
  | none => .good { i' with stage := .gzMtime }

/-- `GZ_MTIME` (R474): the value is discarded. -/
def gzMtimeAct (_t : Word) (i : Infl) : Act := .good { i with stage := .gzXflos }

/-- `GZ_XFLOS` (R475): both bytes are discarded. -/
def gzXflosAct (_xfl _os : Byte) (i : Infl) : Act :=
  .good { i with stage := if gzFlag 2 i then .gzExlen else .gzName }

/-- `GZ_EXLEN` (R476). -/
def gzXlenAct (n : BitVec 16) (i : Infl) : Act := .good { i with xlen := n.toNat, stage := .gzExtra }

/-- `GZ_EXTRA` with `xlen > 0` (R477): the byte is discarded. -/
def gzExtraAct (_b : Byte) (i : Infl) : Act := .good { i with xlen := i.xlen - 1 }

/-- `GZ_NAME` with `FNAME` (R478). -/
def gzNameAct (b : Byte) (i : Infl) : Act := .good (if b = 0 then { i with stage := .gzComment } else i)

/-- `GZ_COMMENT` with `FCOMMENT` (R479). -/
def gzCommentAct (b : Byte) (i : Infl) : Act := .good (if b = 0 then { i with stage := .gzHcrc } else i)

/-- `GZ_HCRC` with `FHCRC` (R480). -/
def gzHcrcAct (c : BitVec 16) (i : Infl) : Act :=
  if c.toNat ≠ i.hcrc.toNat % 65536 then .bad .headerCrcMismatch i else .good { i with stage := .blockType }

/-- `BLOCK_TYPE` for a block header of type `t` (R482): `last` is assigned before the type is checked. -/
def blkhdrAct (final : Bool) (t : Nat) (i : Infl) : Act :=
  let i' := { i with last := final }
  match t with
  | 0 => .good { i' with stage := .storedLen }
  | 1 => .good { i' with ll := fixLl, dt := fixD, stage := .sym }
  | 2 => .good { i' with stage := .dynCounts }
  | _ => .bad .invalidBlockType i'

/-- `STORED_LEN` (R484). -/
def stolenAct (len nlen : BitVec 16) (i : Infl) : Act :=
  if len.toNat ≠ 0xFFFF - nlen.toNat then .bad .invalidStoredLength i
  else .good { i with remaining := len.toNat, stage := .storedCopy }

/-- `DYN_COUNTS` (R487): the counts are assigned before they are checked. -/
def dynhdrAct (hlit hdist : BitVec 5) (hclen : BitVec 4) (i : Infl) : Act :=
  let i' := { i with nlen := hlit.toNat + 257, ndist := hdist.toNat + 1, ncode := hclen.toNat + 4 }
  if 286 < i'.nlen ∨ 30 < i'.ndist then .bad .tooManySymbols i'
  else .good { i' with cl := List.replicate 19 0, nhave := 0, stage := .dynClens }

/-- `DYN_CLENS` with `have < ncode` (R488). -/
def cllenAct (len : BitVec 3) (i : Infl) : Act :=
  .good { i with cl := i.cl.set (clOrder.getD i.nhave 0) len.toNat, nhave := i.nhave + 1 }

/-- `DYN_CLENS` with `have = ncode` (R488): the code-length table. -/
def buildClt (p : Params) (i : Infl) : Act :=
  match hdBuild p i.cl maxClBits .codes with
  | .error e => .bad e i
  | .ok t => .good { i with clt := t, lens := [], stage := .dynLens }

/-- A run of `c` code lengths `v` (R489). -/
def runAct (v c : Nat) (i : Infl) : Act :=
  if i.nlen + i.ndist < i.lens.length + c then .bad .invalidBitLengthRepeat i
  else .good { i with lens := i.lens ++ List.replicate c v }

/-- `DYN_LENS` for the code-length symbol `s` with extra value `x` (R489). -/
def clsymAct (s x : Nat) (i : Infl) : Act :=
  if s < 16 then .good { i with lens := i.lens ++ [s] }
  else if s = 16 then
    match i.lens.getLast? with
    | none => .bad .invalidBitLengthRepeat i
    | some v => runAct v (3 + x) i
  else if s = 17 then runAct 0 (3 + x) i
  else runAct 0 (11 + x) i

/-- `DYN_LENS` with every length read (R490): the two tables, in this order. -/
def buildTables (p : Params) (i : Infl) : Act :=
  if i.lens.getD 256 0 = 0 then .bad .missingEob i
  else
    match hdBuild p (i.lens.take i.nlen) maxBits .lens with
    | .error e => .bad e i
    | .ok t =>
      let i' := { i with ll := t }
      match hdBuild p ((i.lens.drop i.nlen).take i.ndist) maxBits .dists with
      | .error e => .bad e i'
      | .ok u => .good { i' with dt := u, stage := .sym }

/-- `SYM` for the symbol `s` (R492). -/
def symAct (s : Nat) (i : Infl) : Act :=
  if 286 ≤ s then .bad .invalidLiteralLength i
  else if s < 256 then .good { i with lit := BitVec.ofNat 8 s, stage := .lit }
  else if s = 256 then .good { i with stage := .blockType }
  else .good { i with lsym := s - 257, stage := .lenext }

/-- `LENEXT` (R494). -/
def lenextAct (x : Nat) (i : Infl) : Act := .good { i with length := lenBase.getD i.lsym 0 + x, stage := .dist }

/-- `DIST` for the symbol `s` (R495). -/
def distAct (s : Nat) (i : Infl) : Act :=
  if 30 ≤ s then .bad .invalidDistanceCode i else .good { i with dsym := s, stage := .distext }

/-- `DISTEXT` (R496). -/
def distextAct (x : Nat) (i : Infl) : Act :=
  let d := distBase.getD i.dsym 0 + x
  if whave i < d then .bad .invalidDistance i else .good { i with dist := d, stage := .mat }

/-- `TRAILER` with `wrap = zlib` (R499). -/
def ztrlAct (adler : Word) (i : Infl) : Act :=
  if adler ≠ i.check then .bad .incorrectDataCheck i else .good { i with stage := .done }

/-- `TRAILER` with `wrap = gzip` (R499). -/
def gzCrcAct (crc : Word) (i : Infl) : Act :=
  if crc ≠ i.check then .bad .incorrectDataCheck i else .good { i with stage := .gzIsize }

/-- `GZ_ISIZE` (R500). -/
def gzIsizeAct (n : Word) (i : Infl) : Act :=
  if n ≠ i.isize then .bad .incorrectLengthCheck i else .good { i with stage := .done }

/-- The byte a match copies next (R497). -/
def matchByte (i : Infl) : Byte := memRead i.win ((i.produced - i.dist) % wsize i.wbits)

/-- One byte of a match copied (R497); called only with `length > 0` and `AVAIL_OUT > 0`. -/
def copyByte (c : InflCtx) : InflCtx :=
  let c1 := inflEmit (matchByte c.e) c
  { c1 with e := { c1.e with length := c1.e.length - 1 } }

/-- The decoded literal put out (R493); called only with `AVAIL_OUT > 0`. -/
def litByte (c : InflCtx) : InflCtx :=
  let c1 := inflEmit c.e.lit c
  { c1 with e := { c1.e with stage := .sym } }

/-- One byte of a stored block put out (R485); called only with `remaining > 0` and `AVAIL_OUT > 0`. -/
def storedByte (b : Byte) (c : InflCtx) : InflCtx :=
  let c1 := inflEmit b c
  { c1 with e := { c1.e with remaining := c1.e.remaining - 1 } }

/-! ## Micro-steps (R460, R470 to R502) -/

/-- How a micro-step ends (R463): it completes, suspends, stops (completes and ends the loop), or raises. -/
inductive Micro
  | complete (c : InflCtx)
  | suspend (c : InflCtx)
  | stop (c : InflCtx)
  | raised (e : Status) (c : InflCtx)
  deriving DecidableEq, Repr

/-- `BR.NEED n` in a micro-step: suspend, or go on (R465). -/
def needing (n : Nat) (c : InflCtx) (g : InflCtx → Micro) : Micro :=
  let r := brNeed n c
  if r.1 then g r.2 else .suspend r.2

/-- The end of an element of `n` bits: nothing is dropped when it raises; `halts` says that the rule stops after it. -/
def finish (n : Nat) (halts : Bool) (c : InflCtx) (a : Act) : Micro :=
  match a with
  | .bad e i => .raised e { c with e := i }
  | .good i => if halts then .stop { c with e := brDrop n i } else .complete { c with e := brDrop n i }

/-- A micro-step that reads one field of `n` bits. -/
def reading (n : Nat) (c : InflCtx) (act : Nat → Infl → Act) : Micro :=
  needing n c fun c1 => finish n false c1 (act (brPeek n c1.e) c1.e)

/-- A micro-step that reads no bits. -/
def silently (c : InflCtx) (i : Infl) : Micro := .complete { c with e := i }

/-- The byte `k` of a peeked number. -/
def byteOf (k v : Nat) : Byte := BitVec.ofNat 8 (v / 256 ^ k)

/-- Four peeked bytes read most significant first (R471, R499). -/
def beWord (v : Nat) : Word := BitVec.ofNat 32 (leNat (leBytes 4 v).reverse)

/-- `BLOCK_TYPE` (R482). -/
def blockTypeMicro (f : Flush) (c : InflCtx) : Micro :=
  if (f = .block ∨ f = .trees) ∧ c.e.fresh = false then .stop c
  else if c.e.last then silently c { brAlign c.e with stage := .trailer }
  else needing 3 c fun c1 =>
    let t := brPeek2 1 2 c1.e
    finish 3 (decide (t = 1) && f == .trees) c1 (blkhdrAct (decide (brPeek 1 c1.e = 1)) t c1.e)

/-- `STORED_LEN` (R484). `BR.ALIGN` comes before `BR.NEED 32`, as R484 writes it, and stays done when the micro-step suspends there:
up to 7 bits are then gone from `hold`, where R17 and R465 let a suspension change nothing but what was fetched (DESIGN CHOICE,
log 32). -/
def storedLenMicro (f : Flush) (c : InflCtx) : Micro :=
  needing 32 { c with e := brAlign c.e } fun c1 =>
    finish 32 (f == .trees) c1
      (stolenAct (BitVec.ofNat 16 (brPeek 16 c1.e)) (BitVec.ofNat 16 (brPeek2 16 16 c1.e)) c1.e)

/-- `STORED_COPY` (R485): the byte comes straight from the IN region, ahead of whole bytes that a reader operation on its own
has left in `hold` (DESIGN CHOICE, log 4). -/
def storedCopyMicro (c : InflCtx) : Micro :=
  if c.e.remaining = 0 then silently c { c.e with stage := .blockType }
  else if c.e.regs.availIn = 0 ∨ c.e.regs.availOut = 0 then .suspend c
  else
    .complete (storedByte (inByteVal c.e.regs c.bus)
      { e := { c.e with regs := inByteRegs c.e.regs c.bus }, bus := inByteBus c.e.regs c.bus })

/-- `DYN_CLENS` (R488). -/
def dynClensMicro (p : Params) (c : InflCtx) : Micro :=
  if c.e.nhave < c.e.ncode then reading 3 c fun v i => cllenAct (BitVec.ofNat 3 v) i
  else finish 0 false c (buildClt p c.e)

/-- `DYN_LENS` (R489, R490). A complete table decodes every bit pattern, so the `invalid` arm is not reached; it raises
`general` (R559, log 17). -/
def dynLensMicro (p : Params) (f : Flush) (c : InflCtx) : Micro :=
  if c.e.lens.length < c.e.nlen + c.e.ndist then
    match hdDecode c.e.clt maxClBits c with
    | (.more, c1) => .suspend c1
    | (.invalid, c1) => .raised .general c1
    | (.found s n, c1) =>
      needing (n + clXb s) c1 fun c2 => finish (n + clXb s) false c2 (clsymAct s (brPeek2 n (clXb s) c2.e) c2.e)
  else finish 0 (f == .trees) c (buildTables p c.e)

/-- `SYM` (R492). -/
def symMicro (c : InflCtx) : Micro :=
  match hdDecode c.e.ll maxBits c with
  | (.more, c1) => .suspend c1
  | (.invalid, c1) => .raised .invalidLiteralLength c1
  | (.found s n, c1) => finish n false c1 (symAct s c1.e)

/-- `LIT` (R493). -/
def litMicro (c : InflCtx) : Micro := if c.e.regs.availOut = 0 then .suspend c else .complete (litByte c)

/-- `DIST` (R495). -/
def distMicro (c : InflCtx) : Micro :=
  match hdDecode c.e.dt maxBits c with
  | (.more, c1) => .suspend c1
  | (.invalid, c1) => .raised .invalidDistanceCode c1
  | (.found s n, c1) => finish n false c1 (distAct s c1.e)

/-- `MATCH` (R497). -/
def matchMicro (c : InflCtx) : Micro :=
  if c.e.length = 0 then silently c { c.e with stage := .sym }
  else if c.e.regs.availOut = 0 then .suspend c
  else .complete (copyByte c)

/-- `TRAILER` (R499). -/
def trailerMicro (c : InflCtx) : Micro :=
  match c.e.wrap with
  | .none => .stop { c with e := { c.e with stage := .done } }
  | .zlib => needing 32 c fun c1 => finish 32 true c1 (ztrlAct (beWord (brPeek 32 c1.e)) c1.e)
  | .gzip => reading 32 c fun v i => gzCrcAct (BitVec.ofNat 32 v) i

/-- The micro-step selected by `stage` (R463). In `DONE` and `BAD` none runs (R501, R502): the loop is left. -/
def inflMicro (p : Params) (f : Flush) (c : InflCtx) : Micro :=
  match c.e.stage with
  | .zhdr => reading 16 c fun v i => zhdrAct (byteOf 0 v) (byteOf 1 v) i
  | .dictid => needing 32 c fun c1 => finish 0 false c1 (dictAct (beWord (brPeek 32 c1.e)) (brDrop 32 c1.e))
  | .gzMagic => reading 16 c fun v i => gzMagicAct (byteOf 0 v) (byteOf 1 v) i
  | .gzCmflg => reading 16 c fun v i => gzCmflgAct (byteOf 0 v) (byteOf 1 v) i
  | .gzMtime => reading 32 c fun v i => gzMtimeAct (BitVec.ofNat 32 v) i
  | .gzXflos => reading 16 c fun v i => gzXflosAct (byteOf 0 v) (byteOf 1 v) i
  | .gzExlen => reading 16 c fun v i => gzXlenAct (BitVec.ofNat 16 v) i
  | .gzExtra =>
    if c.e.xlen = 0 then silently c { c.e with stage := .gzName } else reading 8 c fun v i => gzExtraAct (byteOf 0 v) i
  | .gzName =>
    if gzFlag 3 c.e then reading 8 c fun v i => gzNameAct (byteOf 0 v) i
    else silently c { c.e with stage := .gzComment }
  | .gzComment =>
    if gzFlag 4 c.e then reading 8 c fun v i => gzCommentAct (byteOf 0 v) i
    else silently c { c.e with stage := .gzHcrc }
  | .gzHcrc =>
    if gzFlag 1 c.e then reading 16 c fun v i => gzHcrcAct (BitVec.ofNat 16 v) i
    else silently c { c.e with stage := .blockType }
  | .blockType => blockTypeMicro f c
  | .storedLen => storedLenMicro f c
  | .storedCopy => storedCopyMicro c
  | .dynCounts =>
    needing 14 c fun c1 =>
      finish 14 false c1
        (dynhdrAct (BitVec.ofNat 5 (brPeek 5 c1.e)) (BitVec.ofNat 5 (brPeek2 5 5 c1.e))
          (BitVec.ofNat 4 (brPeek2 10 4 c1.e)) c1.e)
  | .dynClens => dynClensMicro p c
  | .dynLens => dynLensMicro p f c
  | .sym => symMicro c
  | .lit => litMicro c
  | .lenext => reading (lenXb.getD c.e.lsym 0) c lenextAct
  | .dist => distMicro c
  | .distext => reading (distXb.getD c.e.dsym 0) c distextAct
  | .mat => matchMicro c
  | .trailer => trailerMicro c
  | .gzIsize => needing 32 c fun c1 => finish 32 true c1 (gzIsizeAct (BitVec.ofNat 32 (brPeek 32 c1.e)) c1.e)
  | .done | .bad => .suspend c

/-! ## The work loop (R463) and `WRITE` (R462, R466) -/

/-- How the work loop was left: by an error, or by a suspension or a stop. -/
inductive LoopEnd
  | error (e : Status) (c : InflCtx)
  | left (stopped : Bool) (c : InflCtx)
  deriving DecidableEq, Repr

/-- `fresh <- false` (R463). -/
def staleCtx (c : InflCtx) : InflCtx := { c with e := { c.e with fresh := false } }

/-- The work loop (R463), at most `n` micro-steps; `none` when it was not left within them. -/
def inflLoop (p : Params) (f : Flush) : Nat → InflCtx → Option LoopEnd
  | 0, _ => none
  | n + 1, c =>
    match inflMicro p f c with
    | .suspend c1 => some (.left false c1)
    | .raised e c1 => some (.error e c1)
    | .stop c1 => some (.left true c1)
    | .complete c1 => inflLoop p f n (staleCtx c1)

/-- More micro-steps than a `WRITE` can take (R516, R631; log 12). -/
def inflFuel (i : Infl) : Nat := 8 * (8 * i.regs.availIn.toNat + i.cnt + i.regs.availOut.toNat) + 8

/-- The return code (R466), from the registers at entry and the engine at the end. -/
def inflCode (f : Flush) (r0 : StreamRegs) (stopped : Bool) (i : Infl) : Status :=
  if i.stage = .done then .endOfStream
  else if f = .finish then .needBuffers
  else if stopped = true ∨ i.regs.totalIn ≠ r0.totalIn ∨ i.regs.totalOut ≠ r0.totalOut then .ok
  else .needBuffers

/-- The state after the work loop (R463, R466). -/
def inflEnd (f : Flush) (r0 : StreamRegs) (s : State) : LoopEnd → State
  | .error e c => withInfl { c with e := inflRaise e c.e } s
  | .left stopped c => withInfl { c with e := { c.e with ec := inflCode f r0 stopped c.e } } s

/-- The work of a `WRITE` that passed the entry checks (R462 step 5). -/
def inflRun (f : Flush) (s : State) : Result :=
  match inflLoop s.params f (inflFuel s.infl) ⟨{ s.infl with fresh := true }, s.bus⟩ with
  | none => .fault .workBound
  | some r => .next (inflEnd f s.infl.regs s r)

/-- `INFL.WRITE f` (R462): the entry checks in their order. -/
def inflWrite (f : Flush) (s : State) : Result :=
  let i := s.infl
  if i.configured = false then .next (inflReturn .streamError s)
  else if i.sticky ≠ .ok then .next (inflReturn i.sticky s)
  else if regionOk i.regs = false then .next (inflReturn .streamError s)
  else if i.stage = .done then .next (inflReturn .endOfStream s)
  else inflRun f s

/-! ## The commands -/

/-- `INFL.RESET` (R461). -/
def execInflReset (s : State) : Result := .next { s with infl := inflReset s.infl }

/-- `INFL.WRITE none` (R505). -/
def execInflWriteNone (s : State) : Result := inflWrite .none s

/-- `INFL.WRITE block` (R506). -/
def execInflWriteBlock (s : State) : Result := inflWrite .block s

/-- `INFL.WRITE partial` (R507). -/
def execInflWritePartial (s : State) : Result := inflWrite .part s

/-- `INFL.WRITE sync` (R508). -/
def execInflWriteSync (s : State) : Result := inflWrite .sync s

/-- `INFL.WRITE full` (R509). -/
def execInflWriteFull (s : State) : Result := inflWrite .full s

/-- `INFL.WRITE finish` (R511). -/
def execInflWriteFinish (s : State) : Result := inflWrite .finish s

/-- `INFL.WRITE trees` (R510). -/
def execInflWriteTrees (s : State) : Result := inflWrite .trees s

end Sys2Proof.Machine
end

