-- ==== Sys2Proof/Machine/Elements.lean ====
section
/-! DEFINITION. The stream elements as instructions (R120, R130 to R161): each takes its bits as fetched and does what
the stage rules of `INFL` do with it, where the engine is at a stage that reads its format (R149; log 5). -/

namespace Sys2Proof.Machine

/-! ## Where an element is read -/

/-- Whether the current stage reads an element of a format (R149, R470 to R500). -/
def readsFmt (fmt : Fmt) (i : Infl) : Bool :=
  match fmt with
  | .blkhdr | .pseudo => i.stage == .blockType && !i.last
  | .stolen => i.stage == .storedLen
  | .raw => i.stage == .storedCopy && decide (0 < i.remaining)
  | .dynhdr => i.stage == .dynCounts
  | .cllen => i.stage == .dynClens && decide (i.nhave < i.ncode)
  | .clsym => i.stage == .dynLens && decide (i.lens.length < i.nlen + i.ndist)
  | .llsym => i.stage == .sym
  | .dsym => i.stage == .dist
  | .zhdr => i.stage == .zhdr
  | .dictid => i.stage == .dictid
  | .ztrl => i.stage == .trailer && i.wrap == .zlib
  | .gzId => i.stage == .gzMagic
  | .gzCmflg => i.stage == .gzCmflg
  | .gzMtime => i.stage == .gzMtime
  | .gzXflos => i.stage == .gzXflos
  | .gzXlen => i.stage == .gzExlen
  | .gzExtra => i.stage == .gzExtra && decide (0 < i.xlen)
  | .gzName => i.stage == .gzName && gzFlag 3 i
  | .gzComment => i.stage == .gzComment && gzFlag 4 i
  | .gzHcrc => i.stage == .gzHcrc && gzFlag 1 i
  | .gzCrc => i.stage == .trailer && i.wrap == .gzip
  | .gzIsize => i.stage == .gzIsize

/-- Whether an element of a format can be given to the engine: configured (R556), no terminal error (R552), at a stage
that reads it. -/
def elementReady (fmt : Fmt) (i : Infl) : Bool := i.configured && i.sticky == .ok && readsFmt fmt i

/-- The number of the symbol a Huffman-coded element's bytes begin with, and its table (R142, R144, R146). -/
def symbolOf (fmt : Fmt) (bytes : List Byte) : Option (TableId × Nat) :=
  match fmt with
  | .llsym => some (.ll, leNat (bytes.take 2) % 512)
  | .dsym => some (.dt, leNat (bytes.take 1) % 32)
  | .clsym => some (.clt, leNat (bytes.take 1) % 32)
  | _ => none

/-- Whether a symbol of a Huffman code can be given to the engine: its format is read, and it has a code in its table (R441). -/
def symbolReady (fmt : Fmt) (t : TableId) (sym : Nat) (i : Infl) : Bool :=
  elementReady fmt i && (tableLens t i).getD sym 0 != 0

/-- Whether an element can be run as it is. -/
def canRun (fmt : Fmt) (bytes : List Byte) (i : Infl) : Bool :=
  match symbolOf fmt bytes with
  | some (t, n) => symbolReady fmt t n i
  | none => elementReady fmt i

/-- Whether the stage's micro-step reads no bits, so that the work loop passes it before the next element (R463). In an
unconfigured engine, and in a terminal error, no micro-step runs (R462, R556). -/
def isSilent (i : Infl) : Bool :=
  i.configured && i.sticky == .ok &&
  match i.stage with
  | .gzExtra => decide (i.xlen = 0)
  | .gzName => !gzFlag 3 i
  | .gzComment => !gzFlag 4 i
  | .gzHcrc => !gzFlag 1 i
  | .blockType => i.last
  | .storedCopy => decide (i.remaining = 0)
  | .dynClens => decide (i.ncode ≤ i.nhave)
  | .dynLens => decide (i.nlen + i.ndist ≤ i.lens.length)
  | .lit | .mat => true
  | .trailer => i.wrap == .none
  | _ => false

/-- The silent micro-steps before the next element, at most `n` of them. -/
def settleLoop (p : Params) : Nat → InflCtx → LoopEnd
  | 0, c => .left false c
  | n + 1, c =>
    if isSilent c.e then
      match inflMicro p .none c with
      | .complete c1 | .stop c1 => settleLoop p n c1
      | .suspend c1 => .left false c1
      | .raised e c1 => .error e c1
    else .left false c

/-- The silent micro-steps before the next element (R463): the rest of a match takes `length` of them, and no chain of
other silent stages is longer than six. -/
def settle (p : Params) (c : InflCtx) : LoopEnd := settleLoop p (c.e.length + 8) c

/-- The fetch of an element steps `hcrc` over its bytes in the stages of R213 (R275). -/
def fetchHcrc (bytes : List Byte) (i : Infl) : Infl :=
  if headerCrcStage i.stage then { i with hcrc := crc32 i.hcrc bytes } else i

/-! ## Running an element -/

/-- Put the outcome of an element back: an error is raised as in the work loop (R463; log 25). -/
def endAct (s : State) : Act → State
  | .good i => { s with infl := i }
  | .bad e i => { s with infl := inflRaise e i }

/-- The machine with the given bytes as the whole input of `INFL`. -/
def withInput (bytes : List Byte) (s : State) : State :=
  { s with
    infl := { s.infl with regs := { s.infl.regs with nextIn := 0, availIn := BitVec.ofNat 32 bytes.length } }
    bus := { s.bus with inMem := memOf bytes } }

/-- The host's input and its cursors as they were in `s`. -/
def restoreInput (s t : State) : State :=
  { t with
    infl := { t.infl with regs :=
      { t.infl.regs with nextIn := s.infl.regs.nextIn, availIn := s.infl.regs.availIn, totalIn := s.infl.regs.totalIn } }
    bus := { t.bus with inMem := s.bus.inMem } }

/-- Bytes that are no element of the format the stage reads: `INFL` takes them as it takes any bytes of the stream, by its
stage (R149), as `WRITE none` does, with the entry checks (R462) and the return code (R466). DESIGN CHOICE, log 5. -/
def streamBytes (bytes : List Byte) (s : State) : Result :=
  match inflWrite .none (withInput bytes s) with
  | .next t => .next (restoreInput s t)
  | r => r

/-- Run what the element `i` does, where its format is read; elsewhere its bytes are taken by the stage (log 5). -/
def element (fmt : Fmt) (i : Instr) (s : State) (act : Infl → Act) : Result :=
  if elementReady fmt s.infl then .next (endAct s (act s.infl)) else streamBytes (encode i) s

/-- The same for a symbol of a Huffman code. Where its format is read and it has no code in the table, no bits of a stream spell it
(R441): it is no element there, and its bytes are taken by the stage (DESIGN CHOICE, log 5). `after` is what the next stage
does at once. -/
def symbolElement (fmt : Fmt) (t : TableId) (sym : Nat) (i : Instr) (s : State) (act : Infl → Act) (after : State → State) :
    Result :=
  if symbolReady fmt t sym s.infl then .next (after (endAct s (act s.infl))) else streamBytes (encode i) s

/-- One action after another, unless the first raises. -/
def Act.andThen (a : Act) (g : Infl → Act) : Act :=
  match a with
  | .good i => g i
  | .bad e i => .bad e i

/-- The copy of a match as far as output space goes (R497), at most `n` bytes. -/
def copyLoop : Nat → InflCtx → InflCtx
  | 0, c => c
  | n + 1, c => if c.e.regs.availOut = 0 then c else copyLoop n (copyByte c)

/-- Stage `MATCH` until it suspends or the match is copied (R497). -/
def matchRun (c : InflCtx) : InflCtx :=
  let c1 := copyLoop c.e.length c
  if c1.e.length = 0 then { c1 with e := { c1.e with stage := .sym } } else c1

/-- Stage `MATCH` after a distance symbol (R497). There is no region check, which R99 gives to a `WRITE` (DESIGN CHOICE, log 5). -/
def afterDist (t : State) : State := if t.infl.stage = .mat then withInfl (matchRun ⟨t.infl, t.bus⟩) t else t

/-- Stage `LIT` after a literal (R493): the byte is put out at once where there is output space. There is no region check,
which R99 gives to a `WRITE` (DESIGN CHOICE, log 5). -/
def afterLit (t : State) : State := if t.infl.regs.availOut = 0 then t else withInfl (litByte ⟨t.infl, t.bus⟩) t

/-- A length symbol with its extra value (R492, R494). -/
def lenElement (k x : Nat) (i : Instr) (s : State) : Result :=
  symbolElement .llsym .ll k i s (fun j => (symAct k j).andThen (lenextAct x)) id

/-- A distance symbol with its extra value (R495, R496), and the copy (R497). -/
def distElement (k x : Nat) (i : Instr) (s : State) : Result :=
  symbolElement .dsym .dt k i s (fun j => (distAct k j).andThen (distextAct x)) afterDist

/-- A code-length symbol with its extra value (R489). -/
def clElement (k x : Nat) (i : Instr) (s : State) : Result := symbolElement .clsym .clt k i s (clsymAct k x) id

/-! ## Blocks -/

/-- `BLKHDR.STORED` (R131, R482). -/
def execBlkhdrStored (final : Bool) (s : State) : Result := element .blkhdr (.blkhdrStored final) s (blkhdrAct final 0)

/-- `BLKHDR.FIXED` (R131, R482): the fixed tables are selected (R446). -/
def execBlkhdrFixed (final : Bool) (s : State) : Result := element .blkhdr (.blkhdrFixed final) s (blkhdrAct final 1)

/-- `BLKHDR.DYNAMIC` (R131, R482). -/
def execBlkhdrDynamic (final : Bool) (s : State) : Result := element .blkhdr (.blkhdrDynamic final) s (blkhdrAct final 2)

/-- `BLKHDR.RESERVED` (R131, R482): `invalid_block_type`. -/
def execBlkhdrReserved (final : Bool) (s : State) : Result := element .blkhdr (.blkhdrReserved final) s (blkhdrAct final 3)

/-- `STOLEN` (R132, R484): the partial byte in hand is dropped first. -/
def execStolen (len nlen : BitVec 16) (s : State) : Result := element .stolen (.stolen len nlen) s fun i => stolenAct len nlen (brAlign i)

/-- `STORED.RAW` (R132, R485): it waits, nothing changed, while there is no output space. Requested on its own it makes no region
check, which R99 gives to a `WRITE`: it writes `OUT` also where the region passes the last address (DESIGN CHOICE, log 5). -/
def execStoredRaw (b : Byte) (s : State) : Result :=
  if elementReady .raw s.infl then
    .next (if s.infl.regs.availOut = 0 then s else withInfl (storedByte b ⟨s.infl, s.bus⟩) s)
  else streamBytes (encode (.storedRaw b)) s

/-- `DYNHDR` (R134, R487). -/
def execDynhdr (hlit hdist : BitVec 5) (hclen : BitVec 4) (s : State) : Result :=
  element .dynhdr (.dynhdr hlit hdist hclen) s (dynhdrAct hlit hdist hclen)

/-- `CLLEN` (R135, R488). -/
def execCllen (len : BitVec 3) (s : State) : Result := element .cllen (.cllen len) s (cllenAct len)

/-- `CLSYM.LEN` (R146, R489). -/
def execClsymLen (v : BitVec 4) (s : State) : Result := clElement v.toNat 0 (.clsymLen v) s

/-- `CLSYM.REP16` (R146, R489). -/
def execClsymRep16 (x : BitVec 2) (s : State) : Result := clElement 16 x.toNat (.clsymRep16 x) s

/-- `CLSYM.ZERO17` (R146, R489). -/
def execClsymZero17 (x : BitVec 3) (s : State) : Result := clElement 17 x.toNat (.clsymZero17 x) s

/-- `CLSYM.ZERO18` (R146, R489). -/
def execClsymZero18 (x : BitVec 7) (s : State) : Result := clElement 18 x.toNat (.clsymZero18 x) s

/-! ## Literal/length symbols -/

/-- `LIT` (R142, R492, R493): the byte is put out at once where there is output space. -/
def execLit (b : Byte) (s : State) : Result :=
  symbolElement .llsym .ll b.toNat (.lit b) s (symAct b.toNat) afterLit

/-- `EOB` (R142, R492): the block ends. -/
def execEob (s : State) : Result := symbolElement .llsym .ll 256 .eob s (symAct 256) id

/-- `LEN.257` (R143): length 3. -/
def execLen257 (s : State) : Result := lenElement 257 0 .len257 s

/-- `LEN.258` (R143): length 4. -/
def execLen258 (s : State) : Result := lenElement 258 0 .len258 s

/-- `LEN.259` (R143): length 5. -/
def execLen259 (s : State) : Result := lenElement 259 0 .len259 s

/-- `LEN.260` (R143): length 6. -/
def execLen260 (s : State) : Result := lenElement 260 0 .len260 s

/-- `LEN.261` (R143): length 7. -/
def execLen261 (s : State) : Result := lenElement 261 0 .len261 s

/-- `LEN.262` (R143): length 8. -/
def execLen262 (s : State) : Result := lenElement 262 0 .len262 s

/-- `LEN.263` (R143): length 9. -/
def execLen263 (s : State) : Result := lenElement 263 0 .len263 s

/-- `LEN.264` (R143): length 10. -/
def execLen264 (s : State) : Result := lenElement 264 0 .len264 s

/-- `LEN.265` (R143): length 11 + x. -/
def execLen265 (x : BitVec 1) (s : State) : Result := lenElement 265 x.toNat (.len265 x) s

/-- `LEN.266` (R143): length 13 + x. -/
def execLen266 (x : BitVec 1) (s : State) : Result := lenElement 266 x.toNat (.len266 x) s

/-- `LEN.267` (R143): length 15 + x. -/
def execLen267 (x : BitVec 1) (s : State) : Result := lenElement 267 x.toNat (.len267 x) s

/-- `LEN.268` (R143): length 17 + x. -/
def execLen268 (x : BitVec 1) (s : State) : Result := lenElement 268 x.toNat (.len268 x) s

/-- `LEN.269` (R143): length 19 + x. -/
def execLen269 (x : BitVec 2) (s : State) : Result := lenElement 269 x.toNat (.len269 x) s

/-- `LEN.270` (R143): length 23 + x. -/
def execLen270 (x : BitVec 2) (s : State) : Result := lenElement 270 x.toNat (.len270 x) s

/-- `LEN.271` (R143): length 27 + x. -/
def execLen271 (x : BitVec 2) (s : State) : Result := lenElement 271 x.toNat (.len271 x) s

/-- `LEN.272` (R143): length 31 + x. -/
def execLen272 (x : BitVec 2) (s : State) : Result := lenElement 272 x.toNat (.len272 x) s

/-- `LEN.273` (R143): length 35 + x. -/
def execLen273 (x : BitVec 3) (s : State) : Result := lenElement 273 x.toNat (.len273 x) s

/-- `LEN.274` (R143): length 43 + x. -/
def execLen274 (x : BitVec 3) (s : State) : Result := lenElement 274 x.toNat (.len274 x) s

/-- `LEN.275` (R143): length 51 + x. -/
def execLen275 (x : BitVec 3) (s : State) : Result := lenElement 275 x.toNat (.len275 x) s

/-- `LEN.276` (R143): length 59 + x. -/
def execLen276 (x : BitVec 3) (s : State) : Result := lenElement 276 x.toNat (.len276 x) s

/-- `LEN.277` (R143): length 67 + x. -/
def execLen277 (x : BitVec 4) (s : State) : Result := lenElement 277 x.toNat (.len277 x) s

/-- `LEN.278` (R143): length 83 + x. -/
def execLen278 (x : BitVec 4) (s : State) : Result := lenElement 278 x.toNat (.len278 x) s

/-- `LEN.279` (R143): length 99 + x. -/
def execLen279 (x : BitVec 4) (s : State) : Result := lenElement 279 x.toNat (.len279 x) s

/-- `LEN.280` (R143): length 115 + x. -/
def execLen280 (x : BitVec 4) (s : State) : Result := lenElement 280 x.toNat (.len280 x) s

/-- `LEN.281` (R143): length 131 + x. -/
def execLen281 (x : BitVec 5) (s : State) : Result := lenElement 281 x.toNat (.len281 x) s

/-- `LEN.282` (R143): length 163 + x. -/
def execLen282 (x : BitVec 5) (s : State) : Result := lenElement 282 x.toNat (.len282 x) s

/-- `LEN.283` (R143): length 195 + x. -/
def execLen283 (x : BitVec 5) (s : State) : Result := lenElement 283 x.toNat (.len283 x) s

/-- `LEN.284` (R143): length 227 + x. -/
def execLen284 (x : BitVec 5) (s : State) : Result := lenElement 284 x.toNat (.len284 x) s

/-- `LEN.285` (R143): length 258. -/
def execLen285 (s : State) : Result := lenElement 285 0 .len285 s

/-- `LLSYM.RESERVED` (R148, R492): symbols 286 and 287 of the fixed code, `invalid_literal_length`. -/
def execLlsymReserved (hi : Bool) (s : State) : Result :=
  symbolElement .llsym .ll (286 + hi.toNat) (.llsymReserved hi) s (symAct (286 + hi.toNat)) id

/-! ## Distance symbols -/

/-- `DIST.0` (R144): distance 1. -/
def execDist0 (s : State) : Result := distElement 0 0 .dist0 s

/-- `DIST.1` (R144): distance 2. -/
def execDist1 (s : State) : Result := distElement 1 0 .dist1 s

/-- `DIST.2` (R144): distance 3. -/
def execDist2 (s : State) : Result := distElement 2 0 .dist2 s

/-- `DIST.3` (R144): distance 4. -/
def execDist3 (s : State) : Result := distElement 3 0 .dist3 s

/-- `DIST.4` (R144): distance 5 + x. -/
def execDist4 (x : BitVec 1) (s : State) : Result := distElement 4 x.toNat (.dist4 x) s

/-- `DIST.5` (R144): distance 7 + x. -/
def execDist5 (x : BitVec 1) (s : State) : Result := distElement 5 x.toNat (.dist5 x) s

/-- `DIST.6` (R144): distance 9 + x. -/
def execDist6 (x : BitVec 2) (s : State) : Result := distElement 6 x.toNat (.dist6 x) s

/-- `DIST.7` (R144): distance 13 + x. -/
def execDist7 (x : BitVec 2) (s : State) : Result := distElement 7 x.toNat (.dist7 x) s

/-- `DIST.8` (R144): distance 17 + x. -/
def execDist8 (x : BitVec 3) (s : State) : Result := distElement 8 x.toNat (.dist8 x) s

/-- `DIST.9` (R144): distance 25 + x. -/
def execDist9 (x : BitVec 3) (s : State) : Result := distElement 9 x.toNat (.dist9 x) s

/-- `DIST.10` (R144): distance 33 + x. -/
def execDist10 (x : BitVec 4) (s : State) : Result := distElement 10 x.toNat (.dist10 x) s

/-- `DIST.11` (R144): distance 49 + x. -/
def execDist11 (x : BitVec 4) (s : State) : Result := distElement 11 x.toNat (.dist11 x) s

/-- `DIST.12` (R144): distance 65 + x. -/
def execDist12 (x : BitVec 5) (s : State) : Result := distElement 12 x.toNat (.dist12 x) s

/-- `DIST.13` (R144): distance 97 + x. -/
def execDist13 (x : BitVec 5) (s : State) : Result := distElement 13 x.toNat (.dist13 x) s

/-- `DIST.14` (R144): distance 129 + x. -/
def execDist14 (x : BitVec 6) (s : State) : Result := distElement 14 x.toNat (.dist14 x) s

/-- `DIST.15` (R144): distance 193 + x. -/
def execDist15 (x : BitVec 6) (s : State) : Result := distElement 15 x.toNat (.dist15 x) s

/-- `DIST.16` (R144): distance 257 + x. -/
def execDist16 (x : BitVec 7) (s : State) : Result := distElement 16 x.toNat (.dist16 x) s

/-- `DIST.17` (R144): distance 385 + x. -/
def execDist17 (x : BitVec 7) (s : State) : Result := distElement 17 x.toNat (.dist17 x) s

/-- `DIST.18` (R144): distance 513 + x. -/
def execDist18 (x : BitVec 8) (s : State) : Result := distElement 18 x.toNat (.dist18 x) s

/-- `DIST.19` (R144): distance 769 + x. -/
def execDist19 (x : BitVec 8) (s : State) : Result := distElement 19 x.toNat (.dist19 x) s

/-- `DIST.20` (R144): distance 1025 + x. -/
def execDist20 (x : BitVec 9) (s : State) : Result := distElement 20 x.toNat (.dist20 x) s

/-- `DIST.21` (R144): distance 1537 + x. -/
def execDist21 (x : BitVec 9) (s : State) : Result := distElement 21 x.toNat (.dist21 x) s

/-- `DIST.22` (R144): distance 2049 + x. -/
def execDist22 (x : BitVec 10) (s : State) : Result := distElement 22 x.toNat (.dist22 x) s

/-- `DIST.23` (R144): distance 3073 + x. -/
def execDist23 (x : BitVec 10) (s : State) : Result := distElement 23 x.toNat (.dist23 x) s

/-- `DIST.24` (R144): distance 4097 + x. -/
def execDist24 (x : BitVec 11) (s : State) : Result := distElement 24 x.toNat (.dist24 x) s

/-- `DIST.25` (R144): distance 6145 + x. -/
def execDist25 (x : BitVec 11) (s : State) : Result := distElement 25 x.toNat (.dist25 x) s

/-- `DIST.26` (R144): distance 8193 + x. -/
def execDist26 (x : BitVec 12) (s : State) : Result := distElement 26 x.toNat (.dist26 x) s

/-- `DIST.27` (R144): distance 12289 + x. -/
def execDist27 (x : BitVec 12) (s : State) : Result := distElement 27 x.toNat (.dist27 x) s

/-- `DIST.28` (R144): distance 16385 + x. -/
def execDist28 (x : BitVec 13) (s : State) : Result := distElement 28 x.toNat (.dist28 x) s

/-- `DIST.29` (R144): distance 24577 + x. -/
def execDist29 (x : BitVec 13) (s : State) : Result := distElement 29 x.toNat (.dist29 x) s

/-- `DSYM.RESERVED` (R148, R495): symbols 30 and 31 of the fixed code, `invalid_distance_code`. -/
def execDsymReserved (hi : Bool) (s : State) : Result :=
  symbolElement .dsym .dt (30 + hi.toNat) (.dsymReserved hi) s (distAct (30 + hi.toNat)) id

/-! ## Containers -/

/-- `ZHDR` (R150, R470). -/
def execZhdr (cmf flg : Byte) (s : State) : Result := element .zhdr (.zhdr cmf flg) s (zhdrAct cmf flg)

/-- `ZDICTID` (R150, R471): `need_dict`, with the identifier in `DICTID`. -/
def execZdictid (id : Word) (s : State) : Result := element .dictid (.zdictid id) s (dictAct id)

/-- `ZTRL` (R152, R499). -/
def execZtrl (adler : Word) (s : State) : Result := element .ztrl (.ztrl adler) s (ztrlAct adler)

/-- `GZ.MAGIC` (R155, R472). -/
def execGzMagic (id1 id2 : Byte) (s : State) : Result := element .gzId (.gzMagic id1 id2) s (gzMagicAct id1 id2)

/-- `GZ.CMFLG` (R155, R156, R473). -/
def execGzCmflg (cm flg : Byte) (s : State) : Result := element .gzCmflg (.gzCmflg cm flg) s (gzCmflgAct cm flg)

/-- `GZ.MTIME` (R155, R474). -/
def execGzMtime (t : Word) (s : State) : Result := element .gzMtime (.gzMtime t) s (gzMtimeAct t)

/-- `GZ.XFLOS` (R155, R475). -/
def execGzXflos (xfl os : Byte) (s : State) : Result := element .gzXflos (.gzXflos xfl os) s (gzXflosAct xfl os)

/-- `GZ.XLEN` (R157, R476). -/
def execGzXlen (n : BitVec 16) (s : State) : Result := element .gzXlen (.gzXlen n) s (gzXlenAct n)

/-- `GZ.EXTRA` (R157, R477). -/
def execGzExtra (b : Byte) (s : State) : Result := element .gzExtra (.gzExtra b) s (gzExtraAct b)

/-- `GZ.NAME` (R157, R478). -/
def execGzName (b : Byte) (s : State) : Result := element .gzName (.gzName b) s (gzNameAct b)

/-- `GZ.COMMENT` (R157, R479). -/
def execGzComment (b : Byte) (s : State) : Result := element .gzComment (.gzComment b) s (gzCommentAct b)

/-- `GZ.HCRC` (R157, R480). -/
def execGzHcrc (c : BitVec 16) (s : State) : Result := element .gzHcrc (.gzHcrc c) s (gzHcrcAct c)

/-- `GZ.CRC32` (R158, R499). -/
def execGzCrc32 (c : Word) (s : State) : Result := element .gzCrc (.gzCrc32 c) s (gzCrcAct c)

/-- `GZ.ISIZE` (R158, R500). -/
def execGzIsize (n : Word) (s : State) : Result := element .gzIsize (.gzIsize n) s (gzIsizeAct n)

/-! ## Pseudo-elements (R161; log 24) -/

/-- The end of an empty stored block (R485 with `remaining = 0`). -/
def storedEndAct (i : Infl) : Act := .good { i with stage := .blockType }

/-- `SYNC_MARKER` (R161): a stored block header, alignment, and `00 00 ff ff`. -/
def execSyncMarker (s : State) : Result :=
  element .pseudo .syncMarker s fun i =>
    ((blkhdrAct false 0 i).andThen fun j => stolenAct 0 0xFFFF (brAlign j)).andThen storedEndAct

/-- `PARTIAL_MARKER` (R161): a fixed block header and an end of block. -/
def execPartialMarker (s : State) : Result := element .pseudo .partialMarker s fun i => (blkhdrAct false 1 i).andThen (symAct 256)

/-- `EMPTY_FINAL` (R161): a final fixed block header and an end of block. -/
def execEmptyFinal (s : State) : Result := element .pseudo .emptyFinal s fun i => (blkhdrAct true 1 i).andThen (symAct 256)

end Sys2Proof.Machine
end

