-- ==== Sys2Proof/Machine/HostBus.lean ====
section
/-! DEFINITION. The host's side (R21 to R29, R535): reading and writing the register space, illegal command words (R125),
the host's accesses to its own buffers (R80), the hardware reset event (R600), and what surrounds a stream element or a
unit operation that is requested on its own. -/

namespace Sys2Proof.Machine

/-! ## 64-bit counters as two registers (R22, R93) -/

/-- The low word of a counter. -/
def lowWord (t : DWord) : Word := t.extractLsb' 0 32

/-- The high word of a counter. -/
def highWord (t : DWord) : Word := t.extractLsb' 32 32

/-- Write the low word of a counter. -/
def setLow (t : DWord) (v : Word) : DWord := highWord t ++ v

/-- Write the high word of a counter. -/
def setHigh (t : DWord) (v : Word) : DWord := v ++ lowWord t

/-! ## Reading registers -/

/-- A read in an engine bank (R22): `CMD` reads 0 (R25), and so does every offset not listed (R21). -/
def bankRead (status config check dictid : Word) (r : StreamRegs) (off : Nat) : Word :=
  match off with
  | 0x04 => status
  | 0x08 => config
  | 0x10 => r.nextIn
  | 0x14 => r.availIn
  | 0x18 => r.nextOut
  | 0x1C => r.availOut
  | 0x20 => lowWord r.totalIn
  | 0x24 => highWord r.totalIn
  | 0x28 => lowWord r.totalOut
  | 0x2C => highWord r.totalOut
  | 0x30 => check
  | 0x34 => dictid
  | _ => 0

/-- A read in the `CKS` bank (R23). -/
def cksRead (c : Cks) (off : Nat) : Word :=
  match off with
  | 0x04 => cksStatus c
  | 0x10 => c.nextIn
  | 0x14 => c.availIn
  | 0x20 => c.adler
  | 0x24 => c.crc
  | _ => 0

/-- The value of a `REG` offset (R21 to R23): the banks at `0x000`, `0x100` and `0x200`; `DICTID` reads 0 in the `DEFL`
bank. Reads have no side effect (R535). -/
def readReg (off : BitVec 12) (s : State) : Word :=
  match off.toNat / 256 with
  | 0 => bankRead (deflStatus s.defl) s.defl.config s.defl.check 0 s.defl.regs (off.toNat % 256)
  | 1 => bankRead (inflStatus s.infl) s.infl.config s.infl.check s.infl.dictid s.infl.regs (off.toNat % 256)
  | 2 => cksRead s.cks (off.toNat % 256)
  | _ => 0

/-! ## Writing registers -/

/-- A write to a stream parameter register (R22, R24); other offsets are ignored (R535). -/
def streamWrite (off : Nat) (v : Word) (r : StreamRegs) : StreamRegs :=
  match off with
  | 0x10 => { r with nextIn := v }
  | 0x14 => { r with availIn := v }
  | 0x18 => { r with nextOut := v }
  | 0x1C => { r with availOut := v }
  | 0x20 => { r with totalIn := setLow r.totalIn v }
  | 0x24 => { r with totalIn := setHigh r.totalIn v }
  | 0x28 => { r with totalOut := setLow r.totalOut v }
  | 0x2C => { r with totalOut := setHigh r.totalOut v }
  | _ => r

/-- A write in the `DEFL` bank, `CMD` apart (R22, R27). -/
def deflWriteReg (off : Nat) (v : Word) (d : Defl) : Defl :=
  if off = 0x08 then { d with config := v } else { d with regs := streamWrite off v d.regs }

/-- A write in the `INFL` bank, `CMD` apart (R22, R27). -/
def inflWriteReg (off : Nat) (v : Word) (i : Infl) : Infl :=
  if off = 0x08 then { i with config := v } else { i with regs := streamWrite off v i.regs }

/-- A write in the `CKS` bank, `CKS_CMD` apart (R23). -/
def cksWriteReg (off : Nat) (v : Word) (c : Cks) : Cks :=
  match off with
  | 0x10 => { c with nextIn := v }
  | 0x14 => { c with availIn := v }
  | 0x20 => { c with adler := v }
  | 0x24 => { c with crc := v }
  | _ => c

/-- A write to a `REG` offset that is no command register (R21 to R23, R535): read-only and unlisted offsets ignore it. -/
def writeReg (off : BitVec 12) (v : Word) (s : State) : State :=
  match off.toNat / 256 with
  | 0 => { s with defl := deflWriteReg (off.toNat % 256) v s.defl }
  | 1 => { s with infl := inflWriteReg (off.toNat % 256) v s.infl }
  | 2 => { s with cks := cksWriteReg (off.toNat % 256) v s.cks }
  | _ => s

/-! ## Commands -/

/-- The command register at an offset (R22, R23). -/
def commandPort (off : BitVec 12) : Option Port :=
  match off.toNat with
  | 0x000 => some .deflCmd
  | 0x100 => some .inflCmd
  | 0x200 => some .cksCmd
  | _ => none

/-- An illegal command word (R125, R555): the code alone, nothing else, not sticky. -/
def illegalCommand (p : Port) (s : State) : State :=
  match p with
  | .deflCmd => deflReturn .streamError s
  | .inflCmd => inflReturn .streamError s
  | .cksCmd => cksReturn .streamError s
  | .uop | .element _ => s

/-! ## The host's buffers and the reset pin -/

/-- The host stores a byte in `IN` (R80; log 19). -/
def storeIn (a : Word) (b : Byte) (s : State) : State :=
  { s with bus := { s.bus with inMem := memWrite s.bus.inMem a.toNat b } }

/-- The host loads a byte from `OUT` (R80; log 19). -/
def loadOut (a : Word) (s : State) : State := { s with readData := (memRead s.bus.outMem a.toNat).zeroExtend 32 }

/-- The hardware reset event (R600, R70 left column): the block, and nothing that is the host's (log 20). -/
def hardwareReset (s : State) : State := { s with defl := .reset, infl := .reset, cks := .reset }

/-! ## A stream element requested on its own (log 5) -/

/-- Before an element: the silent micro-steps, then, where it can now be run, the header checksum over its bytes; or the error
a silent micro-step raised, which ends the request as it ends a `WRITE` (R463). Where it cannot be run nothing is done here. An unconfigured engine runs no micro-step (R556), and as for a unit operation there is no region
check (R99). DESIGN CHOICE, log 5. -/
def fetchElement (fmt : Fmt) (bytes : List Byte) (s : State) : Except State State :=
  match settle s.params ⟨s.infl, s.bus⟩ with
  | .error e c => .error (withInfl { c with e := inflRaise e c.e } s)
  | .left _ c => .ok (if canRun fmt bytes c.e then withInfl { c with e := fetchHcrc bytes c.e } s else s)

/-- A complete code-length code in which each of the 19 symbols has a code: 13 of 4 bits, 6 of 5 bits. -/
def wholeClt : Lens := List.replicate 13 4 ++ List.replicate 6 5

/-- `INFL` brought to a stage that reads a format (log 2). -/
def atStage (fmt : Fmt) (i : Infl) : Infl :=
  let j := { i with configured := true, sticky := .ok }
  match fmt with
  | .blkhdr | .pseudo => { j with stage := .blockType, last := false }
  | .stolen => { j with stage := .storedLen }
  | .raw => { j with stage := .storedCopy, remaining := 1 }
  | .dynhdr => { j with stage := .dynCounts }
  | .cllen => { j with stage := .dynClens, ncode := 19, nhave := 0, cl := List.replicate 19 0 }
  | .clsym => { j with stage := .dynLens, nlen := 257, ndist := 1, lens := [], clt := wholeClt }
  | .llsym => { j with stage := .sym, ll := fixLl, dt := fixD }
  | .dsym => { j with stage := .dist, ll := fixLl, dt := fixD, length := 3 }
  | .zhdr => { j with stage := .zhdr, wrap := .zlib }
  | .dictid => { j with stage := .dictid, wrap := .zlib }
  | .ztrl => { j with stage := .trailer, wrap := .zlib }
  | .gzId => { j with stage := .gzMagic, wrap := .gzip }
  | .gzCmflg => { j with stage := .gzCmflg, wrap := .gzip }
  | .gzMtime => { j with stage := .gzMtime, wrap := .gzip }
  | .gzXflos => { j with stage := .gzXflos, wrap := .gzip }
  | .gzXlen => { j with stage := .gzExlen, wrap := .gzip }
  | .gzExtra => { j with stage := .gzExtra, wrap := .gzip, xlen := 1 }
  | .gzName => { j with stage := .gzName, wrap := .gzip, gzflags := j.gzflags ||| 0x08 }
  | .gzComment => { j with stage := .gzComment, wrap := .gzip, gzflags := j.gzflags ||| 0x10 }
  | .gzHcrc => { j with stage := .gzHcrc, wrap := .gzip, gzflags := j.gzflags ||| 0x02 }
  | .gzCrc => { j with stage := .trailer, wrap := .gzip }
  | .gzIsize => { j with stage := .gzIsize, wrap := .gzip }

/-- `INFL` prepared for an element that stands next: unchanged where it can be run as it is (log 2). -/
def expecting (fmt : Fmt) (bytes : List Byte) (i : Infl) : Infl := if canRun fmt bytes i then i else atStage fmt i

/-- `DEFL` prepared for a unit operation that stands next: `LZ.STEP` needs a byte ahead and an open block with room (R302,
R43; log 2). -/
def stepping (bytes : List Byte) (d : Defl) : Defl :=
  if bytes.head? = some 0x52 ∧ canLzStep d = false then
    { d with data := d.data ++ List.replicate (d.pos + 1 - dataEnd d) 0, syms := [], blockStart := d.emitPos }
  else d

end Sys2Proof.Machine
end

