-- ==== Sys2Proof/Machine/Dispatch.lean ====
section
/-! DEFINITION. The dispatch from an instruction to its meaning: one arm for each constructor of `Instr`. -/

namespace Sys2Proof.Machine

def exec (i : Instr) (s : State) : Host.Outcome State Fault Refusal :=
  match i with
  | .deflReset => Sys2Proof.Machine.execDeflReset s
  | .deflWriteNone => Sys2Proof.Machine.execDeflWriteNone s
  | .deflWriteBlock => Sys2Proof.Machine.execDeflWriteBlock s
  | .deflWritePartial => Sys2Proof.Machine.execDeflWritePartial s
  | .deflWriteSync => Sys2Proof.Machine.execDeflWriteSync s
  | .deflWriteFull => Sys2Proof.Machine.execDeflWriteFull s
  | .deflWriteFinish => Sys2Proof.Machine.execDeflWriteFinish s
  | .deflWriteTrees => Sys2Proof.Machine.execDeflWriteTrees s
  | .inflReset => Sys2Proof.Machine.execInflReset s
  | .inflWriteNone => Sys2Proof.Machine.execInflWriteNone s
  | .inflWriteBlock => Sys2Proof.Machine.execInflWriteBlock s
  | .inflWritePartial => Sys2Proof.Machine.execInflWritePartial s
  | .inflWriteSync => Sys2Proof.Machine.execInflWriteSync s
  | .inflWriteFull => Sys2Proof.Machine.execInflWriteFull s
  | .inflWriteFinish => Sys2Proof.Machine.execInflWriteFinish s
  | .inflWriteTrees => Sys2Proof.Machine.execInflWriteTrees s
  | .cksAdlerUpdate => Sys2Proof.Machine.execCksAdlerUpdate s
  | .cksCrcUpdate => Sys2Proof.Machine.execCksCrcUpdate s
  | .bwPut v n => Sys2Proof.Machine.execBwPut v n s
  | .bwPutcode c n => Sys2Proof.Machine.execBwPutcode c n s
  | .bwAlign => Sys2Proof.Machine.execBwAlign s
  | .bwTake => Sys2Proof.Machine.execBwTake s
  | .brNeed n => Sys2Proof.Machine.execBrNeed n s
  | .brPeek k n => Sys2Proof.Machine.execBrPeek k n s
  | .brDrop n => Sys2Proof.Machine.execBrDrop n s
  | .brGet n => Sys2Proof.Machine.execBrGet n s
  | .brAlign => Sys2Proof.Machine.execBrAlign s
  | .adlerStep a b => Sys2Proof.Machine.execAdlerStep a b s
  | .crcStep c b => Sys2Proof.Machine.execCrcStep c b s
  | .hdrZenc => Sys2Proof.Machine.execHdrZenc s
  | .hdrGzenc => Sys2Proof.Machine.execHdrGzenc s
  | .hdrTrailer => Sys2Proof.Machine.execHdrTrailer s
  | .lzInsert p => Sys2Proof.Machine.execLzInsert p s
  | .lzFind p chain => Sys2Proof.Machine.execLzFind p chain s
  | .lzStep => Sys2Proof.Machine.execLzStep s
  | .lzClear => Sys2Proof.Machine.execLzClear s
  | .hbBuild freq max => Sys2Proof.Machine.execHbBuild freq max s
  | .hbCanon lens max => Sys2Proof.Machine.execHbCanon lens max s
  | .hbRle lens => Sys2Proof.Machine.execHbRle lens s
  | .hbPlan toks => Sys2Proof.Machine.execHbPlan toks s
  | .hbEmitHeader => Sys2Proof.Machine.execHbEmitHeader s
  | .hbEmitSymbols => Sys2Proof.Machine.execHbEmitSymbols s
  | .hdBuild lens max kind => Sys2Proof.Machine.execHdBuild lens max kind s
  | .hdDecode t => Sys2Proof.Machine.execHdDecode t s
  | .blkhdrStored final => Sys2Proof.Machine.execBlkhdrStored final s
  | .blkhdrFixed final => Sys2Proof.Machine.execBlkhdrFixed final s
  | .blkhdrDynamic final => Sys2Proof.Machine.execBlkhdrDynamic final s
  | .blkhdrReserved final => Sys2Proof.Machine.execBlkhdrReserved final s
  | .stolen len nlen => Sys2Proof.Machine.execStolen len nlen s
  | .storedRaw b => Sys2Proof.Machine.execStoredRaw b s
  | .dynhdr hlit hdist hclen => Sys2Proof.Machine.execDynhdr hlit hdist hclen s
  | .cllen len => Sys2Proof.Machine.execCllen len s
  | .clsymLen v => Sys2Proof.Machine.execClsymLen v s
  | .clsymRep16 x => Sys2Proof.Machine.execClsymRep16 x s
  | .clsymZero17 x => Sys2Proof.Machine.execClsymZero17 x s
  | .clsymZero18 x => Sys2Proof.Machine.execClsymZero18 x s
  | .lit b => Sys2Proof.Machine.execLit b s
  | .eob => Sys2Proof.Machine.execEob s
  | .len257 => Sys2Proof.Machine.execLen257 s
  | .len258 => Sys2Proof.Machine.execLen258 s
  | .len259 => Sys2Proof.Machine.execLen259 s
  | .len260 => Sys2Proof.Machine.execLen260 s
  | .len261 => Sys2Proof.Machine.execLen261 s
  | .len262 => Sys2Proof.Machine.execLen262 s
  | .len263 => Sys2Proof.Machine.execLen263 s
  | .len264 => Sys2Proof.Machine.execLen264 s
  | .len265 x => Sys2Proof.Machine.execLen265 x s
  | .len266 x => Sys2Proof.Machine.execLen266 x s
  | .len267 x => Sys2Proof.Machine.execLen267 x s
  | .len268 x => Sys2Proof.Machine.execLen268 x s
  | .len269 x => Sys2Proof.Machine.execLen269 x s
  | .len270 x => Sys2Proof.Machine.execLen270 x s
  | .len271 x => Sys2Proof.Machine.execLen271 x s
  | .len272 x => Sys2Proof.Machine.execLen272 x s
  | .len273 x => Sys2Proof.Machine.execLen273 x s
  | .len274 x => Sys2Proof.Machine.execLen274 x s
  | .len275 x => Sys2Proof.Machine.execLen275 x s
  | .len276 x => Sys2Proof.Machine.execLen276 x s
  | .len277 x => Sys2Proof.Machine.execLen277 x s
  | .len278 x => Sys2Proof.Machine.execLen278 x s
  | .len279 x => Sys2Proof.Machine.execLen279 x s
  | .len280 x => Sys2Proof.Machine.execLen280 x s
  | .len281 x => Sys2Proof.Machine.execLen281 x s
  | .len282 x => Sys2Proof.Machine.execLen282 x s
  | .len283 x => Sys2Proof.Machine.execLen283 x s
  | .len284 x => Sys2Proof.Machine.execLen284 x s
  | .len285 => Sys2Proof.Machine.execLen285 s
  | .llsymReserved hi => Sys2Proof.Machine.execLlsymReserved hi s
  | .dist0 => Sys2Proof.Machine.execDist0 s
  | .dist1 => Sys2Proof.Machine.execDist1 s
  | .dist2 => Sys2Proof.Machine.execDist2 s
  | .dist3 => Sys2Proof.Machine.execDist3 s
  | .dist4 x => Sys2Proof.Machine.execDist4 x s
  | .dist5 x => Sys2Proof.Machine.execDist5 x s
  | .dist6 x => Sys2Proof.Machine.execDist6 x s
  | .dist7 x => Sys2Proof.Machine.execDist7 x s
  | .dist8 x => Sys2Proof.Machine.execDist8 x s
  | .dist9 x => Sys2Proof.Machine.execDist9 x s
  | .dist10 x => Sys2Proof.Machine.execDist10 x s
  | .dist11 x => Sys2Proof.Machine.execDist11 x s
  | .dist12 x => Sys2Proof.Machine.execDist12 x s
  | .dist13 x => Sys2Proof.Machine.execDist13 x s
  | .dist14 x => Sys2Proof.Machine.execDist14 x s
  | .dist15 x => Sys2Proof.Machine.execDist15 x s
  | .dist16 x => Sys2Proof.Machine.execDist16 x s
  | .dist17 x => Sys2Proof.Machine.execDist17 x s
  | .dist18 x => Sys2Proof.Machine.execDist18 x s
  | .dist19 x => Sys2Proof.Machine.execDist19 x s
  | .dist20 x => Sys2Proof.Machine.execDist20 x s
  | .dist21 x => Sys2Proof.Machine.execDist21 x s
  | .dist22 x => Sys2Proof.Machine.execDist22 x s
  | .dist23 x => Sys2Proof.Machine.execDist23 x s
  | .dist24 x => Sys2Proof.Machine.execDist24 x s
  | .dist25 x => Sys2Proof.Machine.execDist25 x s
  | .dist26 x => Sys2Proof.Machine.execDist26 x s
  | .dist27 x => Sys2Proof.Machine.execDist27 x s
  | .dist28 x => Sys2Proof.Machine.execDist28 x s
  | .dist29 x => Sys2Proof.Machine.execDist29 x s
  | .dsymReserved hi => Sys2Proof.Machine.execDsymReserved hi s
  | .zhdr cmf flg => Sys2Proof.Machine.execZhdr cmf flg s
  | .zdictid id => Sys2Proof.Machine.execZdictid id s
  | .ztrl adler => Sys2Proof.Machine.execZtrl adler s
  | .gzMagic id1 id2 => Sys2Proof.Machine.execGzMagic id1 id2 s
  | .gzCmflg cm flg => Sys2Proof.Machine.execGzCmflg cm flg s
  | .gzMtime t => Sys2Proof.Machine.execGzMtime t s
  | .gzXflos xfl os => Sys2Proof.Machine.execGzXflos xfl os s
  | .gzXlen n => Sys2Proof.Machine.execGzXlen n s
  | .gzExtra b => Sys2Proof.Machine.execGzExtra b s
  | .gzName b => Sys2Proof.Machine.execGzName b s
  | .gzComment b => Sys2Proof.Machine.execGzComment b s
  | .gzHcrc c => Sys2Proof.Machine.execGzHcrc c s
  | .gzCrc32 c => Sys2Proof.Machine.execGzCrc32 c s
  | .gzIsize n => Sys2Proof.Machine.execGzIsize n s
  | .syncMarker => Sys2Proof.Machine.execSyncMarker s
  | .partialMarker => Sys2Proof.Machine.execPartialMarker s
  | .emptyFinal => Sys2Proof.Machine.execEmptyFinal s

end Sys2Proof.Machine
end

