-- ==== Sys2Proof/Machine/Step.lean ====
section
/-! DEFINITION. One step of the machine: the next of the host's pending requests (log 1), a command word decoded and run,
a unit operation or a stream element decoded and run; and how an instruction is placed to run next (log 2). -/

namespace Sys2Proof.Machine

/-- A word written to a command register: the command it encodes, or an illegal command (R25, R125). -/
def runCommand (p : Port) (v : Word) (s : State) : Host.Outcome State Fault Refusal :=
  match decode p (leBytes 4 v.toNat) with
  | .ok i => exec i s
  | .error _ => .next (illegalCommand p s)

/-- A unit operation requested on its own (log 4). An operand outside the range its rule states ends as R203 and U16 say;
bytes that name none of the operations of R129 invoke none, and nothing changes. -/
def runUnitOp (bytes : List Byte) (s : State) : Host.Outcome State Fault Refusal :=
  match decode .uop bytes with
  | .ok i => exec i s
  | .error .operandRange => .fault .operandRange
  | .error _ => .next s

/-- A stream element requested on its own; bytes that are no element of the format are taken by the stage (log 5). -/
def runElement (fmt : Fmt) (bytes : List Byte) (s : State) : Host.Outcome State Fault Refusal :=
  match decode (.element fmt) bytes with
  | .ok i =>
    match fetchElement fmt (encode i) s with
    | .ok t => exec i t
    | .error t => .next t
  | .error _ => streamBytes bytes s

/-- One request of the host. -/
def serve (r : Request) (s : State) : Host.Outcome State Fault Refusal :=
  match r with
  | .writeReg off v =>
    match commandPort off with
    | some p => runCommand p v s
    | none => .next (writeReg off v s)
  | .readReg off => .next { s with readData := readReg off s }
  | .storeIn a b => .next (storeIn a b s)
  | .loadOut a => .next (loadOut a s)
  | .hwReset => .next (hardwareReset s)
  | .unitOp bytes => runUnitOp bytes s
  | .element fmt bytes => runElement fmt bytes s

/-- One step: the oldest pending request; with none pending the block is idle (R571). -/
def step (s : State) : Host.Outcome State Fault Refusal :=
  match s.queue with
  | [] => .next s
  | r :: rest => serve r { s with queue := rest }

/-- The state in which the instruction of a table word is the next to run (log 2, log 6). -/
def State.withFetchWord (s : State) (nbits w : Nat) : State :=
  let p := tablePort nbits w
  let bytes := tableBytes p w
  match p with
  | .deflCmd => { s with queue := .writeReg 0x000 (BitVec.ofNat 32 w) :: s.queue }
  | .inflCmd => { s with queue := .writeReg 0x100 (BitVec.ofNat 32 w) :: s.queue }
  | .cksCmd => { s with queue := .writeReg 0x200 (BitVec.ofNat 32 w) :: s.queue }
  | .uop => { s with defl := stepping bytes s.defl, queue := .unitOp bytes :: s.queue }
  | .element fmt => { s with infl := expecting fmt bytes s.infl, queue := .element fmt bytes :: s.queue }

end Sys2Proof.Machine
end

