-- ==== Sys2Proof/Safety.lean ====
section
/-! DEFINITION. What a sound state is (the invariant every step keeps), which instruction belongs to which engine, and the
conformance relation of R290, R291, R330 and R372 to R376: what every correct compressor run satisfies. -/

namespace Sys2Proof.Machine

/-! ## Streams of bits and bytes -/

/-- The `n` bits of a field, least significant first (R90). -/
def bitsOf (n v : Nat) : List Bool := (List.range n).map fun i => v.testBit i

/-- The bit stream of a byte stream (R90). -/
def streamBits (bs : List Byte) : List Bool := bs.flatMap fun b => bitsOf 8 b.toNat

/-- The bits the writer has been given and not yet put out: the queued bytes, then the partial byte (R201). -/
def writtenBits (d : Defl) : List Bool := streamBits d.pending ++ bitsOf d.bitCnt d.bitBuf

/-- The bits the reader holds, next bit first (R211, R212). -/
def heldBits (i : Infl) : List Bool := bitsOf i.cnt i.hold

/-- `n` bytes of a space from an address on. -/
def bytesAt (m : Memory) (a n : Nat) : List Byte := (List.range n).map fun k => memRead m (a + k)

/-- Every byte outside `n` bytes from `a` on reads as before. -/
def sameOutside (a n : Nat) (m m' : Memory) : Prop := ∀ x, (x < a ∨ a + n ≤ x) → memRead m' x = memRead m x

/-! ## The invariant -/

/-- Both spaces in canonical form (R80). -/
abbrev Bus.Inv (b : Bus) : Prop := b.inMem.wf ∧ b.outMem.wf

/-- A token whose match is in the ranges of R42, with a distance of 0 let in, to which `LZ.INSERT` on its own can lead
(log 27). -/
def tokenOk : Token → Bool
  | .lit _ => true
  | .mat len dist => decide (3 ≤ len ∧ len ≤ 258 ∧ dist ≤ 32768)

/-- The planned block within the field widths it is emitted in (R44, R352). -/
abbrev Blk.Inv (b : Blk) : Prop :=
  b.hlit ≤ 288 ∧ b.hdist ≤ 32 ∧ b.hclen ≤ 19 ∧ (∀ l ∈ b.clLens, l ≤ 7) ∧ (∀ q ∈ b.rl, q.2 < 2 ^ clXb q.1) ∧
    (∀ t ∈ b.toks, tokenOk t = true) ∧ (b.typ = .stored → b.raw.length ≤ storedMax)

/-- The latched configuration is legal (R35, R378). -/
abbrev Defl.ConfigInv (d : Defl) : Prop := d.level ≤ 9 ∧ 9 ≤ d.wbits ∧ d.wbits ≤ 15 ∧ 1 ≤ d.mem ∧ d.mem ≤ 9

/-- The cursors (R33): the tokens of the open block cover what has been emitted of it, one position is held back exactly
while a match is deferred, and nothing reaches past the data. -/
abbrev Defl.CursorInv (d : Defl) : Prop :=
  d.blockStart + (d.syms.map tokenLen).sum = d.emitPos ∧ d.emitPos + d.deferred.valid.toNat = d.pos ∧
    d.pos ≤ dataEnd d ∧
    (d.deferred.valid = true →
      3 ≤ d.deferred.len ∧ d.deferred.len ≤ 258 ∧ d.deferred.dist ≤ 32768 ∧ d.pos - 1 + d.deferred.len ≤ dataEnd d)

/-- The open block fits its buffer (R43, R400). -/
abbrev Defl.BlockInv (d : Defl) : Prop :=
  d.syms.length ≤ symCap d.mem - 1 ∧ (∀ t ∈ d.syms, tokenOk t = true) ∧
    (d.level = 0 → blockSpan d ≤ min (wsize d.wbits) storedMax)

/-- Stages, phases and `finishing` (R30, R402, R526). -/
abbrev Defl.StageInv (d : Defl) : Prop :=
  (d.stage = .init → d.phase = .collect ∧ d.finishing = false) ∧
    (d.stage = .flushPending → d.phase = .collect) ∧
    (d.stage = .done → d.phase = .collect ∧ d.finishing = true) ∧
    (d.stage = .body → d.finishing = true → d.phase ≠ .collect) ∧
    (d.phase = .trailer → d.finishing = true) ∧
    d.blk.final = d.finishing

/-- The codes `DEFL` can report (R542). -/
abbrev deflCodes (e : Status) : Prop := e = .ok ∨ e = .needBuffers ∨ e = .endOfStream ∨ e = .streamError

/-- The invariant of `DEFL`. -/
abbrev Defl.Inv (d : Defl) : Prop :=
  d.ConfigInv ∧ (d.bitCnt ≤ 7 ∧ d.bitBuf < 2 ^ d.bitCnt) ∧ (d.sticky = .ok ∨ d.sticky = .streamError) ∧
    deflCodes d.ec ∧ d.sat ≤ 5 ∧ d.CursorInv ∧ d.BlockInv ∧ d.StageInv ∧ d.blk.Inv ∧
    sparseWf none d.head ∧ sparseWf none d.prev ∧
    d.isize = BitVec.ofNat 32 (dataEnd d) ∧ d.check = d.data.foldl (checkStep d.wrap) (checkInit d.wrap)

/-- The decoder's registers in their ranges (R54 to R57). -/
abbrev Infl.RangeInv (i : Infl) : Prop :=
  i.xlen ≤ 65535 ∧ i.nlen ≤ 288 ∧ i.ndist ≤ 32 ∧ i.ncode ≤ 19 ∧ i.nhave ≤ 19 ∧ i.lsym ≤ 28 ∧ i.length ≤ 258 ∧
    i.dsym ≤ 29 ∧ i.remaining ≤ 65535

/-- The code-length vectors within their limits (R55, R440). -/
abbrev Infl.LensInv (i : Infl) : Prop :=
  (∀ l ∈ i.cl, l ≤ 7) ∧ (∀ l ∈ i.clt, l ≤ 7) ∧ (∀ l ∈ i.lens, l ≤ 15) ∧ (∀ l ∈ i.ll, l ≤ 15) ∧ (∀ l ∈ i.dt, l ≤ 15) ∧
    (i.stage = .dynLens → i.lens.length ≤ i.nlen + i.ndist)

/-- Terminal errors and the stage `BAD` (R463, R502, R552). -/
abbrev Infl.ErrorInv (i : Infl) : Prop :=
  (i.sticky ≠ .ok → i.stage = .bad) ∧ (i.configured = true → i.sticky = .ok → i.stage ≠ .bad) ∧
    (i.sticky = .ok ∨ 3 ≤ i.sticky.code)

/-- The invariant of `INFL`. -/
abbrev Infl.Inv (i : Infl) : Prop :=
  (9 ≤ i.wbits ∧ i.wbits ≤ 15) ∧ (i.cnt ≤ 39 ∧ i.hold < 2 ^ i.cnt) ∧ i.RangeInv ∧ i.LensInv ∧ i.ErrorInv ∧
    (i.stage = .mat → 1 ≤ i.dist ∧ i.dist ≤ whave i) ∧ i.win.wf ∧ i.isize = BitVec.ofNat 32 i.produced

/-- The invariant of the machine. A match is deferred only where the tokeniser is lazy (R301, R304). -/
abbrev State.Inv (s : State) : Prop :=
  s.defl.Inv ∧ s.infl.Inv ∧ (s.cks.ec = .ok ∨ s.cks.ec = .streamError) ∧ s.bus.Inv ∧
    (s.defl.deferred.valid = true → stepMode s.params s.defl = .lazy)

/-! ## Which engine an instruction works on (R3, R129) -/

/-- The engines; `none` for the two checksum steps and the table operations, which touch no engine. -/
inductive Engine
  | defl | infl | cks | none
  deriving DecidableEq, Repr

/-- The engine of an instruction: the bank of a command (R126), the owner of a unit (R2), `INFL` for stream elements. -/
def engineOf (i : Instr) : Engine :=
  match i.port with
  | .deflCmd => .defl
  | .inflCmd => .infl
  | .cksCmd => .cks
  | .element _ => .infl
  | .uop =>
    match i with
    | .bwPut _ _ | .bwPutcode _ _ | .bwAlign | .bwTake | .hdrZenc | .hdrGzenc | .hdrTrailer | .lzInsert _ | .lzFind _ _
    | .lzStep | .lzClear | .hbPlan _ | .hbEmitHeader | .hbEmitSymbols => .defl
    | .brNeed _ | .brPeek _ _ | .brDrop _ | .brGet _ | .brAlign | .hdBuild _ _ _ | .hdDecode _ => .infl
    | _ => .none

/-- The `WRITE` of `DEFL` with a flush mode, as an instruction (R126). -/
def deflWriteInstr (f : Flush) : Instr := deflCommand (some f)

/-- The `WRITE` of `INFL` with a flush mode, as an instruction (R126). -/
def inflWriteInstr (f : Flush) : Instr := inflCommand (some f)

/-! ## Tokens and what they expand to (R290, R291) -/

/-- `MATCH len, dist` emitted at position `p` is valid (R291). -/
def validMatch (d : Defl) (p len dist : Nat) : Prop :=
  3 ≤ len ∧ len ≤ 258 ∧ 1 ≤ dist ∧ dist ≤ p - d.histBase ∧ dist ≤ wsize d.wbits ∧ p + len ≤ dataEnd d ∧
    ∀ i, i < len → d.data[p + i]? = d.data[p - dist + i]?

/-- The tokens, the first at position `p`, are literals of the data and valid matches (R290, R291). -/
def validTokens (d : Defl) : Nat → List Token → Prop
  | _, [] => True
  | p, .lit b :: ts => d.data[p]? = some b ∧ validTokens d (p + 1) ts
  | p, .mat len dist :: ts => validMatch d p len dist ∧ validTokens d (p + len) ts

/-- Every position in the chains has been inserted, and none is at or past the next position to tokenise (R293, R294). -/
def chainsBelow (d : Defl) : Prop :=
  d.nextIns ≤ d.pos ∧ (∀ h q, headAt d h = some q → q < d.nextIns) ∧ ∀ k q, prevAt d k = some q → q < d.nextIns

/-- The matcher has kept faith with the data: the open block's tokens and the deferred match are valid (R290, R305). -/
def MatcherOk (d : Defl) : Prop :=
  chainsBelow d ∧ d.histBase ≤ d.blockStart ∧ validTokens d d.blockStart d.syms ∧
    (d.deferred.valid = true → validMatch d (d.pos - 1) d.deferred.len d.deferred.dist)

/-! ## Code lengths (R330, R340) -/

/-- A complete set of code lengths within the limit (R330). -/
def completeLens (lens : Lens) (max : Nat) : Prop := (∀ l ∈ lens, l ≤ max) ∧ kraft max lens = 2 ^ max

/-- `lens` is transmittable for a block whose symbol frequencies are `freq` (R330). -/
def transmittable (freq : List Nat) (lens : Lens) (max : Nat) : Prop :=
  lens.length = freq.length ∧ completeLens lens max ∧ ∀ s, 0 < freq.getD s 0 → 0 < lens.getD s 0

/-- What a run-length coded sequence of code lengths expands to, after the lengths `acc` (R146). -/
def expandLens (acc : Lens) : List (Nat × Nat) → Lens
  | [] => acc
  | (s, x) :: qs =>
    expandLens
      (acc ++
        if s < 16 then [s]
        else if s = 16 then List.replicate (3 + x) (acc.getLastD 0)
        else if s = 17 then List.replicate (3 + x) 0
        else List.replicate (11 + x) 0) qs

/-! ## The push contract (R375) -/

/-- How many input bytes a command of `DEFL` consumed. -/
def consumed (r r' : StreamRegs) : Nat := r.availIn.toNat - r'.availIn.toNat

/-- How many output bytes a command produced. -/
def produced (r r' : StreamRegs) : Nat := r.availOut.toNat - r'.availOut.toNat

/-- The stream parameters moved by what was consumed and produced, and by nothing else (R375 (b), R24); a cursor that
reached the end of its space holds a free value (log 8). -/
def regsMoved (r r' : StreamRegs) : Prop :=
  r'.availIn.toNat ≤ r.availIn.toNat ∧ r'.availOut.toNat ≤ r.availOut.toNat ∧
    r'.totalIn = r.totalIn + BitVec.ofNat 64 (consumed r r') ∧
    r'.totalOut = r.totalOut + BitVec.ofNat 64 (produced r r') ∧
    (r.nextIn.toNat + consumed r r' < 2 ^ 32 → r'.nextIn.toNat = r.nextIn.toNat + consumed r r') ∧
    (r.nextOut.toNat + produced r r' < 2 ^ 32 → r'.nextOut.toNat = r.nextOut.toNat + produced r r')

/-- The bytes a command wrote to `OUT`. -/
def writtenBytes (r r' : StreamRegs) (m' : Memory) : List Byte := bytesAt m' r.nextOut.toNat (produced r r')

/-! ## Runs of the compressor, and the round trip (R374, R372, R376) -/

/-- A run of `DEFL` from the state `a` on, with all the bytes it wrote: `WRITE`s of any mode, and between them the host
setting the stream parameters and filling its buffers as it likes (R375, R610). -/
inductive DeflFrom (a : State) : State → List Byte → Prop
  | start : DeflFrom a a []
  | host (s : State) (out : List Byte) (r : StreamRegs) (b : Bus) (hb : b.Inv) (h : DeflFrom a s out) :
      DeflFrom a { s with defl := { s.defl with regs := r }, bus := b } out
  | write (s t : State) (out : List Byte) (f : Flush) (h : DeflFrom a s out) (e : exec (deflWriteInstr f) s = .next t) :
      DeflFrom a t (out ++ writtenBytes s.defl.regs t.defl.regs t.bus.outMem)

/-- A run of `DEFL` from a successful `RESET` on, with all the bytes it wrote. -/
def DeflRun (s : State) (out : List Byte) : Prop :=
  ∃ a : State, deflLegal a.defl.config = true ∧ a.bus.Inv ∧ DeflFrom { a with defl := deflReset a.defl } s out

/-- `INFL` in a fresh stream, with the bytes `src` as its whole input at address 0 and room for `room` bytes. -/
def inflFed (c : Word) (p : Params) (src : List Byte) (room : Nat) : State :=
  { State.reset with
    params := p
    infl := inflStart c ⟨0, BitVec.ofNat 32 src.length, 0, BitVec.ofNat 32 room, 0, 0⟩
    bus := ⟨memOf src, [], 0⟩ }

/-- `INFL` with configuration `c`, fed `src`, produces exactly `want` and reports one of the codes `es`. -/
def inflatesTo (c : Word) (p : Params) (src want : List Byte) (es : List Status) : Prop :=
  ∃ t, exec .inflWriteNone (inflFed c p src (want.length + 1)) = .next t ∧ t.infl.ec ∈ es ∧
    bytesAt t.bus.outMem 0 t.infl.produced = want

/-- The open parameter `GZ_HDR` in its stated ranges (R262). -/
def gzHdrLegal (g : GzHdr) : Prop :=
  (∀ x, g.extra = some x → x.length ≤ 65535) ∧ (∀ x, g.name = some x → 0 ∉ x) ∧ ∀ x, g.comment = some x → 0 ∉ x

/-- Round trip (R374): when a run has reached `done`, an `INFL` with the same `wrap` and the same or a larger window,
fed all its output, produces the source, reports `end_of_stream`, and has consumed all of it. -/
def RoundTrip : Prop :=
  ∀ (s : State) (out : List Byte) (c : Word), DeflRun s out → s.defl.stage = .done → gzHdrLegal s.params.gzHdr →
    inflLegal c = true →
    s.defl.wbits ≤ cfgWindowBits c → wrapOf (cfgWrap c) = some s.defl.wrap →
    s.defl.data.length + 1 < 2 ^ 32 → out.length < 2 ^ 32 →
    ∃ t, exec .inflWriteNone (inflFed c s.params out (s.defl.data.length + 1)) = .next t ∧ t.infl.ec = .endOfStream ∧
      bytesAt t.bus.outMem 0 t.infl.produced = s.defl.data ∧ t.infl.regs.availIn = 0

/-- Output grammar (R372), said through the decoder that accepts exactly the grammar: the container is the one `wrap`
names, with the window and the checksum it records checked by `INFL` (R470 to R480, R499, R500). -/
def OutputGrammar : Prop :=
  ∀ (s : State) (out : List Byte), DeflRun s out → s.defl.stage = .done → gzHdrLegal s.params.gzHdr →
    s.defl.data.length + 1 < 2 ^ 32 → out.length < 2 ^ 32 →
    inflatesTo s.defl.config s.params out s.defl.data [.endOfStream]

/-- A `WRITE` was complete (R376): it did its work, left no input, and left output space. -/
def completeCall (t : State) : Prop :=
  (t.defl.ec = .ok ∨ t.defl.ec = .needBuffers) ∧ t.defl.regs.availIn = 0 ∧ t.defl.regs.availOut ≠ 0

/-- Flush obligations (R376): what has been written up to a complete `WRITE` with `partial`, `sync` or `full` decodes to
all that was consumed. -/
def FlushObligation (f : Flush) : Prop :=
  ∀ (s t : State) (out : List Byte) (c : Word), DeflRun s out → s.defl.finishing = false → gzHdrLegal s.params.gzHdr →
    exec (deflWriteInstr f) s = .next t → completeCall t →
    inflLegal c = true → s.defl.wbits ≤ cfgWindowBits c → wrapOf (cfgWrap c) = some s.defl.wrap →
    t.defl.data.length + 1 < 2 ^ 32 → (out ++ writtenBytes s.defl.regs t.defl.regs t.bus.outMem).length < 2 ^ 32 →
    inflatesTo c s.params (out ++ writtenBytes s.defl.regs t.defl.regs t.bus.outMem) t.defl.data [.ok, .needBuffers]

/-- For `full`, in addition, what is written after it up to the end of the stream is decoded by a fresh raw `INFL`,
without the earlier history (R376). -/
def FullChunk : Prop :=
  ∀ (s t u : State) (out more : List Byte) (c : Word), DeflRun s out → s.defl.finishing = false →
    exec (deflWriteInstr .full) s = .next t → completeCall t → DeflFrom t u more → u.defl.stage = .done →
    inflLegal c = true → s.defl.wbits ≤ cfgWindowBits c → wrapOf (cfgWrap c) = some .none →
    u.defl.data.length + 1 < 2 ^ 32 → more.length < 2 ^ 32 →
    inflatesTo c s.params more (u.defl.data.drop t.defl.data.length) [.endOfStream]

/-- For `block` every byte consumed lies in a block that has been generated (R376): nothing is left to tokenise or to
emit, and what was written, with the held bits in one more byte, decodes to all that was consumed. -/
def BlockFlush : Prop :=
  ∀ (s t : State) (out : List Byte) (c : Word), DeflRun s out → s.defl.finishing = false → gzHdrLegal s.params.gzHdr →
    exec (deflWriteInstr .block) s = .next t → completeCall t →
    let d := t.defl
    (d.blockStart = dataEnd d ∧ d.syms = [] ∧ d.phase = .collect ∧ d.pending = [] ∧ d.bitCnt ≤ 7) ∧
      (inflLegal c = true → s.defl.wbits ≤ cfgWindowBits c → wrapOf (cfgWrap c) = some s.defl.wrap →
        d.data.length + 1 < 2 ^ 32 → (out ++ writtenBytes s.defl.regs d.regs t.bus.outMem).length + 1 < 2 ^ 32 →
        inflatesTo c s.params
          (out ++ writtenBytes s.defl.regs d.regs t.bus.outMem ++ if d.bitCnt = 0 then [] else [BitVec.ofNat 8 d.bitBuf])
          d.data [.ok, .needBuffers])

/-- The state with another output region. -/
def withRoom (nextOut availOut : Word) (m : Memory) (s : State) : State :=
  { s with
    defl := { s.defl with regs := { s.defl.regs with nextOut := nextOut, availOut := availOut } }
    bus := { s.bus with outMem := m } }

/-- One or more calls `WRITE f` from the state `a` on, the host giving each an output region and nothing else, with all the
bytes they wrote (R375 (d)). -/
inductive Portioned (f : Flush) (a : State) : State → List Byte → Prop
  | first (t : State) (nextOut availOut : Word) (m : Memory) (hm : m.wf)
      (e : exec (deflWriteInstr f) (withRoom nextOut availOut m a) = .next t) :
      Portioned f a t (writtenBytes ⟨a.defl.regs.nextIn, a.defl.regs.availIn, nextOut, availOut, 0, 0⟩ t.defl.regs t.bus.outMem)
  | again (s t : State) (out : List Byte) (nextOut availOut : Word) (m : Memory) (hm : m.wf) (h : Portioned f a s out)
      (e : exec (deflWriteInstr f) (withRoom nextOut availOut m s) = .next t) :
      Portioned f a t
        (out ++ writtenBytes ⟨s.defl.regs.nextIn, s.defl.regs.availIn, nextOut, availOut, 0, 0⟩ t.defl.regs t.bus.outMem)

/-- The last call had nothing left to do: the stream is over, or with output space and no input it moved nothing. -/
def drained (s : State) : Prop :=
  s.defl.ec = .endOfStream ∨ (s.defl.ec = .needBuffers ∧ s.defl.regs.availIn = 0 ∧ s.defl.regs.availOut ≠ 0)

/-- The bytes produced do not depend on how output space was portioned (R375 (d)). -/
def PortioningIsInvisible : Prop :=
  ∀ (f : Flush) (a s t : State) (out out' : List Byte), a.Inv → Portioned f a s out → Portioned f a t out' → drained s →
    drained t → out = out' ∧ s.defl.data = t.defl.data

/-- For `sync` and `full` the output then ends on a byte boundary (R376). -/
def AlignedFlush (f : Flush) : Prop :=
  ∀ (s t : State) (out : List Byte), DeflRun s out → s.defl.finishing = false →
    exec (deflWriteInstr f) s = .next t → completeCall t → t.defl.bitCnt = 0 ∧ t.defl.pending = []

/-- A complete `sync` or `full` that emitted a marker, which is one that took input or that no flush action of its rank had
preceded since the last input (R403), ends what it writes with the bytes `00 00 ff ff` (R376, R404). -/
def MarkerWritten (f : Flush) : Prop :=
  ∀ s t : State, s.Inv → s.defl.finishing = false → exec (deflWriteInstr f) s = .next t → completeCall t →
    s.defl.sat < flushRank f ∨ consumed s.defl.regs t.defl.regs ≠ 0 →
    [0x00, 0x00, 0xFF, 0xFF] <:+ writtenBytes s.defl.regs t.defl.regs t.bus.outMem

/-! ## The register space (R22, R23, R122 to R126) -/

/-- The host-owned registers: the offsets R22 and R23 mark as read/write. -/
def rwOffsets : List (BitVec 12) :=
  [0x008, 0x010, 0x014, 0x018, 0x01C, 0x020, 0x024, 0x028, 0x02C, 0x108, 0x110, 0x114, 0x118, 0x11C, 0x120, 0x124, 0x128,
    0x12C, 0x210, 0x214, 0x220, 0x224]

/-- The offsets that hold a register at all: the host-owned ones, `STATUS`, `CHECK`, and `INFL.DICTID` (R22, R23). -/
def listedOffsets : List (BitVec 12) := rwOffsets ++ [0x004, 0x104, 0x204, 0x030, 0x130, 0x134]

/-- A word that is reserved at `DEFL.CMD` and `INFL.CMD` (R122, R123, R125): `OP`, `FLUSH` or a must-be-zero bit. -/
def reservedHcmd (w : Word) : Prop :=
  (field 0 4 w.toNat ≠ 1 ∧ field 0 4 w.toNat ≠ 2) ∨ field 4 3 w.toNat = 7 ∨ field 7 25 w.toNat ≠ 0 ∨
    (field 0 4 w.toNat = 1 ∧ field 4 3 w.toNat ≠ 0)

/-- A word that is reserved at `CKS_CMD` (R124, R125). -/
def reservedCcmd (w : Word) : Prop := (field 0 4 w.toNat ≠ 1 ∧ field 0 4 w.toNat ≠ 2) ∨ field 4 28 w.toNat ≠ 0

/-- The host commands with the offset they are written to (R126). -/
def hostCommands : List (BitVec 12 × Word × Instr) :=
  [(0x000, 0x01, .deflReset), (0x000, 0x02, .deflWriteNone), (0x000, 0x12, .deflWriteBlock),
    (0x000, 0x22, .deflWritePartial), (0x000, 0x32, .deflWriteSync), (0x000, 0x42, .deflWriteFull),
    (0x000, 0x52, .deflWriteFinish), (0x000, 0x62, .deflWriteTrees),
    (0x100, 0x01, .inflReset), (0x100, 0x02, .inflWriteNone), (0x100, 0x12, .inflWriteBlock),
    (0x100, 0x22, .inflWritePartial), (0x100, 0x32, .inflWriteSync), (0x100, 0x42, .inflWriteFull),
    (0x100, 0x52, .inflWriteFinish), (0x100, 0x62, .inflWriteTrees),
    (0x200, 0x01, .cksAdlerUpdate), (0x200, 0x02, .cksCrcUpdate)]

/-! ## Which commands do their work (R380, R462) -/

/-- A `WRITE` to `DEFL` passes the entry checks (R380). -/
def deflAccepts (d : Defl) : Prop :=
  d.configured = true ∧ d.sticky = .ok ∧ regionOk d.regs = true ∧ (d.stage = .done ∨ d.finishing = true → d.regs.availIn = 0)

/-- A `WRITE` to `INFL` passes the entry checks (R462). -/
def inflAccepts (i : Infl) : Prop :=
  i.configured = true ∧ i.sticky = .ok ∧ regionOk i.regs = true ∧ i.stage ≠ .done

/-! ## Codes as bits (R91, R142 to R146) -/

/-- The bits of the code of symbol `s` under the code lengths `lens` of limit `max`, most significant first (R91, R340). -/
def codeBits (lens : Lens) (max s : Nat) : List Bool := (bitsOf (lens.getD s 0) ((hbCanon lens max).getD s 0)).reverse

/-- The bits of a token (R142 to R145, R346, R354). -/
def tokenBits (ll dl : Lens) : Token → List Bool
  | .lit b => codeBits ll 15 b.toNat
  | .mat len dist =>
    codeBits ll 15 (257 + lsymOf len) ++ bitsOf (lenXb.getD (lsymOf len) 0) (len - lenBase.getD (lsymOf len) 0) ++
      codeBits dl 15 (dsymOf dist) ++ bitsOf (distXb.getD (dsymOf dist) 0) (dist - distBase.getD (dsymOf dist) 0)

/-- The bits of a Huffman block's symbols and its end of block (R354). -/
def blockBits (ll dl : Lens) (toks : List Token) : List Bool := toks.flatMap (tokenBits ll dl) ++ codeBits ll 15 256

/-- The bits of a dynamic block's tree description (R352). -/
def treeBits (b : Blk) : List Bool :=
  bitsOf 5 (b.hlit - 257) ++ bitsOf 5 (b.hdist - 1) ++ bitsOf 4 (b.hclen - 4) ++
    (clOrder.take b.hclen).flatMap (fun s => bitsOf 3 (b.clLens.getD s 0)) ++
    b.rl.flatMap fun q => codeBits b.clLens 7 q.1 ++ bitsOf (clXb q.1) q.2

/-- The bits a stream element with fixed fields has (R131 to R158); the others are Huffman coded or read past the bit
reader. -/
def fmtBits : Fmt → Option Nat
  | .blkhdr | .cllen => some 3
  | .dynhdr => some 14
  | .gzExtra | .gzName | .gzComment => some 8
  | .zhdr | .gzId | .gzCmflg | .gzXflos | .gzXlen | .gzHcrc => some 16
  | .stolen | .dictid | .ztrl | .gzMtime | .gzCrc | .gzIsize => some 32
  | .raw | .clsym | .llsym | .dsym | .pseudo => none

/-! ## Elements and the micro-steps that read them (R463, R485 to R497) -/

/-- `n` micro-steps one after another, each of which completes (R463); `none` where one suspends or raises. -/
def microSteps (p : Params) : Nat → InflCtx → Option InflCtx
  | 0, c => some c
  | n + 1, c =>
    match inflMicro p .none c with
    | .complete c1 | .stop c1 => microSteps p n c1
    | .suspend _ | .raised _ _ => none

/-- The number whose binary digits, least significant first, are the bits. -/
def bitsNum : List Bool → Nat
  | [] => 0
  | b :: bs => b.toNat + 2 * bitsNum bs

/-- The reader with exactly these bits in hand. -/
def holding (bits : List Bool) (i : Infl) : Infl := { i with hold := bitsNum bits, cnt := bits.length }

/-- The element of a Huffman-coded format with the symbol `k` and the extra value `x`, the table that codes it, and how many
extra bits it has (R142 to R146). -/
def codedElement (fmt : Fmt) (k x : Nat) : Option (Instr × TableId × Nat) :=
  match fmt with
  | .llsym => (llsymInstr k x).map fun i => (i, .ll, if k < 257 then 0 else lenXb.getD (k - 257) 0)
  | .dsym => (dsymInstr k x).map fun i => (i, .dt, distXb.getD k 0)
  | .clsym => (clsymInstr k x).map fun i => (i, .clt, clXb k)
  | _ => none

/-! ## Sequences of instructions (R220) -/

/-- Instructions one after another, with what each yields; `none` when one of them stops. -/
def runInstrs : List Instr → State → Option (State × List Yield)
  | [], s => some (s, [])
  | i :: is, s =>
    match exec i s with
    | .next t => (runInstrs is t).map fun r => (r.1, t.result :: r.2)
    | .fault _ | .refused _ => none

/-- One operation of R220: a field of `n` bits with the value `v`, or an alignment. -/
inductive BitOp
  | field (v : Word) (n : Nat)
  | align
  deriving DecidableEq, Repr

/-- The operation on the writer. -/
def BitOp.write : BitOp → Instr
  | .field v n => .bwPut v n
  | .align => .bwAlign

/-- The same operation on the reader. -/
def BitOp.read : BitOp → Instr
  | .field _ n => .brGet n
  | .align => .brAlign

/-- What the reader yields. -/
def BitOp.yielded : BitOp → Yield
  | .field v _ => .value v.toNat
  | .align => .nothing

/-- The operands of `BW.PUT` (R203). -/
def BitOp.ok : BitOp → Prop
  | .field v n => n ≤ 32 ∧ v.toNat < 2 ^ n
  | .align => True

/-- The outcome with its next state changed by `g`. -/
def onNext (g : State → State) : Host.Outcome State Fault Refusal → Host.Outcome State Fault Refusal
  | .next s => .next (g s)
  | .fault f => .fault f
  | .refused r => .refused r

/-! ## Codes that are never reported (R542, R559) -/

/-- `general` is never recorded, and `invalid_code_lengths` only under `P_CLSET_ERR = generic`; what keeps it so is that
the code-length table in use is complete (R489). -/
def Infl.CodesInv (p : Params) (i : Infl) : Prop :=
  (i.stage = .dynLens → completeLens i.clt maxClBits) ∧ i.ec ≠ .general ∧ i.sticky ≠ .general ∧
    (p.clsetErr = .specific → i.ec ≠ .invalidCodeLengths ∧ i.sticky ≠ .invalidCodeLengths)

end Sys2Proof.Machine
end

