-- ==== Sys2Proof/Certificates/Slice0/Obligations.lean ====
section
/-! DEFINITION. The statements about the machine, for the provers. Each names the rule of spec/ it formalises. -/

section

open Sys2Proof Sys2Proof.Machine

/-! ## Encoding -/

/-- Words written out from the formats: commands (R126), block headers (R131), the dynamic counts of the DOC's `fc 00 00`
after its block header (R134), symbols (R142 to R146), a zlib header (R150), a zlib trailer most significant byte first
(R152), gzip fields (R155, R158), unit operations (R129), the markers (R161). -/
def Obligations.WrittenWordsDecode : Prop :=
  decode .deflCmd [0x52, 0x00, 0x00, 0x00] = .ok .deflWriteFinish ∧
    decode .inflCmd [0x01, 0x00, 0x00, 0x00] = .ok .inflReset ∧
    decode .cksCmd [0x02, 0x00, 0x00, 0x00] = .ok .cksCrcUpdate ∧
    decode .deflCmd [0x72, 0x00, 0x00, 0x00] = .error .reservedCommand ∧
    decode .uop [0x12] = .ok .bwAlign ∧
    decode (.element .blkhdr) [0x05] = .ok (.blkhdrDynamic true) ∧
    decode (.element .blkhdr) [0x06] = .ok (.blkhdrReserved false) ∧
    decode (.element .dynhdr) [0x1F, 0x00] = .ok (.dynhdr 31 0 0) ∧
    decode (.element .clsym) [0xF2, 0x0F] = .ok (.clsymZero18 127) ∧
    decode (.element .llsym) [0x41, 0x00] = .ok (.lit 0x41) ∧
    decode (.element .llsym) [0x1C, 0x3F] = .ok (.len284 31) ∧
    decode (.element .dsym) [0xFD, 0xFF, 0x03] = .ok (.dist29 8191) ∧
    decode (.element .zhdr) [0x78, 0x9C] = .ok (.zhdr 0x78 0x9C) ∧
    decode (.element .ztrl) [0x05, 0x8C, 0x01, 0xF5] = .ok (.ztrl 0x058C01F5) ∧
    decode (.element .gzCmflg) [0x08, 0xE0] = .ok (.gzCmflg 0x08 0xE0) ∧
    decode (.element .gzIsize) [0x05, 0x00, 0x00, 0x00] = .ok (.gzIsize 5) ∧
    decode (.element .pseudo) [0x00, 0x00, 0x00, 0xFF, 0xFF] = .ok .syncMarker ∧
    decode (.element .pseudo) [0x03, 0x00] = .ok .emptyFinal

/-- Decoding the encoding of a well-formed instruction, whatever bytes follow it, gives the instruction back. -/
def Obligations.DecodeOfEncode : Prop :=
  ∀ (i : Instr) (rest : List Byte), i.wf = true → decode i.port (encode i ++ rest) = .ok i

/-- What the decoder accepts at a port is well formed and belongs to that port. -/
def Obligations.DecodeYieldsWellFormed : Prop :=
  ∀ (p : Port) (bs : List Byte) (i : Instr), decode p bs = .ok i → i.wf = true ∧ i.port = p

/-- R126, R125: the listed words, at the offsets listed, run the listed commands; every other word is reserved, and sets
`STATUS.EC` to `stream_error`, nothing else, so that nothing sticks. -/
def Obligations.HostCommandWords : Prop :=
  (∀ x ∈ hostCommands, ∀ s : State, serve (.writeReg x.1 x.2.1) s = exec x.2.2 s) ∧
    (∀ w : Word,
      (¬reservedHcmd w ↔ w ∈ [(0x01 : Word), 0x02, 0x12, 0x22, 0x32, 0x42, 0x52, 0x62]) ∧
        (¬reservedCcmd w ↔ w ∈ [(0x01 : Word), 0x02])) ∧
    ∀ (w : Word) (s : State),
      (reservedHcmd w →
        serve (.writeReg 0x000 w) s = .next { s with defl := { s.defl with ec := .streamError } } ∧
          serve (.writeReg 0x100 w) s = .next { s with infl := { s.infl with ec := .streamError } }) ∧
        (reservedCcmd w → serve (.writeReg 0x200 w) s = .next { s with cks := { s.cks with ec := .streamError } })

/-! ## Steps and the register space -/

/-- A step takes the oldest request and runs the instruction its bytes decode to: a command at once, a unit operation at
once, a stream element after what `fetchElement` does (log 5); where the stage reads the element, that is only the
header checksum over its bytes. Bytes that decode to nothing: a unit operation's name none and change nothing, but for an
operand out of range (log 4, log 23); an element's are taken by the stage (log 5). With no request pending nothing changes
(R571). -/
def Obligations.StepRunsTheDecodedInstruction : Prop :=
  (∀ (s : State) (off : BitVec 12) (v : Word) (rest : List Request) (p : Port) (i : Instr),
      s.queue = .writeReg off v :: rest → commandPort off = some p → decode p (leBytes 4 v.toNat) = .ok i →
        step s = exec i { s with queue := rest }) ∧
    (∀ (s : State) (bytes : List Byte) (rest : List Request) (i : Instr),
      s.queue = .unitOp bytes :: rest → decode .uop bytes = .ok i → step s = exec i { s with queue := rest }) ∧
    (∀ (s : State) (fmt : Fmt) (bytes : List Byte) (rest : List Request) (i : Instr),
      s.queue = .element fmt bytes :: rest → decode (.element fmt) bytes = .ok i →
        (∀ t, fetchElement fmt (encode i) { s with queue := rest } = .ok t → step s = exec i t) ∧
          (∀ t, fetchElement fmt (encode i) { s with queue := rest } = .error t → step s = .next t)) ∧
    (∀ (s : State) (fmt : Fmt) (bytes : List Byte), elementReady fmt s.infl = true →
      fetchElement fmt bytes s = .ok { s with infl := fetchHcrc bytes s.infl }) ∧
    (∀ (s : State) (bytes : List Byte) (rest : List Request) (e : DecodeError),
      s.queue = .unitOp bytes :: rest → decode .uop bytes = .error e →
        step s = if e = .operandRange then .fault .operandRange else .next { s with queue := rest }) ∧
    (∀ (s : State) (fmt : Fmt) (bytes : List Byte) (rest : List Request) (e : DecodeError),
      s.queue = .element fmt bytes :: rest → decode (.element fmt) bytes = .error e →
        step s = streamBytes bytes { s with queue := rest }) ∧
    ∀ s : State, s.queue = [] → step s = .next s

/-- R535 with R21 to R23: a read only answers; a write to a host-owned register is read back there and changes no other
register and nothing inside an engine; a write to a command register runs the command; any other write is ignored;
unlisted offsets read 0. These two clauses take in offsets that are no multiple of 4: that these too read 0 and ignore
writes is the model's choice (log 16), since R21 speaks of aligned accesses. Which register stands at each offset (R22, R23,
R28, R29; the `STATUS` words apart, which R26 gives); and R80: the host stores a byte in `IN` and loads one from `OUT`, by
requests that are the model's (log 19). -/
def Obligations.RegisterAccess : Prop :=
  (∀ s : State,
    let reads := fun (off : BitVec 12) (v : Word) => serve (.readReg off) s = .next { s with readData := v }
    let bank := fun (base : BitVec 12) (config check : Word) (r : StreamRegs) =>
      reads base 0 ∧ reads (base + 0x08) config ∧ reads (base + 0x10) r.nextIn ∧ reads (base + 0x14) r.availIn ∧
        reads (base + 0x18) r.nextOut ∧ reads (base + 0x1C) r.availOut ∧
        reads (base + 0x20) (BitVec.ofNat 32 r.totalIn.toNat) ∧
        reads (base + 0x24) (BitVec.ofNat 32 (r.totalIn.toNat / 2 ^ 32)) ∧
        reads (base + 0x28) (BitVec.ofNat 32 r.totalOut.toNat) ∧
        reads (base + 0x2C) (BitVec.ofNat 32 (r.totalOut.toNat / 2 ^ 32)) ∧ reads (base + 0x30) check
    bank 0x000 s.defl.config s.defl.check s.defl.regs ∧ bank 0x100 s.infl.config s.infl.check s.infl.regs ∧
      reads 0x134 s.infl.dictid ∧ reads 0x200 0 ∧ reads 0x204 (BitVec.ofNat 32 s.cks.ec.code) ∧
      reads 0x210 s.cks.nextIn ∧ reads 0x214 s.cks.availIn ∧ reads 0x220 s.cks.adler ∧ reads 0x224 s.cks.crc) ∧
  (∀ (a : Word) (b : Byte) (s : State), s.bus.inMem.wf →
    ∃ t, serve (.storeIn a b) s = .next t ∧ t = { s with bus := { s.bus with inMem := t.bus.inMem } } ∧
      memRead t.bus.inMem a.toNat = b ∧ ∀ x, x ≠ a.toNat → memRead t.bus.inMem x = memRead s.bus.inMem x) ∧
  (∀ (a : Word) (s : State),
    serve (.loadOut a) s = .next { s with readData := BitVec.ofNat 32 (memRead s.bus.outMem a.toNat).toNat }) ∧
  ∀ (s : State) (off : BitVec 12) (v : Word),
    (∃ t, serve (.readReg off) s = .next t ∧ t = { s with readData := readReg off s }) ∧
      (off ∉ listedOffsets → readReg off s = 0) ∧
      (off ∈ rwOffsets → ∃ t, serve (.writeReg off v) s = .next t ∧ readReg off t = v ∧
        (∀ off', off' ≠ off → readReg off' t = readReg off' s) ∧
        { t.defl with config := s.defl.config, regs := s.defl.regs } = s.defl ∧
        { t.infl with config := s.infl.config, regs := s.infl.regs } = s.infl ∧ t.cks.ec = s.cks.ec ∧
        t = { s with defl := t.defl, infl := t.infl, cks := t.cks }) ∧
      (off ∉ rwOffsets → commandPort off = none → serve (.writeReg off v) s = .next s) ∧
      ∀ p i, commandPort off = some p → decode p (leBytes 4 v.toNat) = .ok i → serve (.writeReg off v) s = exec i s

/-- R26: the fields of the two `STATUS` registers, and the bits that read 0; they are read only. -/
def Obligations.StatusFields : Prop :=
  ∀ s : State, (∀ v : Word, serve (.writeReg 0x004 v) s = .next s ∧ serve (.writeReg 0x104 v) s = .next s) ∧
    let d := (readReg 0x004 s).toNat
    let i := (readReg 0x104 s).toNat
    (field 0 5 d = s.defl.ec.code ∧ field 5 3 d = 0 ∧ field 8 5 d = s.defl.stage.num ∧
        field 13 1 d = s.defl.finishing.toNat ∧ (field 14 1 d = 1 ↔ s.defl.sticky ≠ .ok) ∧
        field 15 1 d = s.defl.configured.toNat ∧ field 16 3 d = s.defl.phase.num ∧ field 19 13 d = 0) ∧
      field 0 5 i = s.infl.ec.code ∧ field 5 3 i = 0 ∧ field 8 5 i = s.infl.stage.num ∧
        field 13 1 i = s.infl.last.toNat ∧ (field 14 1 i = 1 ↔ s.infl.sticky ≠ .ok) ∧
        field 15 1 i = s.infl.configured.toNat ∧ field 16 3 i = 0 ∧ field 19 13 i = 0

/-! ## Reset and the invariant -/

/-- R70 (left column) and R600: what a hardware reset leaves, from every state and in `State.reset`. -/
def Obligations.HardwareReset : Prop :=
  ∀ s : State, ∃ t, serve .hwReset s = .next t ∧ t = { s with defl := t.defl, infl := t.infl, cks := t.cks } ∧
    t.defl = State.reset.defl ∧ t.infl = State.reset.infl ∧ t.cks = State.reset.cks ∧
    (t.defl.config = 0 ∧ t.defl.ec = .ok ∧ t.defl.regs = ⟨0, 0, 0, 0, 0, 0⟩ ∧ t.defl.configured = false ∧
      t.defl.sticky = .ok ∧ t.defl.stage = .init ∧ t.defl.phase = .collect ∧ t.defl.finishing = false ∧
      t.defl.deferred.valid = false ∧ t.defl.sat = 0 ∧ t.defl.data = [] ∧ t.defl.pos = 0 ∧ t.defl.emitPos = 0 ∧
      t.defl.blockStart = 0 ∧ t.defl.histBase = 0 ∧ t.defl.nextIns = 0 ∧ t.defl.syms = [] ∧ t.defl.pending = [] ∧
      t.defl.bitBuf = 0 ∧ t.defl.bitCnt = 0 ∧ t.defl.check = 0 ∧ t.defl.isize = 0) ∧
    (t.infl.config = 0 ∧ t.infl.ec = .ok ∧ t.infl.regs = ⟨0, 0, 0, 0, 0, 0⟩ ∧ t.infl.configured = false ∧
      t.infl.sticky = .ok ∧ t.infl.stage = .bad ∧ t.infl.hold = 0 ∧ t.infl.cnt = 0 ∧ t.infl.produced = 0 ∧
      t.infl.last = false ∧ t.infl.fresh = false ∧ t.infl.gzflags = 0 ∧ t.infl.xlen = 0 ∧ t.infl.hcrc = 0 ∧
      t.infl.dictid = 0 ∧ t.infl.check = 0 ∧ t.infl.isize = 0) ∧
    t.cks = ⟨.ok, 0, 0, 1, 0⟩

/-- The invariant holds at reset. -/
def Obligations.InvAtReset : Prop := State.Inv State.reset

/-- Every step from a state that meets the invariant gives a state that meets it, whatever the host asks. -/
def Obligations.StepKeepsInv : Prop := ∀ s t : State, s.Inv → step s = .next t → t.Inv

/-- `general` is never reported (R559), and `invalid_code_lengths` only under `P_CLSET_ERR = generic` (R542): both hold at
reset and every step keeps them. -/
def Obligations.NoGeneralError : Prop :=
  State.reset.infl.CodesInv State.reset.params ∧
    ∀ s t : State, s.Inv → s.infl.CodesInv s.params → step s = .next t → t.infl.CodesInv t.params

/-- R378: `DEFL.RESET`. The legality test on the bits of `CONFIG`, what a refused one leaves, and every field R70 gives
after a successful one; two in a row equal one (R72). -/
def Obligations.DeflResetResult : Prop :=
  ∀ s : State,
    let c := s.defl.config.toNat
    let legal := (field 0 4 c ≤ 9 ∨ field 0 4 c = 15) ∧ 9 ≤ field 4 4 c ∧ 1 ≤ field 8 4 c ∧ field 8 4 c ≤ 9 ∧
      field 12 3 c ≤ 4 ∧ field 16 2 c ≤ 2 ∧ field 15 1 c = 0 ∧ field 18 14 c = 0
    (¬legal → exec .deflReset s = .next { s with
      defl := { s.defl with configured := false, sticky := .ok, ec := .streamError } }) ∧
      (legal → ∃ t, exec .deflReset s = .next t ∧ t = { s with defl := t.defl } ∧
        t.defl.config = s.defl.config ∧ t.defl.regs = s.defl.regs ∧ t.defl.configured = true ∧ t.defl.sticky = .ok ∧
        t.defl.ec = .ok ∧ t.defl.level = (if field 0 4 c = 15 then 6 else field 0 4 c) ∧ t.defl.wbits = field 4 4 c ∧
        t.defl.mem = field 8 4 c ∧ strategyOf (field 12 3 c) = some t.defl.strategy ∧
        wrapOf (field 16 2 c) = some t.defl.wrap ∧ t.defl.stage = .init ∧ t.defl.phase = .collect ∧
        t.defl.finishing = false ∧ t.defl.deferred.valid = false ∧ t.defl.sat = 0 ∧ t.defl.data = [] ∧
        t.defl.pos = 0 ∧ t.defl.emitPos = 0 ∧ t.defl.blockStart = 0 ∧ t.defl.histBase = 0 ∧ t.defl.nextIns = 0 ∧
        (∀ h, headAt t.defl h = none) ∧ t.defl.syms = [] ∧ t.defl.pending = [] ∧ t.defl.bitBuf = 0 ∧ t.defl.bitCnt = 0 ∧
        t.defl.check = (if t.defl.wrap = .zlib then 1 else 0) ∧ t.defl.isize = 0) ∧
      ∀ t, exec .deflReset s = .next t → exec .deflReset t = .next t

/-- R461: `INFL.RESET`, likewise; `LEVEL`, `MEM_LEVEL` and `STRATEGY` are not looked at; two in a row
equal one (R72). -/
def Obligations.InflResetResult : Prop :=
  ∀ s : State,
    let c := s.infl.config.toNat
    let legal := 9 ≤ field 4 4 c ∧ field 16 2 c ≤ 2 ∧ field 15 1 c = 0 ∧ field 18 14 c = 0
    (¬legal → exec .inflReset s = .next { s with
      infl := { s.infl with configured := false, sticky := .ok, ec := .streamError } }) ∧
      (legal → ∃ t, exec .inflReset s = .next t ∧ t = { s with infl := t.infl } ∧
        t.infl.config = s.infl.config ∧ t.infl.regs = s.infl.regs ∧ t.infl.configured = true ∧ t.infl.sticky = .ok ∧
        t.infl.ec = .ok ∧ t.infl.wbits = field 4 4 c ∧ wrapOf (field 16 2 c) = some t.infl.wrap ∧
        t.infl.stage = (match t.infl.wrap with | .zlib => .zhdr | .gzip => .gzMagic | .none => .blockType) ∧
        t.infl.check = (if t.infl.wrap = .zlib then 1 else 0) ∧ t.infl.hold = 0 ∧ t.infl.cnt = 0 ∧ t.infl.produced = 0 ∧
        t.infl.isize = 0 ∧ t.infl.last = false ∧ t.infl.fresh = false ∧ t.infl.gzflags = 0 ∧ t.infl.xlen = 0 ∧
        t.infl.hcrc = 0 ∧ t.infl.dictid = 0) ∧
      ∀ t, exec .inflReset s = .next t → exec .inflReset t = .next t

/-- R604, R602, R71: no instruction but an engine's `RESET` configures it or changes its parameters, and no instruction
at all writes `CONFIG`. -/
def Obligations.OnlyResetConfigures : Prop :=
  ∀ (i : Instr) (s t : State), exec i s = .next t →
    t.defl.config = s.defl.config ∧ t.infl.config = s.infl.config ∧ t.params = s.params ∧
      (i ≠ .deflReset → t.defl.configured = s.defl.configured ∧ t.defl.level = s.defl.level ∧
        t.defl.wbits = s.defl.wbits ∧ t.defl.mem = s.defl.mem ∧ t.defl.strategy = s.defl.strategy ∧
        t.defl.wrap = s.defl.wrap) ∧
      (i ≠ .inflReset → t.infl.configured = s.infl.configured ∧ t.infl.wbits = s.infl.wbits ∧
        t.infl.wrap = s.infl.wrap)

/-- R3, R582, R531: an instruction changes its own engine only, never `IN`, and `OUT` only where its engine stores; and
what it does with its own engine does not depend on the other two. -/
def Obligations.EnginesAreIndependent : Prop :=
  (∀ (i : Instr) (s t : State), exec i s = .next t →
      (engineOf i ≠ .defl → t.defl = s.defl) ∧ (engineOf i ≠ .infl → t.infl = s.infl) ∧
        (engineOf i ≠ .cks → t.cks = s.cks) ∧ t.bus.inMem = s.bus.inMem ∧
        ((engineOf i = .cks ∨ engineOf i = .none) → t.bus.outMem = s.bus.outMem) ∧
        t.queue = s.queue ∧ t.readData = s.readData) ∧
    ∀ (i : Instr) (s : State) (d : Defl) (x : Infl) (c : Cks),
      (engineOf i = .defl → exec i { s with infl := x, cks := c } = onNext (fun t => { t with infl := x, cks := c }) (exec i s)) ∧
        (engineOf i = .infl → exec i { s with defl := d, cks := c } = onNext (fun t => { t with defl := d, cks := c }) (exec i s)) ∧
        (engineOf i = .cks → exec i { s with defl := d, infl := x } = onNext (fun t => { t with defl := d, infl := x }) (exec i s))

/-- R552, R565: a recorded error, and the end of a stream, are left by `RESET` only; no error is recorded over another. -/
def Obligations.OnlyResetLeavesAnError : Prop :=
  ∀ (i : Instr) (s t : State), exec i s = .next t →
    (i ≠ .deflReset →
      (s.defl.sticky ≠ .ok → t.defl.sticky = s.defl.sticky) ∧ (s.defl.stage = .done → t.defl.stage = .done)) ∧
      (i ≠ .inflReset →
        (s.infl.sticky ≠ .ok → t.infl.sticky = s.infl.sticky) ∧
          (s.infl.stage = .bad ∨ s.infl.stage = .done → t.infl.stage = s.infl.stage))

/-! ## The compressor engine -/

/-- R380: the entry checks of `DEFL.WRITE f`, in their order; a call after the final block was planned acts as
`finish`; a call that passes them all does its work. -/
def Obligations.DeflWriteEntryChecks : Prop :=
  ∀ (f : Flush) (s : State),
    let d := s.defl
    let w := exec (deflWriteInstr f) s
    let region := d.regs.nextIn.toNat + d.regs.availIn.toNat ≤ 2 ^ 32 ∧ d.regs.nextOut.toNat + d.regs.availOut.toNat ≤ 2 ^ 32
    (d.configured = false → w = .next { s with defl := { d with ec := .streamError } }) ∧
      (d.configured = true → d.sticky ≠ .ok → w = .next { s with defl := { d with ec := d.sticky } }) ∧
      (d.configured = true → d.sticky = .ok → ¬region → w = .next { s with defl := { d with ec := .streamError } }) ∧
      (d.configured = true → d.sticky = .ok → region → d.stage = .done →
        w = .next { s with defl :=
          if d.regs.availIn ≠ 0 then { d with sticky := .streamError, ec := .streamError } else { d with ec := .endOfStream } }) ∧
      (d.configured = true → d.sticky = .ok → region → d.stage ≠ .done → d.finishing = true →
        (d.regs.availIn ≠ 0 → w = .next { s with defl := { d with sticky := .streamError, ec := .streamError } }) ∧
          (d.regs.availIn = 0 → w = deflRun .finish s)) ∧
      (d.configured = true → d.sticky = .ok → region → d.stage ≠ .done → d.finishing = false → w = deflRun f s)

/-- R375 (a) to (c), R388, R414: a `WRITE` that passes the entry checks ends; it consumes a run of `IN` bytes, each of
which becomes part of the source, writes a run of `OUT` bytes, and moves the stream parameters by just that. -/
def Obligations.DeflWriteCompletes : Prop :=
  ∀ (f : Flush) (s : State), s.Inv → deflAccepts s.defl →
    ∃ t, exec (deflWriteInstr f) s = .next t ∧ t = { s with defl := t.defl, bus := t.bus } ∧
      regsMoved s.defl.regs t.defl.regs ∧
      t.defl.data = s.defl.data ++ bytesAt s.bus.inMem s.defl.regs.nextIn.toNat (consumed s.defl.regs t.defl.regs) ∧
      t.bus.inMem = s.bus.inMem ∧
      sameOutside s.defl.regs.nextOut.toNat (produced s.defl.regs t.defl.regs) s.bus.outMem t.bus.outMem

/-- R386, R375 (e): the code a `WRITE` that did its work returns. Whether a `trees` call stopped at a tree boundary shows
nowhere else, so for it a call that moved nothing may return either code. -/
def Obligations.DeflWriteCodes : Prop :=
  ∀ (f : Flush) (s t : State), s.Inv → deflAccepts s.defl → exec (deflWriteInstr f) s = .next t →
    (t.defl.stage = .done → t.defl.ec = .endOfStream) ∧
      (t.defl.stage ≠ .done → consumed s.defl.regs t.defl.regs ≠ 0 ∨ produced s.defl.regs t.defl.regs ≠ 0 →
        t.defl.ec = .ok) ∧
      (t.defl.stage ≠ .done → consumed s.defl.regs t.defl.regs = 0 → produced s.defl.regs t.defl.regs = 0 →
        t.defl.ec = .needBuffers ∨ (t.defl.ec = .ok ∧ f = .trees ∧ s.defl.finishing = false))

/-- R398: the type of a closed block. The constraints hold for every chooser; the default takes the cheapest type it may,
by the byte costs of the rule; and at level 0 a stored block is always possible. -/
def Obligations.ChooseBlock : Prop :=
  ∀ (s : State) (final : Bool),
    let d := s.defl
    let b := (closeBlock s.params final d).blk
    let span := d.emitPos - d.blockStart
    let fix := (3 + fixBits d.syms + 7) / 8
    let dyn := (3 + dynBits b d.syms + 7) / 8
    let cost := fun t : BlockType => match t with | .stored => span + 4 | .fixed => fix | .dynamic => dyn
    let may := fun t : BlockType => match t with
      | .stored => d.pos - d.blockStart ≤ 2 ^ d.wbits ∧ span ≤ 65535
      | .fixed => True
      | .dynamic => d.strategy ≠ .fixed
    (d.level = 0 → b.typ = .stored) ∧ (d.level ≠ 0 → may b.typ) ∧
      (s.params.chooser = .byCost → d.level ≠ 0 → ∀ t, may t → cost b.typ ≤ cost t) ∧
      (s.params.chooser = .byCost → d.level ≠ 0 →
        (b.typ = .stored ↔ may .stored ∧ span + 4 ≤ (if d.strategy = .fixed then fix else min fix dyn)) ∧
          (b.typ = .dynamic ↔ ¬(may .stored ∧ span + 4 ≤ min fix dyn) ∧ d.strategy ≠ .fixed ∧ dyn < fix)) ∧
      (s.Inv → d.level = 0 → may .stored) ∧ b.final = final ∧ b.toks = d.syms

/-- R402, R411: `finish` closes a final block even with no token. In a fresh raw stream with no input it is `03 00`, or at
level 0 an empty stored block. After data, with an empty open block and whatever bits are held, it is those bits, the
same empty block and the trailer of the container (R265). A `finish` that leaves output space has ended the stream (R376);
and `finishing`, once set, is cleared by `RESET` only. -/
def Obligations.FinalBlock : Prop :=
  (∀ s : State, deflLegal s.defl.config = true → cfgWrap s.defl.config = 0 → s.defl.regs.availIn = 0 →
      5 ≤ s.defl.regs.availOut.toNat → regionOk s.defl.regs = true → s.bus.outMem.wf → s.params.chooser = .byCost →
      ∃ t u, exec .deflReset s = .next t ∧ exec .deflWriteFinish t = .next u ∧ u.defl.ec = .endOfStream ∧
        u.defl.stage = .done ∧ u.defl.finishing = true ∧ u.defl.blk.final = true ∧
        writtenBytes s.defl.regs u.defl.regs u.bus.outMem =
          if cfgLevel s.defl.config = 0 then [0x01, 0x00, 0x00, 0xFF, 0xFF] else [0x03, 0x00]) ∧
    (∀ s : State, s.Inv → deflAccepts s.defl → s.params.chooser = .byCost →
      let d := s.defl
      let zeros := fun n : Nat => List.replicate n false
      let byte := fun (x : Word) (k : Nat) => BitVec.ofNat 8 (x.toNat / 256 ^ k)
      d.stage = .body ∨ d.stage = .flushPending → d.phase = .collect → d.finishing = false → d.syms = [] →
      d.deferred.valid = false → d.pos = dataEnd d → d.pending = [] → d.regs.availIn = 0 → 16 ≤ d.regs.availOut.toNat →
      ∃ u, exec .deflWriteFinish s = .next u ∧ u.defl.ec = .endOfStream ∧ u.defl.stage = .done ∧
        u.defl.finishing = true ∧ u.defl.blk.final = true ∧
        streamBits (writtenBytes d.regs u.defl.regs u.bus.outMem) = bitsOf d.bitCnt d.bitBuf ++
          (if d.level = 0 then [true, false, false] ++ zeros ((8 - (d.bitCnt + 3) % 8) % 8) ++ bitsOf 16 0 ++ bitsOf 16 65535
           else [true, true, false] ++ zeros 7 ++ zeros ((8 - (d.bitCnt + 10) % 8) % 8)) ++
          streamBits (match d.wrap with
            | .none => []
            | .zlib => [byte d.check 3, byte d.check 2, byte d.check 1, byte d.check 0]
            | .gzip => [byte d.check 0, byte d.check 1, byte d.check 2, byte d.check 3,
                byte d.isize 0, byte d.isize 1, byte d.isize 2, byte d.isize 3])) ∧
    (∀ s t : State, s.Inv → deflAccepts s.defl → exec .deflWriteFinish s = .next t → t.defl.regs.availOut ≠ 0 →
      t.defl.stage = .done ∧ t.defl.ec = .endOfStream) ∧
    ∀ (i : Instr) (s t : State), exec i s = .next t → i ≠ .deflReset → s.defl.finishing = true → t.defl.finishing = true

/-- R376: a complete `sync` or `full` leaves the output on a byte boundary of the bit stream, and, where the call emitted a
marker, ends what it wrote with the bytes `00 00 ff ff`. -/
def Obligations.SyncAndFullAlign : Prop :=
  AlignedFlush .sync ∧ AlignedFlush .full ∧ MarkerWritten .sync ∧ MarkerWritten .full

/-- R374 (round trip), R372 (the output is the grammar of the container `wrap` names, as `INFL` checks it), R376 (what a
complete `partial`, `sync` or `full` has written decodes to all that was consumed; `full` starts a chunk a fresh decoder
reads; `block` leaves no byte outside a generated block) and R375 (d) (portioning output space is invisible): with
`SyncAndFullAlign`, what R413 asks of a model. That a `partial` writes its marker after a completed `trees` that holds data
back, as R376 needs and R403 does not say, is the model's choice (log 29). -/
def Obligations.RoundTrips : Prop :=
  RoundTrip ∧ OutputGrammar ∧ FlushObligation .part ∧ FlushObligation .sync ∧ FlushObligation .full ∧ FullChunk ∧
    BlockFlush ∧ PortioningIsInvisible

/-! ## The decompressor engine -/

/-- R462: the entry checks of `INFL.WRITE f`, in their order, and what follows when they pass. -/
def Obligations.InflWriteEntryChecks : Prop :=
  ∀ (f : Flush) (s : State),
    let i := s.infl
    let w := exec (inflWriteInstr f) s
    let region := i.regs.nextIn.toNat + i.regs.availIn.toNat ≤ 2 ^ 32 ∧ i.regs.nextOut.toNat + i.regs.availOut.toNat ≤ 2 ^ 32
    (i.configured = false → w = .next { s with infl := { i with ec := .streamError } }) ∧
      (i.configured = true → i.sticky ≠ .ok → w = .next { s with infl := { i with ec := i.sticky } }) ∧
      (i.configured = true → i.sticky = .ok → ¬region → w = .next { s with infl := { i with ec := .streamError } }) ∧
      (i.configured = true → i.sticky = .ok → region → i.stage = .done →
        w = .next { s with infl := { i with ec := .endOfStream } }) ∧
      (i.configured = true → i.sticky = .ok → region → i.stage ≠ .done → w = inflRun f s)

/-- R516, R468, R15: every `WRITE` of every mode ends in every state; one that passes the entry checks moves the stream
parameters by what it consumed and produced, and the window count, the checksum and the size by the bytes written. -/
def Obligations.InflWriteCompletes : Prop :=
  ∀ (f : Flush) (s : State), s.bus.outMem.wf →
    ∃ t, exec (inflWriteInstr f) s = .next t ∧ t = { s with infl := t.infl, bus := t.bus } ∧
      (inflAccepts s.infl →
        regsMoved s.infl.regs t.infl.regs ∧
          t.infl.produced = s.infl.produced + produced s.infl.regs t.infl.regs ∧
          t.infl.isize = s.infl.isize + BitVec.ofNat 32 (produced s.infl.regs t.infl.regs) ∧
          t.infl.check =
            (writtenBytes s.infl.regs t.infl.regs t.bus.outMem).foldl (checkStep s.infl.wrap) s.infl.check ∧
          t.bus.inMem = s.bus.inMem ∧
          sameOutside s.infl.regs.nextOut.toNat (produced s.infl.regs t.infl.regs) s.bus.outMem t.bus.outMem)

/-- R466 with R463: the code a `WRITE` that did its work returns. An error wins; then the end of the stream; `finish`
before the end is `need_buffers`; else what moved decides, and only a `block` or `trees` call can stop without moving. -/
def Obligations.InflWriteCodes : Prop :=
  ∀ (f : Flush) (s t : State), inflAccepts s.infl → exec (inflWriteInstr f) s = .next t →
    let moved := consumed s.infl.regs t.infl.regs ≠ 0 ∨ produced s.infl.regs t.infl.regs ≠ 0
    (t.infl.sticky ≠ .ok → t.infl.ec = t.infl.sticky ∧ t.infl.stage = .bad) ∧
      (t.infl.sticky = .ok → t.infl.stage = .done → t.infl.ec = .endOfStream) ∧
      (t.infl.sticky = .ok → t.infl.stage ≠ .done → f = .finish → t.infl.ec = .needBuffers) ∧
      (t.infl.sticky = .ok → t.infl.stage ≠ .done → f ≠ .finish → moved → t.infl.ec = .ok) ∧
      (t.infl.sticky = .ok → t.infl.stage ≠ .done → f ≠ .finish → ¬moved →
        t.infl.ec = .needBuffers ∨ (t.infl.ec = .ok ∧ (f = .block ∨ f = .trees)))

/-- An element with fixed fields, run on its own, does what the micro-step of its stage does with exactly its bits in
hand (R463, R470 to R500): the same engine when it completes, the same error when it raises. A Huffman-coded one does what
the micro-steps of its stages do with the bits of its code and its extra bits in hand (R489, R492 to R497), for every table
that is not over-subscribed and has a code for it. A raw byte does what `STORED_COPY` does with that byte next in `IN`
(R485), the input cursors apart. An element whose format is
not read where it stands, or a symbol without a code in its table (R441), is taken by the stage (R149): as a `WRITE none`
with its bytes as the whole input (log 5), so that an unconfigured engine answers `stream_error` (R556), one in a terminal error its code (R552), and one at the end
`end_of_stream` (R501), with nothing else changed. -/
def Obligations.ElementsAreMicroSteps : Prop :=
  (∀ (i : Instr) (s : State) (fmt : Fmt) (n : Nat), i.port = .element fmt → fmtBits fmt = some n →
      elementReady fmt s.infl = true → s.infl.hold = 0 → s.infl.cnt = 0 →
      let m := inflMicro s.params .none ⟨{ s.infl with hold := leNat (encode i), cnt := n }, s.bus⟩
      (∃ e, (m = .complete ⟨e, s.bus⟩ ∨ m = .stop ⟨e, s.bus⟩) ∧ exec i s = .next { s with infl := e }) ∨
        ∃ x e, m = .raised x ⟨e, s.bus⟩ ∧ exec i s = .next { s with infl := inflRaise x { e with hold := 0, cnt := 0 } }) ∧
    (∀ (fmt : Fmt) (k x : Nat) (i : Instr) (tb : TableId) (w : Nat) (s : State),
      codedElement fmt k x = some (i, tb, w) → x < 2 ^ w →
      elementReady fmt s.infl = true → s.infl.hold = 0 → s.infl.cnt = 0 →
      let lens := tableLens tb s.infl
      (∀ l ∈ lens, l ≤ tableMax tb) → kraft (tableMax tb) lens ≤ 2 ^ tableMax tb → 0 < lens.getD k 0 →
      let c : InflCtx := ⟨holding (codeBits lens (tableMax tb) k ++ bitsOf w x) s.infl, s.bus⟩
      (∃ n c1, microSteps s.params n c = some c1 ∧ exec i s = .next (withInfl c1 s)) ∨
        ∃ n c1 y e, microSteps s.params n c = some c1 ∧ inflMicro s.params .none c1 = .raised y ⟨e, s.bus⟩ ∧
          exec i s = .next { s with infl := inflRaise y { e with hold := 0, cnt := 0 } }) ∧
    (∀ (b : Byte) (s : State), elementReady .raw s.infl = true →
      let r := s.infl.regs
      ∃ t, exec (.storedRaw b) s = .next t ∧
        (r.availOut = 0 → t = s ∧ inflMicro s.params .none ⟨s.infl, s.bus⟩ = .suspend ⟨s.infl, s.bus⟩) ∧
        (r.availOut ≠ 0 → r.availIn ≠ 0 → r.nextIn.toNat + 1 < 2 ^ 32 → memRead s.bus.inMem r.nextIn.toNat = b →
          t = { s with infl := t.infl, bus := t.bus } ∧
            inflMicro s.params .none ⟨s.infl, s.bus⟩ = .complete ⟨{ t.infl with
              regs := { t.infl.regs with
                nextIn := r.nextIn + 1, availIn := r.availIn - 1, totalIn := r.totalIn + 1 } }, t.bus⟩)) ∧
    ∀ (i : Instr) (s : State) (fmt : Fmt), i.port = .element fmt → canRun fmt (encode i) s.infl = false →
      exec i s = onNext (restoreInput s) (exec .inflWriteNone (withInput (encode i) s)) ∧
        (s.infl.configured = false → exec i s = .next { s with infl := { s.infl with ec := .streamError } }) ∧
        (s.infl.configured = true → s.infl.sticky ≠ .ok →
          exec i s = .next { s with infl := { s.infl with ec := s.infl.sticky } }) ∧
        (s.infl.configured = true → s.infl.sticky = .ok → s.infl.stage = .done → regionOk s.infl.regs = true →
          exec i s = .next { s with infl := { s.infl with ec := .endOfStream } })

/-! ## Checksums -/

/-- R241, R242: each update refuses a region past the end of `IN`, else sums the whole run, one step a byte in order. -/
def Obligations.CksUpdates : Prop :=
  ∀ s : State,
    let run := bytesAt s.bus.inMem s.cks.nextIn.toNat s.cks.availIn.toNat
    let fits := s.cks.nextIn.toNat + s.cks.availIn.toNat ≤ 2 ^ 32
    (¬fits → exec .cksAdlerUpdate s = .next { s with cks := { s.cks with ec := .streamError } } ∧
        exec .cksCrcUpdate s = .next { s with cks := { s.cks with ec := .streamError } }) ∧
      (fits →
        (∃ t, exec .cksAdlerUpdate s = .next t ∧ t = { s with cks := t.cks, bus := t.bus } ∧ t.cks.ec = .ok ∧
          t.cks.availIn = 0 ∧ t.cks.adler = run.foldl adlerStep s.cks.adler ∧ t.cks.crc = s.cks.crc ∧
          (s.cks.nextIn.toNat + s.cks.availIn.toNat < 2 ^ 32 → t.cks.nextIn = s.cks.nextIn + s.cks.availIn) ∧
          t.bus.inMem = s.bus.inMem ∧ t.bus.outMem = s.bus.outMem) ∧
        ∃ t, exec .cksCrcUpdate s = .next t ∧ t = { s with cks := t.cks, bus := t.bus } ∧ t.cks.ec = .ok ∧
          t.cks.availIn = 0 ∧ t.cks.crc = run.foldl crcStep s.cks.crc ∧ t.cks.adler = s.cks.adler ∧
          (s.cks.nextIn.toNat + s.cks.availIn.toNat < 2 ^ 32 → t.cks.nextIn = s.cks.nextIn + s.cks.availIn) ∧
          t.bus.inMem = s.bus.inMem ∧ t.bus.outMem = s.bus.outMem)

/-- R232, R237, R238: one step of each checksum; the table step of the CRC is the byte xored in and eight conditional
shifts, with the register complemented before and after. The Adler-32 of a run in closed form: the sum of the bytes plus
1, and the sum of the partial sums, both modulo 65521; and a sum may be cut anywhere (R233, R239). The engines' checksum
step is the one `wrap` selects, and leaves the value alone for a raw stream (R240, R388, R468). -/
def Obligations.Checksums : Prop :=
  ((∀ (a : Word) (b : Byte) (s : State),
        let s1 := (a.toNat % 65536 + b.toNat) % 65521
        let s2 := (a.toNat / 65536 + s1) % 65521
        exec (.adlerStep a b) s = .next { s with result := .value (s2 * 65536 + s1) }) ∧
      (∀ (c : Word) (b : Byte) (s : State), exec (.crcStep c b) s =
        .next { s with result := .value (crcShift 8 ((c ^^^ 0xFFFFFFFF) ^^^ b.zeroExtend 32) ^^^ 0xFFFFFFFF).toNat }) ∧
      (∀ c : Word, crcShift 8 c =
        (List.range 8).foldl (fun x _ => if x % 2 = 1 then (x / 2) ^^^ 0xEDB88320 else x / 2) c) ∧
      crcTab 1 = 0x77073096 ∧ crcTab 8 = 0x0EDB8832 ∧ crcTab 128 = 0xEDB88320 ∧ crcTab 255 = 0x2D02EF8D) ∧
    (∀ bs : List Byte,
        (adler32 1 bs).toNat % 65536 = (1 + (bs.map fun b => b.toNat).sum) % 65521 ∧
          (adler32 1 bs).toNat / 65536 =
            (bs.length + (bs.mapIdx fun k b => (bs.length - k) * b.toNat).sum) % 65521) ∧
      (∀ (a : Word) (xs ys : List Byte), adler32 (adler32 a xs) ys = adler32 a (xs ++ ys) ∧
        crc32 (crc32 a xs) ys = crc32 a (xs ++ ys)) ∧
      ∀ (a : Word) (b : Byte) (s : State),
        exec (.adlerStep a b) s = .next { s with result := .value (checkStep .zlib a b).toNat } ∧
          exec (.crcStep a b) s = .next { s with result := .value (checkStep .gzip a b).toNat } ∧ checkStep .none a b = a

/-! ## Bit I/O

The rules give each operation its effect on the bits; that it also runs on its own, in every state of its engine, is log 4. -/

/-- R203 to R205 with R201: what the three writer operations append to the bit stream, from a state that meets R201's
invariant, which they keep. Nothing but `pending`, `bit_buf` and `bit_cnt` changes. -/
def Obligations.BitWriterAppends : Prop :=
  ∀ s : State, s.defl.bitCnt ≤ 7 → s.defl.bitBuf < 2 ^ s.defl.bitCnt →
    let keeps := fun t : State => t.defl.bitCnt ≤ 7 ∧ t.defl.bitBuf < 2 ^ t.defl.bitCnt ∧
      t = { s with
        defl := { s.defl with pending := t.defl.pending, bitBuf := t.defl.bitBuf, bitCnt := t.defl.bitCnt }
        result := .nothing }
    (∀ (v : Word) (n : Nat), n ≤ 32 → v.toNat < 2 ^ n → ∃ t, exec (.bwPut v n) s = .next t ∧ keeps t ∧
        writtenBits t.defl = writtenBits s.defl ++ bitsOf n v.toNat) ∧
      (∀ (c : Word) (n : Nat), 1 ≤ n → n ≤ 15 → c.toNat < 2 ^ n → ∃ t, exec (.bwPutcode c n) s = .next t ∧ keeps t ∧
        writtenBits t.defl = writtenBits s.defl ++ (bitsOf n c.toNat).reverse) ∧
      ∃ t, exec .bwAlign s = .next t ∧ keeps t ∧ t.defl.bitCnt = 0 ∧
        writtenBits t.defl = writtenBits s.defl ++ List.replicate ((8 - s.defl.bitCnt) % 8) false

/-- R206: `BW.TAKE` writes as many of the queued bytes, in order, as there is output space for. -/
def Obligations.BitWriterTakes : Prop :=
  ∀ s : State, s.bus.outMem.wf →
    let k := min s.defl.pending.length s.defl.regs.availOut.toNat
    let a := s.defl.regs.nextOut.toNat
    a + k ≤ 2 ^ 32 →
    ∃ t, exec .bwTake s = .next t ∧ t.defl.pending = s.defl.pending.drop k ∧
      bytesAt t.bus.outMem a k = s.defl.pending.take k ∧ sameOutside a k s.bus.outMem t.bus.outMem ∧
      t.bus.inMem = s.bus.inMem ∧ regsMoved s.defl.regs t.defl.regs ∧ consumed s.defl.regs t.defl.regs = 0 ∧
      produced s.defl.regs t.defl.regs = k ∧
      t = { s with defl := { s.defl with pending := t.defl.pending, regs := t.defl.regs }, bus := t.bus, result := .nothing }

/-- R213: `BR.NEED n` fetches the fewest bytes that make `n` bits, or all there are; they go on top of `hold` and, in the
header stages, through `hcrc`. -/
def Obligations.BitReaderNeeds : Prop :=
  ∀ (n : Nat) (s : State), n ≤ 32 →
    let a := s.infl.regs.nextIn.toNat
    let k := min ((n - s.infl.cnt + 7) / 8) s.infl.regs.availIn.toNat
    a + k ≤ 2 ^ 32 →
    ∃ t, exec (.brNeed n) s = .next t ∧
      t.result = (if n ≤ s.infl.cnt + 8 * k then .nothing else .suspended) ∧
      regsMoved s.infl.regs t.infl.regs ∧ consumed s.infl.regs t.infl.regs = k ∧ produced s.infl.regs t.infl.regs = 0 ∧
      t.bus.inMem = s.bus.inMem ∧ t.bus.outMem = s.bus.outMem ∧
      t = { s with
        infl := { s.infl with
          regs := t.infl.regs
          hold := s.infl.hold + leNat (bytesAt s.bus.inMem a k) * 2 ^ s.infl.cnt
          cnt := s.infl.cnt + 8 * k
          hcrc := if headerCrcStage s.infl.stage then crc32 s.infl.hcrc (bytesAt s.bus.inMem a k) else s.infl.hcrc }
        bus := t.bus, result := t.result }

/-- R215 to R218: peeking yields a field and changes nothing, dropping removes bits from the low end, `GET` is `NEED` then
peek and drop, with nothing dropped on suspension, and `ALIGN` drops the partial byte. -/
def Obligations.BitReaderTakes : Prop :=
  ∀ s : State,
    (∀ k n, k + n ≤ s.infl.cnt → exec (.brPeek k n) s = .next { s with result := .value (s.infl.hold / 2 ^ k % 2 ^ n) }) ∧
      (∀ n, n ≤ s.infl.cnt → ∃ t, exec (.brDrop n) s = .next t ∧
        heldBits t.infl = (heldBits s.infl).drop n ∧
        t = { s with infl := { s.infl with hold := s.infl.hold / 2 ^ n, cnt := s.infl.cnt - n }, result := .nothing }) ∧
      (∀ n, n ≤ 32 → ∃ t, exec (.brNeed n) s = .next t ∧ exec (.brGet n) s = .next
        (if t.result = .suspended then t
         else { t with
           infl := { t.infl with hold := t.infl.hold / 2 ^ n, cnt := t.infl.cnt - n }
           result := .value (t.infl.hold % 2 ^ n) })) ∧
      ∃ t, exec .brAlign s = .next t ∧ t.infl.cnt % 8 = 0 ∧
        heldBits t.infl = (heldBits s.infl).drop (s.infl.cnt % 8) ∧
        t = { s with
          infl := { s.infl with hold := s.infl.hold / 2 ^ (s.infl.cnt % 8), cnt := s.infl.cnt - s.infl.cnt % 8 }
          result := .nothing }

/-- R220: fields and alignments written from an empty writer and finally aligned are read back, value by value, by an
empty reader over the bytes that came out. -/
def Obligations.BitRoundTrip : Prop :=
  ∀ (ops : List BitOp) (s : State), (∀ o ∈ ops, o.ok) → s.defl.bitCnt = 0 → s.defl.bitBuf = 0 → s.defl.pending = [] →
    ∃ t ys, runInstrs (ops.map BitOp.write ++ [.bwAlign]) s = some (t, ys) ∧
      ∀ r : State, r.infl.cnt = 0 → r.infl.hold = 0 →
        r.infl.regs.nextIn.toNat + r.infl.regs.availIn.toNat ≤ 2 ^ 32 →
        r.infl.regs.availIn.toNat = t.defl.pending.length →
        bytesAt r.bus.inMem r.infl.regs.nextIn.toNat t.defl.pending.length = t.defl.pending →
        ∃ r', runInstrs (ops.map BitOp.read) r = some (r', ops.map BitOp.yielded)

/-- The named fault: an operand outside the range its rule states (93 U16, log 23). No stream element ends in one, in any state:
that one which is not read, or has no code, is taken by the stage is the model's choice (log 5). -/
def Obligations.NamedFaults : Prop :=
  (∀ s : State,
      (∀ v n, ¬(n ≤ 32 ∧ v.toNat < 2 ^ n) → exec (.bwPut v n) s = .fault .operandRange) ∧
        (∀ c n, ¬(1 ≤ n ∧ n ≤ 15 ∧ c.toNat < 2 ^ n) → exec (.bwPutcode c n) s = .fault .operandRange) ∧
        (∀ n, 32 < n → exec (.brNeed n) s = .fault .operandRange ∧ exec (.brGet n) s = .fault .operandRange) ∧
        (∀ k n, s.infl.cnt < k + n → exec (.brPeek k n) s = .fault .operandRange) ∧
        (∀ n, s.infl.cnt < n → exec (.brDrop n) s = .fault .operandRange) ∧
        (∀ freq max, 2 ^ max < freq.length → exec (.hbBuild freq max) s = .fault .operandRange) ∧
        (∀ lens max l, l ∈ lens → max < l →
          exec (.hbCanon lens max) s = .fault .operandRange ∧ ∀ k, exec (.hdBuild lens max k) s = .fault .operandRange) ∧
        (dataEnd s.defl ≤ s.defl.pos → s.defl.deferred.valid = false → exec .lzStep s = .fault .operandRange)) ∧
      ∀ (i : Instr) (s : State) (fmt : Fmt), i.port = .element fmt → ∃ t, exec i s = .next t

/-! ## Headers and trailers -/

/-- R255, R256: `HDR.ZENC` appends `CMF` and `FLG`, with the window nibble, `FLEVEL` and the check bits of the rule, and
the decode side accepts them for this window and every larger one. -/
def Obligations.ZlibHeader : Prop :=
  ∀ s : State, 9 ≤ s.defl.wbits → s.defl.wbits ≤ 15 →
    let d := s.defl
    let fl := if d.strategy = .huffman ∨ d.strategy = .rle ∨ d.strategy = .fixed ∨ d.level < 2 then 0
      else if d.level < 6 then 1 else if d.level = 6 then 2 else 3
    ∃ cmf flg : Byte,
      exec .hdrZenc s = .next { s with defl := { d with pending := d.pending ++ [cmf, flg] }, result := .nothing } ∧
        cmf.toNat = 8 + 16 * (d.wbits - 8) ∧
        flg.toNat = fl * 64 + (31 - (cmf.toNat * 256 + fl * 64) % 31) ∧ (cmf.toNat * 256 + flg.toNat) % 31 = 0 ∧
        flg.getLsbD 5 = false ∧ ∀ w, d.wbits ≤ w → zhdrCheck cmf flg w = none

/-- R260, R262: `HDR.GZENC` appends the fixed fields, the optional fields that are present, and their CRC16. That it does so
also for a `GZ_HDR` outside the type R262 gives it, `XLEN` then modulo 65536, is the model's choice (log 10). -/
def Obligations.GzipHeader : Prop :=
  ∀ s : State,
    let g := s.params.gzHdr
    let d := s.defl
    let xfl : Byte := if d.level = 9 then 2
      else if d.strategy = .huffman ∨ d.strategy = .rle ∨ d.strategy = .fixed ∨ d.level < 2 then 4 else 0
    let bit := fun (c : Bool) (w : Nat) => if c then w else 0
    let flg : Byte := BitVec.ofNat 8
      (bit g.text 1 + bit g.hcrc 2 + bit g.extra.isSome 4 + bit g.name.isSome 8 + bit g.comment.isSome 16)
    ∃ h : List Byte,
      exec .hdrGzenc s = .next { s with
        defl := { d with pending := d.pending ++ h ++ if g.hcrc then leBytes 2 (crc32 0 h).toNat else [] }
        result := .nothing } ∧
      h.take 10 = [0x1F, 0x8B, 8, flg] ++ leBytes 4 g.mtime.toNat ++ [g.xfl.getD xfl, g.os] ∧
      h.drop 10 = (g.extra.elim [] fun x => leBytes 2 x.length ++ x) ++ (g.name.elim [] fun x => x ++ [0]) ++
        (g.comment.elim [] fun x => x ++ [0]) ∧
      gzCmflgCheck 8 flg = none

/-- R265: `HDR.TRAILER` appends the checksum most significant byte first for zlib, the checksum and the size least
significant byte first for gzip, and nothing for a raw stream. -/
def Obligations.Trailer : Prop :=
  ∀ s : State,
    let d := s.defl
    let byte := fun (x : Word) (k : Nat) => BitVec.ofNat 8 (x.toNat / 256 ^ k)
    exec .hdrTrailer s = .next { s with
      defl := { d with pending := d.pending ++ match d.wrap with
        | .none => []
        | .zlib => [byte d.check 3, byte d.check 2, byte d.check 1, byte d.check 0]
        | .gzip => [byte d.check 0, byte d.check 1, byte d.check 2, byte d.check 3,
            byte d.isize 0, byte d.isize 1, byte d.isize 2, byte d.isize 3] }
      result := .nothing }

/-! ## The matcher -/

/-- R294: `LZ.INSERT p` inserts, in order, every position up to `p` whose three bytes are there. `head` then holds the
latest position of each hash, and a link not yet overwritten the latest earlier one. R307: `LZ.CLEAR` forgets the chains
and moves the floor of the history to `pos`; after it no match is valid at `pos` (R291 (b)). In states where the rules do not
call the two (a `p` at or past `pos`; a match deferred, or tokens in the open block: R318 (d), R307) that they act in this way
is the model's choice (log 27). -/
def Obligations.LzTables : Prop :=
  (∀ (p : Nat) (s : State),
      let d := s.defl
      let e := max d.nextIns (min (p + 1) (dataEnd d - 2))
      ∃ t, exec (.lzInsert p) s = .next t ∧ t.defl.nextIns = e ∧
        (∀ q, d.nextIns ≤ q → q < e → (∀ r, q < r → r < e → hash d r ≠ hash d q) → headAt t.defl (hash d q) = some q) ∧
        (∀ h, (∀ q, d.nextIns ≤ q → q < e → hash d q ≠ h) → headAt t.defl h = headAt d h) ∧
        (sparseWf none d.prev → ∀ q, d.nextIns ≤ q → q < e → e ≤ q + 2 ^ d.wbits →
          (∀ r, d.nextIns ≤ r → r < q → hash d r = hash d q → (∀ u, r < u → u < q → hash d u ≠ hash d q) →
            prevAt t.defl q = some r) ∧
          ((∀ r, d.nextIns ≤ r → r < q → hash d r ≠ hash d q) → prevAt t.defl q = headAt d (hash d q))) ∧
        t = { s with
          defl := { d with nextIns := e, head := t.defl.head, prev := t.defl.prev }, result := .nothing }) ∧
    ∀ s : State, ∃ t, exec .lzClear s = .next t ∧
      t = { s with
        defl := { s.defl with head := t.defl.head, histBase := s.defl.pos, nextIns := s.defl.pos }, result := .nothing } ∧
      (∀ h, headAt t.defl h = none) ∧ ∀ len dist, ¬validMatch t.defl t.defl.pos len dist

/-- R297, R299, R291: where every chain entry is below `p`, `LZ.FIND` yields no match or a valid one, and changes
nothing. And it finds: outside the drop rules of R298, the match is at least as long as the run shared with the nearest
candidate, where that is within reach and the budget is not 0; of equally long ones it is that nearest. That it also runs where
positions below `p` have not been inserted, which R297 requires, is the model's choice (log 27). -/
def Obligations.LzFindResult : Prop :=
  (∀ (p chain : Nat) (s : State), p ≤ dataEnd s.defl →
      (∀ h q, headAt s.defl h = some q → q < p) → (∀ k q, prevAt s.defl k = some q → q < p) →
      ∃ len dist, exec (.lzFind p chain) s = .next { s with result := .pair len dist } ∧
        ((len = 0 ∧ dist = 0) ∨ validMatch s.defl p len dist)) ∧
    ∀ (p chain q : Nat) (s : State) (len dist : Nat), s.defl.strategy = .normal → p + 3 ≤ dataEnd s.defl →
      headAt s.defl (hash s.defl p) = some q → q < p → p - q ≤ 2 ^ s.defl.wbits → s.defl.histBase ≤ q → 0 < chain →
      4 ≤ mlen s.defl q p (min 258 (dataEnd s.defl - p)) →
      exec (.lzFind p chain) s = .next { s with result := .pair len dist } →
      mlen s.defl q p (min 258 (dataEnd s.defl - p)) ≤ len ∧ (len = mlen s.defl q p (min 258 (dataEnd s.defl - p)) → dist = p - q)

/-- R300 to R306: one step of the tokeniser in each mode. The last clause, R306, is stated of every mode, where R301 defers
in lazy mode only: that is the model's reading (log 17), and `State.Inv` rules the other modes out there. That a step on its
own asks neither for `can_step` (R300, R390) nor for what R297 requires of the chains is the model's choice (log 27). -/
def Obligations.LzStepResult : Prop :=
  ∀ s : State, canLzStep s.defl = true →
    let d := s.defl
    let p := d.pos
    let row := levelRow s.params d.level
    let byteAt := fun q => d.data.getD q 0
    let before := if p = 0 then d else lzInsert (p - 1) d
    let find := fun chain => lzFind s.params p chain before
    let after := lzInsert p before
    let emits := fun (x : Defl) (t : Token) (pos : Nat) =>
      { x with syms := d.syms ++ [t], emitPos := d.emitPos + tokenLen t, pos := pos }
    ∃ t, exec .lzStep s = .next t ∧ t = { s with defl := t.defl, result := .nothing } ∧
      (p < dataEnd d → d.level = 0 ∨ d.strategy = .huffman → t.defl = emits d (.lit (byteAt p)) (p + 1)) ∧
      (p < dataEnd d → d.level ≠ 0 → d.strategy = .rle ∨ (d.strategy ≠ .huffman ∧ row.mode = .greedy) →
        t.defl = if 3 ≤ (find row.chain).1
          then emits after (.mat (find row.chain).1 (find row.chain).2) (p + (find row.chain).1)
          else emits after (.lit (byteAt p)) (p + 1)) ∧
      (p < dataEnd d → d.level ≠ 0 → d.strategy ≠ .huffman → d.strategy ≠ .rle → row.mode ≠ .greedy →
        d.deferred.valid = false →
        t.defl = if 3 ≤ (find row.chain).1
          then { after with deferred := ⟨true, (find row.chain).1, (find row.chain).2⟩, pos := p + 1 }
          else emits after (.lit (byteAt p)) (p + 1)) ∧
      (p < dataEnd d → d.level ≠ 0 → d.strategy ≠ .huffman → d.strategy ≠ .rle → row.mode ≠ .greedy →
        d.deferred.valid = true →
        let pl := d.deferred.len
        let m := if row.lazy ≤ pl then (0, 0) else find (if row.good ≤ pl then row.chain / 4 else row.chain)
        t.defl = if pl < m.1
          then { emits after (.lit (byteAt (p - 1))) (p + 1) with deferred := ⟨true, m.1, m.2⟩ }
          else { emits after (.mat pl d.deferred.dist) (p - 1 + pl) with deferred := { d.deferred with valid := false } }) ∧
      (dataEnd d ≤ p → t.defl =
        { emits d (.mat d.deferred.len d.deferred.dist) (p - 1 + d.deferred.len) with
          deferred := { d.deferred with valid := false } })

/-- R290, R291, R305: each step of the tokeniser keeps the tokens of the open block, and the deferred match, valid for the
data they stand for. -/
def Obligations.LzStepKeepsTokensValid : Prop :=
  ∀ s t : State, s.Inv → MatcherOk s.defl → exec .lzStep s = .next t → MatcherOk t.defl

/-! ## The Huffman builder -/

/-- R333, R330, R356, R338: what `HB.BUILD` yields is transmittable for every vector with room for two codes, and
`HD.BUILD` accepts it in strict mode; `HB.BUILD` ends for every vector of its range; a more frequent symbol never gets a
longer code, nor the lower of two equally frequent ones. (For fewer than two symbols no complete code exists, so the
first claim is about `2 ≤ n`; there the lengths are free values within the limit, log 30.) -/
def Obligations.HbBuildLengths : Prop :=
  (∀ (freq : List Nat) (max : Nat) (s : State), freq.length ≤ 2 ^ max →
      ∃ lens, exec (.hbBuild freq max) s = .next { s with result := .numbers lens } ∧ lens.length = freq.length ∧
        (∀ l ∈ lens, l ≤ max) ∧
        (2 ≤ freq.length → transmittable freq lens max ∧
          ∀ kind, exec (.hdBuild lens max kind) s = .next { s with result := .numbers lens })) ∧
    ∀ (freq : List Nat) (max : Nat) (s : State) (lens : Lens) (i j : Nat),
      exec (.hbBuild freq max) s = .next { s with result := .numbers lens } → 2 ≤ usedCount freq →
      i < freq.length → j < freq.length → 0 < freq.getD j 0 →
      (freq.getD j 0 < freq.getD i 0 ∨ (freq.getD i 0 = freq.getD j 0 ∧ i ≤ j)) → lens.getD i 0 ≤ lens.getD j 0

/-- That a symbol of length 0, which has no code (R340), holds the number 0 in the list is the model's choice (log 21).
R340, R356: for lengths that do not oversubscribe the code space, the canonical codes fit their lengths, no code
begins another, and they are ordered by length and then by symbol. -/
def Obligations.HbCanonPrefixFree : Prop :=
  ∀ (lens : Lens) (max : Nat) (s : State), (∀ l ∈ lens, l ≤ max) →
    ∃ codes, exec (.hbCanon lens max) s = .next { s with result := .numbers codes } ∧ codes.length = lens.length ∧
      (∀ k, lens.getD k 0 = 0 → codes.getD k 0 = 0) ∧
      (kraft max lens ≤ 2 ^ max → ∀ i j, i < lens.length → j < lens.length → i ≠ j → 0 < lens.getD i 0 →
        lens.getD i 0 ≤ lens.getD j 0 →
        codes.getD i 0 < 2 ^ lens.getD i 0 ∧
          codes.getD j 0 / 2 ^ (lens.getD j 0 - lens.getD i 0) ≠ codes.getD i 0 ∧
          (lens.getD i 0 < lens.getD j 0 ∨ i < j →
            codes.getD i 0 < codes.getD j 0 / 2 ^ (lens.getD j 0 - lens.getD i 0)))

/-- R344, R146: what `HB.RLE` yields expands to the lengths it was given, with every extra value in its width. -/
def Obligations.HbRleExpands : Prop :=
  ∀ (lens : Lens) (s : State), (∀ l ∈ lens, l ≤ 15) →
    ∃ rl, exec (.hbRle lens) s = .next { s with result := .pairs rl } ∧ expandLens [] rl = lens ∧
      ∀ q ∈ rl, q.1 ≤ 18 ∧ q.2 < 2 ^ clXb q.1

/-- R347, R348: `HB.PLAN` fills the code description of `blk` and yields two costs, and these are exact: the bits the two
emit operations append after the three header bits. -/
def Obligations.HbPlanCosts : Prop :=
  ∀ (toks : List Token) (s : State),
    ∃ t dyn fix, exec (.hbPlan toks) s = .next t ∧ t.result = .costs dyn fix ∧
      t = { s with
        defl := { s.defl with blk := { s.defl.blk with
          llLens := t.defl.blk.llLens, dLens := t.defl.blk.dLens, hlit := t.defl.blk.hlit, hdist := t.defl.blk.hdist
          rl := t.defl.blk.rl, clLens := t.defl.blk.clLens, hclen := t.defl.blk.hclen } }
        result := t.result } ∧
      ∀ (final : Bool) (typ : BlockType) (u : State), typ ≠ .stored →
        u.defl.blk = { t.defl.blk with final := final, typ := typ, toks := toks } →
        ∃ v w, exec .hbEmitHeader u = .next v ∧ exec .hbEmitSymbols v = .next w ∧
          (writtenBits w.defl).length = (writtenBits u.defl).length + 3 + (if typ = .fixed then fix else dyn)

/-- R342, R345, R330: the plan of a block of legal tokens: three transmittable vectors, the end of block among them, and
counts that cut off zeros only, each the smallest in its range that does. -/
def Obligations.HbPlanTransmittable : Prop :=
  ∀ (toks : List Token) (s t : State), (∀ x ∈ toks, x.wf = true) → exec (.hbPlan toks) s = .next t →
    let b := t.defl.blk
    transmittable (llFreq toks) b.llLens 15 ∧ transmittable (dFreq toks) b.dLens 15 ∧
      transmittable (clFreq b.rl) b.clLens 7 ∧ 0 < b.llLens.getD 256 0 ∧
      257 ≤ b.hlit ∧ b.hlit ≤ 286 ∧ 1 ≤ b.hdist ∧ b.hdist ≤ 30 ∧ 4 ≤ b.hclen ∧ b.hclen ≤ 19 ∧
      expandLens [] b.rl = b.llLens.take b.hlit ++ b.dLens.take b.hdist ∧
      (∀ l ∈ b.llLens.drop b.hlit ++ b.dLens.drop b.hdist, l = 0) ∧
      (∀ k, b.hclen ≤ k → k < 19 → b.clLens.getD (clOrder.getD k 0) 0 = 0) ∧
      (257 < b.hlit → b.llLens.getD (b.hlit - 1) 0 ≠ 0) ∧ (1 < b.hdist → b.dLens.getD (b.hdist - 1) 0 ≠ 0) ∧
      (4 < b.hclen → b.clLens.getD (clOrder.getD (b.hclen - 1) 0) 0 ≠ 0)

/-- R352, R354: the bits the two emit operations append, for each block type. That they emit `blk` in phases too where R44 does
not call it valid, and append nothing for a symbol of length 0, is the model's choice (log 14, log 31). -/
def Obligations.HbEmitBits : Prop :=
  ∀ s : State, s.defl.bitCnt ≤ 7 → s.defl.bitBuf < 2 ^ s.defl.bitCnt → s.defl.blk.Inv →
    let b := s.defl.blk
    let keeps := fun t : State => t.defl.bitCnt ≤ 7 ∧ t.defl.bitBuf < 2 ^ t.defl.bitCnt ∧
      t = { s with
        defl := { s.defl with pending := t.defl.pending, bitBuf := t.defl.bitBuf, bitCnt := t.defl.bitCnt }
        result := .nothing }
    (∃ t, exec .hbEmitHeader s = .next t ∧ keeps t ∧
        writtenBits t.defl = writtenBits s.defl ++ [b.final] ++ bitsOf 2 (blockTypeNum b.typ) ++
          match b.typ with
          | .stored => List.replicate ((8 - (s.defl.bitCnt + 3) % 8) % 8) false ++ bitsOf 16 b.raw.length ++
              bitsOf 16 (65535 - b.raw.length)
          | .fixed => []
          | .dynamic => treeBits b) ∧
      ∃ t, exec .hbEmitSymbols s = .next t ∧ keeps t ∧
        writtenBits t.defl = writtenBits s.defl ++
          match b.typ with
          | .stored => streamBits b.raw
          | .fixed => blockBits fixLl fixD b.toks
          | .dynamic => blockBits b.llLens b.dLens b.toks

/-! ## The Huffman decoder -/

/-- R442 to R445: `HD.BUILD` by the Kraft sum. Run on its own it yields its table or its error in `result`, and records an error
in `INFL` where stream work can run (configured, no error recorded, not at the end): the model's choice (log 15). Elsewhere
an error is not recorded (R565). -/
def Obligations.HdBuildVerdict : Prop :=
  ∀ (lens : Lens) (max : Nat) (kind : CodeKind) (s : State), (∀ l ∈ lens, l ≤ max) →
    let k := (lens.map fun l => if l = 0 then 0 else 2 ^ (max - l)).sum
    let used := lens.filter fun l => decide (0 < l)
    let sparse := s.params.incompleteOk = true ∧ kind ≠ .codes ∧ (used = [] ∨ used = [1])
    let generic := kind = .codes ∧ s.params.clsetErr = .generic
    let raises := fun e : Status =>
      exec (.hdBuild lens max kind) s = .next { s with
        infl := if s.infl.configured = true ∧ s.infl.sticky = .ok ∧ s.infl.stage ≠ .done
          then { s.infl with sticky := e, stage := .bad, ec := e } else s.infl
        result := .raised e }
    (2 ^ max < k → if generic then raises .invalidCodeLengths else raises .overSubscribedLength) ∧
      (k < 2 ^ max → ¬sparse → if generic then raises .invalidCodeLengths else raises .incompleteLengthSet) ∧
      (k = 2 ^ max ∨ (k < 2 ^ max ∧ sparse) →
        exec (.hdBuild lens max kind) s = .next { s with result := .numbers lens })

/-- R447, R441, R213: `HD.DECODE` always ends. It fetches bytes as `BR.NEED` does, each only when every bit in hand is used
and no code has matched, drops no bits, and changes nothing else; memory stays. For a table that is not over-subscribed
it yields the symbol whose code stands in front; or it suspends, the input used up and the bits no code yet; or it is
`invalid`, as many bits as the longest code in hand and none of them a code, which a complete table never gives. -/
def Obligations.HdDecodeResult : Prop :=
  ∀ (tb : TableId) (s : State),
    let lens := tableLens tb s.infl
    let codes := hbCanon lens (tableMax tb)
    let i := s.infl
    (∃ t, exec (.hdDecode tb) s = .next t ∧ t = { s with infl := t.infl, bus := t.bus, result := t.result } ∧
        t.infl = { i with regs := t.infl.regs, hold := t.infl.hold, cnt := t.infl.cnt, hcrc := t.infl.hcrc } ∧
        t.bus.inMem = s.bus.inMem ∧ t.bus.outMem = s.bus.outMem ∧
        (completeLens lens (tableMax tb) → t.result ≠ .invalid)) ∧
      (i.regs.nextIn.toNat + i.regs.availIn.toNat ≤ 2 ^ 32 → ∃ t k, exec (.hdDecode tb) s = .next t ∧
        (let run := bytesAt s.bus.inMem i.regs.nextIn.toNat k
         regsMoved i.regs t.infl.regs ∧ consumed i.regs t.infl.regs = k ∧ produced i.regs t.infl.regs = 0 ∧
          t.infl = { i with
            regs := t.infl.regs, hold := i.hold + leNat run * 2 ^ i.cnt, cnt := i.cnt + 8 * k
            hcrc := if headerCrcStage i.stage then crc32 i.hcrc run else i.hcrc } ∧
          ((∀ l ∈ lens, l ≤ tableMax tb) → kraft (tableMax tb) lens ≤ 2 ^ tableMax tb →
            let inFront := fun x : Nat => 0 < lens.getD x 0 ∧ lens.getD x 0 ≤ t.infl.cnt ∧
              (heldBits t.infl).take (lens.getD x 0) = (bitsOf (lens.getD x 0) (codes.getD x 0)).reverse
            let longest := lens.foldl max 0
            (∃ x, inFront x ∧ t.result = .pair x (lens.getD x 0) ∧ (k = 0 ∨ i.cnt + 8 * (k - 1) < lens.getD x 0)) ∨
              (t.result = .suspended ∧ k = i.regs.availIn.toNat ∧ t.infl.cnt < longest ∧ ∀ x, ¬inFront x) ∨
              (t.result = .invalid ∧ longest ≤ t.infl.cnt ∧ (k = 0 ∨ i.cnt + 8 * (k - 1) < longest) ∧
                ∀ x, ¬inFront x)))) ∧
      ∀ k, completeLens lens (tableMax tb) → 0 < lens.getD k 0 → lens.getD k 0 ≤ s.infl.cnt →
        (bitsOf s.infl.cnt s.infl.hold).take (lens.getD k 0) = (bitsOf (lens.getD k 0) (codes.getD k 0)).reverse →
        exec (.hdDecode tb) s = .next { s with result := .pair k (lens.getD k 0) }

/-! ## Stream elements: blocks

Each statement says what the element does where its stage reads it; `raises` is R463's way to end. -/

/-- R131, R482: the four block headers. `last` is assigned before the type is judged. -/
def Obligations.BlockHeaders : Prop :=
  ∀ (final : Bool) (s : State), elementReady .blkhdr s.infl = true →
    let i := { s.infl with last := final }
    exec (.blkhdrStored final) s = .next { s with infl := { i with stage := .storedLen } } ∧
      exec (.blkhdrFixed final) s = .next { s with infl := { i with ll := fixLl, dt := fixD, stage := .sym } } ∧
      exec (.blkhdrDynamic final) s = .next { s with infl := { i with stage := .dynCounts } } ∧
      exec (.blkhdrReserved final) s = .next { s with
        infl := { i with sticky := .invalidBlockType, stage := .bad, ec := .invalidBlockType } } ∧
      kraft 15 fixLl = 2 ^ 15 ∧ kraft 15 fixD = 2 ^ 15

/-- R132, R484, R485: the length pair of a stored block, after alignment, and one raw byte, which is put out and enters
the window; with no output space it waits and nothing changes. -/
def Obligations.StoredBlock : Prop :=
  (∀ (len nlen : BitVec 16) (s : State), elementReady .stolen s.infl = true →
      let i := { s.infl with
        hold := s.infl.hold / 2 ^ (s.infl.cnt % 8), cnt := s.infl.cnt - s.infl.cnt % 8 }
      (nlen = ~~~len → exec (.stolen len nlen) s =
        .next { s with infl := { i with remaining := len.toNat, stage := .storedCopy } }) ∧
        (nlen ≠ ~~~len → exec (.stolen len nlen) s =
          .next { s with infl := { i with sticky := .invalidStoredLength, stage := .bad, ec := .invalidStoredLength } })) ∧
    ∀ (b : Byte) (s : State), elementReady .raw s.infl = true →
      (s.infl.regs.availOut = 0 → exec (.storedRaw b) s = .next s) ∧
        (s.infl.regs.availOut ≠ 0 → exec (.storedRaw b) s = .next { s with
          infl := { s.infl with
            regs := { s.infl.regs with
              nextOut := cursorNext s.bus.freeCtr s.infl.regs.nextOut
              availOut := s.infl.regs.availOut - 1, totalOut := s.infl.regs.totalOut + 1 }
            win := memWrite s.infl.win (s.infl.produced % 2 ^ s.infl.wbits) b
            produced := s.infl.produced + 1, check := checkStep s.infl.wrap s.infl.check b
            isize := s.infl.isize + 1, remaining := s.infl.remaining - 1 }
          bus := outByteBus s.infl.regs s.bus b })

/-- R134 to R136, R146, R147, R487 to R489: the counts of a dynamic block; one code-length length, at its place in the
order; the code-length symbols, where the symbol has a code: a repeat with nothing before it, or past the last length, is
an error and adds nothing. -/
def Obligations.DynamicHeader : Prop :=
  ((∀ (hlit hdist : BitVec 5) (hclen : BitVec 4) (s : State), elementReady .dynhdr s.infl = true →
        let i := { s.infl with nlen := hlit.toNat + 257, ndist := hdist.toNat + 1, ncode := hclen.toNat + 4 }
        (hlit.toNat ≤ 29 ∧ hdist.toNat ≤ 29 → exec (.dynhdr hlit hdist hclen) s =
          .next { s with infl := { i with cl := List.replicate 19 0, nhave := 0, stage := .dynClens } }) ∧
          (¬(hlit.toNat ≤ 29 ∧ hdist.toNat ≤ 29) → exec (.dynhdr hlit hdist hclen) s =
            .next { s with infl := { i with sticky := .tooManySymbols, stage := .bad, ec := .tooManySymbols } })) ∧
      ∀ (len : BitVec 3) (s : State), elementReady .cllen s.infl = true →
        exec (.cllen len) s = .next { s with infl := { s.infl with
          cl := s.infl.cl.set
            ([16, 17, 18, 0, 8, 7, 9, 6, 10, 5, 11, 4, 12, 3, 13, 2, 14, 1, 15].getD s.infl.nhave 0) len.toNat
          nhave := s.infl.nhave + 1 } }) ∧
    ∀ s : State, elementReady .clsym s.infl = true →
      let i := s.infl
      let left := i.nlen + i.ndist - i.lens.length
      let adds := fun (j : Instr) (l : List Nat) =>
        exec j s = .next { s with infl := { i with lens := i.lens ++ l } }
      let fails := fun j : Instr => exec j s = .next { s with
        infl := { i with sticky := .invalidBitLengthRepeat, stage := .bad, ec := .invalidBitLengthRepeat } }
      (∀ v : BitVec 4, i.clt.getD v.toNat 0 ≠ 0 → adds (.clsymLen v) [v.toNat]) ∧
        (∀ x : BitVec 2, i.clt.getD 16 0 ≠ 0 →
          (∀ v, i.lens.getLast? = some v → 3 + x.toNat ≤ left → adds (.clsymRep16 x) (List.replicate (3 + x.toNat) v)) ∧
            (i.lens = [] ∨ left < 3 + x.toNat → fails (.clsymRep16 x))) ∧
        (∀ x : BitVec 3, i.clt.getD 17 0 ≠ 0 →
          (3 + x.toNat ≤ left → adds (.clsymZero17 x) (List.replicate (3 + x.toNat) 0)) ∧
            (left < 3 + x.toNat → fails (.clsymZero17 x))) ∧
        ∀ x : BitVec 7, i.clt.getD 18 0 ≠ 0 →
          (11 + x.toNat ≤ left → adds (.clsymZero18 x) (List.replicate (11 + x.toNat) 0)) ∧
            (left < 11 + x.toNat → fails (.clsymZero18 x))

/-- What the work loop does between elements. R490, R488, R443 to R445: the tables that are due are built; the code-length
table when every length of it is there; the two symbol tables when every length is there, the missing end of block first,
then the literal/length set, then the distance set; under `trees` the call stops exactly after these. R477 to R480, R482,
R485, R497, R499: the stages passed without reading a bit. R482, R484, R506, R510: the stop points: no flush mode changes
what a micro-step does, but `block` and `trees` stop at a block header that is not where the call began, and `trees` stops
after a fixed block header, a stored length, or the tables of a dynamic block. -/
def Obligations.TablesAreBuiltInOrder : Prop :=
  ∀ (s : State) (f : Flush),
    let i := s.infl
    let c : InflCtx := ⟨i, s.bus⟩
    let completes := fun e : Infl => inflMicro s.params f c = .complete ⟨e, s.bus⟩
    let stops := fun e : Infl => inflMicro s.params f c = .stop ⟨e, s.bus⟩
    let fails := fun x : Status => ∃ e, inflMicro s.params f c = .raised x ⟨e, s.bus⟩
    ((i.stage = .dynClens → i.ncode ≤ i.nhave →
        match hdBuild s.params i.cl 7 .codes with
        | .ok t => completes { i with clt := t, lens := [], stage := .dynLens }
        | .error x => fails x) ∧
      (i.stage = .dynLens → i.nlen + i.ndist ≤ i.lens.length →
        (i.lens.getD 256 0 = 0 → fails .missingEob) ∧
          (i.lens.getD 256 0 ≠ 0 →
            match hdBuild s.params (i.lens.take i.nlen) 15 .lens, hdBuild s.params ((i.lens.drop i.nlen).take i.ndist) 15 .dists with
            | .error x, _ => fails x
            | .ok _, .error x => fails x
            | .ok t, .ok u =>
              if f = .trees then stops { i with ll := t, dt := u, stage := .sym }
              else completes { i with ll := t, dt := u, stage := .sym }))) ∧
      ((i.stage = .gzExtra → i.xlen = 0 → completes { i with stage := .gzName }) ∧
        (i.stage = .gzName → i.gzflags.toNat / 8 % 2 = 0 → completes { i with stage := .gzComment }) ∧
        (i.stage = .gzComment → i.gzflags.toNat / 16 % 2 = 0 → completes { i with stage := .gzHcrc }) ∧
        (i.stage = .gzHcrc → i.gzflags.toNat / 2 % 2 = 0 → completes { i with stage := .blockType }) ∧
        (i.stage = .blockType → i.last = true → (f ≠ .block ∧ f ≠ .trees) ∨ i.fresh = true →
          completes { i with hold := i.hold / 2 ^ (i.cnt % 8), cnt := i.cnt - i.cnt % 8, stage := .trailer }) ∧
        (i.stage = .storedCopy → i.remaining = 0 → completes { i with stage := .blockType }) ∧
        (i.stage = .mat → i.length = 0 → completes { i with stage := .sym }) ∧
        (i.stage = .trailer → i.wrap = .none → stops { i with stage := .done })) ∧
      inflMicro s.params f c =
        if i.stage = .blockType ∧ (f = .block ∨ f = .trees) ∧ i.fresh = false then .stop c
        else match inflMicro s.params .none c with
          | .complete c1 =>
            if f = .trees ∧ (i.stage = .storedLen ∨ ((i.stage = .blockType ∨ i.stage = .dynLens) ∧ c1.e.stage = .sym))
            then .stop c1 else .complete c1
          | r => r

/-! ## Stream elements: symbols -/

/-- R142, R148, R492, R493: a literal is put out, or waits in `LIT` while there is no output space; the end of the block
goes to the next header; symbols 286 and 287 are errors. -/
def Obligations.LiteralSymbols : Prop :=
  ∀ s : State, elementReady .llsym s.infl = true →
    let i := s.infl
    (∀ b : Byte, i.ll.getD b.toNat 0 ≠ 0 →
      (i.regs.availOut = 0 → exec (.lit b) s = .next { s with infl := { i with lit := b, stage := .lit } }) ∧
        (i.regs.availOut ≠ 0 → exec (.lit b) s = .next { s with
          infl := { i with
            lit := b
            regs := { i.regs with
              nextOut := cursorNext s.bus.freeCtr i.regs.nextOut
              availOut := i.regs.availOut - 1, totalOut := i.regs.totalOut + 1 }
            win := memWrite i.win (i.produced % 2 ^ i.wbits) b
            produced := i.produced + 1, check := checkStep i.wrap i.check b, isize := i.isize + 1 }
          bus := outByteBus i.regs s.bus b })) ∧
      (i.ll.getD 256 0 ≠ 0 → exec .eob s = .next { s with infl := { i with stage := .blockType } }) ∧
      ∀ hi : Bool, i.ll.getD (286 + hi.toNat) 0 ≠ 0 → exec (.llsymReserved hi) s = .next { s with
        infl := { i with sticky := .invalidLiteralLength, stage := .bad, ec := .invalidLiteralLength } }

/-- R143, R492, R494: the 29 length symbols, with the first length of each row and its extra bits. -/
def Obligations.LengthSymbols : Prop :=
  ∀ (k x : Nat) (j : Instr) (s : State), lenInstr k x = some j → elementReady .llsym s.infl = true →
    s.infl.ll.getD k 0 ≠ 0 →
    let base := [3, 4, 5, 6, 7, 8, 9, 10, 11, 13, 15, 17, 19, 23, 27, 31, 35, 43, 51, 59, 67, 83, 99, 115, 131, 163, 195, 227,
      258].getD (k - 257) 0
    let xb := if k < 265 ∨ k = 285 then 0 else (k - 261) / 4
    exec j s = .next { s with
      infl := { s.infl with lsym := k - 257, length := base + x % 2 ^ xb, stage := .dist } }

/-- R144, R148, R495 to R497: the 30 distance symbols. A distance past what was produced, or past the window, is an error;
any other copies, byte by byte, as many bytes of the match as there is output space for, so that a copy may read what it
has just written. Symbols 30 and 31 are errors. -/
def Obligations.DistanceSymbols : Prop :=
  (∀ (k x : Nat) (j : Instr) (s : State), distInstr k x = some j → elementReady .dsym s.infl = true →
      s.infl.dt.getD k 0 ≠ 0 →
      let i := s.infl
      let d := [1, 2, 3, 4, 5, 7, 9, 13, 17, 25, 33, 49, 65, 97, 129, 193, 257, 385, 513, 769, 1025, 1537, 2049, 3073, 4097,
        6145, 8193, 12289, 16385, 24577].getD k 0 + x % 2 ^ ((k - 2) / 2)
      let n := min i.length i.regs.availOut.toNat
      (min i.produced (2 ^ i.wbits) < d → exec j s = .next { s with
        infl := { i with dsym := k, sticky := .invalidDistance, stage := .bad, ec := .invalidDistance } }) ∧
        (d ≤ min i.produced (2 ^ i.wbits) → ∃ t, exec j s = .next t ∧
          t = { s with
            infl := { i with
              dsym := k, dist := d, length := i.length - n, stage := if n = i.length then .sym else .mat
              regs := t.infl.regs, win := t.infl.win, produced := i.produced + n, check := t.infl.check
              isize := i.isize + BitVec.ofNat 32 n }
            bus := t.bus } ∧
          (i.win.wf → s.bus.outMem.wf → i.regs.nextOut.toNat + n ≤ 2 ^ 32 →
            let copied := (List.range n).map fun m => memRead i.win ((i.produced - d + m % d) % 2 ^ i.wbits)
            regsMoved i.regs t.infl.regs ∧ consumed i.regs t.infl.regs = 0 ∧ produced i.regs t.infl.regs = n ∧
              bytesAt t.bus.outMem i.regs.nextOut.toNat n = copied ∧
              sameOutside i.regs.nextOut.toNat n s.bus.outMem t.bus.outMem ∧ t.bus.inMem = s.bus.inMem ∧
              t.infl.check = copied.foldl (checkStep i.wrap) i.check ∧
              ∀ m, m < n → n ≤ m + 2 ^ i.wbits →
                memRead t.infl.win ((i.produced + m) % 2 ^ i.wbits) = copied.getD m 0))) ∧
    ∀ (hi : Bool) (s : State), elementReady .dsym s.infl = true → s.infl.dt.getD (30 + hi.toNat) 0 ≠ 0 →
      exec (.dsymReserved hi) s = .next { s with
        infl := { s.infl with sticky := .invalidDistanceCode, stage := .bad, ec := .invalidDistanceCode } }

/-! ## Stream elements: containers -/

/-- R150, R269, R470, R471, R152, R499: the zlib header with its checks in order, the dictionary identifier, and the
trailer. -/
def Obligations.ZlibElements : Prop :=
  ∀ s : State,
    let i := s.infl
    let goes := fun (j : Instr) (e : Infl) => exec j s = .next { s with infl := e }
    let fails := fun (j : Instr) (x : Status) => exec j s = .next { s with infl := { i with sticky := x, stage := .bad, ec := x } }
    (∀ cmf flg : Byte, elementReady .zhdr i = true →
      let j := Instr.zhdr cmf flg
      let sum := (cmf.toNat * 256 + flg.toNat) % 31
      (sum ≠ 0 → fails j .incorrectHeaderCheck) ∧
        (sum = 0 → cmf.toNat % 16 ≠ 8 → fails j .unknownCompressionMethod) ∧
        (sum = 0 → cmf.toNat % 16 = 8 → i.wbits < cmf.toNat / 16 + 8 → fails j .invalidWindowSize) ∧
        (sum = 0 → cmf.toNat % 16 = 8 → cmf.toNat / 16 + 8 ≤ i.wbits →
          goes j { i with stage := if flg.toNat / 32 % 2 = 1 then .dictid else .blockType })) ∧
      (∀ id : Word, elementReady .dictid i = true → exec (.zdictid id) s = .next { s with
        infl := { i with dictid := id, sticky := .needDict, stage := .bad, ec := .needDict } }) ∧
      ∀ a : Word, elementReady .ztrl i = true →
        (a = i.check → goes (.ztrl a) { i with stage := .done }) ∧ (a ≠ i.check → fails (.ztrl a) .incorrectDataCheck)

/-- R155 to R158, R272, R472 to R480, R499, R500: the fields of the gzip header, each at its stage, with the tests in
order, and the trailer, the checksum first, then the size. -/
def Obligations.GzipElements : Prop :=
  (∀ s : State,
      let i := s.infl
      let goes := fun (j : Instr) (e : Infl) => exec j s = .next { s with infl := e }
      let fails := fun (j : Instr) (x : Status) (e : Infl) =>
        exec j s = .next { s with infl := { e with sticky := x, stage := .bad, ec := x } }
      (∀ a b : Byte, elementReady .gzId i = true →
        (a = 0x1F ∧ b = 0x8B → goes (.gzMagic a b) { i with stage := .gzCmflg }) ∧
          (¬(a = 0x1F ∧ b = 0x8B) → fails (.gzMagic a b) .incorrectHeaderCheck i)) ∧
        (∀ cm flg : Byte, elementReady .gzCmflg i = true →
          let e := { i with gzflags := flg }
          (cm ≠ 8 → fails (.gzCmflg cm flg) .unknownCompressionMethod e) ∧
            (cm = 8 → 32 ≤ flg.toNat → fails (.gzCmflg cm flg) .unknownHeaderFlags e) ∧
            (cm = 8 → flg.toNat < 32 → goes (.gzCmflg cm flg) { e with stage := .gzMtime })) ∧
        (∀ t : Word, elementReady .gzMtime i = true → goes (.gzMtime t) { i with stage := .gzXflos }) ∧
        (∀ a b : Byte, elementReady .gzXflos i = true →
          goes (.gzXflos a b) { i with stage := if i.gzflags.toNat / 4 % 2 = 1 then .gzExlen else .gzName }) ∧
        (∀ n : BitVec 16, elementReady .gzXlen i = true → goes (.gzXlen n) { i with xlen := n.toNat, stage := .gzExtra }) ∧
        (∀ b : Byte, elementReady .gzExtra i = true → goes (.gzExtra b) { i with xlen := i.xlen - 1 }) ∧
        (∀ b : Byte, elementReady .gzName i = true →
          goes (.gzName b) { i with stage := if b = 0 then .gzComment else .gzName }) ∧
        (∀ b : Byte, elementReady .gzComment i = true →
          goes (.gzComment b) { i with stage := if b = 0 then .gzHcrc else .gzComment }) ∧
        ∀ c : BitVec 16, elementReady .gzHcrc i = true →
          (c.toNat = i.hcrc.toNat % 65536 → goes (.gzHcrc c) { i with stage := .blockType }) ∧
            (c.toNat ≠ i.hcrc.toNat % 65536 → fails (.gzHcrc c) .headerCrcMismatch i)) ∧
    ∀ (n : Word) (s : State),
      let i := s.infl
      let goes := fun (j : Instr) (e : Infl) => exec j s = .next { s with infl := e }
      let fails := fun (j : Instr) (x : Status) => exec j s = .next { s with infl := { i with sticky := x, stage := .bad, ec := x } }
      (elementReady .gzCrc i = true → (n = i.check → goes (.gzCrc32 n) { i with stage := .gzIsize }) ∧
          (n ≠ i.check → fails (.gzCrc32 n) .incorrectDataCheck)) ∧
        (elementReady .gzIsize i = true → (n = i.isize → goes (.gzIsize n) { i with stage := .done }) ∧
          (n ≠ i.isize → fails (.gzIsize n) .incorrectLengthCheck))

/-- R161: the pseudo-elements. Each does what the elements it is made of do one after another, and leaves the engine at
the next block header; `EMPTY_FINAL` sets `last`. -/
def Obligations.PseudoElements : Prop :=
  ∀ s : State, elementReady .pseudo s.infl = true →
    let i := s.infl
    (∃ t u, exec (.blkhdrStored false) s = .next t ∧ exec (.stolen 0 0xFFFF) t = .next u ∧ u.infl.remaining = 0 ∧
        exec .syncMarker s = .next { u with infl := { u.infl with stage := .blockType } }) ∧
      (∃ t, exec (.blkhdrFixed false) s = .next t ∧ exec .partialMarker s = exec .eob t ∧
        exec .partialMarker s = .next { s with infl := { i with last := false, ll := fixLl, dt := fixD } }) ∧
      ∃ t, exec (.blkhdrFixed true) s = .next t ∧ exec .emptyFinal s = exec .eob t ∧
        exec .emptyFinal s = .next { s with infl := { i with last := true, ll := fixLl, dt := fixD } }

end
end

