-- ==== Sys2Proof/Laws/PerInstr.lean ====
section
/-! SUPPORT. A statement about every instruction as syntax, one lemma for each constructor: an encoding has at least the
bytes the decoder asks for at its port before it looks at them (R122, R124, R129, R131 to R158, R161; log 3). It is what
a round trip of the encoding needs first. -/

namespace Sys2Proof.Laws

/-- How many bytes the decoder asks for at a port. -/
def portBytes : Port → Nat
  | .deflCmd | .inflCmd | .cksCmd => 4
  | .uop => 1
  | .element fmt => fmtBytes fmt

@[simp] theorem leBytes_length (m a : Nat) : (leBytes m a).length = m := by
  induction m generalizing a with
  | zero => rfl
  | succ m ih => simp [leBytes, ih]

@[simp] theorem beBytes_length (m a : Nat) : (beBytes m a).length = m := by simp [beBytes]

/-- The encoding is long enough to be read at the instruction's port. -/
def EncodedBytes.Statement (i : Instr) : Prop := portBytes i.port ≤ (encode i).length

theorem EncodedBytes.deflReset : EncodedBytes.Statement .deflReset := Nat.le_refl _
theorem EncodedBytes.deflWriteNone : EncodedBytes.Statement .deflWriteNone := Nat.le_refl _
theorem EncodedBytes.deflWriteBlock : EncodedBytes.Statement .deflWriteBlock := Nat.le_refl _
theorem EncodedBytes.deflWritePartial : EncodedBytes.Statement .deflWritePartial := Nat.le_refl _
theorem EncodedBytes.deflWriteSync : EncodedBytes.Statement .deflWriteSync := Nat.le_refl _
theorem EncodedBytes.deflWriteFull : EncodedBytes.Statement .deflWriteFull := Nat.le_refl _
theorem EncodedBytes.deflWriteFinish : EncodedBytes.Statement .deflWriteFinish := Nat.le_refl _
theorem EncodedBytes.deflWriteTrees : EncodedBytes.Statement .deflWriteTrees := Nat.le_refl _
theorem EncodedBytes.inflReset : EncodedBytes.Statement .inflReset := Nat.le_refl _
theorem EncodedBytes.inflWriteNone : EncodedBytes.Statement .inflWriteNone := Nat.le_refl _
theorem EncodedBytes.inflWriteBlock : EncodedBytes.Statement .inflWriteBlock := Nat.le_refl _
theorem EncodedBytes.inflWritePartial : EncodedBytes.Statement .inflWritePartial := Nat.le_refl _
theorem EncodedBytes.inflWriteSync : EncodedBytes.Statement .inflWriteSync := Nat.le_refl _
theorem EncodedBytes.inflWriteFull : EncodedBytes.Statement .inflWriteFull := Nat.le_refl _
theorem EncodedBytes.inflWriteFinish : EncodedBytes.Statement .inflWriteFinish := Nat.le_refl _
theorem EncodedBytes.inflWriteTrees : EncodedBytes.Statement .inflWriteTrees := Nat.le_refl _
theorem EncodedBytes.cksAdlerUpdate : EncodedBytes.Statement .cksAdlerUpdate := Nat.le_refl _
theorem EncodedBytes.cksCrcUpdate : EncodedBytes.Statement .cksCrcUpdate := Nat.le_refl _
theorem EncodedBytes.bwPut (v : Word) (n : Nat) : EncodedBytes.Statement (.bwPut v n) := Nat.le_add_left 1 _
theorem EncodedBytes.bwPutcode (c : Word) (n : Nat) : EncodedBytes.Statement (.bwPutcode c n) := Nat.le_add_left 1 _
theorem EncodedBytes.bwAlign : EncodedBytes.Statement .bwAlign := Nat.le_add_left 1 _
theorem EncodedBytes.bwTake : EncodedBytes.Statement .bwTake := Nat.le_add_left 1 _
theorem EncodedBytes.brNeed (n : Nat) : EncodedBytes.Statement (.brNeed n) := Nat.le_add_left 1 _
theorem EncodedBytes.brPeek (k : Nat) (n : Nat) : EncodedBytes.Statement (.brPeek k n) := Nat.le_add_left 1 _
theorem EncodedBytes.brDrop (n : Nat) : EncodedBytes.Statement (.brDrop n) := Nat.le_add_left 1 _
theorem EncodedBytes.brGet (n : Nat) : EncodedBytes.Statement (.brGet n) := Nat.le_add_left 1 _
theorem EncodedBytes.brAlign : EncodedBytes.Statement .brAlign := Nat.le_add_left 1 _
theorem EncodedBytes.adlerStep (a : Word) (b : Byte) : EncodedBytes.Statement (.adlerStep a b) := Nat.le_add_left 1 _
theorem EncodedBytes.crcStep (c : Word) (b : Byte) : EncodedBytes.Statement (.crcStep c b) := Nat.le_add_left 1 _
theorem EncodedBytes.hdrZenc : EncodedBytes.Statement .hdrZenc := Nat.le_add_left 1 _
theorem EncodedBytes.hdrGzenc : EncodedBytes.Statement .hdrGzenc := Nat.le_add_left 1 _
theorem EncodedBytes.hdrTrailer : EncodedBytes.Statement .hdrTrailer := Nat.le_add_left 1 _
theorem EncodedBytes.lzInsert (p : Nat) : EncodedBytes.Statement (.lzInsert p) := Nat.le_add_left 1 _
theorem EncodedBytes.lzFind (p : Nat) (chain : Nat) : EncodedBytes.Statement (.lzFind p chain) := Nat.le_add_left 1 _
theorem EncodedBytes.lzStep : EncodedBytes.Statement .lzStep := Nat.le_add_left 1 _
theorem EncodedBytes.lzClear : EncodedBytes.Statement .lzClear := Nat.le_add_left 1 _
theorem EncodedBytes.hbBuild (freq : List Nat) (max : Nat) : EncodedBytes.Statement (.hbBuild freq max) := Nat.le_add_left 1 _
theorem EncodedBytes.hbCanon (lens : Lens) (max : Nat) : EncodedBytes.Statement (.hbCanon lens max) := Nat.le_add_left 1 _
theorem EncodedBytes.hbRle (lens : Lens) : EncodedBytes.Statement (.hbRle lens) := Nat.le_add_left 1 _
theorem EncodedBytes.hbPlan (toks : List Token) : EncodedBytes.Statement (.hbPlan toks) := Nat.le_add_left 1 _
theorem EncodedBytes.hbEmitHeader : EncodedBytes.Statement .hbEmitHeader := Nat.le_add_left 1 _
theorem EncodedBytes.hbEmitSymbols : EncodedBytes.Statement .hbEmitSymbols := Nat.le_add_left 1 _
theorem EncodedBytes.hdBuild (lens : Lens) (max : Nat) (kind : CodeKind) : EncodedBytes.Statement (.hdBuild lens max kind) := Nat.le_add_left 1 _
theorem EncodedBytes.hdDecode (t : TableId) : EncodedBytes.Statement (.hdDecode t) := Nat.le_add_left 1 _
theorem EncodedBytes.blkhdrStored (final : Bool) : EncodedBytes.Statement (.blkhdrStored final) := Nat.le_refl _
theorem EncodedBytes.blkhdrFixed (final : Bool) : EncodedBytes.Statement (.blkhdrFixed final) := Nat.le_refl _
theorem EncodedBytes.blkhdrDynamic (final : Bool) : EncodedBytes.Statement (.blkhdrDynamic final) := Nat.le_refl _
theorem EncodedBytes.blkhdrReserved (final : Bool) : EncodedBytes.Statement (.blkhdrReserved final) := Nat.le_refl _
theorem EncodedBytes.stolen (len : BitVec 16) (nlen : BitVec 16) : EncodedBytes.Statement (.stolen len nlen) := Nat.le_refl _
theorem EncodedBytes.storedRaw (b : Byte) : EncodedBytes.Statement (.storedRaw b) := Nat.le_refl _
theorem EncodedBytes.dynhdr (hlit : BitVec 5) (hdist : BitVec 5) (hclen : BitVec 4) : EncodedBytes.Statement (.dynhdr hlit hdist hclen) := Nat.le_refl _
theorem EncodedBytes.cllen (len : BitVec 3) : EncodedBytes.Statement (.cllen len) := Nat.le_refl _
theorem EncodedBytes.clsymLen (v : BitVec 4) : EncodedBytes.Statement (.clsymLen v) := Nat.le_refl _
theorem EncodedBytes.clsymRep16 (x : BitVec 2) : EncodedBytes.Statement (.clsymRep16 x) := Nat.le_refl _
theorem EncodedBytes.clsymZero17 (x : BitVec 3) : EncodedBytes.Statement (.clsymZero17 x) := Nat.le_refl _
theorem EncodedBytes.clsymZero18 (x : BitVec 7) : EncodedBytes.Statement (.clsymZero18 x) := Nat.le_refl _
theorem EncodedBytes.lit (b : Byte) : EncodedBytes.Statement (.lit b) := Nat.le_refl _
theorem EncodedBytes.eob : EncodedBytes.Statement .eob := Nat.le_refl _
theorem EncodedBytes.len257 : EncodedBytes.Statement .len257 := Nat.le_refl _
theorem EncodedBytes.len258 : EncodedBytes.Statement .len258 := Nat.le_refl _
theorem EncodedBytes.len259 : EncodedBytes.Statement .len259 := Nat.le_refl _
theorem EncodedBytes.len260 : EncodedBytes.Statement .len260 := Nat.le_refl _
theorem EncodedBytes.len261 : EncodedBytes.Statement .len261 := Nat.le_refl _
theorem EncodedBytes.len262 : EncodedBytes.Statement .len262 := Nat.le_refl _
theorem EncodedBytes.len263 : EncodedBytes.Statement .len263 := Nat.le_refl _
theorem EncodedBytes.len264 : EncodedBytes.Statement .len264 := Nat.le_refl _
theorem EncodedBytes.len265 (x : BitVec 1) : EncodedBytes.Statement (.len265 x) := Nat.le_refl _
theorem EncodedBytes.len266 (x : BitVec 1) : EncodedBytes.Statement (.len266 x) := Nat.le_refl _
theorem EncodedBytes.len267 (x : BitVec 1) : EncodedBytes.Statement (.len267 x) := Nat.le_refl _
theorem EncodedBytes.len268 (x : BitVec 1) : EncodedBytes.Statement (.len268 x) := Nat.le_refl _
theorem EncodedBytes.len269 (x : BitVec 2) : EncodedBytes.Statement (.len269 x) := Nat.le_refl _
theorem EncodedBytes.len270 (x : BitVec 2) : EncodedBytes.Statement (.len270 x) := Nat.le_refl _
theorem EncodedBytes.len271 (x : BitVec 2) : EncodedBytes.Statement (.len271 x) := Nat.le_refl _
theorem EncodedBytes.len272 (x : BitVec 2) : EncodedBytes.Statement (.len272 x) := Nat.le_refl _
theorem EncodedBytes.len273 (x : BitVec 3) : EncodedBytes.Statement (.len273 x) := Nat.le_refl _
theorem EncodedBytes.len274 (x : BitVec 3) : EncodedBytes.Statement (.len274 x) := Nat.le_refl _
theorem EncodedBytes.len275 (x : BitVec 3) : EncodedBytes.Statement (.len275 x) := Nat.le_refl _
theorem EncodedBytes.len276 (x : BitVec 3) : EncodedBytes.Statement (.len276 x) := Nat.le_refl _
theorem EncodedBytes.len277 (x : BitVec 4) : EncodedBytes.Statement (.len277 x) := Nat.le_refl _
theorem EncodedBytes.len278 (x : BitVec 4) : EncodedBytes.Statement (.len278 x) := Nat.le_refl _
theorem EncodedBytes.len279 (x : BitVec 4) : EncodedBytes.Statement (.len279 x) := Nat.le_refl _
theorem EncodedBytes.len280 (x : BitVec 4) : EncodedBytes.Statement (.len280 x) := Nat.le_refl _
theorem EncodedBytes.len281 (x : BitVec 5) : EncodedBytes.Statement (.len281 x) := Nat.le_refl _
theorem EncodedBytes.len282 (x : BitVec 5) : EncodedBytes.Statement (.len282 x) := Nat.le_refl _
theorem EncodedBytes.len283 (x : BitVec 5) : EncodedBytes.Statement (.len283 x) := Nat.le_refl _
theorem EncodedBytes.len284 (x : BitVec 5) : EncodedBytes.Statement (.len284 x) := Nat.le_refl _
theorem EncodedBytes.len285 : EncodedBytes.Statement .len285 := Nat.le_refl _
theorem EncodedBytes.llsymReserved (hi : Bool) : EncodedBytes.Statement (.llsymReserved hi) := Nat.le_refl _
theorem EncodedBytes.dist0 : EncodedBytes.Statement .dist0 := Nat.le_refl _
theorem EncodedBytes.dist1 : EncodedBytes.Statement .dist1 := Nat.le_refl _
theorem EncodedBytes.dist2 : EncodedBytes.Statement .dist2 := Nat.le_refl _
theorem EncodedBytes.dist3 : EncodedBytes.Statement .dist3 := Nat.le_refl _
theorem EncodedBytes.dist4 (x : BitVec 1) : EncodedBytes.Statement (.dist4 x) := Nat.le_refl _
theorem EncodedBytes.dist5 (x : BitVec 1) : EncodedBytes.Statement (.dist5 x) := Nat.le_refl _
theorem EncodedBytes.dist6 (x : BitVec 2) : EncodedBytes.Statement (.dist6 x) := Nat.le_refl _
theorem EncodedBytes.dist7 (x : BitVec 2) : EncodedBytes.Statement (.dist7 x) := Nat.le_refl _
theorem EncodedBytes.dist8 (x : BitVec 3) : EncodedBytes.Statement (.dist8 x) := Nat.le_refl _
theorem EncodedBytes.dist9 (x : BitVec 3) : EncodedBytes.Statement (.dist9 x) := Nat.le_refl _
theorem EncodedBytes.dist10 (x : BitVec 4) : EncodedBytes.Statement (.dist10 x) := Nat.le_refl _
theorem EncodedBytes.dist11 (x : BitVec 4) : EncodedBytes.Statement (.dist11 x) := Nat.le_refl _
theorem EncodedBytes.dist12 (x : BitVec 5) : EncodedBytes.Statement (.dist12 x) := Nat.le_refl _
theorem EncodedBytes.dist13 (x : BitVec 5) : EncodedBytes.Statement (.dist13 x) := Nat.le_refl _
theorem EncodedBytes.dist14 (x : BitVec 6) : EncodedBytes.Statement (.dist14 x) := Nat.le_refl _
theorem EncodedBytes.dist15 (x : BitVec 6) : EncodedBytes.Statement (.dist15 x) := Nat.le_refl _
theorem EncodedBytes.dist16 (x : BitVec 7) : EncodedBytes.Statement (.dist16 x) := Nat.le_refl _
theorem EncodedBytes.dist17 (x : BitVec 7) : EncodedBytes.Statement (.dist17 x) := Nat.le_refl _
theorem EncodedBytes.dist18 (x : BitVec 8) : EncodedBytes.Statement (.dist18 x) := Nat.le_refl _
theorem EncodedBytes.dist19 (x : BitVec 8) : EncodedBytes.Statement (.dist19 x) := Nat.le_refl _
theorem EncodedBytes.dist20 (x : BitVec 9) : EncodedBytes.Statement (.dist20 x) := Nat.le_refl _
theorem EncodedBytes.dist21 (x : BitVec 9) : EncodedBytes.Statement (.dist21 x) := Nat.le_refl _
theorem EncodedBytes.dist22 (x : BitVec 10) : EncodedBytes.Statement (.dist22 x) := Nat.le_refl _
theorem EncodedBytes.dist23 (x : BitVec 10) : EncodedBytes.Statement (.dist23 x) := Nat.le_refl _
theorem EncodedBytes.dist24 (x : BitVec 11) : EncodedBytes.Statement (.dist24 x) := Nat.le_refl _
theorem EncodedBytes.dist25 (x : BitVec 11) : EncodedBytes.Statement (.dist25 x) := Nat.le_refl _
theorem EncodedBytes.dist26 (x : BitVec 12) : EncodedBytes.Statement (.dist26 x) := Nat.le_refl _
theorem EncodedBytes.dist27 (x : BitVec 12) : EncodedBytes.Statement (.dist27 x) := Nat.le_refl _
theorem EncodedBytes.dist28 (x : BitVec 13) : EncodedBytes.Statement (.dist28 x) := Nat.le_refl _
theorem EncodedBytes.dist29 (x : BitVec 13) : EncodedBytes.Statement (.dist29 x) := Nat.le_refl _
theorem EncodedBytes.dsymReserved (hi : Bool) : EncodedBytes.Statement (.dsymReserved hi) := Nat.le_refl _
theorem EncodedBytes.zhdr (cmf : Byte) (flg : Byte) : EncodedBytes.Statement (.zhdr cmf flg) := Nat.le_refl _
theorem EncodedBytes.zdictid (id : Word) : EncodedBytes.Statement (.zdictid id) := Nat.le_refl _
theorem EncodedBytes.ztrl (adler : Word) : EncodedBytes.Statement (.ztrl adler) := Nat.le_refl _
theorem EncodedBytes.gzMagic (id1 : Byte) (id2 : Byte) : EncodedBytes.Statement (.gzMagic id1 id2) := Nat.le_refl _
theorem EncodedBytes.gzCmflg (cm : Byte) (flg : Byte) : EncodedBytes.Statement (.gzCmflg cm flg) := Nat.le_refl _
theorem EncodedBytes.gzMtime (t : Word) : EncodedBytes.Statement (.gzMtime t) := Nat.le_refl _
theorem EncodedBytes.gzXflos (xfl : Byte) (os : Byte) : EncodedBytes.Statement (.gzXflos xfl os) := Nat.le_refl _
theorem EncodedBytes.gzXlen (n : BitVec 16) : EncodedBytes.Statement (.gzXlen n) := Nat.le_refl _
theorem EncodedBytes.gzExtra (b : Byte) : EncodedBytes.Statement (.gzExtra b) := Nat.le_refl _
theorem EncodedBytes.gzName (b : Byte) : EncodedBytes.Statement (.gzName b) := Nat.le_refl _
theorem EncodedBytes.gzComment (b : Byte) : EncodedBytes.Statement (.gzComment b) := Nat.le_refl _
theorem EncodedBytes.gzHcrc (c : BitVec 16) : EncodedBytes.Statement (.gzHcrc c) := Nat.le_refl _
theorem EncodedBytes.gzCrc32 (c : Word) : EncodedBytes.Statement (.gzCrc32 c) := Nat.le_refl _
theorem EncodedBytes.gzIsize (n : Word) : EncodedBytes.Statement (.gzIsize n) := Nat.le_refl _
theorem EncodedBytes.syncMarker : EncodedBytes.Statement .syncMarker := Nat.le_add_left 2 3
theorem EncodedBytes.partialMarker : EncodedBytes.Statement .partialMarker := Nat.le_refl _
theorem EncodedBytes.emptyFinal : EncodedBytes.Statement .emptyFinal := Nat.le_refl _

end Sys2Proof.Laws
end

