-- ==== Sys2Proof/Laws/Bits.lean ====
section
/-! SUPPORT. Fields, bytes and bits: the small laws of the number helpers that decoding, the bit reader and the bit writer
are written with (R13, R90). -/

namespace Sys2Proof

@[simp] theorem leNat_nil : leNat [] = 0 := rfl

@[simp] theorem leNat_cons (b : Byte) (bs : List Byte) : leNat (b :: bs) = b.toNat + 256 * leNat bs := rfl

/-- Spelling out the low bytes of a number and reading them back keeps what they hold of it. -/
theorem leNat_leBytes (m a : Nat) : leNat (leBytes m a) = a % 256 ^ m := by
  induction m generalizing a with
  | zero => simp [leBytes, Nat.mod_one]
  | succ m ih =>
    simp only [leBytes, leNat_cons, ih, BitVec.toNat_ofNat]
    have h : a % 256 ^ (m + 1) = a % 256 + 256 * (a / 256 % 256 ^ m) := by rw [Nat.pow_succ', Nat.mod_mul]
    simpa using h.symm

theorem leNat_append (xs ys : List Byte) : leNat (xs ++ ys) = leNat xs + 256 ^ xs.length * leNat ys := by
  induction xs with
  | nil => simp
  | cons x xs ih =>
    simp only [List.cons_append, leNat_cons, ih, List.length_cons, Nat.pow_succ']
    ring

theorem leNat_lt (bs : List Byte) : leNat bs < 256 ^ bs.length := by
  induction bs with
  | nil => simp
  | cons b bs ih =>
    have := b.isLt
    simp only [leNat_cons, List.length_cons, Nat.pow_succ']
    omega

/-- Reading the first bytes of a sequence does not depend on what follows. -/
theorem take_append_length (m a : Nat) (rest : List Byte) : (leBytes m a ++ rest).take m = leBytes m a := by
  rw [List.take_append_of_le_length (by simp [Laws.leBytes_length])]
  exact List.take_of_length_le (by simp [Laws.leBytes_length])

theorem field_lt (lo n w : Nat) : field lo n w < 2 ^ n := Nat.mod_lt _ (Nat.two_pow_pos n)

/-- A field of a number put together from a low part and a high part. -/
theorem field_high (lo n w hi : Nat) (h : w < 2 ^ lo) : field lo n (w + 2 ^ lo * hi) = hi % 2 ^ n := by
  unfold field
  rw [Nat.add_mul_div_left _ _ (Nat.two_pow_pos lo), Nat.div_eq_of_lt h, Nat.zero_add]

namespace Machine

@[simp] theorem bitsOf_length (n v : Nat) : (bitsOf n v).length = n := by simp [bitsOf]

@[simp] theorem bitsOf_zero (v : Nat) : bitsOf 0 v = [] := rfl

/-- The bits of a wide field are those of its low part, then those of the rest. -/
theorem bitsOf_append (m n v : Nat) : bitsOf (m + n) v = bitsOf m v ++ bitsOf n (v / 2 ^ m) := by
  unfold bitsOf
  rw [List.range_add, List.map_append, List.map_map]
  congr 1
  apply List.map_congr_left
  intro i _
  simp [Nat.testBit_div_two_pow, Nat.add_comm]

/-- Only the low bits of a number are its bits. -/
theorem bitsOf_mod (n v : Nat) : bitsOf n (v % 2 ^ n) = bitsOf n v := by
  unfold bitsOf
  apply List.map_congr_left
  intro i hi
  simp [Nat.testBit_mod_two_pow, List.mem_range.1 hi]

@[simp] theorem streamBits_nil : streamBits [] = [] := rfl

@[simp] theorem streamBits_cons (b : Byte) (bs : List Byte) :
    streamBits (b :: bs) = bitsOf 8 b.toNat ++ streamBits bs := rfl

@[simp] theorem streamBits_append (xs ys : List Byte) : streamBits (xs ++ ys) = streamBits xs ++ streamBits ys := by
  simp [streamBits]

@[simp] theorem bytesAt_length (m : Memory) (a n : Nat) : (bytesAt m a n).length = n := by simp [bytesAt]

@[simp] theorem bytesAt_zero (m : Memory) (a : Nat) : bytesAt m a 0 = [] := rfl

/-- A run of bytes and the run behind it. -/
theorem bytesAt_add (m : Memory) (a j k : Nat) : bytesAt m a (j + k) = bytesAt m a j ++ bytesAt m (a + j) k := by
  unfold bytesAt
  rw [List.range_add, List.map_append, List.map_map]
  congr 1
  apply List.map_congr_left
  intro i _
  simp [Nat.add_assoc]

end Machine

end Sys2Proof
end

