-- ==== Sys2Proof/Laws/State.lean ====
section
/-! SUPPORT. One lemma for each field of each update, so that no later proof unfolds a record update. -/

namespace Sys2Proof.Machine

/-! ## `withInfl` -/

@[simp] theorem withInfl_defl (c : InflCtx) (s : State) : (withInfl c s).defl = s.defl := rfl
@[simp] theorem withInfl_infl (c : InflCtx) (s : State) : (withInfl c s).infl = c.e := rfl
@[simp] theorem withInfl_cks (c : InflCtx) (s : State) : (withInfl c s).cks = s.cks := rfl
@[simp] theorem withInfl_bus (c : InflCtx) (s : State) : (withInfl c s).bus = c.bus := rfl
@[simp] theorem withInfl_params (c : InflCtx) (s : State) : (withInfl c s).params = s.params := rfl
@[simp] theorem withInfl_queue (c : InflCtx) (s : State) : (withInfl c s).queue = s.queue := rfl
@[simp] theorem withInfl_readData (c : InflCtx) (s : State) : (withInfl c s).readData = s.readData := rfl
@[simp] theorem withInfl_result (c : InflCtx) (s : State) : (withInfl c s).result = s.result := rfl

/-! ## `onDefl` -/

@[simp] theorem onDefl_defl (g : DeflCtx → DeflCtx) (s : State) : (onDefl g s).defl = (g ⟨s.defl, s.bus⟩).d := rfl
@[simp] theorem onDefl_infl (g : DeflCtx → DeflCtx) (s : State) : (onDefl g s).infl = s.infl := rfl
@[simp] theorem onDefl_cks (g : DeflCtx → DeflCtx) (s : State) : (onDefl g s).cks = s.cks := rfl
@[simp] theorem onDefl_bus (g : DeflCtx → DeflCtx) (s : State) : (onDefl g s).bus = (g ⟨s.defl, s.bus⟩).bus := rfl
@[simp] theorem onDefl_params (g : DeflCtx → DeflCtx) (s : State) : (onDefl g s).params = s.params := rfl
@[simp] theorem onDefl_queue (g : DeflCtx → DeflCtx) (s : State) : (onDefl g s).queue = s.queue := rfl
@[simp] theorem onDefl_readData (g : DeflCtx → DeflCtx) (s : State) : (onDefl g s).readData = s.readData := rfl
@[simp] theorem onDefl_result (g : DeflCtx → DeflCtx) (s : State) : (onDefl g s).result = s.result := rfl

/-! ## `deflReturn` -/

@[simp] theorem deflReturn_defl (e : Status) (s : State) : (deflReturn e s).defl = { s.defl with ec := e } := rfl
@[simp] theorem deflReturn_infl (e : Status) (s : State) : (deflReturn e s).infl = s.infl := rfl
@[simp] theorem deflReturn_cks (e : Status) (s : State) : (deflReturn e s).cks = s.cks := rfl
@[simp] theorem deflReturn_bus (e : Status) (s : State) : (deflReturn e s).bus = s.bus := rfl
@[simp] theorem deflReturn_params (e : Status) (s : State) : (deflReturn e s).params = s.params := rfl
@[simp] theorem deflReturn_queue (e : Status) (s : State) : (deflReturn e s).queue = s.queue := rfl
@[simp] theorem deflReturn_readData (e : Status) (s : State) : (deflReturn e s).readData = s.readData := rfl
@[simp] theorem deflReturn_result (e : Status) (s : State) : (deflReturn e s).result = s.result := rfl

/-! ## `inflReturn` -/

@[simp] theorem inflReturn_defl (e : Status) (s : State) : (inflReturn e s).defl = s.defl := rfl
@[simp] theorem inflReturn_infl (e : Status) (s : State) : (inflReturn e s).infl = { s.infl with ec := e } := rfl
@[simp] theorem inflReturn_cks (e : Status) (s : State) : (inflReturn e s).cks = s.cks := rfl
@[simp] theorem inflReturn_bus (e : Status) (s : State) : (inflReturn e s).bus = s.bus := rfl
@[simp] theorem inflReturn_params (e : Status) (s : State) : (inflReturn e s).params = s.params := rfl
@[simp] theorem inflReturn_queue (e : Status) (s : State) : (inflReturn e s).queue = s.queue := rfl
@[simp] theorem inflReturn_readData (e : Status) (s : State) : (inflReturn e s).readData = s.readData := rfl
@[simp] theorem inflReturn_result (e : Status) (s : State) : (inflReturn e s).result = s.result := rfl

/-! ## `cksReturn` -/

@[simp] theorem cksReturn_defl (e : Status) (s : State) : (cksReturn e s).defl = s.defl := rfl
@[simp] theorem cksReturn_infl (e : Status) (s : State) : (cksReturn e s).infl = s.infl := rfl
@[simp] theorem cksReturn_cks (e : Status) (s : State) : (cksReturn e s).cks = { s.cks with ec := e } := rfl
@[simp] theorem cksReturn_bus (e : Status) (s : State) : (cksReturn e s).bus = s.bus := rfl
@[simp] theorem cksReturn_params (e : Status) (s : State) : (cksReturn e s).params = s.params := rfl
@[simp] theorem cksReturn_queue (e : Status) (s : State) : (cksReturn e s).queue = s.queue := rfl
@[simp] theorem cksReturn_readData (e : Status) (s : State) : (cksReturn e s).readData = s.readData := rfl
@[simp] theorem cksReturn_result (e : Status) (s : State) : (cksReturn e s).result = s.result := rfl

/-! ## `hardwareReset` -/

@[simp] theorem hardwareReset_defl (s : State) : (hardwareReset s).defl = .reset := rfl
@[simp] theorem hardwareReset_infl (s : State) : (hardwareReset s).infl = .reset := rfl
@[simp] theorem hardwareReset_cks (s : State) : (hardwareReset s).cks = .reset := rfl
@[simp] theorem hardwareReset_bus (s : State) : (hardwareReset s).bus = s.bus := rfl
@[simp] theorem hardwareReset_params (s : State) : (hardwareReset s).params = s.params := rfl
@[simp] theorem hardwareReset_queue (s : State) : (hardwareReset s).queue = s.queue := rfl
@[simp] theorem hardwareReset_readData (s : State) : (hardwareReset s).readData = s.readData := rfl
@[simp] theorem hardwareReset_result (s : State) : (hardwareReset s).result = s.result := rfl

/-! ## `storeIn` -/

@[simp] theorem storeIn_defl (a : Word) (b : Byte) (s : State) : (storeIn a b s).defl = s.defl := rfl
@[simp] theorem storeIn_infl (a : Word) (b : Byte) (s : State) : (storeIn a b s).infl = s.infl := rfl
@[simp] theorem storeIn_cks (a : Word) (b : Byte) (s : State) : (storeIn a b s).cks = s.cks := rfl
@[simp] theorem storeIn_bus (a : Word) (b : Byte) (s : State) : (storeIn a b s).bus = { s.bus with inMem := memWrite s.bus.inMem a.toNat b } := rfl
@[simp] theorem storeIn_params (a : Word) (b : Byte) (s : State) : (storeIn a b s).params = s.params := rfl
@[simp] theorem storeIn_queue (a : Word) (b : Byte) (s : State) : (storeIn a b s).queue = s.queue := rfl
@[simp] theorem storeIn_readData (a : Word) (b : Byte) (s : State) : (storeIn a b s).readData = s.readData := rfl
@[simp] theorem storeIn_result (a : Word) (b : Byte) (s : State) : (storeIn a b s).result = s.result := rfl

/-! ## `loadOut` -/

@[simp] theorem loadOut_defl (a : Word) (s : State) : (loadOut a s).defl = s.defl := rfl
@[simp] theorem loadOut_infl (a : Word) (s : State) : (loadOut a s).infl = s.infl := rfl
@[simp] theorem loadOut_cks (a : Word) (s : State) : (loadOut a s).cks = s.cks := rfl
@[simp] theorem loadOut_bus (a : Word) (s : State) : (loadOut a s).bus = s.bus := rfl
@[simp] theorem loadOut_params (a : Word) (s : State) : (loadOut a s).params = s.params := rfl
@[simp] theorem loadOut_queue (a : Word) (s : State) : (loadOut a s).queue = s.queue := rfl
@[simp] theorem loadOut_readData (a : Word) (s : State) : (loadOut a s).readData = (memRead s.bus.outMem a.toNat).zeroExtend 32 := rfl
@[simp] theorem loadOut_result (a : Word) (s : State) : (loadOut a s).result = s.result := rfl

/-! ## `inByteRegs` -/

@[simp] theorem inByteRegs_nextIn (r : StreamRegs) (b : Bus) : (inByteRegs r b).nextIn = cursorNext b.freeCtr r.nextIn := rfl
@[simp] theorem inByteRegs_availIn (r : StreamRegs) (b : Bus) : (inByteRegs r b).availIn = r.availIn - 1 := rfl
@[simp] theorem inByteRegs_nextOut (r : StreamRegs) (b : Bus) : (inByteRegs r b).nextOut = r.nextOut := rfl
@[simp] theorem inByteRegs_availOut (r : StreamRegs) (b : Bus) : (inByteRegs r b).availOut = r.availOut := rfl
@[simp] theorem inByteRegs_totalIn (r : StreamRegs) (b : Bus) : (inByteRegs r b).totalIn = r.totalIn + 1 := rfl
@[simp] theorem inByteRegs_totalOut (r : StreamRegs) (b : Bus) : (inByteRegs r b).totalOut = r.totalOut := rfl

/-! ## `outByteRegs` -/

@[simp] theorem outByteRegs_nextIn (r : StreamRegs) (b : Bus) : (outByteRegs r b).nextIn = r.nextIn := rfl
@[simp] theorem outByteRegs_availIn (r : StreamRegs) (b : Bus) : (outByteRegs r b).availIn = r.availIn := rfl
@[simp] theorem outByteRegs_nextOut (r : StreamRegs) (b : Bus) : (outByteRegs r b).nextOut = cursorNext b.freeCtr r.nextOut := rfl
@[simp] theorem outByteRegs_availOut (r : StreamRegs) (b : Bus) : (outByteRegs r b).availOut = r.availOut - 1 := rfl
@[simp] theorem outByteRegs_totalIn (r : StreamRegs) (b : Bus) : (outByteRegs r b).totalIn = r.totalIn := rfl
@[simp] theorem outByteRegs_totalOut (r : StreamRegs) (b : Bus) : (outByteRegs r b).totalOut = r.totalOut + 1 := rfl

/-! ## `inflRaise` -/

@[simp] theorem inflRaise_config (x : Status) (i : Infl) : (inflRaise x i).config = i.config := rfl
@[simp] theorem inflRaise_ec (x : Status) (i : Infl) : (inflRaise x i).ec = x := rfl
@[simp] theorem inflRaise_regs (x : Status) (i : Infl) : (inflRaise x i).regs = i.regs := rfl
@[simp] theorem inflRaise_configured (x : Status) (i : Infl) : (inflRaise x i).configured = i.configured := rfl
@[simp] theorem inflRaise_sticky (x : Status) (i : Infl) : (inflRaise x i).sticky = x := rfl
@[simp] theorem inflRaise_wbits (x : Status) (i : Infl) : (inflRaise x i).wbits = i.wbits := rfl
@[simp] theorem inflRaise_wrap (x : Status) (i : Infl) : (inflRaise x i).wrap = i.wrap := rfl
@[simp] theorem inflRaise_stage (x : Status) (i : Infl) : (inflRaise x i).stage = .bad := rfl
@[simp] theorem inflRaise_last (x : Status) (i : Infl) : (inflRaise x i).last = i.last := rfl
@[simp] theorem inflRaise_fresh (x : Status) (i : Infl) : (inflRaise x i).fresh = i.fresh := rfl
@[simp] theorem inflRaise_hold (x : Status) (i : Infl) : (inflRaise x i).hold = i.hold := rfl
@[simp] theorem inflRaise_cnt (x : Status) (i : Infl) : (inflRaise x i).cnt = i.cnt := rfl
@[simp] theorem inflRaise_win (x : Status) (i : Infl) : (inflRaise x i).win = i.win := rfl
@[simp] theorem inflRaise_produced (x : Status) (i : Infl) : (inflRaise x i).produced = i.produced := rfl
@[simp] theorem inflRaise_check (x : Status) (i : Infl) : (inflRaise x i).check = i.check := rfl
@[simp] theorem inflRaise_isize (x : Status) (i : Infl) : (inflRaise x i).isize = i.isize := rfl
@[simp] theorem inflRaise_gzflags (x : Status) (i : Infl) : (inflRaise x i).gzflags = i.gzflags := rfl
@[simp] theorem inflRaise_xlen (x : Status) (i : Infl) : (inflRaise x i).xlen = i.xlen := rfl
@[simp] theorem inflRaise_hcrc (x : Status) (i : Infl) : (inflRaise x i).hcrc = i.hcrc := rfl
@[simp] theorem inflRaise_dictid (x : Status) (i : Infl) : (inflRaise x i).dictid = i.dictid := rfl
@[simp] theorem inflRaise_nlen (x : Status) (i : Infl) : (inflRaise x i).nlen = i.nlen := rfl
@[simp] theorem inflRaise_ndist (x : Status) (i : Infl) : (inflRaise x i).ndist = i.ndist := rfl
@[simp] theorem inflRaise_ncode (x : Status) (i : Infl) : (inflRaise x i).ncode = i.ncode := rfl
@[simp] theorem inflRaise_nhave (x : Status) (i : Infl) : (inflRaise x i).nhave = i.nhave := rfl
@[simp] theorem inflRaise_cl (x : Status) (i : Infl) : (inflRaise x i).cl = i.cl := rfl
@[simp] theorem inflRaise_lens (x : Status) (i : Infl) : (inflRaise x i).lens = i.lens := rfl
@[simp] theorem inflRaise_clt (x : Status) (i : Infl) : (inflRaise x i).clt = i.clt := rfl
@[simp] theorem inflRaise_ll (x : Status) (i : Infl) : (inflRaise x i).ll = i.ll := rfl
@[simp] theorem inflRaise_dt (x : Status) (i : Infl) : (inflRaise x i).dt = i.dt := rfl
@[simp] theorem inflRaise_lit (x : Status) (i : Infl) : (inflRaise x i).lit = i.lit := rfl
@[simp] theorem inflRaise_lsym (x : Status) (i : Infl) : (inflRaise x i).lsym = i.lsym := rfl
@[simp] theorem inflRaise_length (x : Status) (i : Infl) : (inflRaise x i).length = i.length := rfl
@[simp] theorem inflRaise_dsym (x : Status) (i : Infl) : (inflRaise x i).dsym = i.dsym := rfl
@[simp] theorem inflRaise_dist (x : Status) (i : Infl) : (inflRaise x i).dist = i.dist := rfl
@[simp] theorem inflRaise_remaining (x : Status) (i : Infl) : (inflRaise x i).remaining = i.remaining := rfl

/-! ## `brDrop` -/

@[simp] theorem brDrop_config (n : Nat) (i : Infl) : (brDrop n i).config = i.config := rfl
@[simp] theorem brDrop_ec (n : Nat) (i : Infl) : (brDrop n i).ec = i.ec := rfl
@[simp] theorem brDrop_regs (n : Nat) (i : Infl) : (brDrop n i).regs = i.regs := rfl
@[simp] theorem brDrop_configured (n : Nat) (i : Infl) : (brDrop n i).configured = i.configured := rfl
@[simp] theorem brDrop_sticky (n : Nat) (i : Infl) : (brDrop n i).sticky = i.sticky := rfl
@[simp] theorem brDrop_wbits (n : Nat) (i : Infl) : (brDrop n i).wbits = i.wbits := rfl
@[simp] theorem brDrop_wrap (n : Nat) (i : Infl) : (brDrop n i).wrap = i.wrap := rfl
@[simp] theorem brDrop_stage (n : Nat) (i : Infl) : (brDrop n i).stage = i.stage := rfl
@[simp] theorem brDrop_last (n : Nat) (i : Infl) : (brDrop n i).last = i.last := rfl
@[simp] theorem brDrop_fresh (n : Nat) (i : Infl) : (brDrop n i).fresh = i.fresh := rfl
@[simp] theorem brDrop_hold (n : Nat) (i : Infl) : (brDrop n i).hold = i.hold / 2 ^ n := rfl
@[simp] theorem brDrop_cnt (n : Nat) (i : Infl) : (brDrop n i).cnt = i.cnt - n := rfl
@[simp] theorem brDrop_win (n : Nat) (i : Infl) : (brDrop n i).win = i.win := rfl
@[simp] theorem brDrop_produced (n : Nat) (i : Infl) : (brDrop n i).produced = i.produced := rfl
@[simp] theorem brDrop_check (n : Nat) (i : Infl) : (brDrop n i).check = i.check := rfl
@[simp] theorem brDrop_isize (n : Nat) (i : Infl) : (brDrop n i).isize = i.isize := rfl
@[simp] theorem brDrop_gzflags (n : Nat) (i : Infl) : (brDrop n i).gzflags = i.gzflags := rfl
@[simp] theorem brDrop_xlen (n : Nat) (i : Infl) : (brDrop n i).xlen = i.xlen := rfl
@[simp] theorem brDrop_hcrc (n : Nat) (i : Infl) : (brDrop n i).hcrc = i.hcrc := rfl
@[simp] theorem brDrop_dictid (n : Nat) (i : Infl) : (brDrop n i).dictid = i.dictid := rfl
@[simp] theorem brDrop_nlen (n : Nat) (i : Infl) : (brDrop n i).nlen = i.nlen := rfl
@[simp] theorem brDrop_ndist (n : Nat) (i : Infl) : (brDrop n i).ndist = i.ndist := rfl
@[simp] theorem brDrop_ncode (n : Nat) (i : Infl) : (brDrop n i).ncode = i.ncode := rfl
@[simp] theorem brDrop_nhave (n : Nat) (i : Infl) : (brDrop n i).nhave = i.nhave := rfl
@[simp] theorem brDrop_cl (n : Nat) (i : Infl) : (brDrop n i).cl = i.cl := rfl
@[simp] theorem brDrop_lens (n : Nat) (i : Infl) : (brDrop n i).lens = i.lens := rfl
@[simp] theorem brDrop_clt (n : Nat) (i : Infl) : (brDrop n i).clt = i.clt := rfl
@[simp] theorem brDrop_ll (n : Nat) (i : Infl) : (brDrop n i).ll = i.ll := rfl
@[simp] theorem brDrop_dt (n : Nat) (i : Infl) : (brDrop n i).dt = i.dt := rfl
@[simp] theorem brDrop_lit (n : Nat) (i : Infl) : (brDrop n i).lit = i.lit := rfl
@[simp] theorem brDrop_lsym (n : Nat) (i : Infl) : (brDrop n i).lsym = i.lsym := rfl
@[simp] theorem brDrop_length (n : Nat) (i : Infl) : (brDrop n i).length = i.length := rfl
@[simp] theorem brDrop_dsym (n : Nat) (i : Infl) : (brDrop n i).dsym = i.dsym := rfl
@[simp] theorem brDrop_dist (n : Nat) (i : Infl) : (brDrop n i).dist = i.dist := rfl
@[simp] theorem brDrop_remaining (n : Nat) (i : Infl) : (brDrop n i).remaining = i.remaining := rfl

/-! ## `brFetch` -/

@[simp] theorem brFetch_e_config (c : InflCtx) : (brFetch c).e.config = c.e.config := rfl
@[simp] theorem brFetch_e_ec (c : InflCtx) : (brFetch c).e.ec = c.e.ec := rfl
@[simp] theorem brFetch_e_regs (c : InflCtx) : (brFetch c).e.regs = inByteRegs c.e.regs c.bus := rfl
@[simp] theorem brFetch_e_configured (c : InflCtx) : (brFetch c).e.configured = c.e.configured := rfl
@[simp] theorem brFetch_e_sticky (c : InflCtx) : (brFetch c).e.sticky = c.e.sticky := rfl
@[simp] theorem brFetch_e_wbits (c : InflCtx) : (brFetch c).e.wbits = c.e.wbits := rfl
@[simp] theorem brFetch_e_wrap (c : InflCtx) : (brFetch c).e.wrap = c.e.wrap := rfl
@[simp] theorem brFetch_e_stage (c : InflCtx) : (brFetch c).e.stage = c.e.stage := rfl
@[simp] theorem brFetch_e_last (c : InflCtx) : (brFetch c).e.last = c.e.last := rfl
@[simp] theorem brFetch_e_fresh (c : InflCtx) : (brFetch c).e.fresh = c.e.fresh := rfl
@[simp] theorem brFetch_e_hold (c : InflCtx) : (brFetch c).e.hold = c.e.hold + (inByteVal c.e.regs c.bus).toNat * 2 ^ c.e.cnt := rfl
@[simp] theorem brFetch_e_cnt (c : InflCtx) : (brFetch c).e.cnt = c.e.cnt + 8 := rfl
@[simp] theorem brFetch_e_win (c : InflCtx) : (brFetch c).e.win = c.e.win := rfl
@[simp] theorem brFetch_e_produced (c : InflCtx) : (brFetch c).e.produced = c.e.produced := rfl
@[simp] theorem brFetch_e_check (c : InflCtx) : (brFetch c).e.check = c.e.check := rfl
@[simp] theorem brFetch_e_isize (c : InflCtx) : (brFetch c).e.isize = c.e.isize := rfl
@[simp] theorem brFetch_e_gzflags (c : InflCtx) : (brFetch c).e.gzflags = c.e.gzflags := rfl
@[simp] theorem brFetch_e_xlen (c : InflCtx) : (brFetch c).e.xlen = c.e.xlen := rfl
@[simp] theorem brFetch_e_hcrc (c : InflCtx) : (brFetch c).e.hcrc = if headerCrcStage c.e.stage then crcStep c.e.hcrc (inByteVal c.e.regs c.bus) else c.e.hcrc := rfl
@[simp] theorem brFetch_e_dictid (c : InflCtx) : (brFetch c).e.dictid = c.e.dictid := rfl
@[simp] theorem brFetch_e_nlen (c : InflCtx) : (brFetch c).e.nlen = c.e.nlen := rfl
@[simp] theorem brFetch_e_ndist (c : InflCtx) : (brFetch c).e.ndist = c.e.ndist := rfl
@[simp] theorem brFetch_e_ncode (c : InflCtx) : (brFetch c).e.ncode = c.e.ncode := rfl
@[simp] theorem brFetch_e_nhave (c : InflCtx) : (brFetch c).e.nhave = c.e.nhave := rfl
@[simp] theorem brFetch_e_cl (c : InflCtx) : (brFetch c).e.cl = c.e.cl := rfl
@[simp] theorem brFetch_e_lens (c : InflCtx) : (brFetch c).e.lens = c.e.lens := rfl
@[simp] theorem brFetch_e_clt (c : InflCtx) : (brFetch c).e.clt = c.e.clt := rfl
@[simp] theorem brFetch_e_ll (c : InflCtx) : (brFetch c).e.ll = c.e.ll := rfl
@[simp] theorem brFetch_e_dt (c : InflCtx) : (brFetch c).e.dt = c.e.dt := rfl
@[simp] theorem brFetch_e_lit (c : InflCtx) : (brFetch c).e.lit = c.e.lit := rfl
@[simp] theorem brFetch_e_lsym (c : InflCtx) : (brFetch c).e.lsym = c.e.lsym := rfl
@[simp] theorem brFetch_e_length (c : InflCtx) : (brFetch c).e.length = c.e.length := rfl
@[simp] theorem brFetch_e_dsym (c : InflCtx) : (brFetch c).e.dsym = c.e.dsym := rfl
@[simp] theorem brFetch_e_dist (c : InflCtx) : (brFetch c).e.dist = c.e.dist := rfl
@[simp] theorem brFetch_e_remaining (c : InflCtx) : (brFetch c).e.remaining = c.e.remaining := rfl
@[simp] theorem brFetch_e_bus (c : InflCtx) : (brFetch c).bus = inByteBus c.e.regs c.bus := rfl

/-! ## `inflEmit` -/

@[simp] theorem inflEmit_e_config (v : Byte) (c : InflCtx) : (inflEmit v c).e.config = c.e.config := rfl
@[simp] theorem inflEmit_e_ec (v : Byte) (c : InflCtx) : (inflEmit v c).e.ec = c.e.ec := rfl
@[simp] theorem inflEmit_e_regs (v : Byte) (c : InflCtx) : (inflEmit v c).e.regs = outByteRegs c.e.regs c.bus := rfl
@[simp] theorem inflEmit_e_configured (v : Byte) (c : InflCtx) : (inflEmit v c).e.configured = c.e.configured := rfl
@[simp] theorem inflEmit_e_sticky (v : Byte) (c : InflCtx) : (inflEmit v c).e.sticky = c.e.sticky := rfl
@[simp] theorem inflEmit_e_wbits (v : Byte) (c : InflCtx) : (inflEmit v c).e.wbits = c.e.wbits := rfl
@[simp] theorem inflEmit_e_wrap (v : Byte) (c : InflCtx) : (inflEmit v c).e.wrap = c.e.wrap := rfl
@[simp] theorem inflEmit_e_stage (v : Byte) (c : InflCtx) : (inflEmit v c).e.stage = c.e.stage := rfl
@[simp] theorem inflEmit_e_last (v : Byte) (c : InflCtx) : (inflEmit v c).e.last = c.e.last := rfl
@[simp] theorem inflEmit_e_fresh (v : Byte) (c : InflCtx) : (inflEmit v c).e.fresh = c.e.fresh := rfl
@[simp] theorem inflEmit_e_hold (v : Byte) (c : InflCtx) : (inflEmit v c).e.hold = c.e.hold := rfl
@[simp] theorem inflEmit_e_cnt (v : Byte) (c : InflCtx) : (inflEmit v c).e.cnt = c.e.cnt := rfl
@[simp] theorem inflEmit_e_win (v : Byte) (c : InflCtx) : (inflEmit v c).e.win = memWrite c.e.win (c.e.produced % wsize c.e.wbits) v := rfl
@[simp] theorem inflEmit_e_produced (v : Byte) (c : InflCtx) : (inflEmit v c).e.produced = c.e.produced + 1 := rfl
@[simp] theorem inflEmit_e_check (v : Byte) (c : InflCtx) : (inflEmit v c).e.check = checkStep c.e.wrap c.e.check v := rfl
@[simp] theorem inflEmit_e_isize (v : Byte) (c : InflCtx) : (inflEmit v c).e.isize = c.e.isize + 1 := rfl
@[simp] theorem inflEmit_e_gzflags (v : Byte) (c : InflCtx) : (inflEmit v c).e.gzflags = c.e.gzflags := rfl
@[simp] theorem inflEmit_e_xlen (v : Byte) (c : InflCtx) : (inflEmit v c).e.xlen = c.e.xlen := rfl
@[simp] theorem inflEmit_e_hcrc (v : Byte) (c : InflCtx) : (inflEmit v c).e.hcrc = c.e.hcrc := rfl
@[simp] theorem inflEmit_e_dictid (v : Byte) (c : InflCtx) : (inflEmit v c).e.dictid = c.e.dictid := rfl
@[simp] theorem inflEmit_e_nlen (v : Byte) (c : InflCtx) : (inflEmit v c).e.nlen = c.e.nlen := rfl
@[simp] theorem inflEmit_e_ndist (v : Byte) (c : InflCtx) : (inflEmit v c).e.ndist = c.e.ndist := rfl
@[simp] theorem inflEmit_e_ncode (v : Byte) (c : InflCtx) : (inflEmit v c).e.ncode = c.e.ncode := rfl
@[simp] theorem inflEmit_e_nhave (v : Byte) (c : InflCtx) : (inflEmit v c).e.nhave = c.e.nhave := rfl
@[simp] theorem inflEmit_e_cl (v : Byte) (c : InflCtx) : (inflEmit v c).e.cl = c.e.cl := rfl
@[simp] theorem inflEmit_e_lens (v : Byte) (c : InflCtx) : (inflEmit v c).e.lens = c.e.lens := rfl
@[simp] theorem inflEmit_e_clt (v : Byte) (c : InflCtx) : (inflEmit v c).e.clt = c.e.clt := rfl
@[simp] theorem inflEmit_e_ll (v : Byte) (c : InflCtx) : (inflEmit v c).e.ll = c.e.ll := rfl
@[simp] theorem inflEmit_e_dt (v : Byte) (c : InflCtx) : (inflEmit v c).e.dt = c.e.dt := rfl
@[simp] theorem inflEmit_e_lit (v : Byte) (c : InflCtx) : (inflEmit v c).e.lit = c.e.lit := rfl
@[simp] theorem inflEmit_e_lsym (v : Byte) (c : InflCtx) : (inflEmit v c).e.lsym = c.e.lsym := rfl
@[simp] theorem inflEmit_e_length (v : Byte) (c : InflCtx) : (inflEmit v c).e.length = c.e.length := rfl
@[simp] theorem inflEmit_e_dsym (v : Byte) (c : InflCtx) : (inflEmit v c).e.dsym = c.e.dsym := rfl
@[simp] theorem inflEmit_e_dist (v : Byte) (c : InflCtx) : (inflEmit v c).e.dist = c.e.dist := rfl
@[simp] theorem inflEmit_e_remaining (v : Byte) (c : InflCtx) : (inflEmit v c).e.remaining = c.e.remaining := rfl
@[simp] theorem inflEmit_e_bus (v : Byte) (c : InflCtx) : (inflEmit v c).bus = outByteBus c.e.regs c.bus v := rfl

/-! ## `deflRaise` -/

@[simp] theorem deflRaise_config (x : Status) (d : Defl) : (deflRaise x d).config = d.config := rfl
@[simp] theorem deflRaise_ec (x : Status) (d : Defl) : (deflRaise x d).ec = x := rfl
@[simp] theorem deflRaise_regs (x : Status) (d : Defl) : (deflRaise x d).regs = d.regs := rfl
@[simp] theorem deflRaise_configured (x : Status) (d : Defl) : (deflRaise x d).configured = d.configured := rfl
@[simp] theorem deflRaise_sticky (x : Status) (d : Defl) : (deflRaise x d).sticky = x := rfl
@[simp] theorem deflRaise_level (x : Status) (d : Defl) : (deflRaise x d).level = d.level := rfl
@[simp] theorem deflRaise_wbits (x : Status) (d : Defl) : (deflRaise x d).wbits = d.wbits := rfl
@[simp] theorem deflRaise_mem (x : Status) (d : Defl) : (deflRaise x d).mem = d.mem := rfl
@[simp] theorem deflRaise_strategy (x : Status) (d : Defl) : (deflRaise x d).strategy = d.strategy := rfl
@[simp] theorem deflRaise_wrap (x : Status) (d : Defl) : (deflRaise x d).wrap = d.wrap := rfl
@[simp] theorem deflRaise_stage (x : Status) (d : Defl) : (deflRaise x d).stage = d.stage := rfl
@[simp] theorem deflRaise_phase (x : Status) (d : Defl) : (deflRaise x d).phase = d.phase := rfl
@[simp] theorem deflRaise_finishing (x : Status) (d : Defl) : (deflRaise x d).finishing = d.finishing := rfl
@[simp] theorem deflRaise_sat (x : Status) (d : Defl) : (deflRaise x d).sat = d.sat := rfl
@[simp] theorem deflRaise_data (x : Status) (d : Defl) : (deflRaise x d).data = d.data := rfl
@[simp] theorem deflRaise_pos (x : Status) (d : Defl) : (deflRaise x d).pos = d.pos := rfl
@[simp] theorem deflRaise_emitPos (x : Status) (d : Defl) : (deflRaise x d).emitPos = d.emitPos := rfl
@[simp] theorem deflRaise_blockStart (x : Status) (d : Defl) : (deflRaise x d).blockStart = d.blockStart := rfl
@[simp] theorem deflRaise_histBase (x : Status) (d : Defl) : (deflRaise x d).histBase = d.histBase := rfl
@[simp] theorem deflRaise_nextIns (x : Status) (d : Defl) : (deflRaise x d).nextIns = d.nextIns := rfl
@[simp] theorem deflRaise_head (x : Status) (d : Defl) : (deflRaise x d).head = d.head := rfl
@[simp] theorem deflRaise_prev (x : Status) (d : Defl) : (deflRaise x d).prev = d.prev := rfl
@[simp] theorem deflRaise_deferred (x : Status) (d : Defl) : (deflRaise x d).deferred = d.deferred := rfl
@[simp] theorem deflRaise_syms (x : Status) (d : Defl) : (deflRaise x d).syms = d.syms := rfl
@[simp] theorem deflRaise_blk (x : Status) (d : Defl) : (deflRaise x d).blk = d.blk := rfl
@[simp] theorem deflRaise_bitBuf (x : Status) (d : Defl) : (deflRaise x d).bitBuf = d.bitBuf := rfl
@[simp] theorem deflRaise_bitCnt (x : Status) (d : Defl) : (deflRaise x d).bitCnt = d.bitCnt := rfl
@[simp] theorem deflRaise_pending (x : Status) (d : Defl) : (deflRaise x d).pending = d.pending := rfl
@[simp] theorem deflRaise_check (x : Status) (d : Defl) : (deflRaise x d).check = d.check := rfl
@[simp] theorem deflRaise_isize (x : Status) (d : Defl) : (deflRaise x d).isize = d.isize := rfl

/-! ## `bwPut` -/

@[simp] theorem bwPut_config (v n : Nat) (d : Defl) : (bwPut v n d).config = d.config := rfl
@[simp] theorem bwPut_ec (v n : Nat) (d : Defl) : (bwPut v n d).ec = d.ec := rfl
@[simp] theorem bwPut_regs (v n : Nat) (d : Defl) : (bwPut v n d).regs = d.regs := rfl
@[simp] theorem bwPut_configured (v n : Nat) (d : Defl) : (bwPut v n d).configured = d.configured := rfl
@[simp] theorem bwPut_sticky (v n : Nat) (d : Defl) : (bwPut v n d).sticky = d.sticky := rfl
@[simp] theorem bwPut_level (v n : Nat) (d : Defl) : (bwPut v n d).level = d.level := rfl
@[simp] theorem bwPut_wbits (v n : Nat) (d : Defl) : (bwPut v n d).wbits = d.wbits := rfl
@[simp] theorem bwPut_mem (v n : Nat) (d : Defl) : (bwPut v n d).mem = d.mem := rfl
@[simp] theorem bwPut_strategy (v n : Nat) (d : Defl) : (bwPut v n d).strategy = d.strategy := rfl
@[simp] theorem bwPut_wrap (v n : Nat) (d : Defl) : (bwPut v n d).wrap = d.wrap := rfl
@[simp] theorem bwPut_stage (v n : Nat) (d : Defl) : (bwPut v n d).stage = d.stage := rfl
@[simp] theorem bwPut_phase (v n : Nat) (d : Defl) : (bwPut v n d).phase = d.phase := rfl
@[simp] theorem bwPut_finishing (v n : Nat) (d : Defl) : (bwPut v n d).finishing = d.finishing := rfl
@[simp] theorem bwPut_sat (v n : Nat) (d : Defl) : (bwPut v n d).sat = d.sat := rfl
@[simp] theorem bwPut_data (v n : Nat) (d : Defl) : (bwPut v n d).data = d.data := rfl
@[simp] theorem bwPut_pos (v n : Nat) (d : Defl) : (bwPut v n d).pos = d.pos := rfl
@[simp] theorem bwPut_emitPos (v n : Nat) (d : Defl) : (bwPut v n d).emitPos = d.emitPos := rfl
@[simp] theorem bwPut_blockStart (v n : Nat) (d : Defl) : (bwPut v n d).blockStart = d.blockStart := rfl
@[simp] theorem bwPut_histBase (v n : Nat) (d : Defl) : (bwPut v n d).histBase = d.histBase := rfl
@[simp] theorem bwPut_nextIns (v n : Nat) (d : Defl) : (bwPut v n d).nextIns = d.nextIns := rfl
@[simp] theorem bwPut_head (v n : Nat) (d : Defl) : (bwPut v n d).head = d.head := rfl
@[simp] theorem bwPut_prev (v n : Nat) (d : Defl) : (bwPut v n d).prev = d.prev := rfl
@[simp] theorem bwPut_deferred (v n : Nat) (d : Defl) : (bwPut v n d).deferred = d.deferred := rfl
@[simp] theorem bwPut_syms (v n : Nat) (d : Defl) : (bwPut v n d).syms = d.syms := rfl
@[simp] theorem bwPut_blk (v n : Nat) (d : Defl) : (bwPut v n d).blk = d.blk := rfl
@[simp] theorem bwPut_bitBuf (v n : Nat) (d : Defl) : (bwPut v n d).bitBuf = (d.bitBuf + v * 2 ^ d.bitCnt) / 2 ^ (8 * ((d.bitCnt + n) / 8)) := rfl
@[simp] theorem bwPut_bitCnt (v n : Nat) (d : Defl) : (bwPut v n d).bitCnt = (d.bitCnt + n) % 8 := rfl
@[simp] theorem bwPut_pending (v n : Nat) (d : Defl) : (bwPut v n d).pending = d.pending ++ leBytes ((d.bitCnt + n) / 8) (d.bitBuf + v * 2 ^ d.bitCnt) := rfl
@[simp] theorem bwPut_check (v n : Nat) (d : Defl) : (bwPut v n d).check = d.check := rfl
@[simp] theorem bwPut_isize (v n : Nat) (d : Defl) : (bwPut v n d).isize = d.isize := rfl

/-! ## `emitToken` -/

@[simp] theorem emitToken_config (t : Token) (d : Defl) : (emitToken t d).config = d.config := rfl
@[simp] theorem emitToken_ec (t : Token) (d : Defl) : (emitToken t d).ec = d.ec := rfl
@[simp] theorem emitToken_regs (t : Token) (d : Defl) : (emitToken t d).regs = d.regs := rfl
@[simp] theorem emitToken_configured (t : Token) (d : Defl) : (emitToken t d).configured = d.configured := rfl
@[simp] theorem emitToken_sticky (t : Token) (d : Defl) : (emitToken t d).sticky = d.sticky := rfl
@[simp] theorem emitToken_level (t : Token) (d : Defl) : (emitToken t d).level = d.level := rfl
@[simp] theorem emitToken_wbits (t : Token) (d : Defl) : (emitToken t d).wbits = d.wbits := rfl
@[simp] theorem emitToken_mem (t : Token) (d : Defl) : (emitToken t d).mem = d.mem := rfl
@[simp] theorem emitToken_strategy (t : Token) (d : Defl) : (emitToken t d).strategy = d.strategy := rfl
@[simp] theorem emitToken_wrap (t : Token) (d : Defl) : (emitToken t d).wrap = d.wrap := rfl
@[simp] theorem emitToken_stage (t : Token) (d : Defl) : (emitToken t d).stage = d.stage := rfl
@[simp] theorem emitToken_phase (t : Token) (d : Defl) : (emitToken t d).phase = d.phase := rfl
@[simp] theorem emitToken_finishing (t : Token) (d : Defl) : (emitToken t d).finishing = d.finishing := rfl
@[simp] theorem emitToken_sat (t : Token) (d : Defl) : (emitToken t d).sat = d.sat := rfl
@[simp] theorem emitToken_data (t : Token) (d : Defl) : (emitToken t d).data = d.data := rfl
@[simp] theorem emitToken_pos (t : Token) (d : Defl) : (emitToken t d).pos = d.pos := rfl
@[simp] theorem emitToken_emitPos (t : Token) (d : Defl) : (emitToken t d).emitPos = d.emitPos + tokenLen t := rfl
@[simp] theorem emitToken_blockStart (t : Token) (d : Defl) : (emitToken t d).blockStart = d.blockStart := rfl
@[simp] theorem emitToken_histBase (t : Token) (d : Defl) : (emitToken t d).histBase = d.histBase := rfl
@[simp] theorem emitToken_nextIns (t : Token) (d : Defl) : (emitToken t d).nextIns = d.nextIns := rfl
@[simp] theorem emitToken_head (t : Token) (d : Defl) : (emitToken t d).head = d.head := rfl
@[simp] theorem emitToken_prev (t : Token) (d : Defl) : (emitToken t d).prev = d.prev := rfl
@[simp] theorem emitToken_deferred (t : Token) (d : Defl) : (emitToken t d).deferred = d.deferred := rfl
@[simp] theorem emitToken_syms (t : Token) (d : Defl) : (emitToken t d).syms = d.syms ++ [t] := rfl
@[simp] theorem emitToken_blk (t : Token) (d : Defl) : (emitToken t d).blk = d.blk := rfl
@[simp] theorem emitToken_bitBuf (t : Token) (d : Defl) : (emitToken t d).bitBuf = d.bitBuf := rfl
@[simp] theorem emitToken_bitCnt (t : Token) (d : Defl) : (emitToken t d).bitCnt = d.bitCnt := rfl
@[simp] theorem emitToken_pending (t : Token) (d : Defl) : (emitToken t d).pending = d.pending := rfl
@[simp] theorem emitToken_check (t : Token) (d : Defl) : (emitToken t d).check = d.check := rfl
@[simp] theorem emitToken_isize (t : Token) (d : Defl) : (emitToken t d).isize = d.isize := rfl

/-! ## `insertOne` -/

@[simp] theorem insertOne_config (d : Defl) : (insertOne d).config = d.config := rfl
@[simp] theorem insertOne_ec (d : Defl) : (insertOne d).ec = d.ec := rfl
@[simp] theorem insertOne_regs (d : Defl) : (insertOne d).regs = d.regs := rfl
@[simp] theorem insertOne_configured (d : Defl) : (insertOne d).configured = d.configured := rfl
@[simp] theorem insertOne_sticky (d : Defl) : (insertOne d).sticky = d.sticky := rfl
@[simp] theorem insertOne_level (d : Defl) : (insertOne d).level = d.level := rfl
@[simp] theorem insertOne_wbits (d : Defl) : (insertOne d).wbits = d.wbits := rfl
@[simp] theorem insertOne_mem (d : Defl) : (insertOne d).mem = d.mem := rfl
@[simp] theorem insertOne_strategy (d : Defl) : (insertOne d).strategy = d.strategy := rfl
@[simp] theorem insertOne_wrap (d : Defl) : (insertOne d).wrap = d.wrap := rfl
@[simp] theorem insertOne_stage (d : Defl) : (insertOne d).stage = d.stage := rfl
@[simp] theorem insertOne_phase (d : Defl) : (insertOne d).phase = d.phase := rfl
@[simp] theorem insertOne_finishing (d : Defl) : (insertOne d).finishing = d.finishing := rfl
@[simp] theorem insertOne_sat (d : Defl) : (insertOne d).sat = d.sat := rfl
@[simp] theorem insertOne_data (d : Defl) : (insertOne d).data = d.data := rfl
@[simp] theorem insertOne_pos (d : Defl) : (insertOne d).pos = d.pos := rfl
@[simp] theorem insertOne_emitPos (d : Defl) : (insertOne d).emitPos = d.emitPos := rfl
@[simp] theorem insertOne_blockStart (d : Defl) : (insertOne d).blockStart = d.blockStart := rfl
@[simp] theorem insertOne_histBase (d : Defl) : (insertOne d).histBase = d.histBase := rfl
@[simp] theorem insertOne_nextIns (d : Defl) : (insertOne d).nextIns = d.nextIns + 1 := rfl
@[simp] theorem insertOne_head (d : Defl) : (insertOne d).head = sparseSet none d.head (hash d d.nextIns) (some d.nextIns) := rfl
@[simp] theorem insertOne_prev (d : Defl) : (insertOne d).prev = sparseSet none d.prev (d.nextIns % wsize d.wbits) (headAt d (hash d d.nextIns)) := rfl
@[simp] theorem insertOne_deferred (d : Defl) : (insertOne d).deferred = d.deferred := rfl
@[simp] theorem insertOne_syms (d : Defl) : (insertOne d).syms = d.syms := rfl
@[simp] theorem insertOne_blk (d : Defl) : (insertOne d).blk = d.blk := rfl
@[simp] theorem insertOne_bitBuf (d : Defl) : (insertOne d).bitBuf = d.bitBuf := rfl
@[simp] theorem insertOne_bitCnt (d : Defl) : (insertOne d).bitCnt = d.bitCnt := rfl
@[simp] theorem insertOne_pending (d : Defl) : (insertOne d).pending = d.pending := rfl
@[simp] theorem insertOne_check (d : Defl) : (insertOne d).check = d.check := rfl
@[simp] theorem insertOne_isize (d : Defl) : (insertOne d).isize = d.isize := rfl

/-! ## `lzClear` -/

@[simp] theorem lzClear_config (d : Defl) : (lzClear d).config = d.config := rfl
@[simp] theorem lzClear_ec (d : Defl) : (lzClear d).ec = d.ec := rfl
@[simp] theorem lzClear_regs (d : Defl) : (lzClear d).regs = d.regs := rfl
@[simp] theorem lzClear_configured (d : Defl) : (lzClear d).configured = d.configured := rfl
@[simp] theorem lzClear_sticky (d : Defl) : (lzClear d).sticky = d.sticky := rfl
@[simp] theorem lzClear_level (d : Defl) : (lzClear d).level = d.level := rfl
@[simp] theorem lzClear_wbits (d : Defl) : (lzClear d).wbits = d.wbits := rfl
@[simp] theorem lzClear_mem (d : Defl) : (lzClear d).mem = d.mem := rfl
@[simp] theorem lzClear_strategy (d : Defl) : (lzClear d).strategy = d.strategy := rfl
@[simp] theorem lzClear_wrap (d : Defl) : (lzClear d).wrap = d.wrap := rfl
@[simp] theorem lzClear_stage (d : Defl) : (lzClear d).stage = d.stage := rfl
@[simp] theorem lzClear_phase (d : Defl) : (lzClear d).phase = d.phase := rfl
@[simp] theorem lzClear_finishing (d : Defl) : (lzClear d).finishing = d.finishing := rfl
@[simp] theorem lzClear_sat (d : Defl) : (lzClear d).sat = d.sat := rfl
@[simp] theorem lzClear_data (d : Defl) : (lzClear d).data = d.data := rfl
@[simp] theorem lzClear_pos (d : Defl) : (lzClear d).pos = d.pos := rfl
@[simp] theorem lzClear_emitPos (d : Defl) : (lzClear d).emitPos = d.emitPos := rfl
@[simp] theorem lzClear_blockStart (d : Defl) : (lzClear d).blockStart = d.blockStart := rfl
@[simp] theorem lzClear_histBase (d : Defl) : (lzClear d).histBase = d.pos := rfl
@[simp] theorem lzClear_nextIns (d : Defl) : (lzClear d).nextIns = d.pos := rfl
@[simp] theorem lzClear_head (d : Defl) : (lzClear d).head = [] := rfl
@[simp] theorem lzClear_prev (d : Defl) : (lzClear d).prev = d.prev := rfl
@[simp] theorem lzClear_deferred (d : Defl) : (lzClear d).deferred = d.deferred := rfl
@[simp] theorem lzClear_syms (d : Defl) : (lzClear d).syms = d.syms := rfl
@[simp] theorem lzClear_blk (d : Defl) : (lzClear d).blk = d.blk := rfl
@[simp] theorem lzClear_bitBuf (d : Defl) : (lzClear d).bitBuf = d.bitBuf := rfl
@[simp] theorem lzClear_bitCnt (d : Defl) : (lzClear d).bitCnt = d.bitCnt := rfl
@[simp] theorem lzClear_pending (d : Defl) : (lzClear d).pending = d.pending := rfl
@[simp] theorem lzClear_check (d : Defl) : (lzClear d).check = d.check := rfl
@[simp] theorem lzClear_isize (d : Defl) : (lzClear d).isize = d.isize := rfl

/-! ## `acceptByte` -/

@[simp] theorem acceptByte_d_config (c : DeflCtx) : (acceptByte c).d.config = c.d.config := rfl
@[simp] theorem acceptByte_d_ec (c : DeflCtx) : (acceptByte c).d.ec = c.d.ec := rfl
@[simp] theorem acceptByte_d_regs (c : DeflCtx) : (acceptByte c).d.regs = inByteRegs c.d.regs c.bus := rfl
@[simp] theorem acceptByte_d_configured (c : DeflCtx) : (acceptByte c).d.configured = c.d.configured := rfl
@[simp] theorem acceptByte_d_sticky (c : DeflCtx) : (acceptByte c).d.sticky = c.d.sticky := rfl
@[simp] theorem acceptByte_d_level (c : DeflCtx) : (acceptByte c).d.level = c.d.level := rfl
@[simp] theorem acceptByte_d_wbits (c : DeflCtx) : (acceptByte c).d.wbits = c.d.wbits := rfl
@[simp] theorem acceptByte_d_mem (c : DeflCtx) : (acceptByte c).d.mem = c.d.mem := rfl
@[simp] theorem acceptByte_d_strategy (c : DeflCtx) : (acceptByte c).d.strategy = c.d.strategy := rfl
@[simp] theorem acceptByte_d_wrap (c : DeflCtx) : (acceptByte c).d.wrap = c.d.wrap := rfl
@[simp] theorem acceptByte_d_stage (c : DeflCtx) : (acceptByte c).d.stage = c.d.stage := rfl
@[simp] theorem acceptByte_d_phase (c : DeflCtx) : (acceptByte c).d.phase = c.d.phase := rfl
@[simp] theorem acceptByte_d_finishing (c : DeflCtx) : (acceptByte c).d.finishing = c.d.finishing := rfl
@[simp] theorem acceptByte_d_sat (c : DeflCtx) : (acceptByte c).d.sat = c.d.sat := rfl
@[simp] theorem acceptByte_d_data (c : DeflCtx) : (acceptByte c).d.data = c.d.data ++ [inByteVal c.d.regs c.bus] := rfl
@[simp] theorem acceptByte_d_pos (c : DeflCtx) : (acceptByte c).d.pos = c.d.pos := rfl
@[simp] theorem acceptByte_d_emitPos (c : DeflCtx) : (acceptByte c).d.emitPos = c.d.emitPos := rfl
@[simp] theorem acceptByte_d_blockStart (c : DeflCtx) : (acceptByte c).d.blockStart = c.d.blockStart := rfl
@[simp] theorem acceptByte_d_histBase (c : DeflCtx) : (acceptByte c).d.histBase = c.d.histBase := rfl
@[simp] theorem acceptByte_d_nextIns (c : DeflCtx) : (acceptByte c).d.nextIns = c.d.nextIns := rfl
@[simp] theorem acceptByte_d_head (c : DeflCtx) : (acceptByte c).d.head = c.d.head := rfl
@[simp] theorem acceptByte_d_prev (c : DeflCtx) : (acceptByte c).d.prev = c.d.prev := rfl
@[simp] theorem acceptByte_d_deferred (c : DeflCtx) : (acceptByte c).d.deferred = c.d.deferred := rfl
@[simp] theorem acceptByte_d_syms (c : DeflCtx) : (acceptByte c).d.syms = c.d.syms := rfl
@[simp] theorem acceptByte_d_blk (c : DeflCtx) : (acceptByte c).d.blk = c.d.blk := rfl
@[simp] theorem acceptByte_d_bitBuf (c : DeflCtx) : (acceptByte c).d.bitBuf = c.d.bitBuf := rfl
@[simp] theorem acceptByte_d_bitCnt (c : DeflCtx) : (acceptByte c).d.bitCnt = c.d.bitCnt := rfl
@[simp] theorem acceptByte_d_pending (c : DeflCtx) : (acceptByte c).d.pending = c.d.pending := rfl
@[simp] theorem acceptByte_d_check (c : DeflCtx) : (acceptByte c).d.check = checkStep c.d.wrap c.d.check (inByteVal c.d.regs c.bus) := rfl
@[simp] theorem acceptByte_d_isize (c : DeflCtx) : (acceptByte c).d.isize = c.d.isize + 1 := rfl
@[simp] theorem acceptByte_d_bus (c : DeflCtx) : (acceptByte c).bus = inByteBus c.d.regs c.bus := rfl

/-! ## `tickFree`: only the counter moves -/

@[simp] theorem tickFree_inMem (a : Word) (b : Bus) : (tickFree a b).inMem = b.inMem := by
  unfold tickFree; split <;> rfl

@[simp] theorem tickFree_outMem (a : Word) (b : Bus) : (tickFree a b).outMem = b.outMem := by
  unfold tickFree; split <;> rfl

@[simp] theorem inByteBus_inMem (r : StreamRegs) (b : Bus) : (inByteBus r b).inMem = b.inMem := tickFree_inMem _ _

@[simp] theorem inByteBus_outMem (r : StreamRegs) (b : Bus) : (inByteBus r b).outMem = b.outMem := tickFree_outMem _ _

@[simp] theorem outByteBus_inMem (r : StreamRegs) (b : Bus) (v : Byte) : (outByteBus r b v).inMem = b.inMem := by
  simp [outByteBus]

@[simp] theorem outByteBus_outMem (r : StreamRegs) (b : Bus) (v : Byte) :
    (outByteBus r b v).outMem = memWrite b.outMem r.nextOut.toNat v := by
  simp [outByteBus]

end Sys2Proof.Machine
end

