-- ==== Sys2Proof/Laws/Memory.lean ====
section
/-! SUPPORT. The laws of the sparse tables and byte spaces: read after write, and the canonical form, which every write
keeps. -/

namespace Sys2Proof.Machine

section Sparse

variable {α : Type} [DecidableEq α] {d : α}

theorem sparseGet_sparseCons_self (i : Nat) (v : α) (m : List (Nat × α)) (h : sparseGet d m i = d) :
    sparseGet d (sparseCons d i v m) i = v := by
  unfold sparseCons
  split
  · simp_all
  · simp [sparseGet]

theorem sparseGet_sparseCons_other {i j : Nat} (v : α) (m : List (Nat × α)) (h : j ≠ i) :
    sparseGet d (sparseCons d i v m) j = sparseGet d m j := by
  unfold sparseCons
  split
  · rfl
  · simp [sparseGet, h]

omit [DecidableEq α] in
/-- An index below every listed one is unlisted. -/
theorem sparseGet_below (m : List (Nat × α)) (i : Nat) (h : ∀ e ∈ m, i < e.1) : sparseGet d m i = d := by
  induction m with
  | nil => rfl
  | cons e m ih =>
    obtain ⟨k, w⟩ := e
    have hk : i < k := h (k, w) (by simp)
    simp only [sparseGet, if_neg (Nat.ne_of_lt hk)]
    exact ih fun e he => h e (by simp [he])

/-- Reading the index just written gives the value written. -/
theorem sparseGet_sparseSet_self (m : List (Nat × α)) (h : sparseWf d m) (i : Nat) (v : α) :
    sparseGet d (sparseSet d m i v) i = v := by
  induction m with
  | nil => exact sparseGet_sparseCons_self i v [] rfl
  | cons e m ih =>
    obtain ⟨k, w⟩ := e
    obtain ⟨hp, hd⟩ := h
    rw [List.pairwise_cons] at hp
    simp only [sparseSet]
    split_ifs with h1 h2
    · refine sparseGet_sparseCons_self i v _ (sparseGet_below _ _ ?_)
      intro e he
      rcases List.mem_cons.1 he with rfl | he
      · exact h1
      · exact Nat.lt_trans h1 (hp.1 e he)
    · refine sparseGet_sparseCons_self i v _ (sparseGet_below _ _ ?_)
      intro e he
      exact h2 ▸ hp.1 e he
    · simp only [sparseGet, if_neg h2]
      exact ih ⟨hp.2, fun e he => hd e (by simp [he])⟩

/-- Every other index reads as before. -/
theorem sparseGet_sparseSet_other (m : List (Nat × α)) {i j : Nat} (v : α) (h : j ≠ i) :
    sparseGet d (sparseSet d m i v) j = sparseGet d m j := by
  induction m with
  | nil => exact sparseGet_sparseCons_other v [] h
  | cons e m ih =>
    obtain ⟨k, w⟩ := e
    simp only [sparseSet]
    split_ifs with h1 h2
    · exact sparseGet_sparseCons_other v _ h
    · rw [sparseGet_sparseCons_other v _ h]
      simp [sparseGet, ← h2, h]
    · simp only [sparseGet, ih]

theorem mem_sparseCons {i : Nat} {v : α} {m : List (Nat × α)} {e : Nat × α} (h : e ∈ sparseCons d i v m) :
    (e = (i, v) ∧ v ≠ d) ∨ e ∈ m := by
  unfold sparseCons at h
  split at h
  · exact .inr h
  · rcases List.mem_cons.1 h with rfl | h
    · exact .inl ⟨rfl, ‹_›⟩
    · exact .inr h

theorem mem_sparseSet {m : List (Nat × α)} {i : Nat} {v : α} {e : Nat × α} (h : e ∈ sparseSet d m i v) :
    (e = (i, v) ∧ v ≠ d) ∨ e ∈ m := by
  induction m with
  | nil => exact mem_sparseCons h
  | cons f m ih =>
    obtain ⟨k, w⟩ := f
    simp only [sparseSet] at h
    split_ifs at h with h1 h2
    · exact mem_sparseCons h
    · rcases mem_sparseCons h with h | h
      · exact .inl h
      · exact .inr (by simp [h])
    · rcases List.mem_cons.1 h with rfl | h
      · exact .inr (by simp)
      · rcases ih h with h | h
        · exact .inl h
        · exact .inr (by simp [h])

/-- A write keeps the canonical form. -/
theorem sparseSet_wf (m : List (Nat × α)) (h : sparseWf d m) (i : Nat) (v : α) : sparseWf d (sparseSet d m i v) := by
  refine ⟨?_, ?_⟩
  · induction m with
    | nil => unfold sparseSet sparseCons; split <;> simp
    | cons e m ih =>
      obtain ⟨k, w⟩ := e
      obtain ⟨hp, hd⟩ := h
      have hp' := List.pairwise_cons.1 hp
      have hm : sparseWf d m := ⟨hp'.2, fun e he => hd e (by simp [he])⟩
      simp only [sparseSet]
      split_ifs with h1 h2
      · unfold sparseCons
        split
        · exact hp
        · refine List.pairwise_cons.2 ⟨fun e he => ?_, hp⟩
          rcases List.mem_cons.1 he with rfl | he
          · exact h1
          · exact Nat.lt_trans h1 (hp'.1 e he)
      · unfold sparseCons
        split
        · exact hp'.2
        · exact List.pairwise_cons.2 ⟨fun e he => h2 ▸ hp'.1 e he, hp'.2⟩
      · refine List.pairwise_cons.2 ⟨fun e he => ?_, ih hm⟩
        rcases mem_sparseSet he with ⟨rfl, -⟩ | he
        · show k < i
          omega
        · exact hp'.1 e he
  · intro e he
    rcases mem_sparseSet he with ⟨rfl, hv⟩ | he
    · exact hv
    · exact h.2 e he

end Sparse

/-! ## Byte spaces -/

theorem memRead_memWrite_self {m : Memory} (h : m.wf) (a : Nat) (v : Byte) : memRead (memWrite m a v) a = v :=
  sparseGet_sparseSet_self m h a v

@[simp] theorem memRead_memWrite_other (m : Memory) {a b : Nat} (v : Byte) (h : b ≠ a) :
    memRead (memWrite m a v) b = memRead m b :=
  sparseGet_sparseSet_other m v h

theorem memWrite_wf {m : Memory} (h : m.wf) (a : Nat) (v : Byte) : (memWrite m a v).wf := sparseSet_wf m h a v

theorem Memory.wf_nil : Memory.wf [] := by decide

/-- A space filled from address 0 is in canonical form. -/
theorem memOf_wf (bs : List Byte) : (memOf bs).wf := by
  have h : ∀ (l : List (Byte × Nat)) (m : Memory), m.wf → (l.foldl (fun m x => memWrite m x.2 x.1) m).wf := by
    intro l
    induction l with
    | nil => exact fun _ h => h
    | cons x l ih => exact fun m h => ih _ (memWrite_wf h _ _)
  exact h _ _ Memory.wf_nil

/-- The two spaces at reset are in canonical form. -/
theorem State.reset_memory_wf : State.reset.bus.inMem.wf ∧ State.reset.bus.outMem.wf := by decide

/-- `in_byte` leaves the spaces as they were. -/
theorem inByteBus_inv {r : StreamRegs} {b : Bus} (h : Bus.Inv b) : Bus.Inv (inByteBus r b) := by
  simpa [Bus.Inv] using h

/-- `out_byte` keeps the canonical form. -/
theorem outByteBus_inv {r : StreamRegs} {b : Bus} {v : Byte} (h : Bus.Inv b) : Bus.Inv (outByteBus r b v) :=
  ⟨by simpa using h.1, by simpa using memWrite_wf h.2 _ _⟩

theorem storeIn_inv {a : Word} {b : Byte} {s : State} (h : Bus.Inv s.bus) : Bus.Inv (storeIn a b s).bus :=
  ⟨memWrite_wf h.1 _ _, h.2⟩

/-! ## Cursors -/

/-- Before the last address the cursor just advances. -/
theorem cursorNext_toNat {a : Word} (ctr : Nat) (h : a.toNat + 1 < 2 ^ 32) : (cursorNext ctr a).toNat = a.toNat + 1 := by
  have ha : a ≠ topAddr := by
    intro e
    rw [e] at h
    exact absurd h (by decide)
  unfold cursorNext
  rw [if_neg ha, BitVec.toNat_add]
  simp
  omega

end Sys2Proof.Machine
end

