-- ==== Sys2Proof/Laws/Frames.lean ====
section
/-! SUPPORT. What the shared operations of `DEFL` leave as it was: the bit writer and everything built on it touch the
writer only; the matcher touches the cursors, the chains, the deferred match and the token list only. -/

namespace Sys2Proof.Machine

/-! ## The bit writer -/

/-- `e` is `d` but for the writer (R201). -/
def onlyBits (d e : Defl) : Prop := e = { d with pending := e.pending, bitBuf := e.bitBuf, bitCnt := e.bitCnt }

theorem onlyBits.refl (d : Defl) : onlyBits d d := rfl

theorem onlyBits.trans {a b c : Defl} (h : onlyBits a b) (k : onlyBits b c) : onlyBits a c := by
  unfold onlyBits at *
  rw [k, h]

theorem onlyBits_bwPut (v n : Nat) (d : Defl) : onlyBits d (bwPut v n d) := rfl

theorem onlyBits_bwPutcode (v n : Nat) (d : Defl) : onlyBits d (bwPutcode v n d) := rfl

theorem onlyBits_bwAlign (d : Defl) : onlyBits d (bwAlign d) := by
  unfold bwAlign; split <;> rfl

theorem onlyBits_foldl {α : Type} (g : Defl → α → Defl) (hg : ∀ d x, onlyBits d (g d x)) (l : List α) (d : Defl) :
    onlyBits d (l.foldl g d) := by
  induction l generalizing d with
  | nil => exact .refl d
  | cons x l ih => exact (hg d x).trans (ih _)

theorem onlyBits_emitTrees (b : Blk) (d : Defl) : onlyBits d (emitTrees b d) := by
  have h1 : onlyBits d (bwPut (b.hclen - 4) 4 (bwPut (b.hdist - 1) 5 (bwPut (b.hlit - 257) 5 d))) := rfl
  have h2 := onlyBits_foldl (fun d s => bwPut (b.clLens.getD s 0) 3 d) (fun d s => onlyBits_bwPut _ _ d) (clOrder.take b.hclen)
    (bwPut (b.hclen - 4) 4 (bwPut (b.hdist - 1) 5 (bwPut (b.hlit - 257) 5 d)))
  exact (h1.trans h2).trans (onlyBits_foldl _ (fun d q => (rfl : onlyBits d (emitPair (hbCanon b.clLens 7) b.clLens d q))) _ _)

theorem onlyBits_hbEmitHeader (b : Blk) (d : Defl) : onlyBits d (hbEmitHeader b d) := by
  have h1 : onlyBits d (bwPut (blockTypeNum b.typ) 2 (bwPut b.final.toNat 1 d)) := rfl
  unfold hbEmitHeader
  simp only
  split
  · refine h1.trans ((onlyBits_bwAlign _).trans ?_)
    rfl
  · exact h1
  · exact h1.trans (onlyBits_emitTrees _ _)

theorem onlyBits_emitSymbol (lc ll dc dl : List Nat) (d : Defl) (t : Token) : onlyBits d (emitSymbol lc ll dc dl d t) := by
  cases t <;> rfl

theorem onlyBits_emitCoded (ts : List Token) (ll dl : Lens) (d : Defl) : onlyBits d (emitCoded ts ll dl d) :=
  (onlyBits_foldl _ (fun _ _ => onlyBits_emitSymbol _ _ _ _ _ _) ts d).trans (onlyBits_bwPutcode _ _ _)

theorem onlyBits_hbEmitSymbols (b : Blk) (d : Defl) : onlyBits d (hbEmitSymbols b d) := by
  unfold hbEmitSymbols
  split
  · exact onlyBits_foldl _ (fun d (x : Byte) => onlyBits_bwPut x.toNat 8 d) _ _
  · exact onlyBits_emitCoded _ _ _ _
  · exact onlyBits_emitCoded _ _ _ _

theorem onlyBits_hdrTrailer (d : Defl) : onlyBits d (hdrTrailer d) := rfl

theorem onlyBits_hdrZenc (d : Defl) : onlyBits d (hdrZenc d) := rfl

theorem onlyBits_hdrGzenc (p : Params) (d : Defl) : onlyBits d (hdrGzenc p d) := rfl

theorem onlyBits_marker (f : Flush) (d : Defl) : onlyBits d (marker f d) := by
  cases f with
  | sync | full =>
    have h1 : onlyBits d (bwPut 0 3 d) := rfl
    exact (h1.trans (onlyBits_bwAlign _)).trans rfl
  | none | block | part | finish | trees => rfl

/-- `BW.TAKE` moves the queue and the output parameters only (R206). -/
theorem bwTakeLoop_frame (q : List Byte) (c : DeflCtx) :
    (bwTakeLoop q c).d = { c.d with pending := (bwTakeLoop q c).d.pending, regs := (bwTakeLoop q c).d.regs } ∧
      (bwTakeLoop q c).d.regs.nextIn = c.d.regs.nextIn ∧ (bwTakeLoop q c).d.regs.availIn = c.d.regs.availIn ∧
      (bwTakeLoop q c).d.regs.totalIn = c.d.regs.totalIn ∧ (bwTakeLoop q c).bus.inMem = c.bus.inMem := by
  induction q generalizing c with
  | nil => simp [bwTakeLoop]
  | cons v q ih =>
    simp only [bwTakeLoop]
    split_ifs
    · simp
    · obtain ⟨h1, h2, h3, h4, h5⟩ := ih
        { d := { c.d with regs := outByteRegs c.d.regs c.bus }, bus := outByteBus c.d.regs c.bus v }
      refine ⟨h1, h2, h3, h4, ?_⟩
      simpa using h5

theorem bwTake_frame (c : DeflCtx) :
    (bwTake c).d = { c.d with pending := (bwTake c).d.pending, regs := (bwTake c).d.regs } ∧
      (bwTake c).d.regs.nextIn = c.d.regs.nextIn ∧ (bwTake c).d.regs.availIn = c.d.regs.availIn ∧
      (bwTake c).d.regs.totalIn = c.d.regs.totalIn ∧ (bwTake c).bus.inMem = c.bus.inMem := bwTakeLoop_frame _ _

/-! ## The matcher -/

/-- `e` is `d` but for the chains (R40, R41, R294). -/
def onlyChains (d e : Defl) : Prop := e = { d with nextIns := e.nextIns, head := e.head, prev := e.prev }

theorem onlyChains.trans {a b c : Defl} (h : onlyChains a b) (k : onlyChains b c) : onlyChains a c := by
  unfold onlyChains at *
  rw [k, h]

theorem onlyChains_lzInsertLoop (k p : Nat) (d : Defl) : onlyChains d (lzInsertLoop k p d) := by
  induction k generalizing d with
  | zero => rfl
  | succ k ih =>
    simp only [lzInsertLoop]
    split_ifs
    · have h : onlyChains d (insertOne d) := rfl
      exact h.trans (ih _)
    · rfl

theorem onlyChains_lzInsert (p : Nat) (d : Defl) : onlyChains d (lzInsert p d) := onlyChains_lzInsertLoop _ _ _

theorem onlyChains_lzInsertBelow (p : Nat) (d : Defl) : onlyChains d (lzInsertBelow p d) := by
  unfold lzInsertBelow
  split_ifs
  · rfl
  · exact onlyChains_lzInsert _ _

/-- Both insertions of a step. -/
theorem onlyChains_insertBoth (p : Nat) (d : Defl) : onlyChains d (lzInsert p (lzInsertBelow p d)) :=
  (onlyChains_lzInsertBelow p d).trans (onlyChains_lzInsert p _)

/-- `e` is `d` but for what the tokeniser writes (R300 to R306). -/
def onlyTokens (d e : Defl) : Prop :=
  e = { d with
    pos := e.pos, emitPos := e.emitPos, nextIns := e.nextIns, head := e.head, prev := e.prev, deferred := e.deferred
    syms := e.syms }

theorem onlyTokens.refl (d : Defl) : onlyTokens d d := rfl

theorem onlyTokens.trans {a b c : Defl} (h : onlyTokens a b) (k : onlyTokens b c) : onlyTokens a c := by
  unfold onlyTokens at *
  rw [k, h]

theorem onlyChains.onlyTokens {d e : Defl} (h : onlyChains d e) : onlyTokens d e := by
  unfold onlyChains at h
  unfold Machine.onlyTokens
  rw [h]

theorem onlyTokens_lzStep (pr : Params) (d : Defl) : onlyTokens d (lzStep pr d) := by
  have h := (onlyChains_insertBoth d.pos d).onlyTokens
  unfold lzStep
  by_cases h1 : d.pos < dataEnd d
  · rw [if_pos h1]
    split
    · rfl
    · simp only [stepGreedy]
      split_ifs <;> exact h.trans rfl
    · by_cases h2 : d.deferred.valid = true
      · rw [if_pos h2]
        simp only [stepLazyDeferred]
        split_ifs <;> exact h.trans rfl
      · rw [if_neg h2]
        simp only [stepLazyFresh]
        split_ifs <;> exact h.trans rfl
  · rw [if_neg h1]
    split_ifs <;> rfl

theorem onlyTokens_tokenise (pr : Params) (f : Flush) (n : Nat) (d : Defl) : onlyTokens d (tokenise pr f n d).2 := by
  induction n generalizing d with
  | zero => rfl
  | succ n ih =>
    simp only [tokenise]
    split_ifs
    · exact onlyTokens_lzStep _ _
    · exact (onlyTokens_lzStep _ _).trans (ih _)
    · rfl

/-! ## Accepting input -/

/-- What `k` accepted bytes leave (R388): the input parameters, the source and its checksum move, nothing else. -/
theorem acceptLoop_frame (k : Nat) (c : DeflCtx) :
    (acceptLoop k c).d = { c.d with
      regs := (acceptLoop k c).d.regs, data := (acceptLoop k c).d.data, check := (acceptLoop k c).d.check
      isize := (acceptLoop k c).d.isize } ∧
      (acceptLoop k c).d.data.length = c.d.data.length + k ∧ (acceptLoop k c).bus.inMem = c.bus.inMem ∧
      (acceptLoop k c).bus.outMem = c.bus.outMem := by
  induction k generalizing c with
  | zero => simp [acceptLoop]
  | succ k ih =>
    obtain ⟨h1, h2, h3, h4⟩ := ih (acceptByte c)
    refine ⟨?_, ?_, ?_, ?_⟩
    · simp only [acceptLoop]
      exact h1
    · simp only [acceptLoop, h2, acceptByte_d_data, List.length_append, List.length_singleton]
      omega
    · simpa [acceptLoop] using h3
    · simpa [acceptLoop] using h4

end Sys2Proof.Machine
end

