-- ==== Sys2Proof/Laws/InflTermination.lean ====
section
/-! SUPPORT. Every work loop of `INFL` ends within its bound (R516): each micro-step that completes lowers a measure made
of the input bits not yet used, the output space left, and the place of the stage in its element. -/

namespace Sys2Proof.Machine

/-! ## The measure -/

/-- Bits of input not yet used, and bytes of output space left. -/
def Infl.work (i : Infl) : Nat := 8 * i.regs.availIn.toNat + i.cnt + i.regs.availOut.toNat

/-- How many silent micro-steps may follow in the same element. -/
def IStage.rank : IStage → Nat
  | .trailer | .sym | .dist => 0
  | .blockType | .dynLens | .lenext | .mat => 1
  | .gzHcrc | .storedCopy | .dynClens | .distext => 2
  | .gzComment => 3
  | .gzName => 4
  | .gzExtra => 5
  | .zhdr | .dictid | .gzMagic | .gzCmflg | .gzMtime | .gzXflos | .gzExlen | .storedLen | .dynCounts | .lit | .gzIsize
  | .done | .bad => 0

/-- The measure of the work loop. -/
def Infl.measure (i : Infl) : Nat := 6 * i.work + i.stage.rank

theorem IStage.rank_le (x : IStage) : x.rank ≤ 5 := by cases x <;> decide

theorem toNat_sub_one {a : Word} (h : a ≠ 0) : (a - 1).toNat = a.toNat - 1 := by
  have : a.toNat ≠ 0 := fun e => h (BitVec.eq_of_toNat_eq e)
  rw [BitVec.toNat_sub]
  have := a.isLt
  simp
  omega

theorem toNat_pos_of_ne {a : Word} (h : a ≠ 0) : 0 < a.toNat :=
  Nat.pos_of_ne_zero fun e => h (BitVec.eq_of_toNat_eq e)

/-! ## Fetching bits does not change the work left -/

theorem brFetch_work {c : InflCtx} (h : c.e.regs.availIn ≠ 0) : (brFetch c).e.work = c.e.work := by
  have := toNat_sub_one h
  have := toNat_pos_of_ne h
  simp only [Infl.work, brFetch_e_regs, brFetch_e_cnt, inByteRegs_availIn, inByteRegs_availOut]
  omega

theorem brNeedLoop_spec (k n : Nat) (c : InflCtx) :
    (brNeedLoop k n c).2.e.work = c.e.work ∧ (brNeedLoop k n c).2.e.stage = c.e.stage ∧
      ((brNeedLoop k n c).1 = true → n ≤ (brNeedLoop k n c).2.e.cnt) := by
  induction k generalizing c with
  | zero => simp [brNeedLoop]
  | succ k ih =>
    simp only [brNeedLoop]
    split_ifs with h1 h2
    · exact ⟨rfl, rfl, fun _ => h1⟩
    · exact ⟨rfl, rfl, by simp⟩
    · obtain ⟨a, b, d⟩ := ih (brFetch c)
      exact ⟨a.trans (brFetch_work h2), b, d⟩

theorem brNeed_spec (n : Nat) (c : InflCtx) :
    (brNeed n c).2.e.work = c.e.work ∧ (brNeed n c).2.e.stage = c.e.stage ∧
      ((brNeed n c).1 = true → n ≤ (brNeed n c).2.e.cnt) := brNeedLoop_spec n n c

theorem scanCodes_found {lens codes hold cnt left n c s m} (h : scanCodes lens codes hold cnt left n c = .found s m) :
    n ≤ m ∧ m ≤ cnt := by
  induction left generalizing n c with
  | zero => simp [scanCodes] at h
  | succ left ih =>
    simp only [scanCodes] at h
    split_ifs at h with h1
    split at h
    · cases h; exact ⟨le_rfl, Nat.not_lt.1 h1⟩
    · have := ih h; omega

theorem hdDecodeLoop_spec (lens : Lens) (max k : Nat) (c : InflCtx) :
    (hdDecodeLoop lens max k c).2.e.work = c.e.work ∧ (hdDecodeLoop lens max k c).2.e.stage = c.e.stage ∧
      ∀ s n, (hdDecodeLoop lens max k c).1 = .found s n → 1 ≤ n ∧ n ≤ (hdDecodeLoop lens max k c).2.e.cnt := by
  induction k generalizing c with
  | zero => exact ⟨rfl, rfl, fun s n h => scanCodes_found h⟩
  | succ k ih =>
    simp only [hdDecodeLoop]
    split
    · split_ifs with h2
      · exact ⟨rfl, rfl, by simp⟩
      · obtain ⟨a, b, d⟩ := ih (brFetch c)
        exact ⟨a.trans (brFetch_work h2), b, d⟩
    · exact ⟨rfl, rfl, fun s n h => scanCodes_found h⟩

theorem hdDecode_spec {lens : Lens} {max : Nat} {c c1 : InflCtx} {r : Scan} (h : hdDecode lens max c = (r, c1)) :
    c1.e.work = c.e.work ∧ c1.e.stage = c.e.stage ∧ ∀ s n, r = .found s n → 1 ≤ n ∧ n ≤ c1.e.cnt := by
  have := hdDecodeLoop_spec lens max (maxLen lens) c
  unfold hdDecode at h
  rw [h] at this
  exact this

/-! ## What completes drops bits -/

theorem brDrop_work {n : Nat} {i : Infl} (h : n ≤ i.cnt) : (brDrop n i).work + n = i.work := by
  simp only [Infl.work, brDrop_regs, brDrop_cnt]
  omega

theorem brDrop_work_le (n : Nat) (i : Infl) : (brDrop n i).work ≤ i.work := by
  simp only [Infl.work, brDrop_regs, brDrop_cnt]
  omega

/-- An element's action leaves the reader and the stream parameters as they were. -/
def Act.quiet (i : Infl) : Act → Prop
  | .good j => j.regs = i.regs ∧ j.cnt = i.cnt
  | .bad _ _ => True

theorem work_of_quiet {i j : Infl} (h : (Act.good j).quiet i) : j.work = i.work := by
  obtain ⟨h1, h2⟩ := h
  simp [Infl.work, h1, h2]

theorem finish_complete {n : Nat} {halts : Bool} {c c' : InflCtx} {a : Act} (h : finish n halts c a = .complete c') :
    ∃ i, a = .good i ∧ c' = { c with e := brDrop n i } := by
  unfold finish at h
  split at h
  · cases h
  · split_ifs at h
    cases h
    exact ⟨_, rfl, rfl⟩

theorem needing_complete {n : Nat} {c c' : InflCtx} {g : InflCtx → Micro} (h : needing n c g = .complete c') :
    ∃ c1, c1.e.work = c.e.work ∧ c1.e.stage = c.e.stage ∧ n ≤ c1.e.cnt ∧ g c1 = .complete c' := by
  unfold needing at h
  have := brNeed_spec n c
  simp only at h
  split_ifs at h with h1
  exact ⟨_, this.1, this.2.1, this.2.2 h1, h⟩

/-- A micro-step that ends an element of `n > 0` bits lowers the measure, whatever stage comes next. -/
theorem finish_measure {n : Nat} {halts : Bool} {c c' : InflCtx} {a : Act} (hn : 0 < n) (hc : n ≤ c.e.cnt)
    (ha : a.quiet c.e) (h : finish n halts c a = .complete c') : c'.e.measure < 6 * c.e.work := by
  obtain ⟨i, rfl, rfl⟩ := finish_complete h
  have h1 := work_of_quiet ha
  have h2 : n ≤ i.cnt := ha.2 ▸ hc
  have h3 := brDrop_work h2
  have h4 := IStage.rank_le (brDrop n i).stage
  simp only [Infl.measure]
  omega

theorem reading_measure {n : Nat} {c c' : InflCtx} {act : Nat → Infl → Act} (hn : 0 < n) (ha : ∀ v i, (act v i).quiet i)
    (h : reading n c act = .complete c') : c'.e.measure < c.e.measure := by
  obtain ⟨c1, h1, -, h3, h4⟩ := needing_complete h
  have := finish_measure hn h3 (ha _ _) h4
  simp only [Infl.measure] at *
  omega

/-! ## Each action is quiet -/

theorem zhdrAct_quiet (a b : Byte) (i : Infl) : (zhdrAct a b i).quiet i := by
  unfold zhdrAct; split <;> simp [Act.quiet]

theorem gzMagicAct_quiet (a b : Byte) (i : Infl) : (gzMagicAct a b i).quiet i := by
  unfold gzMagicAct; split <;> simp [Act.quiet]

theorem gzCmflgAct_quiet (a b : Byte) (i : Infl) : (gzCmflgAct a b i).quiet i := by
  simp only [gzCmflgAct]; split <;> simp [Act.quiet]

theorem gzNameAct_quiet (b : Byte) (i : Infl) : (gzNameAct b i).quiet i := by
  unfold gzNameAct; split <;> simp [Act.quiet]

theorem gzCommentAct_quiet (b : Byte) (i : Infl) : (gzCommentAct b i).quiet i := by
  unfold gzCommentAct; split <;> simp [Act.quiet]

theorem gzHcrcAct_quiet (c : BitVec 16) (i : Infl) : (gzHcrcAct c i).quiet i := by
  unfold gzHcrcAct; split <;> simp [Act.quiet]

theorem blkhdrAct_quiet (b : Bool) (t : Nat) (i : Infl) : (blkhdrAct b t i).quiet i := by
  simp only [blkhdrAct]; split <;> simp [Act.quiet]

theorem stolenAct_quiet (a b : BitVec 16) (i : Infl) : (stolenAct a b i).quiet i := by
  unfold stolenAct; split <;> simp [Act.quiet]

theorem dynhdrAct_quiet (a b : BitVec 5) (c : BitVec 4) (i : Infl) : (dynhdrAct a b c i).quiet i := by
  simp only [dynhdrAct]; split <;> simp [Act.quiet]

theorem runAct_quiet (v c : Nat) (i : Infl) : (runAct v c i).quiet i := by
  unfold runAct; split <;> simp [Act.quiet]

theorem clsymAct_quiet (s x : Nat) (i : Infl) : (clsymAct s x i).quiet i := by
  unfold clsymAct
  split_ifs
  · simp [Act.quiet]
  · split
    · simp [Act.quiet]
    · exact runAct_quiet _ _ _
  · exact runAct_quiet _ _ _
  · exact runAct_quiet _ _ _

theorem symAct_quiet (s : Nat) (i : Infl) : (symAct s i).quiet i := by
  unfold symAct; split_ifs <;> simp [Act.quiet]

theorem distAct_quiet (s : Nat) (i : Infl) : (distAct s i).quiet i := by
  unfold distAct; split_ifs <;> simp [Act.quiet]

theorem distextAct_quiet (x : Nat) (i : Infl) : (distextAct x i).quiet i := by
  simp only [distextAct]; split_ifs <;> simp [Act.quiet]

theorem gzCrcAct_quiet (c : Word) (i : Infl) : (gzCrcAct c i).quiet i := by
  unfold gzCrcAct; split <;> simp [Act.quiet]

theorem buildClt_next {p : Params} {i j : Infl} (h : buildClt p i = .good j) :
    j.regs = i.regs ∧ j.cnt = i.cnt ∧ j.stage = .dynLens := by
  unfold buildClt at h
  split at h <;> cases h
  exact ⟨rfl, rfl, rfl⟩

theorem buildTables_next {p : Params} {i j : Infl} (h : buildTables p i = .good j) :
    j.regs = i.regs ∧ j.cnt = i.cnt ∧ j.stage = .sym := by
  unfold buildTables at h
  split_ifs at h
  split at h
  · cases h
  · simp only at h
    split at h <;> cases h
    exact ⟨rfl, rfl, rfl⟩

/-! ## Producing a byte -/

theorem inflEmit_work {v : Byte} {c : InflCtx} (h : c.e.regs.availOut ≠ 0) : (inflEmit v c).e.work + 1 = c.e.work := by
  have := toNat_sub_one h
  have := toNat_pos_of_ne h
  simp only [Infl.work, inflEmit_e_regs, inflEmit_e_cnt, outByteRegs_availIn, outByteRegs_availOut]
  omega

/-! ## Every completing micro-step lowers the measure -/

theorem silently_measure {c c' : InflCtx} {i : Infl} (h : silently c i = .complete c') (hw : i.work ≤ c.e.work)
    (hr : i.stage.rank < c.e.stage.rank) : c'.e.measure < c.e.measure := by
  cases h
  simp only [Infl.measure]
  omega

theorem inflMicro_measure {p : Params} {f : Flush} {c c' : InflCtx} (h : inflMicro p f c = .complete c') :
    c'.e.measure < c.e.measure := by
  unfold inflMicro at h
  split at h
  case h_1 => exact reading_measure (by decide) (fun _ i => zhdrAct_quiet _ _ i) h
  case h_2 =>
    obtain ⟨c1, -, -, -, h4⟩ := needing_complete h
    simp [finish, dictAct] at h4
  case h_3 => exact reading_measure (by decide) (fun _ i => gzMagicAct_quiet _ _ i) h
  case h_4 => exact reading_measure (by decide) (fun _ i => gzCmflgAct_quiet _ _ i) h
  case h_5 => exact reading_measure (by decide) (fun _ i => by simp [gzMtimeAct, Act.quiet]) h
  case h_6 => exact reading_measure (by decide) (fun _ i => by simp [gzXflosAct, Act.quiet]) h
  case h_7 => exact reading_measure (by decide) (fun _ i => by simp [gzXlenAct, Act.quiet]) h
  case h_8 hs =>
    split_ifs at h
    · exact silently_measure h le_rfl (by simp [hs, IStage.rank])
    · exact reading_measure (by decide) (fun _ i => by simp [gzExtraAct, Act.quiet]) h
  case h_9 hs =>
    split_ifs at h
    · exact reading_measure (by decide) (fun _ i => gzNameAct_quiet _ i) h
    · exact silently_measure h le_rfl (by simp [hs, IStage.rank])
  case h_10 hs =>
    split_ifs at h
    · exact reading_measure (by decide) (fun _ i => gzCommentAct_quiet _ i) h
    · exact silently_measure h le_rfl (by simp [hs, IStage.rank])
  case h_11 hs =>
    split_ifs at h
    · exact reading_measure (by decide) (fun _ i => gzHcrcAct_quiet _ i) h
    · exact silently_measure h le_rfl (by simp [hs, IStage.rank])
  case h_12 hs =>
    unfold blockTypeMicro at h
    split_ifs at h
    · exact silently_measure h (brDrop_work_le (c.e.cnt % 8) c.e) (by simp [hs, IStage.rank])
    · obtain ⟨c1, h1, -, h3, h4⟩ := needing_complete h
      have := finish_measure (by decide) h3 (blkhdrAct_quiet _ _ _) h4
      simp only [Infl.measure] at *
      omega
  case h_13 =>
    obtain ⟨c1, h1, -, h3, h4⟩ := needing_complete h
    have := finish_measure (by decide) h3 (stolenAct_quiet _ _ _) h4
    have h5 : c1.e.work ≤ c.e.work := h1 ▸ brDrop_work_le _ _
    simp only [Infl.measure] at *
    omega
  case h_14 hs =>
    unfold storedCopyMicro at h
    split_ifs at h with h1 h2
    · exact silently_measure h le_rfl (by simp [hs, IStage.rank])
    · cases h
      simp only [not_or] at h2
      have hw := inflEmit_work (v := inByteVal c.e.regs c.bus)
        (c := { e := { c.e with regs := inByteRegs c.e.regs c.bus }, bus := inByteBus c.e.regs c.bus })
        (by simpa using h2.2)
      have ha := toNat_sub_one h2.1
      simp only [Infl.measure, storedByte, Infl.work, inflEmit_e_regs, inflEmit_e_cnt, inflEmit_e_stage,
        outByteRegs_availIn, outByteRegs_availOut, inByteRegs_availIn, inByteRegs_availOut] at *
      rw [hs]
      omega
  case h_15 =>
    obtain ⟨c1, h1, -, h3, h4⟩ := needing_complete h
    have := finish_measure (by decide) h3 (dynhdrAct_quiet _ _ _ _) h4
    simp only [Infl.measure] at *
    omega
  case h_16 hs =>
    unfold dynClensMicro at h
    split_ifs at h
    · exact reading_measure (by decide) (fun _ i => by simp [cllenAct, Act.quiet]) h
    · obtain ⟨i, hi, rfl⟩ := finish_complete h
      obtain ⟨h1, h2, h3⟩ := buildClt_next hi
      simp only [Infl.measure, Infl.work, brDrop_regs, brDrop_cnt, brDrop_stage, h1, h2, h3, hs, IStage.rank]
      omega
  case h_17 hs =>
    unfold dynLensMicro at h
    split_ifs at h
    · split at h
      · cases h
      · cases h
      · rename_i s n c1 hd
        obtain ⟨d1, d2, d3⟩ := hdDecode_spec hd
        obtain ⟨c2, h1, -, h3, h4⟩ := needing_complete h
        have := finish_measure (by have := (d3 s n rfl).1; omega) h3 (clsymAct_quiet _ _ _) h4
        simp only [Infl.measure] at *
        omega
    · obtain ⟨i, hi, rfl⟩ := finish_complete h
      obtain ⟨h1, h2, h3⟩ := buildTables_next hi
      simp only [Infl.measure, Infl.work, brDrop_regs, brDrop_cnt, brDrop_stage, h1, h2, h3, hs, IStage.rank]
      omega
  case h_18 =>
    unfold symMicro at h
    split at h
    · cases h
    · cases h
    · rename_i s n c1 hd
      obtain ⟨d1, d2, d3⟩ := hdDecode_spec hd
      have := finish_measure (d3 s n rfl).1 (d3 s n rfl).2 (symAct_quiet _ _) h
      simp only [Infl.measure] at *
      omega
  case h_19 hs =>
    unfold litMicro at h
    split_ifs at h with h1
    cases h
    have hw := inflEmit_work (v := c.e.lit) h1
    simp only [Infl.measure, litByte, Infl.work, inflEmit_e_regs, inflEmit_e_cnt, IStage.rank] at *
    omega
  case h_20 hs =>
    obtain ⟨c1, h1, h2, h3, h4⟩ := needing_complete h
    obtain ⟨i, hi, rfl⟩ := finish_complete h4
    cases hi
    have := brDrop_work_le (lenXb.getD c.e.lsym 0)
      { c1.e with length := lenBase.getD c1.e.lsym 0 + brPeek (lenXb.getD c.e.lsym 0) c1.e, stage := .dist }
    simp only [Infl.measure, Infl.work, brDrop_stage, brDrop_regs, brDrop_cnt, hs, IStage.rank] at *
    omega
  case h_21 =>
    unfold distMicro at h
    split at h
    · cases h
    · cases h
    · rename_i s n c1 hd
      obtain ⟨d1, d2, d3⟩ := hdDecode_spec hd
      have := finish_measure (d3 s n rfl).1 (d3 s n rfl).2 (distAct_quiet _ _) h
      simp only [Infl.measure] at *
      omega
  case h_22 hs =>
    obtain ⟨c1, h1, h2, h3, h4⟩ := needing_complete h
    obtain ⟨i, hi, rfl⟩ := finish_complete h4
    have hq := distextAct_quiet (brPeek (distXb.getD c.e.dsym 0) c1.e) c1.e
    have hst : i.stage = .mat := by
      simp only [distextAct] at hi
      split_ifs at hi
      cases hi
      rfl
    rw [hi] at hq
    have hw := work_of_quiet hq
    have := brDrop_work_le (distXb.getD c.e.dsym 0) i
    simp only [Infl.measure, brDrop_stage, hst, hs, IStage.rank] at *
    omega
  case h_23 hs =>
    unfold matchMicro at h
    split_ifs at h with h1 h2
    · exact silently_measure h le_rfl (by simp [hs, IStage.rank])
    · cases h
      have hw := inflEmit_work (v := matchByte c.e) h2
      simp only [Infl.measure, copyByte, Infl.work, inflEmit_e_regs, inflEmit_e_cnt, inflEmit_e_stage, hs] at *
      omega
  case h_24 =>
    unfold trailerMicro at h
    split at h
    · cases h
    · obtain ⟨c1, h1, -, h3, h4⟩ := needing_complete h
      unfold finish at h4
      split at h4 <;> simp at h4
    · exact reading_measure (by decide) (fun _ i => gzCrcAct_quiet _ i) h
  case h_25 =>
    obtain ⟨c1, h1, -, h3, h4⟩ := needing_complete h
    unfold finish at h4
    split at h4 <;> simp at h4
  all_goals cases h

/-- The work loop is left within more rounds than its measure. -/
theorem inflLoop_isSome {p : Params} {f : Flush} (n : Nat) (c : InflCtx) (h : c.e.measure < n) :
    (inflLoop p f n c).isSome = true := by
  induction n generalizing c with
  | zero => omega
  | succ n ih =>
    simp only [inflLoop]
    split
    · rfl
    · rfl
    · rfl
    · rename_i c1 hm
      have h1 := inflMicro_measure hm
      have h2 : (staleCtx c1).e.measure = c1.e.measure := rfl
      exact ih _ (by omega)

/-- R516: the loop of a `WRITE` is always left within `inflFuel`, in every state. -/
theorem inflRun_ne_fault (f : Flush) (s : State) : ∃ t, inflRun f s = .next t := by
  have h : (inflLoop s.params f (inflFuel s.infl) ⟨{ s.infl with fresh := true }, s.bus⟩).isSome = true := by
    apply inflLoop_isSome
    have := IStage.rank_le s.infl.stage
    simp only [Infl.measure, Infl.work, inflFuel]
    omega
  obtain ⟨r, hr⟩ := Option.isSome_iff_exists.1 h
  exact ⟨inflEnd f s.infl.regs s r, by simp [inflRun, hr]⟩

/-- A `WRITE` of `INFL` answers a next state, in every state. -/
theorem inflWrite_next (f : Flush) (s : State) : ∃ t, inflWrite f s = .next t := by
  simp only [inflWrite]
  split_ifs <;> first | exact ⟨_, rfl⟩ | exact inflRun_ne_fault f s

/-- Bytes taken by the stage answer a next state, and leave the host's input as it was (log 5). -/
theorem streamBytes_next (bytes : List Byte) (s : State) :
    ∃ t, streamBytes bytes s = .next t ∧ t.bus.inMem = s.bus.inMem ∧ t.infl.regs.nextIn = s.infl.regs.nextIn ∧
      t.infl.regs.availIn = s.infl.regs.availIn ∧ t.infl.regs.totalIn = s.infl.regs.totalIn := by
  obtain ⟨t, h⟩ := inflWrite_next .none (withInput bytes s)
  exact ⟨restoreInput s t, by rw [streamBytes, h], rfl, rfl, rfl, rfl⟩

/-- An element answers a next state wherever it stands. -/
theorem element_next (fmt : Fmt) (i : Instr) (s : State) (act : Infl → Act) : ∃ t, element fmt i s act = .next t := by
  unfold element
  split_ifs
  · exact ⟨_, rfl⟩
  · exact (streamBytes_next _ s).imp fun _ h => h.1

/-- So does a symbol of a Huffman code, with a code or without. -/
theorem symbolElement_next (fmt : Fmt) (tb : TableId) (sym : Nat) (i : Instr) (s : State) (act : Infl → Act)
    (after : State → State) : ∃ t, symbolElement fmt tb sym i s act after = .next t := by
  unfold symbolElement
  split_ifs
  · exact ⟨_, rfl⟩
  · exact (streamBytes_next _ s).imp fun _ h => h.1

end Sys2Proof.Machine
end

