-- ==== Sys2Proof/Laws/DeflTermination.lean ====
section
/-! SUPPORT. Tokenising stops, and every work loop of `DEFL` ends within its bound (R414): each round of the work loop
that goes on lowers a measure. The window must be at least 512 bytes, and a deferred match at least 3 long; the invariant
gives both. -/

namespace Sys2Proof.Machine

/-! ## Tokenising -/

/-- A deferred match is a match (R42). -/
def Defl.deferredOk (d : Defl) : Prop := d.deferred.valid = true → 3 ≤ d.deferred.len

/-- Twice the bytes ahead, and a deferred match. -/
def Defl.ahead (d : Defl) : Nat := 2 * lookahead d + d.deferred.valid.toNat

theorem canStep_ahead {f : Flush} {d : Defl} (h : canStep f d = true) : 0 < lookahead d ∨ d.deferred.valid = true := by
  unfold canStep at h
  simp only at h
  split_ifs at h with h1
  · simp only [Bool.and_eq_true] at h
    exact .inr h.1
  · exact .inl (by omega)
  · exact .inl (by omega)

theorem dataEnd_of_onlyTokens {d e : Defl} (h : onlyTokens d e) : dataEnd e = dataEnd d := by
  unfold onlyTokens at h
  rw [h]
  rfl

/-- A step of the tokeniser uses a byte, or ends a deferred match (R302 to R306). -/
theorem lzStep_ahead (pr : Params) {d : Defl} (hd : d.deferredOk) (h : 0 < lookahead d ∨ d.deferred.valid = true) :
    (lzStep pr d).ahead < d.ahead ∧ (lzStep pr d).deferredOk := by
  have hb := onlyChains_insertBoth d.pos d
  have hv : (lzInsert d.pos (lzInsertBelow d.pos d)).deferred = d.deferred := by rw [hb]
  have hde : dataEnd (lzInsert d.pos (lzInsertBelow d.pos d)) = dataEnd d := dataEnd_of_onlyTokens hb.onlyTokens
  unfold lzStep
  by_cases h1 : d.pos < dataEnd d
  · rw [if_pos h1]
    split
    · refine ⟨?_, hd⟩
      simp only [stepLiteral, Defl.ahead, lookahead, dataEnd, emitLit, emitToken_data, emitToken_deferred] at *
      omega
    · simp only [stepGreedy]
      split_ifs with h3
      · refine ⟨?_, by simpa [Defl.deferredOk, hv] using hd⟩
        simp only [Defl.ahead, lookahead, dataEnd, emitToken_data, emitToken_deferred, hv] at *
        rw [hde]
        omega
      · refine ⟨?_, by simpa [Defl.deferredOk, emitLit, hv] using hd⟩
        simp only [Defl.ahead, lookahead, dataEnd, emitLit, emitToken_data, emitToken_deferred, hv] at *
        rw [hde]
        omega
    · by_cases h2 : d.deferred.valid = true
      · rw [if_pos h2]
        have h3 := hd h2
        simp only [stepLazyDeferred]
        split_ifs with h4
        · refine ⟨?_, fun _ => ?_⟩
          · simp only [Defl.ahead, lookahead, dataEnd, emitLit, emitToken_data, h2, Bool.toNat_true] at *
            rw [hde]
            omega
          · show 3 ≤ (lazySearch pr d.pos d.deferred.len (lzInsertBelow d.pos d)).1
            omega
        · refine ⟨?_, fun h5 => by simp at h5⟩
          simp only [Defl.ahead, lookahead, dataEnd, emitToken_data, h2, Bool.toNat_true, Bool.toNat_false] at *
          rw [hde]
          omega
      · rw [if_neg h2]
        have h2' : d.deferred.valid = false := by simpa using h2
        simp only [stepLazyFresh]
        split_ifs with h3
        · refine ⟨?_, fun _ => h3⟩
          simp only [Defl.ahead, lookahead, dataEnd, h2', Bool.toNat_true, Bool.toNat_false] at *
          rw [hde]
          omega
        · refine ⟨?_, by simpa [Defl.deferredOk, emitLit, hv] using hd⟩
          simp only [Defl.ahead, lookahead, dataEnd, emitLit, emitToken_data, emitToken_deferred, hv] at *
          rw [hde]
          omega
  · rw [if_neg h1]
    have h2 : d.deferred.valid = true := by
      rcases h with h | h
      · simp only [lookahead] at h
        omega
      · exact h
    rw [if_pos h2]
    have h3 := hd h2
    refine ⟨?_, fun h5 => by simp [stepAtEnd] at h5⟩
    simp only [stepAtEnd, Defl.ahead, lookahead, dataEnd, emitToken_data, h2, Bool.toNat_true, Bool.toNat_false] at *
    omega

/-- What tokenising leaves: nothing at all when it could not start, else less ahead; and the length a deferred match must
have. When it says that a block is full it has made a step. -/
theorem tokenise_ahead (pr : Params) (f : Flush) (n : Nat) {d : Defl} (hd : d.deferredOk) :
    (tokenise pr f n d).2.deferredOk ∧
      ((tokenise pr f n d = (false, d) ∧ (n = 0 ∨ canStep f d = false)) ∨ (tokenise pr f n d).2.ahead < d.ahead) := by
  induction n generalizing d with
  | zero => exact ⟨hd, .inl ⟨rfl, .inl rfl⟩⟩
  | succ n ih =>
    simp only [tokenise]
    split_ifs with h1 h2
    · obtain ⟨a, b⟩ := lzStep_ahead pr hd (canStep_ahead h1)
      exact ⟨b, .inr a⟩
    · obtain ⟨a, b⟩ := lzStep_ahead pr hd (canStep_ahead h1)
      obtain ⟨c, e⟩ := ih b
      refine ⟨c, .inr ?_⟩
      rcases e with ⟨e, -⟩ | e
      · rw [e]; exact a
      · exact e.trans a
    · exact ⟨hd, .inl ⟨rfl, .inr (by simpa using h1)⟩⟩

/-- Tokenising with its bound stops because it can go no further, or because a block is full (R389). -/
theorem tokenise_stops (pr : Params) (f : Flush) (n : Nat) {d : Defl} (hd : d.deferredOk) (hn : d.ahead ≤ n)
    (h : (tokenise pr f n d).1 = false) : canStep f (tokenise pr f n d).2 = false := by
  induction n generalizing d with
  | zero =>
    have h0 : d.ahead = 0 := by omega
    show canStep f d = false
    by_contra hc
    have := canStep_ahead (by simpa using hc)
    simp only [Defl.ahead] at h0
    rcases this with h1 | h1
    · omega
    · simp [h1] at h0
  | succ n ih =>
    simp only [tokenise] at h ⊢
    split_ifs at h ⊢ with h1 h2
    · obtain ⟨a, b⟩ := lzStep_ahead pr hd (canStep_ahead h1)
      exact ih b (by omega) h
    · simpa using h1

theorem tokeniseFuel_enough (d : Defl) : d.ahead ≤ tokeniseFuel d := by
  simp only [Defl.ahead, tokeniseFuel]
  cases d.deferred.valid <;> simp

/-! ## The measure of the work loop -/

/-- Rounds until `collect`, or the end, is reached from a trailer. -/
def Defl.trailerRank (d : Defl) : Nat := if d.finishing then 2 else 12

/-- Rounds a phase still takes, with what the block after it may cost. -/
def Defl.phaseRank (d : Defl) : Nat :=
  match d.phase with
  | .collect => 10
  | .trailer => d.trailerRank
  | .blkSymbols => if d.blk.final then 1 + d.trailerRank else 11
  | .blkHeader => if d.blk.final then 2 + d.trailerRank else 12

/-- The same with the stage. -/
def Defl.stageRank (d : Defl) : Nat :=
  if d.stage = .flushPending then (if d.finishing then 1 else 1 + d.phaseRank) else d.phaseRank

/-- Whether a flush of the kind `f`, or the marker of a `partial`, may still be due: 1 where it may. -/
def Defl.owes (f : Flush) (d : Defl) : Nat :=
  if d.sat < flushRank f ∨ (f = .part ∧ (d.phase = .collect → d.blk.typ = .dynamic)) then 1 else 0

theorem Defl.owes_le_one (f : Flush) (d : Defl) : d.owes f ≤ 1 := by
  unfold Defl.owes
  split_ifs <;> decide

/-- Leaving a block phase does not make a flush due that was not. -/
theorem Defl.owes_mono (f : Flush) {d e : Defl} (hs : e.sat = d.sat) (h : d.phase ≠ .collect) : e.owes f ≤ d.owes f := by
  have h1 := e.owes_le_one f
  simp only [Defl.owes, hs] at *
  split_ifs at * with h2 h3
  · exact h1
  · exact absurd (h2.imp id fun q => ⟨q.1, fun e => absurd e h⟩) h3
  · exact Nat.zero_le _
  · exact Nat.le_refl _

/-- A flush that ranks above `sat` is due. -/
theorem owes_of_rank {f : Flush} {d : Defl} (h : d.sat < flushRank f) : d.owes f = 1 := if_pos (.inl h)

/-- So is the marker of a `partial` where data is held. -/
theorem owes_of_dataHeld {d : Defl} (h : dataHeld d = true) : d.owes .part = 1 := by
  simp only [dataHeld, Bool.and_eq_true, beq_iff_eq] at h
  exact if_pos (.inr ⟨rfl, fun _ => h.1⟩)

/-- The measure: input, lookahead and deferred match, open tokens, a flush still to do, and the place in the block. -/
def Defl.measure (f : Flush) (d : Defl) : Nat :=
  11 * (2 * d.regs.availIn.toNat + d.ahead) + 5 * d.regs.availIn.toNat + 9 * (if d.syms = [] then 0 else 1) +
    5 * d.owes f + d.stageRank

/-- What the measure needs. -/
def Defl.loopOk (d : Defl) : Prop := 9 ≤ d.wbits ∧ d.deferredOk

theorem onlyBits_measure {d e : Defl} (f : Flush) (h : onlyBits d e) :
    e.measure f = d.measure f ∧ e.phaseRank = d.phaseRank ∧ e.stageRank = d.stageRank ∧ (d.loopOk → e.loopOk) := by
  unfold onlyBits at h
  rw [h]
  exact ⟨rfl, rfl, rfl, id⟩

theorem bwTake_measure (f : Flush) (c : DeflCtx) :
    (bwTake c).d.measure f = c.d.measure f ∧ (c.d.loopOk → (bwTake c).d.loopOk) := by
  obtain ⟨h1, -, h2, -, -⟩ := bwTake_frame c
  rw [h1]
  refine ⟨?_, id⟩
  simp only [Defl.measure, h2]
  rfl

/-! ## One round of phase `collect` -/

theorem wsize_ge {d : Defl} (h : 9 ≤ d.wbits) : 512 ≤ wsize d.wbits :=
  Nat.pow_le_pow_right (n := 2) (by decide) h

theorem acceptLoop_availIn (k : Nat) (c : DeflCtx) (h : k ≤ c.d.regs.availIn.toNat) :
    (acceptLoop k c).d.regs.availIn.toNat = c.d.regs.availIn.toNat - k := by
  induction k generalizing c with
  | zero => rfl
  | succ k ih =>
    have hne : c.d.regs.availIn ≠ 0 := by
      intro e
      rw [e] at h
      simp at h
    have h1 := toNat_sub_one hne
    have h2 := ih (acceptByte c) (by simp only [acceptByte_d_regs, inByteRegs_availIn]; omega)
    simp only [acceptLoop, h2, acceptByte_d_regs, inByteRegs_availIn]
    omega

theorem bool_toNat_le (b : Bool) : b.toNat ≤ 1 := by cases b <;> decide

/-- Accepting input does not raise the measure, and where input is left over, the lookahead is full (R388) or the measure
went down. -/
theorem accept_measure (f : Flush) {c : DeflCtx} (hs : c.d.stage ≠ .flushPending) (hc : c.d.phase = .collect) :
    (accept c).d.measure f ≤ c.d.measure f ∧ (c.d.loopOk → (accept c).d.loopOk) ∧ (accept c).d.stage = c.d.stage ∧
      (accept c).d.phase = .collect ∧
      ((accept c).d.regs.availIn ≠ 0 →
        wsize (accept c).d.wbits ≤ lookahead (accept c).d ∨ (accept c).d.measure f < c.d.measure f) := by
  have hk : acceptCount c.d ≤ c.d.regs.availIn.toNat := Nat.min_le_left _ _
  obtain ⟨h1, h2, -, -⟩ := acceptLoop_frame (acceptCount c.d) c
  have h3 := acceptLoop_availIn _ c hk
  generalize he : (acceptLoop (acceptCount c.d) c).d = e at *
  have hpos : e.pos = c.d.pos := by rw [h1]
  have hdef : e.deferred = c.d.deferred := by rw [h1]
  have hsyms : e.syms = c.d.syms := by rw [h1]
  have hsat : e.sat = c.d.sat := by rw [h1]
  have hst : e.stage = c.d.stage := by rw [h1]
  have hph : e.phase = c.d.phase := by rw [h1]
  have hwb : e.wbits = c.d.wbits := by rw [h1]
  have hblk : e.blk = c.d.blk := by rw [h1]
  have hok : c.d.loopOk → e.loopOk := by
    intro h
    unfold Defl.loopOk Defl.deferredOk at *
    rw [hwb, hdef]
    exact h
  have hla : lookahead e ≤ lookahead c.d + acceptCount c.d ∧
      (lookahead e = lookahead c.d + acceptCount c.d ∨ lookahead e < acceptCount c.d) ∨ acceptCount c.d = 0 := by
    simp only [lookahead, dataEnd, hpos, h2]
    omega
  have hfull : e.regs.availIn ≠ 0 → wsize c.d.wbits ≤ lookahead c.d + acceptCount c.d := by
    intro hne
    have := toNat_pos_of_ne hne
    unfold acceptCount at *
    omega
  have hr : c.d.stageRank = 10 := by simp only [Defl.stageRank, if_neg hs, Defl.phaseRank, hc]
  have hr' : e.stageRank = 10 := by simp only [Defl.stageRank, hst, if_neg hs, Defl.phaseRank, hph, hc]
  have hm0 : ({ e with sat := 0 } : Defl).measure f = 11 * (2 * e.regs.availIn.toNat + e.ahead) +
      5 * e.regs.availIn.toNat + 9 * (if e.syms = [] then 0 else 1) + 5 * ({ e with sat := 0 } : Defl).owes f +
      e.stageRank := rfl
  have ho1 := ({ e with sat := 0 } : Defl).owes_le_one f
  have ho2 : e.owes f = c.d.owes f := by simp only [Defl.owes, hsat, hph, hblk]
  generalize ({ e with sat := 0 } : Defl).owes f = w at hm0 ho1
  unfold accept
  simp only [he]
  split_ifs with h4
  · rcases hla with ⟨hla, hla'⟩ | hla
    swap
    · omega
    refine ⟨?_, hok, hst, hph.trans hc, fun hne => ?_⟩
    · rw [hm0]
      simp only [Defl.measure, Defl.ahead, hr, hr', h3, hsyms, hdef]
      split_ifs <;> omega
    · have hf := hfull hne
      by_cases hq : lookahead e = lookahead c.d + acceptCount c.d
      · refine .inl ?_
        show wsize e.wbits ≤ lookahead e
        rw [hwb, hq]
        exact hf
      · refine .inr ?_
        rw [hm0]
        simp only [Defl.measure, Defl.ahead, hr, hr', h3, hsyms, hdef]
        split_ifs <;> omega
  · have h0 : acceptCount c.d = 0 := by omega
    have hl : lookahead e = lookahead c.d := by
      simp only [lookahead, dataEnd, hpos, h2, h0, Nat.add_zero]
    rw [he]
    refine ⟨?_, hok, hst, hph.trans hc, fun hne => .inl ?_⟩
    · simp only [Defl.measure, Defl.ahead, hr, hr', h3, hsyms, hdef, ho2, hl, h0, Nat.sub_zero, le_refl]
    · have := hfull hne
      rw [hwb, hl]
      omega

theorem closeBlock_measure (pr : Params) (f : Flush) (fin : Bool) (d : Defl) (hs : d.stage ≠ .flushPending) :
    (closeBlock pr fin d).measure f ≤
      11 * (2 * d.regs.availIn.toNat + d.ahead) + 5 * d.regs.availIn.toNat + 5 + (if fin then 2 + d.trailerRank else 12) := by
  have h1 : (closeBlock pr fin d).ahead = d.ahead := rfl
  have h2 : (closeBlock pr fin d).regs = d.regs := rfl
  have h3 : (closeBlock pr fin d).stageRank = if fin then 2 + d.trailerRank else 12 := by
    show (if d.stage = .flushPending then _ else (if fin = true then 2 + d.trailerRank else 12)) = _
    rw [if_neg hs]
  have h4 : (closeBlock pr fin d).syms = [] := rfl
  have h5 := (closeBlock pr fin d).owes_le_one f
  simp only [Defl.measure, h1, h2, h3, h4, if_true]
  omega

/-- What a marker leaves: the bits, and `blk`. -/
theorem writeMarker_frame (f : Flush) (d : Defl) :
    writeMarker f d = { d with
      pending := (writeMarker f d).pending, bitBuf := (writeMarker f d).bitBuf, bitCnt := (writeMarker f d).bitCnt
      blk := markerBlock f d.blk } := by
  have hm := onlyBits_marker f d
  unfold writeMarker
  generalize marker f d = e at *
  unfold onlyBits at hm
  rw [hm]

/-- What a flush that acts leaves (R391 steps 6 to 8): the bits, the chains and the floor of the history, `sat`, the stage, and
`blk`. -/
theorem completeFlush_frame (f : Flush) (d : Defl) :
    completeFlush f d = { d with
      pending := (completeFlush f d).pending, bitBuf := (completeFlush f d).bitBuf, bitCnt := (completeFlush f d).bitCnt
      head := (completeFlush f d).head, histBase := (completeFlush f d).histBase, nextIns := (completeFlush f d).nextIns
      sat := flushRank f, stage := .flushPending, blk := markerBlock f d.blk } := by
  have hm := writeMarker_frame f d
  unfold completeFlush
  generalize writeMarker f d = e at *
  rw [hm]
  split_ifs <;> rfl

/-- Once the marker of a `partial` is written, nothing more is due of it. -/
theorem markerBlock_part_typ (b : Blk) : (markerBlock .part b).typ ≠ .dynamic := by simp [markerBlock]

/-- A flush that has acted owes nothing more (R403). -/
theorem completeFlush_owes (f : Flush) {d : Defl} (hc : d.phase = .collect) : (completeFlush f d).owes f = 0 := by
  rw [completeFlush_frame]
  unfold Defl.owes
  rw [if_neg]
  rintro (h | ⟨rfl, h⟩)
  · exact absurd h (Nat.lt_irrefl _)
  · exact markerBlock_part_typ d.blk (h hc)

theorem completeFlush_measure (f : Flush) (d : Defl) (hs : d.stage ≠ .flushPending) (hc : d.phase = .collect)
    (hr : d.sat < flushRank f) : (completeFlush f d).measure f < d.measure f ∧ (d.loopOk → (completeFlush f d).loopOk) := by
  have h0 := completeFlush_owes f hc
  have h1 := owes_of_rank hr
  have h2 := completeFlush_frame f d
  generalize completeFlush f d = e at *
  have h3 : e.stageRank ≤ 11 := by
    rw [h2]
    simp only [Defl.stageRank, Defl.phaseRank, hc, if_true]
    split_ifs <;> decide
  have h4 : e.ahead = d.ahead := by rw [h2]; rfl
  have h5 : e.regs = d.regs := by rw [h2]
  have h6 : e.syms = d.syms := by rw [h2]
  have h7 : d.stageRank = 10 := by simp only [Defl.stageRank, if_neg hs, Defl.phaseRank, hc]
  refine ⟨?_, fun ho => by rw [h2]; exact ho⟩
  simp only [Defl.measure, h0, h1, h4, h5, h6, h7]
  omega

/-- The marker of a `partial` that ranks no higher than `sat` is written once (log 29). -/
theorem writeMarker_measure {d : Defl} (hs : d.stage ≠ .flushPending) (hc : d.phase = .collect) (hr : flushRank .part ≤ d.sat)
    (hd : dataHeld d = true) : (writeMarker .part d).measure .part < d.measure .part ∧ (d.loopOk → (writeMarker .part d).loopOk) := by
  have h1 := owes_of_dataHeld hd
  have h0 : (writeMarker .part d).owes .part = 0 := by
    rw [writeMarker_frame]
    exact if_neg fun h => h.elim (Nat.not_lt.2 hr) fun q => markerBlock_part_typ d.blk (q.2 hc)
  have h2 := writeMarker_frame .part d
  generalize writeMarker .part d = e at *
  have h3 : e.stageRank = 10 := by rw [h2]; simp only [Defl.stageRank, if_neg hs, Defl.phaseRank, hc]
  have h4 : e.ahead = d.ahead := by rw [h2]; rfl
  have h5 : e.regs = d.regs := by rw [h2]
  have h6 : e.syms = d.syms := by rw [h2]
  have h7 : d.stageRank = 10 := by simp only [Defl.stageRank, if_neg hs, Defl.phaseRank, hc]
  refine ⟨?_, fun ho => by rw [h2]; exact ho⟩
  simp only [Defl.measure, h0, h1, h3, h4, h5, h6, h7]
  omega

/-- What tokens do to the measure: less ahead pays for an opened block. -/
theorem tokens_measure (f : Flush) {d e : Defl} (h : onlyTokens d e) (ha : e.ahead < d.ahead) :
    e.measure f + 2 ≤ d.measure f := by
  have h1 : e.stageRank = d.stageRank := by
    unfold onlyTokens at h
    rw [h]
    rfl
  have h2 : e.regs = d.regs := by
    unfold onlyTokens at h
    rw [h]
  have h3 : e.owes f = d.owes f := by
    unfold onlyTokens at h
    rw [h]
    rfl
  simp only [Defl.measure, h1, h2, h3]
  split_ifs <;> omega

/-- One round of phase `collect` that goes on lowers the measure. -/
theorem collect_measure (pr : Params) (f : Flush) {c : DeflCtx} (ho : c.d.loopOk) (hs : c.d.stage ≠ .flushPending)
    (hc : c.d.phase = .collect) (hgo : (collect pr f c).stopped = false) :
    (collect pr f c).c.d.measure f < c.d.measure f ∧ (collect pr f c).c.d.loopOk := by
  obtain ⟨a1, a2, a3, a4, a5⟩ := accept_measure f hs hc
  unfold collect at *
  simp only at *
  generalize accept c = c1 at *
  have ho1 := a2 ho
  have hs1 : c1.d.stage ≠ .flushPending := a3 ▸ hs
  obtain ⟨t1, t2⟩ := tokenise_ahead pr f (tokeniseFuel c1.d) ho1.2
  have tf := onlyTokens_tokenise pr f (tokeniseFuel c1.d) c1.d
  have hst : (tokenise pr f (tokeniseFuel c1.d) c1.d).2.stage = c1.d.stage := by
    unfold onlyTokens at tf
    rw [tf]
  have hph : (tokenise pr f (tokeniseFuel c1.d) c1.d).2.phase = c1.d.phase := by
    unfold onlyTokens at tf
    rw [tf]
  have hwb : (tokenise pr f (tokeniseFuel c1.d) c1.d).2.wbits = c1.d.wbits := by
    unfold onlyTokens at tf
    rw [tf]
  have hrg : (tokenise pr f (tokeniseFuel c1.d) c1.d).2.regs = c1.d.regs := by
    unfold onlyTokens at tf
    rw [tf]
  generalize tokenise pr f (tokeniseFuel c1.d) c1.d = t at *
  have ht : t.2.loopOk := ⟨hwb ▸ ho1.1, t1⟩
  have hs2 : t.2.stage ≠ .flushPending := hst ▸ hs1
  have hr2 : t.2.stageRank = 10 := by simp only [Defl.stageRank, if_neg hs2, Defl.phaseRank, hph, a4]
  have hr1 : c1.d.stageRank = 10 := by simp only [Defl.stageRank, if_neg hs1, Defl.phaseRank, a4]
  -- the tokens never raise the measure
  have hle : t.2.measure f ≤ c1.d.measure f := by
    rcases t2 with ⟨h, -⟩ | h
    · rw [h]
    · have := tokens_measure f tf h
      omega
  split_ifs at hgo ⊢ with h1
  · -- a full block
    refine ⟨?_, ht⟩
    show (closeBlock pr false t.2).measure f < _
    have hlt : t.2.ahead < c1.d.ahead := by
      rcases t2 with ⟨h, -⟩ | h
      · rw [h] at h1
        simp at h1
      · exact h
    have hcl := closeBlock_measure pr f false t.2 hs2
    simp only [Defl.measure, hr1, hrg, Bool.false_eq_true, if_false] at *
    omega
  · unfold decideCollect at hgo ⊢
    simp only at hgo ⊢
    by_cases g1 : 0 < t.2.regs.availIn.toNat
    · rw [if_pos g1]
      refine ⟨?_, ht⟩
      show t.2.measure f < _
      have hne : c1.d.regs.availIn ≠ 0 := by
        rw [hrg] at g1
        intro e
        rw [e] at g1
        simp at g1
      rcases a5 hne with hw | hw
      · have hcs : canStep f c1.d = true := by
          have := wsize_ge ho1.1
          unfold canStep
          simp only
          rw [if_neg (by omega), if_pos (by unfold minLookahead; omega)]
        rcases t2 with ⟨-, h | h⟩ | h
        · simp only [tokeniseFuel] at h
          omega
        · rw [hcs] at h
          cases h
        · have := tokens_measure f tf h
          omega
      · omega
    · rw [if_neg g1] at hgo ⊢
      by_cases g2 : f = .none
      · rw [if_pos g2] at hgo
        cases hgo
      · rw [if_neg g2] at hgo ⊢
        by_cases g3 : f = .finish
        · rw [if_pos g3]
          refine ⟨?_, ht⟩
          subst g3
          have hm : ({ closeBlock pr true t.2 with finishing := true } : Defl).measure .finish ≤
              11 * (2 * t.2.regs.availIn.toNat + t.2.ahead) + 5 * t.2.regs.availIn.toNat +
                9 := by
            have k1 : ({ closeBlock pr true t.2 with finishing := true } : Defl).stageRank = 4 := by
              show (if t.2.stage = .flushPending then _ else 4) = 4
              rw [if_neg hs2]
            have k2 : ({ closeBlock pr true t.2 with finishing := true } : Defl).measure .finish =
                11 * (2 * t.2.regs.availIn.toNat + t.2.ahead) + 5 * t.2.regs.availIn.toNat +
                  9 * (if ([] : List Token) = [] then 0 else 1) + 5 * ({ closeBlock pr true t.2 with finishing := true } : Defl).owes .finish +
                  ({ closeBlock pr true t.2 with finishing := true } : Defl).stageRank := rfl
            have k3 := ({ closeBlock pr true t.2 with finishing := true } : Defl).owes_le_one .finish
            rw [k2, k1, if_pos rfl]
            omega
          show ({ closeBlock pr true t.2 with finishing := true } : Defl).measure .finish < _
          refine lt_of_le_of_lt hm (lt_of_lt_of_le ?_ (hle.trans a1))
          simp only [Defl.measure, hr2]
          omega
        · rw [if_neg g3] at hgo ⊢
          by_cases g4 : flushRank f ≤ t.2.sat
          · rw [if_pos g4] at hgo ⊢
            by_cases g6 : f = .part ∧ dataHeld t.2 = true
            · rw [if_pos g6]
              obtain ⟨rfl, g6⟩ := g6
              have := writeMarker_measure hs2 (hph.trans a4) g4 g6
              exact ⟨lt_of_lt_of_le this.1 (hle.trans a1), this.2 ht⟩
            · rw [if_neg g6] at hgo
              cases hgo
          · rw [if_neg g4] at hgo ⊢
            by_cases g5 : t.2.syms ≠ []
            · rw [if_pos g5]
              refine ⟨?_, ht⟩
              show (closeBlock pr false t.2).measure f < _
              refine lt_of_lt_of_le ?_ (hle.trans a1)
              have hcl := closeBlock_measure pr f false t.2 hs2
              have hd := owes_of_rank (Nat.not_le.1 g4)
              simp only [Bool.false_eq_true, if_false] at hcl
              simp only [Defl.measure, hr2, if_neg g5, hd] at *
              omega
            · rw [if_neg g5]
              have := completeFlush_measure f t.2 hs2 (hph.trans a4) (Nat.not_le.1 g4)
              exact ⟨lt_of_lt_of_le this.1 (hle.trans a1), this.2 ht⟩

/-- Every round that goes on lowers the measure (R414). -/
theorem deflRound_measure (pr : Params) (f : Flush) (trees : Bool) {c : DeflCtx} (ho : c.d.loopOk)
    (hgo : (deflRound pr f trees c).stopped = false) :
    (deflRound pr f trees c).c.d.measure f < c.d.measure f ∧ (deflRound pr f trees c).c.d.loopOk := by
  obtain ⟨b1, b2⟩ := bwTake_measure f c
  have ho1 := b2 ho
  unfold deflRound at *
  simp only at *
  generalize bwTake c = c0 at *
  rw [← b1]
  split_ifs at hgo ⊢ with h1 h2
  · cases hgo
  · cases hgo
  · unfold deflWork at hgo ⊢
    simp only at hgo ⊢
    by_cases g1 : c0.d.stage = .flushPending
    · rw [if_pos g1] at hgo ⊢
      by_cases g2 : c0.d.finishing = true
      · rw [if_pos g2] at hgo
        cases hgo
      · rw [if_neg g2]
        refine ⟨?_, ho1⟩
        have k : ({ c0.d with stage := .body } : Defl).measure f = 11 * (2 * c0.d.regs.availIn.toNat + c0.d.ahead) +
            5 * c0.d.regs.availIn.toNat + 9 * (if c0.d.syms = [] then 0 else 1) +
            5 * c0.d.owes f + c0.d.phaseRank := rfl
        show ({ c0.d with stage := .body } : Defl).measure f < _
        rw [k]
        simp only [Defl.measure, Defl.stageRank, if_pos g1, if_neg g2]
        omega
    · rw [if_neg g1] at hgo ⊢
      cases hp : c0.d.phase <;> simp only [hp] at hgo ⊢
      · exact collect_measure pr f ho1 g1 hp (by simpa using hgo)
      · -- header
        have hb := onlyBits_hbEmitHeader c0.d.blk c0.d
        refine ⟨?_, (onlyBits_measure f hb).2.2.2 ho1⟩
        show ({ hbEmitHeader c0.d.blk c0.d with phase := .blkSymbols } : Defl).measure f < _
        generalize hbEmitHeader c0.d.blk c0.d = e at *
        unfold onlyBits at hb
        rw [hb]
        have k : ({ { c0.d with pending := e.pending, bitBuf := e.bitBuf, bitCnt := e.bitCnt } with
            phase := .blkSymbols } : Defl).stageRank = if c0.d.blk.final = true then 1 + c0.d.trailerRank else 11 := by
          show (if c0.d.stage = .flushPending then _ else if c0.d.blk.final = true then 1 + c0.d.trailerRank else 11) = _
          rw [if_neg g1]
        have k' : c0.d.stageRank = if c0.d.blk.final = true then 2 + c0.d.trailerRank else 12 := by
          simp only [Defl.stageRank, if_neg g1, Defl.phaseRank, hp]
        have k3 : ({ { c0.d with pending := e.pending, bitBuf := e.bitBuf, bitCnt := e.bitCnt } with
            phase := .blkSymbols } : Defl).ahead = c0.d.ahead := rfl
        have k4 : ({ { c0.d with pending := e.pending, bitBuf := e.bitBuf, bitCnt := e.bitCnt } with
            phase := .blkSymbols } : Defl).owes f ≤ c0.d.owes f :=
          Defl.owes_mono f rfl (by rw [hp]; decide)
        dsimp only at k4
        simp only [Defl.measure, k, k', k3]
        split_ifs <;> omega
      · -- symbols
        have hb := onlyBits_hbEmitSymbols c0.d.blk c0.d
        refine ⟨?_, (onlyBits_measure f hb).2.2.2 ho1⟩
        show ({ hbEmitSymbols c0.d.blk c0.d with phase := if c0.d.blk.final = true then .trailer else .collect } : Defl).measure f < _
        generalize hbEmitSymbols c0.d.blk c0.d = e at *
        unfold onlyBits at hb
        rw [hb]
        have k : ({ { c0.d with pending := e.pending, bitBuf := e.bitBuf, bitCnt := e.bitCnt } with
            phase := if c0.d.blk.final = true then .trailer else .collect } : Defl).stageRank =
            if c0.d.blk.final = true then c0.d.trailerRank else 10 := by
          show (if c0.d.stage = .flushPending then _ else Defl.phaseRank _) = _
          rw [if_neg g1]
          by_cases q : c0.d.blk.final = true <;> simp [Defl.phaseRank, q, Defl.trailerRank]
        have k' : c0.d.stageRank = if c0.d.blk.final = true then 1 + c0.d.trailerRank else 11 := by
          simp only [Defl.stageRank, if_neg g1, Defl.phaseRank, hp]
        have k3 : ({ { c0.d with pending := e.pending, bitBuf := e.bitBuf, bitCnt := e.bitCnt } with
            phase := if c0.d.blk.final = true then .trailer else .collect } : Defl).ahead = c0.d.ahead := rfl
        have k4 : ({ { c0.d with pending := e.pending, bitBuf := e.bitBuf, bitCnt := e.bitCnt } with
            phase := if c0.d.blk.final = true then .trailer else .collect } : Defl).owes f ≤ c0.d.owes f :=
          Defl.owes_mono f rfl (by rw [hp]; decide)
        dsimp only at k4
        simp only [Defl.measure, k, k', k3]
        split_ifs at k4 ⊢ <;> omega
      · -- trailer
        have hb := (onlyBits_bwAlign c0.d).trans (onlyBits_hdrTrailer _)
        refine ⟨?_, (onlyBits_measure f hb).2.2.2 ho1⟩
        show ({ hdrTrailer (bwAlign c0.d) with stage := .flushPending, phase := .collect } : Defl).measure f < _
        generalize hdrTrailer (bwAlign c0.d) = e at *
        unfold onlyBits at hb
        rw [hb]
        have k : ({ { c0.d with pending := e.pending, bitBuf := e.bitBuf, bitCnt := e.bitCnt } with
            stage := .flushPending, phase := .collect } : Defl).stageRank = if c0.d.finishing = true then 1 else 11 := rfl
        have k' : c0.d.stageRank = if c0.d.finishing = true then 2 else 12 := by
          simp only [Defl.stageRank, if_neg g1, Defl.phaseRank, hp, Defl.trailerRank]
        have k3 : ({ { c0.d with pending := e.pending, bitBuf := e.bitBuf, bitCnt := e.bitCnt } with
            stage := .flushPending, phase := .collect } : Defl).ahead = c0.d.ahead := rfl
        have k4 : ({ { c0.d with pending := e.pending, bitBuf := e.bitBuf, bitCnt := e.bitCnt } with
            stage := .flushPending, phase := .collect } : Defl).owes f ≤ c0.d.owes f :=
          Defl.owes_mono f rfl (by rw [hp]; decide)
        dsimp only at k4
        simp only [Defl.measure, k, k', k3]
        split_ifs <;> omega

/-- The work loop stops within more rounds than its measure. -/
theorem deflLoop_isSome (pr : Params) (f : Flush) (n : Nat) (trees : Bool) (c : DeflCtx) (ho : c.d.loopOk)
    (h : c.d.measure f < n) : (deflLoop pr f n trees c).isSome = true := by
  induction n generalizing trees c with
  | zero => omega
  | succ n ih =>
    simp only [deflLoop]
    split_ifs with h1
    · rfl
    · obtain ⟨a, b⟩ := deflRound_measure pr f trees ho (by simpa using h1)
      exact ih _ _ b (by omega)

theorem measure_lt_fuel (f : Flush) (d : Defl) : d.measure f < deflFuel d := by
  have h1 : d.deferred.valid.toNat ≤ 1 := bool_toNat_le _
  have h2 : d.trailerRank ≤ 12 := by unfold Defl.trailerRank; split_ifs <;> omega
  have h3 : d.phaseRank ≤ 14 := by unfold Defl.phaseRank; split <;> (try split_ifs) <;> omega
  have h4 : d.stageRank ≤ 15 := by unfold Defl.stageRank; split_ifs <;> omega
  have h5 := d.owes_le_one f
  simp only [Defl.measure, Defl.ahead, deflFuel]
  split_ifs <;> omega

theorem onlyStarted_loopOk (pr : Params) {d : Defl} (h : d.loopOk) : (deflInit pr d).loopOk := by
  unfold deflInit
  split_ifs
  · cases hw : d.wrap <;> exact h
  · exact h

/-- R414: the loop of a `WRITE` always stops within `deflFuel`, where the configuration is legal and a deferred match is a
match. -/
theorem deflRun_ne_fault (f : Flush) (s : State) (h : s.defl.loopOk) : ∃ t, deflRun f s = .next t := by
  have h1 := deflLoop_isSome s.params f (deflFuel (deflInit s.params s.defl)) false ⟨deflInit s.params s.defl, s.bus⟩
    (onlyStarted_loopOk _ h) (measure_lt_fuel f _)
  obtain ⟨r, hr⟩ := Option.isSome_iff_exists.1 h1
  simp only [deflRun, hr]
  exact ⟨_, rfl⟩

/-- The invariant gives what the loop needs. -/
theorem Defl.Inv.loopOk {d : Defl} (h : d.Inv) : d.loopOk :=
  ⟨h.1.2.1, fun hv => (h.2.2.2.2.2.1.2.2.2 hv).1⟩

end Sys2Proof.Machine
end

