-- ==== Sys2Proof/Tests/Slice0.lean ====
section
/-! SUPPORT. Tests: ill-formed terms refused, words written out from the formats decoded, single steps against the worked
examples and vectors of the spec (95_test_vectors.md, cited as V<n>), and a witness for the hypotheses of each statement. -/

namespace Sys2Proof.Tests

set_option Elab.async false

open Sys2Proof Sys2Proof.Machine

/-! ## What a test looks at -/

/-- What `f` reads in the next state, if there is one. -/
def see {α : Type} (f : State → α) : Result → Option α
  | .next t => some (f t)
  | .fault _ | .refused _ => none

/-- A memory filled from address 0. -/
def filled (src : List Byte) : Memory := src.zipIdx.foldl (fun m x => memWrite m x.2 x.1) []

/-- `DEFL` after `RESET` with a `CONFIG` word, its input at `IN[0..]`, and room at `OUT[0..]`. -/
def deflFed (c : Word) (src : List Byte) (room : Nat) : State :=
  { State.reset with
    defl := { deflReset { State.reset.defl with config := c } with
      regs := ⟨0, BitVec.ofNat 32 src.length, 0, BitVec.ofNat 32 room, 0, 0⟩ }
    bus := ⟨filled src, [], 0⟩ }

/-- `INFL` configured and standing at a stage, with the fixed tables and room for `room` bytes. -/
def inflAt (st : IStage) (room : Nat) : State :=
  { State.reset with
    infl := { State.reset.infl with
      configured := true, stage := st, ll := fixLl, dt := fixD, regs := ⟨0, 0, 0, BitVec.ofNat 32 room, 0, 0⟩ } }

/-- The bytes a command of `DEFL` wrote, and its code. -/
def deflOut (s t : State) : List Byte × Status := (writtenBytes s.defl.regs t.defl.regs t.bus.outMem, t.defl.ec)

/-- The bytes a command of `INFL` wrote, and its code. -/
def inflOut (s t : State) : List Byte × Status := (writtenBytes s.infl.regs t.infl.regs t.bus.outMem, t.infl.ec)

/-- "Hello". -/
def hello : List Byte := [0x48, 0x65, 0x6C, 0x6C, 0x6F]

/-- Letters of the worked examples. -/
def letters (n : Nat) (l : List Byte) : List Byte := (List.replicate n l).flatten

/-! ## Well-formedness: one ill-formed term for each check -/

theorem test_wf_bwPut_width : (Instr.bwPut 0 33).wf = false := by decide
theorem test_wf_bwPut_value : (Instr.bwPut 0x20 5).wf = false := by decide
theorem test_wf_bwPutcode_width : (Instr.bwPutcode 0 16).wf = false := by decide
theorem test_wf_bwPutcode_value : (Instr.bwPutcode 2 1).wf = false := by decide
theorem test_wf_brNeed : (Instr.brNeed 33).wf = false := by decide
theorem test_wf_brGet : (Instr.brGet 33).wf = false := by decide
theorem test_wf_brPeek : (Instr.brPeek 8 32).wf = false := by decide
theorem test_wf_brDrop : (Instr.brDrop 40).wf = false := by decide
theorem test_wf_lzInsert : (Instr.lzInsert (2 ^ 64)).wf = false := by decide +kernel
theorem test_wf_lzFind : (Instr.lzFind 0 (2 ^ 32)).wf = false := by decide +kernel
theorem test_wf_hbBuild_room : (Instr.hbBuild [1, 1, 1] 1).wf = false := by decide
theorem test_wf_hbBuild_limit : (Instr.hbBuild [1] 256).wf = false := by decide +kernel
theorem test_wf_hbCanon : (Instr.hbCanon [8] 7).wf = false := by decide
theorem test_wf_hbCanon_limit : (Instr.hbCanon [] 256).wf = false := by decide
theorem test_wf_hbRle : (Instr.hbRle [16]).wf = false := by decide
theorem test_wf_hdBuild : (Instr.hdBuild [0, 8] 7 .codes).wf = false := by decide
theorem test_wf_hbPlan_length : (Instr.hbPlan [.mat 2 1]).wf = false := by decide
theorem test_wf_hbPlan_distance : (Instr.hbPlan [.lit 0, .mat 3 0]).wf = false := by decide

/-! ## Decoding: words written out from the spec's formats -/

/-- R122, R123: `OP` = 1 in bits 3:0, `FLUSH` = 0. -/
theorem test_decode_reset : decode .deflCmd [0x01, 0, 0, 0] = .ok .deflReset := by decide

/-- R122, R123: `OP` = `0010`, `FLUSH` = 6 = `110` in bits 6:4: `0110 0010`. -/
theorem test_decode_write_trees : decode .inflCmd [0x62, 0, 0, 0] = .ok .inflWriteTrees := by decide

/-- R122, R125: bit 7 set is reserved. -/
theorem test_decode_reserved_bit : decode .deflCmd [0x82, 0, 0, 0] = .error .reservedCommand := by decide

/-- R125: `RESET` with `FLUSH` other than 0 is reserved. -/
theorem test_decode_reset_flush : decode .deflCmd [0x11, 0, 0, 0] = .error .reservedCommand := by decide

/-- R124: `CKS_CMD` 1. -/
theorem test_decode_adler : decode .cksCmd [0x01, 0, 0, 0] = .ok .cksAdlerUpdate := by decide

/-- R124: `CKS_CMD` 3 is reserved (V233). -/
theorem test_decode_cks_reserved : decode .cksCmd [0x03, 0, 0, 0] = .error .reservedCommand := by decide

/-- R131: `BFINAL` 1 and `BTYPE` 1: bits 1, 1, 0: the number 3. -/
theorem test_decode_blkhdr_fixed : decode (.element .blkhdr) [0x03] = .ok (.blkhdrFixed true) := by decide

/-- R132: `05 00 fa ff` (V3). -/
theorem test_decode_stolen : decode (.element .stolen) [0x05, 0x00, 0xFA, 0xFF] = .ok (.stolen 5 0xFFFA) := by decide

/-- R132: one byte of "Hello". -/
theorem test_decode_raw : decode (.element .raw) [0x48] = .ok (.storedRaw 0x48) := by decide

/-- R134: `HLIT` 0, `HDIST` 1, `HCLEN` 14: bits `00000 10000 0111`, least significant first: `1110 00001 00000`. -/
theorem test_decode_dynhdr : decode (.element .dynhdr) [0x20, 0x38] = .ok (.dynhdr 0 1 14) := by decide

/-- R135: three bits. -/
theorem test_decode_cllen : decode (.element .cllen) [0x05] = .ok (.cllen 5) := by decide

/-- R146: symbol 16 with extra value 3: `16 + 32·3 = 0x70`. -/
theorem test_decode_clsym : decode (.element .clsym) [0x70, 0x00] = .ok (.clsymRep16 3) := by decide

/-- R142: symbol 256. -/
theorem test_decode_eob : decode (.element .llsym) [0x00, 0x01] = .ok .eob := by decide

/-- R143: symbol 285 has no extra bits: `285 = 0x11D`. -/
theorem test_decode_len285 : decode (.element .llsym) [0x1D, 0x01] = .ok .len285 := by decide

/-- R143: symbol 265 with extra bit 1: `265 + 512 = 0x309`. -/
theorem test_decode_len265 : decode (.element .llsym) [0x09, 0x03] = .ok (.len265 1) := by decide

/-- R144: symbol 4 with extra bit 1: `4 + 32`. -/
theorem test_decode_dist4 : decode (.element .dsym) [0x24, 0x00, 0x00] = .ok (.dist4 1) := by decide

/-- R144: symbol 30 is reserved. -/
theorem test_decode_dsym30 : decode (.element .dsym) [0x1E, 0x00, 0x00] = .ok (.dsymReserved false) := by decide

/-- R150: `DICTID` most significant byte first (V106). -/
theorem test_decode_dictid : decode (.element .dictid) [0x01, 0x02, 0x03, 0x04] = .ok (.zdictid 0x01020304) := by decide

/-- R155: the magic bytes. -/
theorem test_decode_gzMagic : decode (.element .gzId) [0x1F, 0x8B] = .ok (.gzMagic 0x1F 0x8B) := by decide

/-- R155: `MTIME` least significant byte first. -/
theorem test_decode_gzMtime : decode (.element .gzMtime) [0x01, 0x02, 0x03, 0x04] = .ok (.gzMtime 0x04030201) := by decide

/-- R158: the CRC of "Hello" as it stands in a trailer (V76). -/
theorem test_decode_gzCrc : decode (.element .gzCrc) [0x82, 0x89, 0xD1, 0xF7] = .ok (.gzCrc32 0xF7D18982) := by decide

/-- R161: the ten bits `0 10 0000000`. -/
theorem test_decode_partial_marker : decode (.element .pseudo) [0x02, 0x00] = .ok .partialMarker := by decide

/-- R129: selector 0x10; five bits of value `0x1E` (log 3). -/
theorem test_decode_bwPut : decode .uop [0x10, 0x05, 0x1E, 0, 0, 0] = .ok (.bwPut 0x1E 5) := by decide

/-- R129: selector 0x70 with the lengths 2, 1, 3, 3, the limit 15 and kind 1 (log 3). -/
theorem test_decode_hdBuild :
    decode .uop [0x70, 1, 15, 4, 0, 2, 1, 3, 3] = .ok (.hdBuild [2, 1, 3, 3] 15 .lens) := by decide

/-- R129: a selector that no row lists. -/
theorem test_decode_noSuchUnitOp : decode .uop [0x14] = .error .noSuchUnitOp := by decide

/-- R203: a value that does not fit its width is out of range. -/
theorem test_decode_operandRange : decode .uop [0x10, 0x04, 0x1E, 0, 0, 0] = .error .operandRange := by decide

/-- A command cut short. -/
theorem test_decode_short : decode .deflCmd [0x01, 0, 0] = .error .tooShort := by decide

/-! ## Host commands -/

/-- R378 example: `CONFIG` `0x000108F6` is accepted. -/
theorem test_deflReset_zlib :
    see (fun t => (t.defl.ec, readReg 0x004 t, t.defl.level, t.defl.check))
      (exec .deflReset { State.reset with defl := { State.reset.defl with config := 0x000108F6 } }) =
    some (.ok, 0x00008000, 6, 1) := by decide

/-- R378 example: `WINDOW_BITS` 8 is refused (V225). -/
theorem test_deflReset_refused :
    see (fun t => (t.defl.ec, readReg 0x004 t))
      (exec .deflReset { State.reset with defl := { State.reset.defl with config := 0x00010886 } }) =
    some (.streamError, 0x00000004) := by decide

/-- R461: `LEVEL`, `MEM_LEVEL` and `STRATEGY` are ignored; the first stage follows `wrap` (V227). -/
theorem test_inflReset_zlib :
    see (fun t => (t.infl.ec, readReg 0x104 t))
      (exec .inflReset { State.reset with infl := { State.reset.infl with config := 0x000100F0 } }) =
    some (.ok, 0x00008000) := by decide

/-- V228: gzip. -/
theorem test_inflReset_gzip :
    see (fun t => readReg 0x104 t)
      (exec .inflReset { State.reset with infl := { State.reset.infl with config := 0x000200F0 } }) =
    some 0x00008200 := by decide

/-- R405, V188: "Hello" is taken in, and nothing comes out. -/
theorem test_deflWriteNone :
    see (fun t => (deflOut (deflFed 0x8F6 hello 20) t, t.defl.regs.availIn)) (exec .deflWriteNone (deflFed 0x8F6 hello 20)) =
    some (([], .ok), 0) := by decide +kernel

/-- R406, V183. -/
theorem test_deflWriteBlock :
    see (fun t => (deflOut (deflFed 0x8F6 hello 20) t, t.defl.bitCnt)) (exec .deflWriteBlock (deflFed 0x8F6 hello 20)) =
    some (([0xF2, 0x48, 0xCD, 0xC9, 0xC9, 0x07], .ok), 2) := by decide +kernel

/-- R407, V181. -/
theorem test_deflWritePartial :
    see (fun t => (deflOut (deflFed 0x8F6 hello 20) t, t.defl.bitCnt)) (exec .deflWritePartial (deflFed 0x8F6 hello 20)) =
    some (([0xF2, 0x48, 0xCD, 0xC9, 0xC9, 0x07, 0x08], .ok), 4) := by decide +kernel

/-- R403: a `partial` after a completed `trees` does nothing more, but where data is held (R376, log 29): two bits, of a dynamic
block whose end-of-block code has one. There it writes R407's marker, and `sat` stays. -/
theorem test_deflWritePartial_afterTrees :
    let s := deflFed 0x8F6 [] 20
    let after := fun (typ : BlockType) => { s with defl := { s.defl with
      stage := .body, sat := flushRank .trees, bitCnt := 2
      blk := { s.defl.blk with typ := typ, llLens := List.replicate 256 8 ++ [1] } } }
    see (fun t => (deflOut (after .dynamic) t, t.defl.bitCnt, t.defl.sat)) (exec .deflWritePartial (after .dynamic)) =
        some (([0x08], .ok), 4, 3) ∧
      see (fun t => (deflOut (after .fixed) t, t.defl.bitCnt, t.defl.sat)) (exec .deflWritePartial (after .fixed)) =
        some (([], .needBuffers), 2, 3) := by
  decide +kernel

/-- R408, V180, at level 0: a stored block and the marker. -/
theorem test_deflWriteSync :
    see (deflOut (deflFed 0x8F0 hello 20)) (exec .deflWriteSync (deflFed 0x8F0 hello 20)) =
    some ([0x00, 0x05, 0x00, 0xFA, 0xFF, 0x48, 0x65, 0x6C, 0x6C, 0x6F, 0x00, 0x00, 0x00, 0xFF, 0xFF], .ok) := by
  decide +kernel

/-- R409, V182: as `sync`, and the history is cleared. -/
theorem test_deflWriteFull :
    see (fun t => (deflOut (deflFed 0x8F6 hello 20) t, t.defl.histBase)) (exec .deflWriteFull (deflFed 0x8F6 hello 20)) =
    some (([0xF2, 0x48, 0xCD, 0xC9, 0xC9, 0x07, 0x00, 0x00, 0x00, 0xFF, 0xFF], .ok), 5) := by decide +kernel

/-- V172: zlib, a window of 512 bytes, level 1. -/
theorem test_deflWriteFinish_zlib :
    see (deflOut (deflFed 0x10891 hello 20)) (exec .deflWriteFinish (deflFed 0x10891 hello 20)) =
    some ([0x18, 0x19, 0xF3, 0x48, 0xCD, 0xC9, 0xC9, 0x07, 0x00, 0x05, 0x8C, 0x01, 0xF5], .endOfStream) := by decide +kernel

/-- V175: gzip, level 0. -/
theorem test_deflWriteFinish_gzip :
    see (deflOut (deflFed 0x208F0 hello 40)) (exec .deflWriteFinish (deflFed 0x208F0 hello 40)) =
    some ([0x1F, 0x8B, 0x08, 0x00, 0x00, 0x00, 0x00, 0x00, 0x04, 0xFF, 0x01, 0x05, 0x00, 0xFA, 0xFF, 0x48, 0x65, 0x6C, 0x6C,
      0x6F, 0x82, 0x89, 0xD1, 0xF7, 0x05, 0x00, 0x00, 0x00], .endOfStream) := by decide +kernel

/-- R410, V184: the first call closes the block and stops before its symbols. -/
theorem test_deflWriteTrees :
    see (fun t => (deflOut (deflFed 0x8F6 hello 20) t, t.defl.phase)) (exec .deflWriteTrees (deflFed 0x8F6 hello 20)) =
    some (([], .ok), .blkSymbols) := by decide +kernel

/-- V152 decoded. -/
theorem test_inflWriteNone :
    see (inflOut (inflFed 0xF0 defaultParams [0xF3, 0x48, 0xCD, 0xC9, 0xC9, 0x07, 0x00] 20))
      (exec .inflWriteNone (inflFed 0xF0 defaultParams [0xF3, 0x48, 0xCD, 0xC9, 0xC9, 0x07, 0x00] 20)) =
    some (hello, .endOfStream) := by decide +kernel

/-- R482, V2: block type 3. -/
theorem test_inflWriteNone_badType :
    see (fun t => (inflOut (inflFed 0xF0 defaultParams [0x06] 20) t, readReg 0x104 t))
      (exec .inflWriteNone (inflFed 0xF0 defaultParams [0x06] 20)) =
    some (([], .invalidBlockType), 0x0000DA05) := by decide +kernel

/-- R506: `block` stops before the header of the next block (V121's stored block). -/
theorem test_inflWriteBlock :
    see (fun t => (inflOut (inflFed 0xF0 defaultParams [0x00, 0x01, 0x00, 0xFE, 0xFF, 0x48, 0x00] 20) t, t.infl.stage,
        t.infl.regs.availIn))
      (exec .inflWriteBlock
        { inflFed 0xF0 defaultParams [0x00, 0x01, 0x00, 0xFE, 0xFF, 0x48, 0x00] 20 with
          infl := { (inflFed 0xF0 defaultParams [0x00, 0x01, 0x00, 0xFE, 0xFF, 0x48, 0x00] 20).infl with fresh := true } }) =
    some (([0x48], .ok), .blockType, 1) := by decide +kernel

/-- R484: `trees` stops after the lengths of a stored block. -/
theorem test_inflWriteTrees :
    see (fun t => (t.infl.ec, t.infl.stage, t.infl.remaining))
      (exec .inflWriteTrees (inflFed 0xF0 defaultParams [0x01, 0x05, 0x00, 0xFA, 0xFF, 0x48] 20)) =
    some (.ok, .storedCopy, 5) := by decide +kernel

/-- R466: `finish` before the end of the stream is `need_buffers` even though bytes moved. -/
theorem test_inflWriteFinish :
    see (inflOut (inflFed 0xF0 defaultParams [0x01, 0x05, 0x00, 0xFA, 0xFF, 0x48] 20))
      (exec .inflWriteFinish (inflFed 0xF0 defaultParams [0x01, 0x05, 0x00, 0xFA, 0xFF, 0x48] 20)) =
    some ([0x48], .needBuffers) := by decide +kernel

/-- V125: an empty stored block, under each of the three remaining modes. -/
theorem test_inflWrite_modes :
    [Instr.inflWritePartial, .inflWriteSync, .inflWriteFull].map (fun i =>
      see (inflOut (inflFed 0xF0 defaultParams [0x01, 0x00, 0x00, 0xFF, 0xFF] 20))
        (exec i (inflFed 0xF0 defaultParams [0x01, 0x00, 0x00, 0xFF, 0xFF] 20))) =
    List.replicate 3 (some ([], .endOfStream)) := by decide +kernel

/-- R241 example. -/
theorem test_cksAdlerUpdate :
    see (fun t => (t.cks.adler, t.cks.availIn, t.cks.nextIn))
      (exec .cksAdlerUpdate { State.reset with bus := ⟨filled hello, [], 0⟩, cks := ⟨.ok, 0, 5, 1, 0⟩ }) =
    some (0x058C01F5, 0, 5) := by decide +kernel

/-- R242 example. -/
theorem test_cksCrcUpdate :
    see (fun t => t.cks.crc)
      (exec .cksCrcUpdate
        { State.reset with
          bus := ⟨filled [0x31, 0x32, 0x33, 0x34, 0x35, 0x36, 0x37, 0x38, 0x39], [], 0⟩, cks := ⟨.ok, 0, 9, 1, 0⟩ }) =
    some 0xCBF43926 := by decide +kernel

/-! ## Bit I/O -/

/-- R203 example. -/
theorem test_bwPut :
    see (fun t => (t.defl.pending, t.defl.bitBuf, t.defl.bitCnt))
      (exec (.bwPut 0x1E 8) { State.reset with defl := { State.reset.defl with bitBuf := 3, bitCnt := 3 } }) =
    some ([0xF3], 0, 3) := by decide

/-- V23: a field of 32 bits. -/
theorem test_bwPut_wide :
    see (fun t => (t.defl.pending, t.defl.bitBuf, t.defl.bitCnt))
      (exec (.bwPut 0xDEADBEEF 32) { State.reset with defl := { State.reset.defl with bitBuf := 0xF, bitCnt := 4 } }) =
    some ([0xFF, 0xEE, 0xDB, 0xEA], 0xD, 4) := by decide +kernel

/-- R204 example. -/
theorem test_bwPutcode : see (fun t => t.defl.pending) (exec (.bwPutcode 0x78 8) State.reset) = some [0x1E] := by decide

/-- V24. -/
theorem test_bwAlign :
    see (fun t => (t.defl.pending, t.defl.bitBuf, t.defl.bitCnt))
      (exec .bwAlign { State.reset with defl := { State.reset.defl with bitBuf := 0xD, bitCnt := 4 } }) =
    some ([0x0D], 0, 0) := by decide

/-- V25: no empty byte. -/
theorem test_bwAlign_aligned : see (fun t => t.defl.pending) (exec .bwAlign State.reset) = some [] := by decide

/-- R206: as many bytes as there is room for, in order. -/
theorem test_bwTake :
    see (fun t => (t.defl.pending, bytesAt t.bus.outMem 0 3, t.defl.regs.nextOut, t.defl.regs.totalOut))
      (exec .bwTake { State.reset with
        defl := { State.reset.defl with pending := [1, 2, 3], regs := ⟨0, 0, 0, 2, 0, 0⟩ } }) =
    some ([3], [1, 2, 0], 2, 2) := by decide

/-- R213 example. -/
theorem test_brNeed :
    see (fun t => (t.infl.hold, t.infl.cnt, t.infl.regs.totalIn, t.result))
      (exec (.brNeed 3) { inflAt .blockType 0 with
        infl := { (inflAt .blockType 0).infl with regs := ⟨0, 1, 0, 0, 0, 0⟩ }, bus := ⟨[(0, 0x06)], [], 0⟩ }) =
    some (6, 8, 1, .nothing) := by decide

/-- V36: the byte that was there stays in `hold`. -/
theorem test_brGet_suspends :
    see (fun t => (t.infl.hold, t.infl.cnt, t.result))
      (exec (.brGet 16) { inflAt .blockType 0 with
        infl := { (inflAt .blockType 0).infl with regs := ⟨0, 1, 0, 0, 0, 0⟩ }, bus := ⟨[(0, 0x06)], [], 0⟩ }) =
    some (6, 8, .suspended) := by decide

/-- V30. -/
theorem test_brGet :
    see (fun t => (t.infl.hold, t.infl.cnt, t.result))
      (exec (.brGet 3) { inflAt .blockType 0 with
        infl := { (inflAt .blockType 0).infl with regs := ⟨0, 3, 0, 0, 0, 0⟩ }, bus := ⟨filled [0xED, 0xBD, 0x7F], [], 0⟩ }) =
    some (0x1D, 5, .value 5) := by decide

/-- R215 example: `PEEK 1` and `PEEK2 1, 2` of `hold = 0x06`. -/
theorem test_brPeek :
    [Instr.brPeek 0 1, .brPeek 1 2].map (fun i =>
      see (fun t => t.result) (exec i { State.reset with infl := { State.reset.infl with hold := 6, cnt := 8 } })) =
    [some (.value 0), some (.value 3)] := by decide

/-- R216. -/
theorem test_brDrop :
    see (fun t => (t.infl.hold, t.infl.cnt))
      (exec (.brDrop 3) { State.reset with infl := { State.reset.infl with hold := 0xED, cnt := 8 } }) =
    some (0x1D, 5) := by decide

/-- V34. -/
theorem test_brAlign :
    see (fun t => (t.infl.hold, t.infl.cnt))
      (exec .brAlign { State.reset with infl := { State.reset.infl with hold := 0x3F, cnt := 7 } }) =
    some (0, 0) := by decide

/-! ## Checksum steps, headers, trailers -/

/-- V59: `s1` wraps at 65521. -/
theorem test_adlerStep_wrap : see (fun t => t.result) (exec (.adlerStep 0x0005FFF0 0x01) State.reset) =
    some (.value 0x00050000) := by decide

/-- V60: seed halves of 65521 or more. -/
theorem test_adlerStep_seed : see (fun t => t.result) (exec (.adlerStep 0xFFFFFFFF 0x00) State.reset) =
    some (.value 0x001C000E) := by decide

/-- R237 example. -/
theorem test_crcStep : see (fun t => t.result) (exec (.crcStep 0 0x61) State.reset) = some (.value 0xE8B7BE43) := by
  decide +kernel

/-- V61. -/
theorem test_crcStep_ones : see (fun t => t.result) (exec (.crcStep 0xFFFFFFFF 0) State.reset) =
    some (.value 0xFFFFFFFF) := by decide +kernel

/-- V70, V72 and the corner of the table of R256: `wbits` 9 with `FLEVEL` 3. -/
theorem test_hdrZenc :
    [(15, 6), (9, 1), (9, 9)].map (fun x =>
      see (fun t => t.defl.pending)
        (exec .hdrZenc { State.reset with defl := { State.reset.defl with wbits := x.1, level := x.2 } })) =
    [some [0x78, 0x9C], some [0x18, 0x19], some [0x18, 0xD3]] := by decide

/-- V74, level 9. -/
theorem test_hdrGzenc :
    see (fun t => t.defl.pending) (exec .hdrGzenc { State.reset with defl := { State.reset.defl with level := 9 } }) =
    some [0x1F, 0x8B, 0x08, 0x00, 0x00, 0x00, 0x00, 0x00, 0x02, 0xFF] := by decide

/-- V118: every optional field, and the CRC16 `0x8D94`. -/
theorem test_hdrGzenc_optional :
    see (fun t => t.defl.pending)
      (exec .hdrGzenc { State.reset with
        params := { defaultParams with
          gzHdr := ⟨false, 0x04030201, some 0, 3, some [0xAA, 0xBB], some [0x6E], some [0x63], true⟩ } }) =
    some [0x1F, 0x8B, 0x08, 0x1E, 0x01, 0x02, 0x03, 0x04, 0x00, 0x03, 0x02, 0x00, 0xAA, 0xBB, 0x6E, 0x00, 0x63, 0x00, 0x94,
      0x8D] := by decide +kernel

/-- V75, V76, V78. -/
theorem test_hdrTrailer :
    [(Wrap.zlib, (0x058C01F5 : Word), (5 : Word)), (.gzip, 0xF7D18982, 5), (.none, 7, 7)].map (fun x =>
      see (fun t => t.defl.pending)
        (exec .hdrTrailer
          { State.reset with defl := { State.reset.defl with wrap := x.1, check := x.2.1, isize := x.2.2 } })) =
    [some [0x05, 0x8C, 0x01, 0xF5], some [0x82, 0x89, 0xD1, 0xF7, 0x05, 0, 0, 0], some []] := by decide

/-! ## The matcher -/

/-- `DEFL` with data, standing at position `p` with every position below it inserted. -/
def matcherAt (data : List Byte) (strategy : Strategy) (level p : Nat) : State :=
  { State.reset with
    defl := lzInsertBelow p { State.reset.defl with
      configured := true, stage := .body, data := data, strategy := strategy, level := level, pos := p, emitPos := p
      syms := (data.take p).map Token.lit } }

/-- "abcabcabcabc". -/
def abc4 : List Byte := letters 4 [0x61, 0x62, 0x63]

/-- "abcXbcdefgYabcdefg". -/
def lazyText : List Byte :=
  [0x61, 0x62, 0x63, 0x58, 0x62, 0x63, 0x64, 0x65, 0x66, 0x67, 0x59, 0x61, 0x62, 0x63, 0x64, 0x65, 0x66, 0x67]

/-- R292 examples: the hashes of "abc", "bca" and "cab" at memory levels 8, 1 and 9. -/
theorem test_hash :
    [8, 1, 9].map (fun m => [0, 1, 2].map (hash { State.reset.defl with data := abc4, mem := m })) =
    [[0x0823, 0x0401, 0x0042], [0x33, 0xF9, 0xAA], [0x08E3, 0x38A1, 0x2822]] := by decide

/-- R294: the latest position at the head, the earlier one behind it. -/
theorem test_lzInsert :
    see (fun t => (headAt t.defl 0x0823, prevAt t.defl 3, prevAt t.defl 0, t.defl.nextIns))
      (exec (.lzInsert 3) (matcherAt abc4 .normal 6 0)) =
    some (some 3, some 0, none, 4) := by decide +kernel

/-- R297 example. -/
theorem test_lzFind : see (fun t => t.result) (exec (.lzFind 3 4) (matcherAt abc4 .normal 1 3)) = some (.pair 9 3) := by
  decide +kernel

/-- R299 example. -/
theorem test_lzFind_rle :
    see (fun t => t.result) (exec (.lzFind 1 4) (matcherAt (letters 10 [0x61]) .rle 6 1)) = some (.pair 9 1) := by
  decide +kernel

/-- R303 example: the step at position 3. -/
theorem test_lzStep_greedy :
    see (fun t => (t.defl.syms.drop 3, t.defl.pos)) (exec .lzStep (matcherAt abc4 .normal 1 3)) =
    some ([.mat 9 3], 12) := by decide +kernel

/-- R305 example: at position 12 a longer match than the deferred (3, 11) starts. -/
theorem test_lzStep_lazy :
    see (fun t => (t.defl.syms.drop 11, t.defl.deferred, t.defl.pos))
      (exec .lzStep
        { matcherAt lazyText .normal 6 12 with
          defl := { (matcherAt lazyText .normal 6 12).defl with
            syms := (lazyText.take 11).map Token.lit, emitPos := 11, deferred := ⟨true, 3, 11⟩ } }) =
    some ([.lit 0x61], ⟨true, 6, 8⟩, 13) := by decide +kernel

/-- R307. -/
theorem test_lzClear :
    see (fun t => (headAt t.defl 0x0823, t.defl.histBase, t.defl.nextIns)) (exec .lzClear (matcherAt abc4 .normal 6 5)) =
    some (none, 5, 5) := by decide +kernel

/-! ## The Huffman builder and decoder -/

/-- R358: lengths, and the clamp to 4 bits. -/
theorem test_hbBuild :
    [([5, 9, 12, 13, 16, 45, 0, 0], 15), ([1, 1, 2, 3, 5, 8, 13, 21, 34, 55], 4)].map (fun x =>
      see (fun t => t.result) (exec (.hbBuild x.1 x.2) State.reset)) =
    [some (.numbers [4, 4, 3, 3, 3, 1, 0, 0]), some (.numbers [4, 4, 4, 4, 4, 4, 4, 4, 2, 2])] := by decide +kernel

/-- A vector of one symbol gets a length within the limit, and an empty one none. -/
theorem test_hbBuild_few :
    hbBuild [] 15 = [] ∧ hbBuild [7] 15 = [min 15 (Config.freeLength [7] 15)] := ⟨rfl, rfl⟩

/-- R358: forced symbols. -/
theorem test_hbBuild_forced :
    [[0, 0, 0, 0, 7], List.replicate 30 0].map (fun f => see (fun t => t.result) (exec (.hbBuild f 15) State.reset)) =
    [some (.numbers [1, 0, 0, 0, 1]), some (.numbers ([1, 1] ++ List.replicate 28 0))] := by decide +kernel

/-- R340 example. -/
theorem test_hbCanon :
    see (fun t => t.result) (exec (.hbCanon [3, 3, 3, 3, 3, 2, 4, 4] 15) State.reset) =
    some (.numbers [2, 3, 4, 5, 6, 0, 14, 15]) := by decide +kernel

/-- R344 examples, V143, V147. -/
theorem test_hbRle :
    [List.replicate 139 0, [8, 8, 8, 8, 0, 0, 0, 7, 7], [3, 3, 3, 3, 3, 0, 0, 0, 0, 4]].map (fun l =>
      see (fun t => t.result) (exec (.hbRle l) State.reset)) =
    [some (.pairs [(18, 127), (0, 0)]), some (.pairs [(8, 0), (16, 0), (17, 0), (7, 0), (7, 0)]),
      some (.pairs [(3, 0), (16, 1), (17, 1), (4, 0)])] := by decide +kernel

/-- R359: the plan of 300 literals `a`. -/
theorem test_hbPlan :
    see (fun t => (t.result, [t.defl.blk.hlit, t.defl.blk.hdist, t.defl.blk.hclen], t.defl.blk.rl))
      (exec (.hbPlan (List.replicate 300 (.lit 0x61))) State.reset) =
    some (.costs 397 2407, [257, 2, 18], [(18, 86), (1, 0), (18, 127), (18, 9), (1, 0), (1, 0), (1, 0)]) := by
  decide +kernel

/-- R352: the stored header of "Hello" (V168), after three bits and alignment. -/
theorem test_hbEmitHeader :
    see (fun t => t.defl.pending)
      (exec .hbEmitHeader { State.reset with
        defl := { State.reset.defl with blk := { Blk.reset with final := true, typ := .stored, raw := hello } } }) =
    some [0x01, 0x05, 0x00, 0xFA, 0xFF] := by decide +kernel

/-- R354 example, after the three bits of its header (V155 without its last bits). -/
theorem test_hbEmitSymbols :
    see (fun t => (t.defl.pending, t.defl.bitBuf, t.defl.bitCnt))
      (exec .hbEmitSymbols { State.reset with
        defl := { State.reset.defl with
          bitBuf := 3, bitCnt := 3, blk := { Blk.reset with typ := .fixed, toks := [.lit 0x61, .mat 9 1] } } }) =
    some ([0x4B, 0x84, 0x03], 0, 6) := by decide +kernel

/-- R442 examples, in an engine where stream work can run. -/
theorem test_hdBuild :
    [[2, 1, 3, 3], [1, 1, 1], [2, 2, 2], [1, 0, 0]].map (fun l =>
      see (fun t => (t.result, t.infl.ec)) (exec (.hdBuild l 15 .lens) (inflAt .sym 0))) =
    [some (.numbers [2, 1, 3, 3], .ok), some (.raised .overSubscribedLength, .overSubscribedLength),
      some (.raised .incompleteLengthSet, .incompleteLengthSet), some (.raised .incompleteLengthSet, .incompleteLengthSet)] := by decide

/-- R565: an error is yielded, but not recorded over another, nor after the end of the stream. -/
theorem test_hdBuild_nested :
    [{ (inflAt .bad 0).infl with sticky := .missingEob }, (inflAt .done 0).infl].map (fun i =>
      see (fun t => (t.result, t.infl.sticky, t.infl.stage)) (exec (.hdBuild [1, 1, 1] 15 .lens) { State.reset with infl := i })) =
    [some (.raised .overSubscribedLength, .missingEob, .bad), some (.raised .overSubscribedLength, .ok, .done)] := by decide

/-- R447 example. -/
theorem test_hdDecode :
    see (fun t => t.result)
      (exec (.hdDecode .ll) { State.reset with infl := { State.reset.infl with ll := [2, 1, 3, 3], hold := 0x0B, cnt := 8 } }) =
    some (.pair 2 3) := by decide +kernel

/-! ## Stream elements -/

/-- R131, R482: the four headers. -/
theorem test_blkhdr :
    [Instr.blkhdrStored false, .blkhdrFixed true, .blkhdrDynamic false, .blkhdrReserved false].map (fun i =>
      see (fun t => (t.infl.stage, t.infl.last, t.infl.ec)) (exec i (inflAt .blockType 0))) =
    [some (.storedLen, false, .ok), some (.sym, true, .ok), some (.dynCounts, false, .ok),
      some (.bad, false, .invalidBlockType)] := by decide

/-- R484: the pair of V122, and the one of V124. -/
theorem test_stolen :
    [Instr.stolen 5 0xFFFA, .stolen 5 0xFFFB].map (fun i =>
      see (fun t => (t.infl.stage, t.infl.remaining, t.infl.ec)) (exec i (inflAt .storedLen 0))) =
    [some (.storedCopy, 5, .ok), some (.bad, 0, .invalidStoredLength)] := by decide

/-- R485: a byte goes out; without room it waits. -/
theorem test_storedRaw :
    [1, 0].map (fun room =>
      see (fun t => (memRead t.bus.outMem 0, t.infl.remaining, t.infl.produced, t.infl.regs.totalOut))
        (exec (.storedRaw 0x48)
          { inflAt .storedCopy room with infl := { (inflAt .storedCopy room).infl with remaining := 5 } })) =
    [some (0x48, 4, 1, 1), some (0, 5, 0, 0)] := by decide

/-- R487: the counts of R359, and `HLIT` 31 (V123). -/
theorem test_dynhdr :
    [Instr.dynhdr 0 1 14, .dynhdr 31 0 0].map (fun i =>
      see (fun t => (t.infl.nlen, t.infl.ndist, t.infl.ncode, t.infl.ec)) (exec i (inflAt .dynCounts 0))) =
    [some (257, 2, 18, .ok), some (288, 1, 4, .tooManySymbols)] := by decide

/-- R147, R488: the first transmitted length is that of symbol 16. -/
theorem test_cllen :
    see (fun t => (t.infl.cl.getD 16 0, t.infl.nhave))
      (exec (.cllen 5)
        { inflAt .dynClens 0 with
          infl := { (inflAt .dynClens 0).infl with ncode := 4, cl := List.replicate 19 0 } }) =
    some (5, 1) := by decide

/-- `INFL` reading code-length symbols after the lengths `l`, of `n` in all. -/
def clsymAt (l : Lens) (n : Nat) : State :=
  { inflAt .dynLens 0 with infl := { (inflAt .dynLens 0).infl with clt := wholeClt, lens := l, nlen := n } }

/-- R146, R489: each kind of symbol after the length 7. -/
theorem test_clsym :
    [Instr.clsymLen 3, .clsymRep16 1, .clsymZero17 0, .clsymZero18 2].map (fun i =>
      see (fun t => t.infl.lens) (exec i (clsymAt [7] 20))) =
    [some [7, 3], some [7, 7, 7, 7, 7], some [7, 0, 0, 0], some (7 :: List.replicate 13 0)] := by decide

/-- R489: a repeat with nothing before it (V200), and runs past the last length (V201). -/
theorem test_clsym_bad :
    [exec (.clsymRep16 0) (clsymAt [] 20), exec (.clsymZero17 0) (clsymAt [1, 1] 4),
      exec (.clsymZero18 0) (clsymAt [1, 1] 12)].map (see fun t => (t.infl.ec, t.infl.lens.length)) =
    [some (.invalidBitLengthRepeat, 0), some (.invalidBitLengthRepeat, 2), some (.invalidBitLengthRepeat, 2)] := by decide

/-- R492, R493: a literal goes out, or waits in `LIT`. -/
theorem test_lit :
    [1, 0].map (fun room =>
      see (fun t => (memRead t.bus.outMem 0, t.infl.stage, t.infl.lit)) (exec (.lit 0x61) (inflAt .sym room))) =
    [some (0x61, .sym, 0x61), some (0, .lit, 0x61)] := by decide

/-- R492: the end of the block, and symbol 287 (V126). -/
theorem test_eob :
    [Instr.eob, .llsymReserved true].map (fun i => see (fun t => (t.infl.stage, t.infl.ec)) (exec i (inflAt .sym 1))) =
    [some (.blockType, .ok), some (.bad, .invalidLiteralLength)] := by decide

/-- The length a length symbol gives. -/
def lengthOf (i : Instr) : Option Nat := see (fun t => t.infl.length) (exec i (inflAt .sym 0))

/-- R143: the symbols without extra bits. -/
theorem test_len_plain :
    [Instr.len257, .len258, .len259, .len260, .len261, .len262, .len263, .len264, .len285].map lengthOf =
    [3, 4, 5, 6, 7, 8, 9, 10, 258].map some := by decide

/-- R143: the first length of each row with extra bits. -/
theorem test_len_first :
    [Instr.len265 0, .len266 0, .len267 0, .len268 0, .len269 0, .len270 0, .len271 0, .len272 0, .len273 0, .len274 0,
      .len275 0, .len276 0, .len277 0, .len278 0, .len279 0, .len280 0, .len281 0, .len282 0, .len283 0,
      .len284 0].map lengthOf =
    [11, 13, 15, 17, 19, 23, 27, 31, 35, 43, 51, 59, 67, 83, 99, 115, 131, 163, 195, 227].map some := by decide

/-- R143: the last length of each row with extra bits; symbol 284 reaches 258. -/
theorem test_len_last :
    [Instr.len265 1, .len266 1, .len267 1, .len268 1, .len269 3, .len270 3, .len271 3, .len272 3, .len273 7, .len274 7,
      .len275 7, .len276 7, .len277 15, .len278 15, .len279 15, .len280 15, .len281 31, .len282 31, .len283 31,
      .len284 31].map lengthOf =
    [12, 14, 16, 18, 22, 26, 30, 34, 42, 50, 58, 66, 82, 98, 114, 130, 162, 194, 226, 258].map some := by decide

/-- The distance a distance symbol gives, where no output space lets the copy start. -/
def distanceOf (i : Instr) : Option Nat :=
  see (fun t => t.infl.dist)
    (exec i { inflAt .dist 0 with infl := { (inflAt .dist 0).infl with length := 3, produced := 40000 } })

/-- R144: the first distance of each row. -/
theorem test_dist_first :
    [Instr.dist0, .dist1, .dist2, .dist3, .dist4 0, .dist5 0, .dist6 0, .dist7 0, .dist8 0, .dist9 0, .dist10 0, .dist11 0,
      .dist12 0, .dist13 0, .dist14 0, .dist15 0, .dist16 0, .dist17 0, .dist18 0, .dist19 0, .dist20 0, .dist21 0,
      .dist22 0, .dist23 0, .dist24 0, .dist25 0, .dist26 0, .dist27 0, .dist28 0, .dist29 0].map distanceOf =
    [1, 2, 3, 4, 5, 7, 9, 13, 17, 25, 33, 49, 65, 97, 129, 193, 257, 385, 513, 769, 1025, 1537, 2049, 3073, 4097, 6145,
      8193, 12289, 16385, 24577].map some := by decide +kernel

/-- R144: the last distance of each row with extra bits. -/
theorem test_dist_last :
    [Instr.dist4 1, .dist5 1, .dist6 3, .dist7 3, .dist8 7, .dist9 7, .dist10 15, .dist11 15, .dist12 31, .dist13 31,
      .dist14 63, .dist15 63, .dist16 127, .dist17 127, .dist18 255, .dist19 255, .dist20 511, .dist21 511, .dist22 1023,
      .dist23 1023, .dist24 2047, .dist25 2047, .dist26 4095, .dist27 4095, .dist28 8191, .dist29 8191].map distanceOf =
    [6, 8, 12, 16, 24, 32, 48, 64, 96, 128, 192, 256, 384, 512, 768, 1024, 1536, 2048, 3072, 4096, 6144, 8192, 12288, 16384,
      24576, 32768].map some := by decide +kernel

/-- `INFL` at a distance symbol with two bytes produced, `a` then `b`. -/
def copyAt (len room : Nat) : State :=
  { inflAt .dist room with
    infl := { (inflAt .dist room).infl with length := len, produced := 2, win := filled [0x61, 0x62] } }

/-- R497: an overlapping copy reads what it has just written. -/
theorem test_dist_copy :
    see (fun t => (bytesAt t.bus.outMem 0 6, t.infl.stage, t.infl.produced)) (exec .dist1 (copyAt 5 9)) =
    some ([0x61, 0x62, 0x61, 0x62, 0x61, 0], .sym, 7) := by decide +kernel

/-- R496: distance 3 with two bytes produced (V128); R495: symbol 30 (V127). -/
theorem test_dist_bad :
    [exec .dist2 (copyAt 5 9), exec (.dsymReserved false) (copyAt 5 9)].map (see fun t => (t.infl.ec, t.infl.produced)) =
    [some (.invalidDistance, 2), some (.invalidDistanceCode, 2)] := by decide

/-- R149, R441 (log 5): `DIST.3` where the table has no code for symbol 3. Its bytes are `03 00 00`, and the stage takes them: `1` is
`DIST.1`, then under the fixed code `10000000` is `P` and `0000000` the end of the block, then the header of a stored block. -/
theorem test_dist_noCode :
    see (fun t => (bytesAt t.bus.outMem 0 5, t.infl.stage)) (exec .dist3 { copyAt 3 9 with infl := { (copyAt 3 9).infl with dt := [1, 1] } }) =
    some ([0x61, 0x62, 0x61, 0x50, 0], .storedLen) := by decide +kernel

/-- R470: V100, V101, V102, and a preset dictionary (V106). -/
theorem test_zhdr :
    [Instr.zhdr 0x78 0x9C, .zhdr 0x14 0x00, .zhdr 0x79 0x18, .zhdr 0x78 0x20].map (fun i =>
      see (fun t => (t.infl.stage, t.infl.ec)) (exec i (inflAt .zhdr 0))) =
    [some (.blockType, .ok), some (.bad, .incorrectHeaderCheck), some (.bad, .unknownCompressionMethod),
      some (.dictid, .ok)] := by decide

/-- R470: a window larger than the engine's (V103). -/
theorem test_zhdr_window :
    see (fun t => t.infl.ec)
      (exec (.zhdr 0x78 0x9C) { inflAt .zhdr 0 with infl := { (inflAt .zhdr 0).infl with wbits := 14 } }) =
    some .invalidWindowSize := by decide

/-- R471 example. -/
theorem test_zdictid :
    see (fun t => (t.infl.ec, readReg 0x134 t)) (exec (.zdictid 0x01020304) (inflAt .dictid 0)) =
    some (.needDict, 0x01020304) := by decide

/-- `INFL` at a trailer stage with the checksum and the size of "Hello". -/
def trailerAt (st : IStage) (w : Wrap) (check : Word) : State :=
  { inflAt st 0 with infl := { (inflAt st 0).infl with wrap := w, check := check, isize := 5 } }

/-- R499, zlib: V170's trailer, and a wrong one. -/
theorem test_ztrl :
    [Instr.ztrl 0x058C01F5, .ztrl 0x058C01F4].map (fun i =>
      see (fun t => (t.infl.stage, t.infl.ec)) (exec i (trailerAt .trailer .zlib 0x058C01F5))) =
    [some (.done, .ok), some (.bad, .incorrectDataCheck)] := by decide

/-- R499, gzip: V113, V114. -/
theorem test_gzCrc32 :
    [Instr.gzCrc32 0xF7D18982, .gzCrc32 0xF7D189F6].map (fun i =>
      see (fun t => (t.infl.stage, t.infl.ec)) (exec i (trailerAt .trailer .gzip 0xF7D18982))) =
    [some (.gzIsize, .ok), some (.bad, .incorrectDataCheck)] := by decide

/-- R500: V113, V115. -/
theorem test_gzIsize :
    [Instr.gzIsize 5, .gzIsize 4].map (fun i =>
      see (fun t => (t.infl.stage, t.infl.ec)) (exec i (trailerAt .gzIsize .gzip 0))) =
    [some (.done, .ok), some (.bad, .incorrectLengthCheck)] := by decide

/-- R472: the magic bytes, and V111. -/
theorem test_gzMagic :
    [Instr.gzMagic 0x1F 0x8B, .gzMagic 0x1F 0x8C].map (fun i =>
      see (fun t => (t.infl.stage, t.infl.ec)) (exec i (inflAt .gzMagic 0))) =
    [some (.gzCmflg, .ok), some (.bad, .incorrectHeaderCheck)] := by decide

/-- R473: V173, V112, V110. -/
theorem test_gzCmflg :
    [Instr.gzCmflg 8 0x1E, .gzCmflg 7 0, .gzCmflg 8 0xE0].map (fun i =>
      see (fun t => (t.infl.stage, t.infl.gzflags, t.infl.ec)) (exec i (inflAt .gzCmflg 0))) =
    [some (.gzMtime, 0x1E, .ok), some (.bad, 0, .unknownCompressionMethod), some (.bad, 0xE0, .unknownHeaderFlags)] := by
  decide

/-- `INFL` at a stage of the gzip header with the flags of V118, or none. -/
def gzAt (st : IStage) (flags : Byte) : State :=
  { inflAt st 0 with infl := { (inflAt st 0).infl with gzflags := flags, xlen := 2, hcrc := 0x12348D94 } }

/-- R474, R475: the fields that are skipped, and the stage after them. -/
theorem test_gz_fixed :
    [exec (.gzMtime 7) (gzAt .gzMtime 0x1E), exec (.gzXflos 2 255) (gzAt .gzXflos 0x1E),
      exec (.gzXflos 2 255) (gzAt .gzXflos 0x1A)].map (see fun t => t.infl.stage) =
    [some .gzXflos, some .gzExlen, some .gzName] := by decide

/-- R476, R477. -/
theorem test_gz_extra :
    [exec (.gzXlen 0x0201) (gzAt .gzExlen 4), exec (.gzExtra 0xAA) (gzAt .gzExtra 4)].map
      (see fun t => (t.infl.stage, t.infl.xlen)) =
    [some (.gzExtra, 0x0201), some (.gzExtra, 1)] := by decide

/-- R478, R479: up to and including a zero byte. -/
theorem test_gz_text :
    [exec (.gzName 0x6E) (gzAt .gzName 8), exec (.gzName 0) (gzAt .gzName 8), exec (.gzComment 0x63) (gzAt .gzComment 16),
      exec (.gzComment 0) (gzAt .gzComment 16)].map (see fun t => t.infl.stage) =
    [some .gzName, some .gzComment, some .gzComment, some .gzHcrc] := by decide

/-- R480: the low 16 bits of `hcrc` decide (V117, V118). -/
theorem test_gzHcrc :
    [Instr.gzHcrc 0x8D94, .gzHcrc 0x8D95].map (fun i =>
      see (fun t => (t.infl.stage, t.infl.ec)) (exec i (gzAt .gzHcrc 2))) =
    [some (.blockType, .ok), some (.bad, .headerCrcMismatch)] := by decide

/-- R161. -/
theorem test_pseudo :
    [Instr.syncMarker, .partialMarker, .emptyFinal].map (fun i =>
      see (fun t => (t.infl.stage, t.infl.last, t.infl.remaining)) (exec i (inflAt .blockType 0))) =
    [some (.blockType, false, 0), some (.blockType, false, 0), some (.blockType, true, 0)] := by decide

/-! ## The register space and the steps -/

/-- V220: the registers after a hardware reset. -/
theorem test_reset_registers :
    [(0x004 : BitVec 12), 0x104, 0x220, 0x224].map (fun off => readReg off State.reset) = [0x00000000, 0x00001A00, 1, 0] := by
  decide

/-- V221 by steps: a `WRITE` before any `RESET`. -/
theorem test_step_unconfigured :
    see (fun t => (readReg 0x004 t, t.queue)) (step { State.reset with queue := [.writeReg 0x000 0x52] }) =
    some (0x00000004, []) := by decide

/-- V222: a reserved word; V233 likewise in `CKS`. -/
theorem test_step_reserved :
    [Request.writeReg 0x000 0x72, .writeReg 0x200 3].map (fun r =>
      see (fun t => (t.defl.ec, t.cks.ec)) (step { State.reset with queue := [r] })) =
    [some (.streamError, .ok), some (.ok, .streamError)] := by decide

/-- R22: the high word of a 64-bit total is written apart from the low one. -/
theorem test_step_total :
    see (fun t => (t.defl.regs.totalIn, readReg 0x024 t))
      (step { State.reset with
        defl := { State.reset.defl with regs := ⟨0, 0, 0, 0, 0x1122334455667788, 0⟩ }, queue := [.writeReg 0x024 0xAABBCCDD] }) =
    some (0xAABBCCDD55667788, 0xAABBCCDD) := by decide

/-- R270, log 5: a silent stage is passed before the next element. -/
theorem test_step_element :
    see (fun t => (t.infl.stage, t.infl.last))
      (step { inflAt .storedCopy 0 with queue := [.element .blkhdr [0x03]] }) =
    some (.sym, true) := by decide

/-- R556, R552, R501: where no stream work runs, an element is answered with the code a `WRITE` gives. -/
theorem test_element_refused :
    [State.reset.infl, { (inflAt .bad 0).infl with sticky := .missingEob }, (inflAt .done 0).infl].map (fun i =>
      see (fun t => (t.infl.ec, decide ({ t.infl with ec := i.ec } = i)))
        (exec .eob { State.reset with infl := i })) =
    [some (.streamError, true), some (.missingEob, true), some (.endOfStream, true)] := by decide +kernel

/-- R149, R131: at a block header, the first bits of `1f 8b` are 1, 1, 1: a final block of the reserved type. -/
theorem test_element_elsewhere :
    see (fun t => (t.infl.stage, t.infl.last, t.infl.ec, t.infl.regs.availIn))
      (exec (.gzMagic 0x1F 0x8B) (inflAt .blockType 0)) = some (.bad, true, .invalidBlockType, 0) := by decide +kernel

/-- R129: bytes that name no unit operation invoke none; an operand out of range stops (U16). -/
theorem test_step_no_unitOp :
    see (fun t => (t.queue, t.result)) (step { State.reset with queue := [.unitOp [0xFF]] }) = some ([], .nothing) ∧
      step { State.reset with queue := [.unitOp [0x20, 33]] } = .fault .operandRange := ⟨by decide, rfl⟩

/-! ## Witnesses: states and operands that meet the hypotheses of each statement -/

/-- What a next state satisfies, by evaluation. -/
theorem of_see {r : Result} {P : State → Prop} [DecidablePred P] (h : see (fun t => decide (P t)) r = some true) :
    ∃ t, r = .next t ∧ P t := by
  cases r with
  | next t => exact ⟨t, rfl, by simpa [see] using h⟩
  | fault f => simp [see] at h
  | refused x => simp [see] at h

theorem witness_DecodeOfEncode :
    (Instr.bwPut 0xFFFFFFFF 32).wf = true ∧ (Instr.hbPlan [.mat 258 32768]).wf = true ∧ (Instr.dist29 8191).wf = true := by
  decide

theorem witness_DecodeYieldsWellFormed : decode .uop [0x71, 0x02] = .ok (.hdDecode .dt) := by decide

theorem witness_HostCommandWords :
    (((0x100 : BitVec 12), (0x62 : Word), Instr.inflWriteTrees) ∈ hostCommands) ∧
      (reservedHcmd 0x00 ∧ reservedHcmd 0x72 ∧ reservedHcmd 0x82 ∧ reservedHcmd 0x11) ∧
      reservedCcmd 0x03 ∧ reservedCcmd 0x11 := by
  refine ⟨by decide, ?_⟩
  simp [reservedHcmd, reservedCcmd, field]

theorem witness_StepRuns_command :
    commandPort 0x000 = some .deflCmd ∧ decode .deflCmd (leBytes 4 (0x52 : Word).toNat) = .ok .deflWriteFinish := by decide

theorem witness_StepRuns_unitOp : decode .uop [0x12] = .ok .bwAlign := by decide

theorem witness_StepRuns_element :
    decode (.element .blkhdr) [0x03] = .ok (.blkhdrFixed true) ∧ elementReady .blkhdr (inflAt .blockType 0).infl = true ∧
      ∃ t, fetchElement .blkhdr (encode (.blkhdrFixed true)) (inflAt .blockType 0) = .ok t := by
  exact ⟨by decide, by decide, _, rfl⟩

/-- A code-length set with no code raises before the next element is looked at. -/
theorem witness_StepRuns_element_raises :
    ∃ t, fetchElement .clsym (encode (.clsymLen 0)) (inflAt .dynClens 0) = .error t := ⟨_, rfl⟩

theorem witness_StepRuns_noInstruction :
    decode .uop [0xFF] = .error .noSuchUnitOp ∧ decode .uop [0x20, 33] = .error .operandRange ∧
      decode (.element .zhdr) [0x78] = .error .tooShort := by decide

theorem witness_RegisterAccess :
    (0x010 : BitVec 12) ∈ rwOffsets ∧ (0x038 : BitVec 12) ∉ listedOffsets ∧ (0x004 : BitVec 12) ∉ rwOffsets ∧
      commandPort 0x004 = none ∧ State.reset.bus.inMem.wf := by decide

section
set_option synthInstance.maxSize 2000
set_option synthInstance.maxHeartbeats 400000

/-- `DEFL` fed "Hello" meets the invariant. -/
theorem fed_inv : (deflFed 0x8F0 hello 20).Inv := by decide +kernel

theorem fed_lazy_inv : (deflFed 0x8F6 hello 20).Inv := by decide +kernel

theorem fed_closed_inv : (deflFed 0x8F0 hello 0).Inv := by decide +kernel

theorem fed_none_inv : (deflFed 0x8F0 [] 20).Inv := by decide +kernel

theorem witness_StepKeepsInv :
    ({ deflFed 0x8F0 hello 20 with queue := [.writeReg 0x000 0x52] } : State).Inv ∧
      ∃ t, step { deflFed 0x8F0 hello 20 with queue := [.writeReg 0x000 0x52] } = .next t :=
  ⟨by decide +kernel, (of_see (P := fun _ => True) (by decide +kernel)).imp fun _ h => h.1⟩

/-- A dynamic block's lengths half read. -/
theorem witness_NoGeneralError :
    (clsymAt [7] 20).Inv ∧ (clsymAt [7] 20).infl.CodesInv (clsymAt [7] 20).params ∧
      ∃ t, step { clsymAt [7] 20 with queue := [.element .clsym [0x70, 0]] } = .next t :=
  ⟨by decide +kernel, ⟨fun _ => ⟨by decide, by decide⟩, by decide, by decide, fun _ => by decide⟩,
    (of_see (P := fun _ => True) (by decide +kernel)).imp fun _ h => h.1⟩

/-- The fields of the block the matcher works on, made consistent, at position 3 of "abcabcabcabc". -/
def openBlock : State :=
  { matcherAt abc4 .normal 1 3 with defl := { (matcherAt abc4 .normal 1 3).defl with isize := 12 } }

theorem openBlock_inv : openBlock.Inv := by decide +kernel

end

/-- The legality test of `DEFL.RESET` as its statement has it. -/
abbrev deflLegalBits (c : Nat) : Prop :=
  (field 0 4 c ≤ 9 ∨ field 0 4 c = 15) ∧ 9 ≤ field 4 4 c ∧ 1 ≤ field 8 4 c ∧ field 8 4 c ≤ 9 ∧ field 12 3 c ≤ 4 ∧
    field 16 2 c ≤ 2 ∧ field 15 1 c = 0 ∧ field 18 14 c = 0

/-- The corners of the legal range, and one step past each of them (V225, V226). -/
theorem witness_DeflResetResult :
    deflLegalBits 0x2419F ∧ deflLegalBits 0x00990 ∧
      (∀ c ∈ [0x108FA, 0x10886, 0x100F6, 0x10AF6, 0x158F6, 0x308F6, 0x188F6, 0x508F6], ¬deflLegalBits c) := by decide

theorem witness_InflResetResult :
    (∀ c ∈ [0x000F0, 0x20090],
      9 ≤ field 4 4 c ∧ field 16 2 c ≤ 2 ∧ field 15 1 c = 0 ∧ field 18 14 c = 0) ∧
      ∀ c ∈ [0x00080, 0x300F0, 0x080F0, 0x400F0],
        ¬(9 ≤ field 4 4 c ∧ field 16 2 c ≤ 2 ∧ field 15 1 c = 0 ∧ field 18 14 c = 0) := by decide

theorem witness_OnlyResetConfigures :
    Instr.bwAlign ≠ .deflReset ∧ Instr.bwAlign ≠ .inflReset ∧ ∃ t, exec .bwAlign State.reset = .next t :=
  ⟨by decide, by decide, _, rfl⟩

theorem witness_EnginesAreIndependent :
    engineOf .deflReset = .defl ∧ engineOf .inflReset = .infl ∧ engineOf .cksCrcUpdate = .cks ∧
      engineOf (.hbRle [1]) = .none ∧ (∃ t, exec .deflReset State.reset = .next t) ∧
      (∃ t, exec .inflReset State.reset = .next t) ∧ (∃ t, exec .cksCrcUpdate State.reset = .next t) ∧
      ∃ t, exec (.hbRle [1]) State.reset = .next t :=
  ⟨by decide, by decide, by decide, by decide, ⟨_, rfl⟩, ⟨_, rfl⟩, ⟨_, rfl⟩, _, rfl⟩

/-- `DEFL` with a recorded error, and at its end; `INFL` likewise. -/
theorem witness_OnlyResetLeavesAnError :
    (∃ t, exec .deflWriteNone
      { State.reset with defl := { State.reset.defl with configured := true, sticky := .streamError, stage := .done } } =
        .next t) ∧
      (∃ t, exec .inflWriteNone { inflAt .bad 0 with infl := { (inflAt .bad 0).infl with sticky := .missingEob } } =
        .next t) ∧
      ∃ t, exec .inflWriteNone (inflAt .done 0) = .next t :=
  ⟨⟨_, rfl⟩, ⟨_, rfl⟩, _, rfl⟩

/-- The region check of the entry checks. -/
abbrev region (r : StreamRegs) : Prop :=
  r.nextIn.toNat + r.availIn.toNat ≤ 2 ^ 32 ∧ r.nextOut.toNat + r.availOut.toNat ≤ 2 ^ 32

/-- Both sides of the region check: the last byte of a space, and one past it. -/
theorem witness_entryChecks_region :
    region ⟨0xFFFFFFFF, 1, 0xFFFFFFFF, 1, 0, 0⟩ ∧ ¬region ⟨0xFFFFFFFF, 2, 0, 0, 0, 0⟩ ∧ ¬region ⟨0, 0, 0xFFFFFFF0, 0x11, 0, 0⟩ := by
  decide

theorem witness_DeflWriteEntryChecks :
    State.reset.defl.configured = false ∧
      ((deflFed 0x8F0 hello 20).defl.configured = true ∧ (deflFed 0x8F0 hello 20).defl.sticky = .ok ∧
        region (deflFed 0x8F0 hello 20).defl.regs ∧ (deflFed 0x8F0 hello 20).defl.stage ≠ .done) ∧
      ∃ t, exec .deflWriteFinish (deflFed 0x8F0 hello 3) = .next t ∧ t.defl.finishing = true ∧ t.defl.stage ≠ .done ∧
        t.defl.configured = true ∧ t.defl.sticky = .ok ∧ region t.defl.regs :=
  ⟨by decide, by decide, of_see (by decide +kernel)⟩

theorem witness_DeflWriteEntryChecks_done :
    ∃ t, exec .deflWriteFinish (deflFed 0x8F0 hello 20) = .next t ∧ t.defl.stage = .done ∧ t.defl.configured = true ∧
      t.defl.sticky = .ok ∧ region t.defl.regs := of_see (by decide +kernel)

theorem witness_DeflWriteCompletes : (deflFed 0x8F6 hello 20).Inv ∧ deflAccepts (deflFed 0x8F6 hello 20).defl :=
  ⟨fed_lazy_inv, by unfold deflAccepts; decide⟩

theorem fed_accepts : deflAccepts (deflFed 0x8F0 hello 20).defl := by unfold deflAccepts; decide

theorem fed_none_accepts : deflAccepts (deflFed 0x8F0 [] 20).defl := by unfold deflAccepts; decide

theorem witness_DeflWriteCodes_done :
    (deflFed 0x8F0 hello 20).Inv ∧ deflAccepts (deflFed 0x8F0 hello 20).defl ∧
      ∃ t, exec (deflWriteInstr .finish) (deflFed 0x8F0 hello 20) = .next t ∧ t.defl.stage = .done :=
  ⟨fed_inv, fed_accepts, of_see (by decide +kernel)⟩

theorem witness_DeflWriteCodes_moved :
    (deflFed 0x8F0 hello 20).Inv ∧ deflAccepts (deflFed 0x8F0 hello 20).defl ∧
      ∃ t, exec (deflWriteInstr .none) (deflFed 0x8F0 hello 20) = .next t ∧ t.defl.stage ≠ .done ∧
        consumed (deflFed 0x8F0 hello 20).defl.regs t.defl.regs ≠ 0 :=
  ⟨fed_inv, fed_accepts, of_see (by decide +kernel)⟩

theorem witness_DeflWriteCodes_still :
    (deflFed 0x8F0 [] 20).Inv ∧ deflAccepts (deflFed 0x8F0 [] 20).defl ∧
      ∃ t, exec (deflWriteInstr .none) (deflFed 0x8F0 [] 20) = .next t ∧ t.defl.stage ≠ .done ∧
        consumed (deflFed 0x8F0 [] 20).defl.regs t.defl.regs = 0 ∧ produced (deflFed 0x8F0 [] 20).defl.regs t.defl.regs = 0 :=
  ⟨fed_none_inv, fed_none_accepts, of_see (by decide +kernel)⟩

theorem witness_ChooseBlock :
    ((deflFed 0x8F0 hello 20).Inv ∧ (deflFed 0x8F0 hello 20).defl.level = 0) ∧
      (deflFed 0x8F6 hello 20).defl.level ≠ 0 ∧ (deflFed 0x8F6 hello 20).params.chooser = .byCost ∧
      (deflFed 0x8F6 hello 20).defl.strategy ≠ .fixed := ⟨⟨fed_inv, by decide⟩, by decide⟩

/-- `DEFL` about to be reset, with a `CONFIG` word, no input and five bytes of room. -/
def freshRaw (c : Word) : State :=
  { State.reset with defl := { State.reset.defl with config := c, regs := ⟨0, 0, 0, 5, 0, 0⟩ } }

/-- The hypotheses of the empty final block, for a state. -/
abbrev finalReady (s : State) : Prop :=
  deflLegal s.defl.config = true ∧ cfgWrap s.defl.config = 0 ∧ s.defl.regs.availIn = 0 ∧ 5 ≤ s.defl.regs.availOut.toNat ∧
    regionOk s.defl.regs = true ∧ s.bus.outMem.wf ∧ s.params.chooser = .byCost

theorem witness_FinalBlock : finalReady (freshRaw 0x8F0) ∧ finalReady (freshRaw 0x8F6) := by decide

/-- The hypotheses of the final block after data, for an engine. -/
abbrev emptyOpen (d : Defl) : Prop :=
  (d.stage = .body ∨ d.stage = .flushPending) ∧ d.phase = .collect ∧ d.finishing = false ∧ d.syms = [] ∧
    d.deferred.valid = false ∧ d.pos = dataEnd d ∧ d.pending = [] ∧ d.regs.availIn = 0 ∧ 16 ≤ d.regs.availOut.toNat

theorem emptyOpen_accepts {d : Defl} (h : emptyOpen d) (a : d.configured = true ∧ d.sticky = .ok ∧ regionOk d.regs = true) :
    deflAccepts d := ⟨a.1, a.2.1, a.2.2, fun _ => h.2.2.2.2.2.2.2.1⟩

section
set_option synthInstance.maxSize 2000

/-- A zlib stream after a `block` flush, with bits held, and a raw level 0 stream after a `sync`. -/
theorem witness_FinalBlock_open :
    ∀ x ∈ [(Flush.block, (0x108F6 : Word)), (.sync, 0x8F0)], ∃ t, exec (deflWriteInstr x.1) (deflFed x.2 hello 40) = .next t ∧
      t.Inv ∧ deflAccepts t.defl ∧ t.params.chooser = .byCost ∧ emptyOpen t.defl := by
  intro x hx
  have h : ∃ t, exec (deflWriteInstr x.1) (deflFed x.2 hello 40) = .next t ∧
      (t.Inv ∧ (t.defl.configured = true ∧ t.defl.sticky = .ok ∧ regionOk t.defl.regs = true) ∧ t.params.chooser = .byCost ∧
        emptyOpen t.defl) := by
    simp only [List.mem_cons, List.not_mem_nil, or_false] at hx
    rcases hx with rfl | rfl <;> exact of_see (by decide +kernel)
  exact h.imp fun t h => ⟨h.1, h.2.1, emptyOpen_accepts h.2.2.2.2 h.2.2.1, h.2.2.2.1, h.2.2.2.2⟩

end

theorem witness_FinalBlock_ends :
    (deflFed 0x8F0 hello 20).Inv ∧ deflAccepts (deflFed 0x8F0 hello 20).defl ∧
      ∃ t, exec .deflWriteFinish (deflFed 0x8F0 hello 20) = .next t ∧ t.defl.regs.availOut ≠ 0 :=
  ⟨fed_inv, fed_accepts, of_see (by decide +kernel)⟩

theorem witness_FinalBlock_kept :
    ∃ t, exec .deflWriteFinish (deflFed 0x8F0 hello 20) = .next t ∧ t.defl.finishing = true ∧
      see (fun _ => true) (exec .deflWriteNone t) = some true := of_see (by decide +kernel)

/-- A fed engine stands in a run. -/
theorem fed_run (c : Word) (src : List Byte) (room : Nat) (h : deflLegal c = true) : DeflRun (deflFed c src room) [] :=
  ⟨{ State.reset with defl := { State.reset.defl with config := c } }, h, State.reset_memory_wf,
    .host _ _ _ _ ⟨memOf_wf _, Memory.wf_nil⟩ .start⟩

theorem witness_SyncAndFullAlign :
    ∀ f ∈ [Flush.sync, .full], DeflRun (deflFed 0x8F0 hello 20) [] ∧ (deflFed 0x8F0 hello 20).defl.finishing = false ∧
      ∃ t, exec (deflWriteInstr f) (deflFed 0x8F0 hello 20) = .next t ∧ (t.defl.ec = .ok ∨ t.defl.ec = .needBuffers) ∧
        t.defl.regs.availIn = 0 ∧ t.defl.regs.availOut ≠ 0 := by
  intro f hf
  refine ⟨fed_run _ _ _ (by decide), by decide, ?_⟩
  simp only [List.mem_cons, List.not_mem_nil, or_false] at hf
  rcases hf with rfl | rfl <;> exact of_see (by decide +kernel)

/-- A marker is due after a RESET, and after input; R408's example ends with it. -/
theorem witness_SyncAndFullAlign_marker :
    ∀ f ∈ [Flush.sync, .full], (deflFed 0x8F0 hello 20).Inv ∧ (deflFed 0x8F0 hello 20).defl.finishing = false ∧
      (deflFed 0x8F0 hello 20).defl.sat < flushRank f ∧
      ∃ t, exec (deflWriteInstr f) (deflFed 0x8F0 hello 20) = .next t ∧
        (t.defl.ec = .ok ∨ t.defl.ec = .needBuffers) ∧ t.defl.regs.availIn = 0 ∧ t.defl.regs.availOut ≠ 0 ∧
        consumed (deflFed 0x8F0 hello 20).defl.regs t.defl.regs = 5 := by
  intro f hf
  refine ⟨fed_inv, by decide, ?_, ?_⟩ <;> simp only [List.mem_cons, List.not_mem_nil, or_false] at hf
  · rcases hf with rfl | rfl <;> decide
  · rcases hf with rfl | rfl <;> exact of_see (by decide +kernel)

theorem gzHdr_legal : gzHdrLegal defaultGzHdr := ⟨by simp [defaultGzHdr], by simp [defaultGzHdr], by simp [defaultGzHdr]⟩

theorem run_write {s t : State} {out : List Byte} {f : Flush} (h : DeflRun s out) (e : exec (deflWriteInstr f) s = .next t) :
    DeflRun t (out ++ writtenBytes s.defl.regs t.defl.regs t.bus.outMem) :=
  h.imp fun _ h => ⟨h.1, h.2.1, .write _ _ _ _ h.2.2 e⟩

/-- A finished run of "Hello", with its output and a decoder's configuration. -/
theorem witness_RoundTrips :
    ∃ s out, DeflRun s out ∧ s.defl.stage = .done ∧ gzHdrLegal s.params.gzHdr ∧ inflLegal 0xF0 = true ∧
      s.defl.wbits ≤ cfgWindowBits 0xF0 ∧ wrapOf (cfgWrap 0xF0) = some s.defl.wrap ∧ s.defl.data.length + 1 < 2 ^ 32 ∧
      out.length < 2 ^ 32 := by
  obtain ⟨t, h, a, b, c⟩ := of_see (r := exec (deflWriteInstr .finish) (deflFed 0x8F0 hello 20))
    (P := fun t => t.defl.stage = .done ∧ t.params.gzHdr = defaultGzHdr ∧
      (t.defl.wbits ≤ cfgWindowBits 0xF0 ∧ wrapOf (cfgWrap 0xF0) = some t.defl.wrap ∧ t.defl.data.length + 1 < 2 ^ 32 ∧
        (writtenBytes (deflFed 0x8F0 hello 20).defl.regs t.defl.regs t.bus.outMem).length < 2 ^ 32)) (by decide +kernel)
  exact ⟨t, _, run_write (fed_run _ _ _ (by decide)) h, a, b ▸ gzHdr_legal, by decide, c.1, c.2.1, c.2.2.1, c.2.2.2⟩

theorem witness_RoundTrips_flush :
    ∀ f ∈ [Flush.part, .sync, .full, .block], DeflRun (deflFed 0x8F0 hello 20) [] ∧
      (deflFed 0x8F0 hello 20).defl.finishing = false ∧ gzHdrLegal (deflFed 0x8F0 hello 20).params.gzHdr ∧
      inflLegal 0xF0 = true ∧ (deflFed 0x8F0 hello 20).defl.wbits ≤ cfgWindowBits 0xF0 ∧
      wrapOf (cfgWrap 0xF0) = some (deflFed 0x8F0 hello 20).defl.wrap ∧
      ∃ t, exec (deflWriteInstr f) (deflFed 0x8F0 hello 20) = .next t ∧ completeCall t ∧
        t.defl.data.length + 1 < 2 ^ 32 ∧
        (writtenBytes (deflFed 0x8F0 hello 20).defl.regs t.defl.regs t.bus.outMem).length + 1 < 2 ^ 32 := by
  intro f hf
  refine ⟨fed_run _ _ _ (by decide), by decide, gzHdr_legal, by decide, by decide, by decide, ?_⟩
  simp only [List.mem_cons, List.not_mem_nil, or_false] at hf
  unfold completeCall
  rcases hf with rfl | rfl | rfl | rfl <;> exact of_see (by decide +kernel)

/-- A `full` flush, and the end of the stream after it. -/
theorem witness_RoundTrips_chunk :
    ∃ t u more, exec (deflWriteInstr .full) (deflFed 0x8F0 hello 40) = .next t ∧ completeCall t ∧ DeflFrom t u more ∧
      u.defl.stage = .done ∧ u.defl.data.length + 1 < 2 ^ 32 ∧ more.length < 2 ^ 32 := by
  obtain ⟨t, h, a, b⟩ := of_see (r := exec (deflWriteInstr .full) (deflFed 0x8F0 hello 40))
    (P := fun t => ((t.defl.ec = .ok ∨ t.defl.ec = .needBuffers) ∧ t.defl.regs.availIn = 0 ∧ t.defl.regs.availOut ≠ 0) ∧
      see (fun u => decide (u.defl.stage = .done ∧ u.defl.data.length + 1 < 2 ^ 32 ∧
        (writtenBytes t.defl.regs u.defl.regs u.bus.outMem).length < 2 ^ 32)) (exec (deflWriteInstr .finish) t) = some true)
    (by decide +kernel)
  obtain ⟨u, k, c⟩ := of_see b
  exact ⟨t, u, _, h, a, .write _ _ _ _ .start k, c⟩

/-- "Hello" finished in one call, and in two with three bytes of room in the first. -/
theorem witness_RoundTrips_portions :
    (deflFed 0x8F0 hello 0).Inv ∧ (∃ t out, Portioned .finish (deflFed 0x8F0 hello 0) t out ∧ drained t) ∧
      ∃ s t out, Portioned .finish (deflFed 0x8F0 hello 0) s out ∧ ¬drained s ∧
        exec (deflWriteInstr .finish) (withRoom 3 20 s.bus.outMem s) = .next t ∧ drained t := by
  refine ⟨fed_closed_inv, ?_, ?_⟩
  · obtain ⟨t, h, a⟩ := of_see (r := exec (deflWriteInstr .finish) (withRoom 0 20 [] (deflFed 0x8F0 hello 0)))
      (P := fun t => t.defl.ec = .endOfStream) (by decide +kernel)
    exact ⟨t, _, .first _ _ _ _ Memory.wf_nil h, .inl a⟩
  · obtain ⟨s, h, a, b⟩ := of_see (r := exec (deflWriteInstr .finish) (withRoom 0 3 [] (deflFed 0x8F0 hello 0)))
      (P := fun s => s.defl.ec = .ok ∧
        see (fun t => decide (t.defl.ec = .endOfStream)) (exec (deflWriteInstr .finish) (withRoom 3 20 s.bus.outMem s)) =
          some true) (by decide +kernel)
    obtain ⟨t, k, c⟩ := of_see b
    exact ⟨s, t, _, .first _ _ _ _ Memory.wf_nil h, by simp [drained, a], k, .inl c⟩

theorem witness_InflWriteEntryChecks :
    State.reset.infl.configured = false ∧
      ((inflAt .bad 0).infl.configured = true ∧
        { (inflAt .bad 0).infl with sticky := .missingEob }.sticky ≠ Status.ok) ∧
      (inflAt .done 0).infl.stage = .done ∧ (inflAt .done 0).infl.sticky = .ok ∧ region (inflAt .done 0).infl.regs ∧
      (inflAt .sym 0).infl.stage ≠ .done := by decide

/-- `INFL` fed a stream, raw. -/
def fedInfl (src : List Byte) (room : Nat) : State := inflFed 0xF0 defaultParams src room

theorem witness_InflWriteCompletes : (fedInfl [0x06] 4).bus.outMem.wf ∧ inflAccepts (fedInfl [0x06] 4).infl :=
  ⟨by decide, by unfold inflAccepts; decide⟩

theorem witness_InflWriteCodes_error :
    inflAccepts (fedInfl [0x06] 4).infl ∧
      ∃ t, exec (inflWriteInstr .none) (fedInfl [0x06] 4) = .next t ∧ t.infl.sticky ≠ .ok :=
  ⟨by unfold inflAccepts; decide, of_see (by decide +kernel)⟩

theorem witness_InflWriteCodes_done :
    inflAccepts (fedInfl [0x01, 0x00, 0x00, 0xFF, 0xFF] 4).infl ∧
      ∃ t, exec (inflWriteInstr .none) (fedInfl [0x01, 0x00, 0x00, 0xFF, 0xFF] 4) = .next t ∧ t.infl.sticky = .ok ∧
        t.infl.stage = .done :=
  ⟨by unfold inflAccepts; decide, of_see (by decide +kernel)⟩

/-- A stream cut short: under `finish`, and under `none`. -/
theorem witness_InflWriteCodes_more :
    inflAccepts (fedInfl [0x01] 4).infl ∧ ∀ f ∈ [Flush.none, .finish],
      ∃ t, exec (inflWriteInstr f) (fedInfl [0x01] 4) = .next t ∧ t.infl.sticky = .ok ∧ t.infl.stage ≠ .done ∧
        consumed (fedInfl [0x01] 4).infl.regs t.infl.regs ≠ 0 := by
  refine ⟨by unfold inflAccepts; decide, fun f hf => ?_⟩
  simp only [List.mem_cons, List.not_mem_nil, or_false] at hf
  rcases hf with rfl | rfl <;> exact of_see (by decide +kernel)

theorem witness_InflWriteCodes_still :
    inflAccepts (fedInfl [] 4).infl ∧
      ∃ t, exec (inflWriteInstr .none) (fedInfl [] 4) = .next t ∧ t.infl.sticky = .ok ∧ t.infl.stage ≠ .done ∧
        consumed (fedInfl [] 4).infl.regs t.infl.regs = 0 ∧ produced (fedInfl [] 4).infl.regs t.infl.regs = 0 :=
  ⟨by unfold inflAccepts; decide, of_see (by decide +kernel)⟩

theorem witness_ElementsAreMicroSteps :
    (Instr.blkhdrFixed true).port = .element .blkhdr ∧ fmtBits .blkhdr = some 3 ∧
      elementReady .blkhdr (inflAt .blockType 0).infl = true ∧ (inflAt .blockType 0).infl.hold = 0 ∧
      (inflAt .blockType 0).infl.cnt = 0 := by decide

/-- A length symbol with its five extra bits, under the fixed code, and a code-length symbol under a complete code. -/
theorem witness_ElementsAreMicroSteps_coded :
    codedElement .llsym 284 31 = some (.len284 31, .ll, 5) ∧ 31 < 2 ^ 5 ∧ elementReady .llsym (inflAt .sym 0).infl = true ∧
      (∀ l ∈ fixLl, l ≤ 15) ∧ kraft 15 fixLl ≤ 2 ^ 15 ∧ 0 < fixLl.getD 284 0 ∧
      codedElement .dsym 29 8191 = some (.dist29 8191, .dt, 13) ∧ elementReady .dsym (inflAt .dist 0).infl = true ∧
      codedElement .clsym 18 127 = some (.clsymZero18 127, .clt, 7) := by decide +kernel

/-- A raw byte with and without room. -/
theorem witness_ElementsAreMicroSteps_raw :
    (let i := { (inflAt .storedCopy 0).infl with remaining := 1 }
     elementReady .raw i = true ∧ i.regs.availOut = 0) ∧
      (let i := { (inflAt .storedCopy 4).infl with remaining := 1 }
       elementReady .raw { i with regs := { i.regs with availIn := 1 } } = true ∧ i.regs.availOut ≠ 0 ∧
        i.regs.nextIn.toNat + 1 < 2 ^ 32 ∧ memRead State.reset.bus.inMem i.regs.nextIn.toNat = 0) := by decide

/-- An element out of its place: at another stage, without a code, unconfigured, after an error, at the end. -/
theorem witness_ElementsAreMicroSteps_elsewhere :
    Instr.eob.port = .element .llsym ∧ canRun .llsym (encode .eob) (inflAt .dist 0).infl = false ∧
      canRun .llsym (encode .eob) { (inflAt .sym 0).infl with ll := [1, 1] } = false ∧
      (canRun .llsym (encode .eob) State.reset.infl = false ∧ State.reset.infl.configured = false) ∧
      (canRun .llsym (encode .eob) { (inflAt .bad 0).infl with sticky := .missingEob } = false ∧
        { (inflAt .bad 0).infl with sticky := .missingEob }.sticky ≠ Status.ok) ∧
      (canRun .llsym (encode .eob) (inflAt .done 0).infl = false ∧ (inflAt .done 0).infl.configured = true ∧
        (inflAt .done 0).infl.sticky = .ok ∧ regionOk (inflAt .done 0).infl.regs = true) := by decide

/-- A checksum run of `n` bytes from an address. -/
def cksRun (a n : Word) : State := { State.reset with cks := ⟨.ok, a, n, 1, 0⟩ }

/-- A run that ends at the last address, one that passes it, and one well inside. -/
theorem witness_CksUpdates :
    (cksRun 0xFFFFFFFF 1).cks.nextIn.toNat + (cksRun 0xFFFFFFFF 1).cks.availIn.toNat ≤ 2 ^ 32 ∧
      ¬(cksRun 0xFFFFFFFF 2).cks.nextIn.toNat + (cksRun 0xFFFFFFFF 2).cks.availIn.toNat ≤ 2 ^ 32 ∧
      (cksRun 0 5).cks.nextIn.toNat + (cksRun 0 5).cks.availIn.toNat < 2 ^ 32 := by decide

/-- A writer with a full partial byte. -/
def nearlyFull : State := { State.reset with defl := { State.reset.defl with bitCnt := 7, bitBuf := 127 } }

theorem witness_BitWriterAppends :
    nearlyFull.defl.bitCnt ≤ 7 ∧ nearlyFull.defl.bitBuf < 2 ^ nearlyFull.defl.bitCnt ∧
      (32 ≤ 32 ∧ (0xFFFFFFFF : Word).toNat < 2 ^ 32) ∧ 1 ≤ 15 ∧ 15 ≤ 15 ∧ (0x7FFF : Word).toNat < 2 ^ 15 := by decide

/-- The last byte of `OUT`. -/
def lastOut : State :=
  { State.reset with defl := { State.reset.defl with pending := [7, 8], regs := ⟨0, 0, 0xFFFFFFFF, 1, 0, 0⟩ } }

theorem witness_BitWriterTakes :
    lastOut.bus.outMem.wf ∧
      lastOut.defl.regs.nextOut.toNat + min lastOut.defl.pending.length lastOut.defl.regs.availOut.toNat ≤ 2 ^ 32 := by decide

/-- The last byte of `IN`. -/
def lastIn : State := { State.reset with infl := { State.reset.infl with regs := ⟨0xFFFFFFFF, 1, 0, 0, 0, 0⟩ } }

theorem witness_BitReaderNeeds :
    32 ≤ 32 ∧
      lastIn.infl.regs.nextIn.toNat + min ((32 - lastIn.infl.cnt + 7) / 8) lastIn.infl.regs.availIn.toNat ≤ 2 ^ 32 := by
  decide

theorem witness_BitReaderTakes :
    1 + 2 ≤ ({ State.reset.infl with hold := 6, cnt := 8 } : Infl).cnt ∧ 0 + 0 ≤ State.reset.infl.cnt ∧
      (exec (.brNeed 32) State.reset = .next { State.reset with result := .suspended }) := by
  refine ⟨by decide, by decide, by rfl⟩

theorem witness_BitRoundTrip :
    (∀ o ∈ [BitOp.field 5 3, .align, .field 0xFFFFFFFF 32], o.ok) ∧ State.reset.defl.bitCnt = 0 ∧
      State.reset.defl.pending = [] ∧
      (runInstrs [.bwPut 5 3, .bwAlign, .bwPut 0xFFFFFFFF 32, .bwAlign] State.reset).map (fun x => x.1.defl.pending) =
        some [0x05, 0xFF, 0xFF, 0xFF, 0xFF] ∧
      (let r : State := { State.reset with
        infl := { State.reset.infl with regs := ⟨0, 5, 0, 0, 0, 0⟩ }
        bus := ⟨filled [0x05, 0xFF, 0xFF, 0xFF, 0xFF], [], 0⟩ }
       r.infl.cnt = 0 ∧ r.infl.hold = 0 ∧ r.infl.regs.nextIn.toNat + r.infl.regs.availIn.toNat ≤ 2 ^ 32 ∧
        r.infl.regs.availIn.toNat = 5 ∧ bytesAt r.bus.inMem r.infl.regs.nextIn.toNat 5 = [0x05, 0xFF, 0xFF, 0xFF, 0xFF]) := by
  refine ⟨?_, by decide, by decide, by decide +kernel, by decide⟩
  simp [BitOp.ok]

theorem witness_NamedFaults_operands :
    ¬(33 ≤ 32 ∧ (0 : Word).toNat < 2 ^ 33) ∧ ¬(1 ≤ 0 ∧ 0 ≤ 15 ∧ (0 : Word).toNat < 2 ^ 0) ∧ State.reset.infl.cnt < 0 + 1 ∧
      2 ^ 1 < [1, 1, 1].length ∧ (8 ∈ [0, 8] ∧ 7 < 8) ∧
      (dataEnd State.reset.defl ≤ State.reset.defl.pos ∧ State.reset.defl.deferred.valid = false) := by decide

theorem witness_NamedFaults_elements : Instr.dist3.port = .element .dsym := by decide

theorem witness_ZlibHeader :
    (9 ≤ 9 ∧ 9 ≤ 15) ∧ (9 ≤ State.reset.defl.wbits ∧ State.reset.defl.wbits ≤ 15) := by decide

/-- In "abcabcabcabc", positions 0 and 3 share a hash and nothing between them does; 0 is no hash there. -/
theorem witness_LzTables :
    (let d := (matcherAt abc4 .normal 6 0).defl
     sparseWf none d.prev ∧ d.nextIns = 0 ∧ max d.nextIns (min (5 + 1) (dataEnd d - 2)) = 6 ∧ hash d 0 = hash d 3 ∧
      (∀ u ∈ [1, 2], hash d u ≠ hash d 3) ∧ (∀ r ∈ [4, 5], hash d r ≠ hash d 3) ∧ 6 ≤ 3 + 2 ^ d.wbits ∧
      ∀ q ∈ [0, 1, 2, 3, 4, 5], hash d q ≠ 0) := by decide +kernel

theorem sparseGet_mem {α : Type} {d v : α} {m : List (Nat × α)} {i : Nat} (h : sparseGet d m i = v) (hv : v ≠ d) :
    (i, v) ∈ m := by
  induction m with
  | nil => exact absurd h.symm hv
  | cons x m ih =>
    obtain ⟨k, w⟩ := x
    simp only [sparseGet] at h
    split_ifs at h with hk
    · simp [hk, h]
    · exact List.mem_cons_of_mem _ (ih h)

/-- Every entry of a table is below a position, by looking at what is listed. -/
theorem table_below {m : PosTable} {p i q : Nat} (hm : ∀ e ∈ m, e.2.all (fun x => decide (x < p)) = true)
    (h : sparseGet none m i = some q) : q < p := by
  simpa using hm _ (sparseGet_mem h (by simp))

theorem openBlock_head : ∀ h q, headAt openBlock.defl h = some q → q < 3 :=
  fun _ _ => table_below (by decide +kernel)

theorem openBlock_prev : ∀ k q, prevAt openBlock.defl k = some q → q < 3 :=
  fun _ _ => table_below (by decide +kernel)

theorem witness_LzFindResult :
    3 ≤ dataEnd openBlock.defl ∧ (∀ h q, headAt openBlock.defl h = some q → q < 3) ∧
      ∀ k q, prevAt openBlock.defl k = some q → q < 3 := ⟨by decide +kernel, openBlock_head, openBlock_prev⟩

theorem witness_LzFindResult_nearest :
    openBlock.defl.strategy = .normal ∧ 3 + 3 ≤ dataEnd openBlock.defl ∧
      headAt openBlock.defl (hash openBlock.defl 3) = some 0 ∧ 3 - 0 ≤ 2 ^ openBlock.defl.wbits ∧ openBlock.defl.histBase ≤ 0 ∧
      4 ≤ mlen openBlock.defl 0 3 (min 258 (dataEnd openBlock.defl - 3)) ∧
      ∃ t, exec (.lzFind 3 4) openBlock = .next t ∧ t.result = .pair 9 3 :=
  ⟨by decide +kernel, by decide +kernel, by decide +kernel, by decide +kernel, by decide +kernel, by decide +kernel,
    of_see (by decide +kernel)⟩

/-- Each mode of the tokeniser, and the end of the data. -/
theorem witness_LzStepResult :
    (canLzStep (matcherAt abc4 .huffman 6 3).defl = true ∧ (matcherAt abc4 .huffman 6 3).defl.pos < 12) ∧
      (canLzStep (matcherAt abc4 .normal 1 3).defl = true ∧ (levelRow defaultParams 1).mode = .greedy) ∧
      (canLzStep (matcherAt abc4 .normal 6 3).defl = true ∧ (levelRow defaultParams 6).mode ≠ .greedy) ∧
      (canLzStep { (matcherAt abc4 .normal 6 12).defl with deferred := ⟨true, 3, 3⟩ } = true ∧
        dataEnd (matcherAt abc4 .normal 6 12).defl ≤ 12) := by decide +kernel

theorem witness_LzStepKeepsTokensValid :
    openBlock.Inv ∧ MatcherOk openBlock.defl ∧ ∃ t, exec .lzStep openBlock = .next t := by
  have h1 : openBlock.defl.nextIns = 3 ∧ openBlock.defl.pos = 3 ∧ openBlock.defl.histBase = 0 ∧ openBlock.defl.blockStart = 0 ∧
      openBlock.defl.syms = [.lit 0x61, .lit 0x62, .lit 0x63] ∧ openBlock.defl.data.take 3 = [0x61, 0x62, 0x63] ∧
      openBlock.defl.deferred.valid = false := by decide +kernel
  obtain ⟨a, b, c, d, e, f, g⟩ := h1
  refine ⟨openBlock_inv, ⟨⟨by omega, a ▸ openBlock_head, a ▸ openBlock_prev⟩, by omega, ?_, by simp [g]⟩,
    (of_see (P := fun _ => True) (by decide +kernel)).imp fun _ h => h.1⟩
  have h2 : ∀ i < 3, openBlock.defl.data[i]? = (openBlock.defl.data.take 3)[i]? := fun i hi => by
    rw [List.getElem?_take_of_lt hi]
  rw [d, e]
  refine ⟨?_, ?_, ?_, trivial⟩ <;> rw [h2 _ (by decide), f] <;> rfl

/-- As many symbols as a limit has room for, fewer used symbols than two, and two equally frequent ones. -/
theorem witness_HbBuildLengths :
    ([1, 1].length ≤ 2 ^ 1 ∧ 2 ≤ [1, 1].length) ∧ [7].length ≤ 2 ^ 0 ∧ [0, 0, 0].length ≤ 2 ^ 15 ∧ 2 ≤ usedCount [5, 9, 5] ∧
      ([5, 9, 5].getD 2 0 < [5, 9, 5].getD 1 0) ∧ ([5, 9, 5].getD 0 0 = [5, 9, 5].getD 2 0 ∧ 0 ≤ 2) ∧
      see (fun t => t.result) (exec (.hbBuild [5, 9, 5] 15) State.reset) = some (.numbers [2, 1, 2]) := by decide +kernel

theorem witness_HbCanonPrefixFree :
    (∀ l ∈ [2, 1, 3, 3], l ≤ 15) ∧ kraft 15 [2, 1, 3, 3] ≤ 2 ^ 15 ∧ 0 < [2, 1, 3, 3].getD 2 0 ∧
      [2, 1, 3, 3].getD 2 0 ≤ [2, 1, 3, 3].getD 3 0 ∧ [2, 0, 1].getD 1 0 = 0 ∧ [2, 1, 3, 3].getD 4 0 = 0 := by decide

theorem witness_HbRleExpands : ∀ l ∈ [8, 8, 8, 8, 0, 0, 0, 15, 15], l ≤ 15 := by decide

theorem witness_HbPlanCosts :
    ∃ t u, exec (.hbPlan [.lit 0x61]) State.reset = .next t ∧
      u = { t with defl := { t.defl with
        blk := { t.defl.blk with final := true, typ := BlockType.dynamic, toks := [.lit 0x61] } } } ∧
      BlockType.dynamic ≠ .stored := by
  obtain ⟨t, h, -⟩ := of_see (r := exec (.hbPlan [.lit 0x61]) State.reset) (P := fun _ => True) (by decide +kernel)
  exact ⟨t, _, h, rfl, by decide⟩

theorem witness_HbPlanTransmittable :
    (∀ x ∈ [Token.lit 0xFF, .mat 3 1, .mat 258 32768], x.wf = true) ∧
      ∃ t, exec (.hbPlan [.lit 0xFF, .mat 3 1, .mat 258 32768]) State.reset = .next t :=
  ⟨by decide, (of_see (P := fun _ => True) (by decide +kernel)).imp fun _ h => h.1⟩

/-- A block of each type. -/
theorem witness_HbEmitBits :
    State.reset.defl.bitCnt ≤ 7 ∧ State.reset.defl.bitBuf < 2 ^ State.reset.defl.bitCnt ∧
      Blk.Inv { Blk.reset with raw := hello } ∧ Blk.Inv { Blk.reset with typ := .fixed, toks := [.lit 1, .mat 258 32768] } ∧
      Blk.Inv { Blk.reset with
        typ := .dynamic, hlit := 257, hdist := 2, hclen := 18, clLens := List.replicate 19 7, rl := [(18, 127), (16, 3)] } := by
  decide +kernel

/-- A complete set, one too full, one too sparse, and the two shapes of R444. -/
theorem witness_HdBuildVerdict :
    (∀ l ∈ [2, 1, 3, 3], l ≤ 15) ∧ kraft 15 [2, 1, 3, 3] = 2 ^ 15 ∧ 2 ^ 15 < kraft 15 [1, 1, 1] ∧
      kraft 15 [2, 2, 2] < 2 ^ 15 ∧ [0, 0, 1].filter (fun l => decide (0 < l)) = [1] ∧
      [0, 0].filter (fun l => decide (0 < l)) = [] ∧ CodeKind.dists ≠ .codes := by decide

theorem witness_HdDecodeResult :
    completeLens [2, 1, 3, 3] (tableMax .ll) ∧ 0 < [2, 1, 3, 3].getD 2 0 ∧ [2, 1, 3, 3].getD 2 0 ≤ 8 ∧
      (bitsOf 8 0x0B).take ([2, 1, 3, 3].getD 2 0) =
        (bitsOf ([2, 1, 3, 3].getD 2 0) ((hbCanon [2, 1, 3, 3] (tableMax .ll)).getD 2 0)).reverse :=
  ⟨⟨by decide, by decide⟩, by decide, by decide, by decide +kernel⟩

/-- A table with one code (R444), a complete one, and a region that ends at the last address; each verdict is met. -/
theorem witness_HdDecodeResult_fetch :
    (lastIn.infl.regs.nextIn.toNat + lastIn.infl.regs.availIn.toNat ≤ 2 ^ 32) ∧
      (∀ lens ∈ [[2, 1, 3, 3], [1]], (∀ l ∈ lens, l ≤ tableMax .ll) ∧ kraft (tableMax .ll) lens ≤ 2 ^ tableMax .ll) ∧
      see (fun t => (t.result, t.infl.cnt))
        (exec (.hdDecode .ll) { lastIn with infl := { lastIn.infl with ll := [2, 1, 3, 3] } }) = some (.pair 1 1, 8) ∧
      see (fun t => t.result) (exec (.hdDecode .ll) { State.reset with infl := { State.reset.infl with ll := [1] } }) =
        some .suspended ∧
      see (fun t => t.result)
        (exec (.hdDecode .ll) { State.reset with infl := { State.reset.infl with ll := [1], hold := 1, cnt := 1 } }) =
        some .invalid := by decide +kernel

theorem witness_BlockHeaders : elementReady .blkhdr (inflAt .blockType 0).infl = true := by decide

theorem witness_StoredBlock :
    elementReady .stolen { (inflAt .storedLen 0).infl with hold := 0x15, cnt := 5 } = true ∧
      (0xFFFA : BitVec 16) = ~~~5 ∧ (0xFFFB : BitVec 16) ≠ ~~~5 ∧
      elementReady .raw { (inflAt .storedCopy 1).infl with remaining := 1 } = true ∧
      (inflAt .storedCopy 0).infl.regs.availOut = 0 ∧ (inflAt .storedCopy 1).infl.regs.availOut ≠ 0 := by decide

theorem witness_DynamicHeader :
    elementReady .dynhdr (inflAt .dynCounts 0).infl = true ∧
      ((29 : BitVec 5).toNat ≤ 29 ∧ ¬((30 : BitVec 5).toNat ≤ 29)) ∧
      elementReady .cllen { (inflAt .dynClens 0).infl with ncode := 4, cl := List.replicate 19 0 } = true ∧
      elementReady .clsym (clsymAt [7] 11).infl = true ∧ elementReady .clsym (clsymAt [] 11).infl = true ∧
      (∀ k ∈ [5, 16, 17, 18], (clsymAt [7] 11).infl.clt.getD k 0 ≠ 0) ∧ (clsymAt [7] 11).infl.lens.getLast? = some 7 := by
  decide

/-- Each outcome of the two builds, with the bounds met exactly. -/
theorem witness_TablesAreBuiltInOrder :
    ((inflAt .dynClens 0).infl.stage = .dynClens ∧ 0 ≤ 0 ∧ hdBuild defaultParams wholeClt 7 .codes = .ok wholeClt ∧
        ∃ x, hdBuild defaultParams [] 7 .codes = .error x) ∧
      ((inflAt .dynLens 0).infl.stage = .dynLens ∧ ((List.replicate 256 0 ++ [1]).getD 256 0 ≠ 0) ∧
        ([] : Lens).getD 256 0 = 0) ∧
      (∃ t, hdBuild defaultParams ([1] ++ List.replicate 255 0 ++ [1]) 15 .lens = .ok t) ∧
      (∃ u, hdBuild defaultParams [1, 1] 15 .dists = .ok u) ∧ ∃ x, hdBuild defaultParams [1, 0] 15 .dists = .error x :=
  ⟨⟨by decide, by decide, by decide, .incompleteLengthSet, by decide⟩, ⟨by decide, by decide, by decide⟩,
    ⟨[1] ++ List.replicate 255 0 ++ [1], by decide +kernel⟩, ⟨[1, 1], by decide⟩, .incompleteLengthSet, by decide⟩

/-- The silent stages and the stop points, each with its condition met, and a flush mode on either side. -/
theorem witness_TablesAreBuiltInOrder_silent :
    ((gzAt .gzExtra 4).infl.stage = .gzExtra ∧ { (gzAt .gzExtra 4).infl with xlen := 0 }.xlen = 0) ∧
      ((gzAt .gzName 0).infl.stage = .gzName ∧ (gzAt .gzName 0).infl.gzflags.toNat / 8 % 2 = 0) ∧
      ((gzAt .gzComment 8).infl.stage = .gzComment ∧ (gzAt .gzComment 8).infl.gzflags.toNat / 16 % 2 = 0) ∧
      ((gzAt .gzHcrc 16).infl.stage = .gzHcrc ∧ (gzAt .gzHcrc 16).infl.gzflags.toNat / 2 % 2 = 0) ∧
      ({ (inflAt .blockType 0).infl with last := true }.last = true ∧ Flush.none ≠ .block ∧ Flush.none ≠ .trees ∧
        { (inflAt .blockType 0).infl with fresh := true }.fresh = true ∧ (inflAt .blockType 0).infl.fresh = false) ∧
      (inflAt .storedCopy 0).infl.remaining = 0 ∧ (inflAt .mat 0).infl.length = 0 ∧
      ((inflAt .trailer 0).infl.stage = .trailer ∧ (inflAt .trailer 0).infl.wrap = .none) := by decide

theorem witness_LiteralSymbols :
    elementReady .llsym (inflAt .sym 1).infl = true ∧ (∀ k ∈ [0x61, 256, 286, 287], (inflAt .sym 1).infl.ll.getD k 0 ≠ 0) ∧
      (inflAt .sym 0).infl.regs.availOut = 0 ∧ (inflAt .sym 1).infl.regs.availOut ≠ 0 := by decide

theorem witness_LengthSymbols :
    (lenInstr 257 0 = some .len257 ∧ lenInstr 284 31 = some (.len284 31) ∧ lenInstr 285 0 = some .len285) ∧
      elementReady .llsym (inflAt .sym 0).infl = true ∧
      ∀ k ∈ [257, 264, 265, 284, 285], (inflAt .sym 0).infl.ll.getD k 0 ≠ 0 := by decide

/-- A distance of exactly what was produced, one more, and one that overlaps. -/
theorem witness_DistanceSymbols :
    (distInstr 0 0 = some .dist0 ∧ distInstr 29 8191 = some (.dist29 8191)) ∧ elementReady .dsym (copyAt 5 9).infl = true ∧
      (∀ k ∈ [0, 1, 2, 29, 30, 31], (copyAt 5 9).infl.dt.getD k 0 ≠ 0) ∧
      2 ≤ min (copyAt 5 9).infl.produced (2 ^ (copyAt 5 9).infl.wbits) ∧
      min (copyAt 5 9).infl.produced (2 ^ (copyAt 5 9).infl.wbits) < 3 ∧ (copyAt 5 9).infl.win.wf ∧ (copyAt 5 9).bus.outMem.wf ∧
      (copyAt 5 9).infl.regs.nextOut.toNat + min (copyAt 5 9).infl.length (copyAt 5 9).infl.regs.availOut.toNat ≤ 2 ^ 32 := by
  decide +kernel

theorem witness_ZlibElements :
    elementReady .zhdr (inflAt .zhdr 0).infl = true ∧
      ((0x78 * 256 + 0x9C) % 31 = 0 ∧ 0x78 % 16 = 8 ∧ 0x78 / 16 + 8 ≤ (inflAt .zhdr 0).infl.wbits ∧
        ¬(0x78 / 16 + 8 ≤ 14)) ∧
      ((0x14 * 256 + 0x00) % 31 ≠ 0 ∧ (0x79 * 256 + 0x18) % 31 = 0 ∧ 0x79 % 16 ≠ 8) ∧
      elementReady .dictid (inflAt .dictid 0).infl = true ∧ elementReady .ztrl (trailerAt .trailer .zlib 7).infl = true := by
  decide

theorem witness_GzipElements :
    [elementReady .gzId (gzAt .gzMagic 0).infl, elementReady .gzCmflg (gzAt .gzCmflg 0).infl,
      elementReady .gzMtime (gzAt .gzMtime 0).infl, elementReady .gzXflos (gzAt .gzXflos 0).infl,
      elementReady .gzXlen (gzAt .gzExlen 4).infl, elementReady .gzExtra (gzAt .gzExtra 4).infl,
      elementReady .gzName (gzAt .gzName 8).infl, elementReady .gzComment (gzAt .gzComment 16).infl,
      elementReady .gzHcrc (gzAt .gzHcrc 2).infl, elementReady .gzCrc (trailerAt .trailer .gzip 7).infl,
      elementReady .gzIsize (trailerAt .gzIsize .gzip 7).infl] = List.replicate 11 true := by decide

theorem witness_GzipElements_flags : (31 : Byte).toNat < 32 ∧ 32 ≤ (32 : Byte).toNat := by decide

theorem witness_PseudoElements : elementReady .pseudo (inflAt .blockType 0).infl = true := by decide

end Sys2Proof.Tests
end

section
/-! PROOFS. An instruction of one engine is local to it (R3, R531, R582): run with everything outside the engine replaced,
it does the same and leaves the replacement where it was; and it never writes `IN` (R602). One lemma for each shared
operation says so; the frame and the independence of the engines both follow from it. -/

namespace Sys2Proof.Machine

/-! ## `INFL` never writes `IN` -/

theorem brFetch_inMem (c : InflCtx) : (brFetch c).bus.inMem = c.bus.inMem := by simp

@[simp] theorem brNeedLoop_inMem (k n : Nat) (c : InflCtx) : (brNeedLoop k n c).2.bus.inMem = c.bus.inMem := by
  induction k generalizing c with
  | zero => rfl
  | succ k ih =>
    simp only [brNeedLoop]
    split_ifs
    · rfl
    · rfl
    · exact (ih _).trans (brFetch_inMem c)

@[simp] theorem brNeed_inMem (n : Nat) (c : InflCtx) : (brNeed n c).2.bus.inMem = c.bus.inMem := brNeedLoop_inMem _ _ _

@[simp] theorem hdDecodeLoop_inMem (lens : Lens) (max k : Nat) (c : InflCtx) :
    (hdDecodeLoop lens max k c).2.bus.inMem = c.bus.inMem := by
  induction k generalizing c with
  | zero => rfl
  | succ k ih =>
    simp only [hdDecodeLoop]
    split
    · split_ifs
      · rfl
      · exact (ih _).trans (brFetch_inMem c)
    · rfl

@[simp] theorem hdDecode_inMem (lens : Lens) (max : Nat) (c : InflCtx) : (hdDecode lens max c).2.bus.inMem = c.bus.inMem :=
  hdDecodeLoop_inMem _ _ _ _

theorem inMem_of_hdDecode {lens : Lens} {max : Nat} {c c1 : InflCtx} {r : Scan} (h : hdDecode lens max c = (r, c1)) :
    c1.bus.inMem = c.bus.inMem := by
  simpa [h] using hdDecode_inMem lens max c

theorem inflEmit_inMem (v : Byte) (c : InflCtx) : (inflEmit v c).bus.inMem = c.bus.inMem := by simp

@[simp] theorem litByte_inMem (c : InflCtx) : (litByte c).bus.inMem = c.bus.inMem := inflEmit_inMem _ _

@[simp] theorem copyByte_inMem (c : InflCtx) : (copyByte c).bus.inMem = c.bus.inMem := inflEmit_inMem _ _

@[simp] theorem storedByte_inMem (b : Byte) (c : InflCtx) : (storedByte b c).bus.inMem = c.bus.inMem := inflEmit_inMem _ _

@[simp] theorem copyLoop_inMem (n : Nat) (c : InflCtx) : (copyLoop n c).bus.inMem = c.bus.inMem := by
  induction n generalizing c with
  | zero => rfl
  | succ n ih =>
    simp only [copyLoop]
    split_ifs
    · rfl
    · exact (ih _).trans (copyByte_inMem c)

@[simp] theorem matchRun_inMem (c : InflCtx) : (matchRun c).bus.inMem = c.bus.inMem := by
  simp only [matchRun]
  split_ifs <;> exact copyLoop_inMem _ c

/-- The bus a micro-step leaves, however it ends. -/
def Micro.bus : Micro → Bus
  | .complete c | .suspend c | .stop c | .raised _ c => c.bus

theorem finish_bus (n : Nat) (halts : Bool) (c : InflCtx) (a : Act) : (finish n halts c a).bus = c.bus := by
  unfold finish
  split
  · rfl
  · split_ifs <;> rfl

theorem finish_inMem (n : Nat) (halts : Bool) (c : InflCtx) (a : Act) : (finish n halts c a).bus.inMem = c.bus.inMem := by
  rw [finish_bus]

theorem needing_inMem (n : Nat) (c : InflCtx) {g : InflCtx → Micro} (hg : ∀ c1, (g c1).bus.inMem = c1.bus.inMem) :
    (needing n c g).bus.inMem = c.bus.inMem := by
  simp only [needing]
  split_ifs
  · exact (hg _).trans (brNeed_inMem n c)
  · exact brNeed_inMem n c

theorem reading_inMem (n : Nat) (c : InflCtx) (act : Nat → Infl → Act) : (reading n c act).bus.inMem = c.bus.inMem :=
  needing_inMem n c fun _ => finish_inMem _ _ _ _

theorem blockTypeMicro_inMem (f : Flush) (c : InflCtx) : (blockTypeMicro f c).bus.inMem = c.bus.inMem := by
  unfold blockTypeMicro
  split_ifs
  · rfl
  · rfl
  · exact needing_inMem _ _ fun _ => finish_inMem _ _ _ _

theorem storedCopyMicro_inMem (c : InflCtx) : (storedCopyMicro c).bus.inMem = c.bus.inMem := by
  unfold storedCopyMicro
  split_ifs
  · rfl
  · rfl
  · exact (storedByte_inMem _ _).trans (inByteBus_inMem _ _)

theorem dynClensMicro_inMem (p : Params) (c : InflCtx) : (dynClensMicro p c).bus.inMem = c.bus.inMem := by
  unfold dynClensMicro
  split_ifs
  · exact reading_inMem _ _ _
  · exact finish_inMem _ _ _ _

theorem dynLensMicro_inMem (p : Params) (f : Flush) (c : InflCtx) : (dynLensMicro p f c).bus.inMem = c.bus.inMem := by
  unfold dynLensMicro
  split_ifs
  · split <;> rename_i hd
    · exact inMem_of_hdDecode hd
    · exact inMem_of_hdDecode hd
    · exact (needing_inMem _ _ fun _ => finish_inMem _ _ _ _).trans (inMem_of_hdDecode hd)
  · exact finish_inMem _ _ _ _

theorem symMicro_inMem (c : InflCtx) : (symMicro c).bus.inMem = c.bus.inMem := by
  unfold symMicro
  split <;> rename_i hd
  · exact inMem_of_hdDecode hd
  · exact inMem_of_hdDecode hd
  · exact (finish_inMem _ _ _ _).trans (inMem_of_hdDecode hd)

theorem litMicro_inMem (c : InflCtx) : (litMicro c).bus.inMem = c.bus.inMem := by
  unfold litMicro
  split_ifs
  · rfl
  · exact litByte_inMem c

theorem distMicro_inMem (c : InflCtx) : (distMicro c).bus.inMem = c.bus.inMem := by
  unfold distMicro
  split <;> rename_i hd
  · exact inMem_of_hdDecode hd
  · exact inMem_of_hdDecode hd
  · exact (finish_inMem _ _ _ _).trans (inMem_of_hdDecode hd)

theorem matchMicro_inMem (c : InflCtx) : (matchMicro c).bus.inMem = c.bus.inMem := by
  unfold matchMicro
  split_ifs
  · rfl
  · rfl
  · exact copyByte_inMem c

theorem trailerMicro_inMem (c : InflCtx) : (trailerMicro c).bus.inMem = c.bus.inMem := by
  unfold trailerMicro
  split
  · rfl
  · exact needing_inMem _ _ fun _ => finish_inMem _ _ _ _
  · exact reading_inMem _ _ _

/-- Every micro-step leaves `IN` as it was. -/
theorem inflMicro_inMem (p : Params) (f : Flush) (c : InflCtx) : (inflMicro p f c).bus.inMem = c.bus.inMem := by
  cases hs : c.e.stage <;> simp only [inflMicro, hs]
  case blockType => exact blockTypeMicro_inMem f c
  case storedCopy => exact storedCopyMicro_inMem c
  case dynClens => exact dynClensMicro_inMem p c
  case dynLens => exact dynLensMicro_inMem p f c
  case sym => exact symMicro_inMem c
  case lit => exact litMicro_inMem c
  case dist => exact distMicro_inMem c
  case mat => exact matchMicro_inMem c
  case trailer => exact trailerMicro_inMem c
  case done | bad => rfl
  case gzExtra =>
    split_ifs
    · rfl
    · exact reading_inMem _ _ _
  case gzName | gzComment | gzHcrc =>
    split_ifs
    · exact reading_inMem _ _ _
    · rfl
  case dictid | storedLen | dynCounts | gzIsize => exact needing_inMem _ _ fun _ => finish_inMem _ _ _ _
  all_goals exact reading_inMem _ _ _

/-- The bus the work loop is left with. -/
def LoopEnd.bus : LoopEnd → Bus
  | .error _ c | .left _ c => c.bus

theorem inflLoop_inMem {p : Params} {f : Flush} {n : Nat} {c : InflCtx} {r : LoopEnd} (h : inflLoop p f n c = some r) :
    r.bus.inMem = c.bus.inMem := by
  induction n generalizing c with
  | zero => cases h
  | succ n ih =>
    have hm := inflMicro_inMem p f c
    simp only [inflLoop] at h
    split at h <;> rename_i hc <;> rw [hc] at hm
    · cases h; exact hm
    · cases h; exact hm
    · cases h; exact hm
    · exact (ih h).trans hm

/-! ## `DEFL` never writes `IN` -/

theorem bwTake_inMem (c : DeflCtx) : (bwTake c).bus.inMem = c.bus.inMem := by
  obtain ⟨-, -, -, -, h⟩ := bwTake_frame c
  exact h

theorem accept_inMem (c : DeflCtx) : (accept c).bus.inMem = c.bus.inMem := by
  obtain ⟨-, -, h, -⟩ := acceptLoop_frame (acceptCount c.d) c
  simp only [accept]
  split_ifs <;> exact h

theorem decideCollect_bus (pr : Params) (f : Flush) (c : DeflCtx) : (decideCollect pr f c).c.bus = c.bus := by
  simp only [decideCollect]
  split_ifs <;> rfl

theorem collect_inMem (pr : Params) (f : Flush) (c : DeflCtx) : (collect pr f c).c.bus.inMem = c.bus.inMem := by
  simp only [collect]
  split_ifs
  · exact accept_inMem c
  · rw [decideCollect_bus]
    exact accept_inMem c

theorem deflWork_inMem (pr : Params) (f : Flush) (c : DeflCtx) : (deflWork pr f c).c.bus.inMem = c.bus.inMem := by
  unfold deflWork
  by_cases hs : c.d.stage = .flushPending
  · simp only [if_pos hs]
    split_ifs <;> rfl
  · simp only [if_neg hs]
    cases c.d.phase with
    | collect => exact collect_inMem pr f c
    | blkHeader | blkSymbols | trailer => rfl

theorem deflRound_inMem (pr : Params) (f : Flush) (trees : Bool) (c : DeflCtx) :
    (deflRound pr f trees c).c.bus.inMem = c.bus.inMem := by
  simp only [deflRound]
  split_ifs
  · exact bwTake_inMem c
  · exact bwTake_inMem c
  · exact (deflWork_inMem pr f _).trans (bwTake_inMem c)

theorem deflLoop_inMem {pr : Params} {f : Flush} {n : Nat} {trees : Bool} {c : DeflCtx} {r : Bool × DeflCtx}
    (h : deflLoop pr f n trees c = some r) : r.2.bus.inMem = c.bus.inMem := by
  induction n generalizing trees c with
  | zero => cases h
  | succ n ih =>
    simp only [deflLoop] at h
    split_ifs at h
    · cases h; exact deflRound_inMem pr f trees c
    · exact (ih h).trans (deflRound_inMem pr f trees c)

/-! ## `CKS` writes neither space -/

theorem cksLoop_memory (step : Cks → Byte → Cks) (n : Nat) (x : Cks × Bus) :
    (cksLoop step n x).2.inMem = x.2.inMem ∧ (cksLoop step n x).2.outMem = x.2.outMem := by
  induction n generalizing x with
  | zero => exact ⟨rfl, rfl⟩
  | succ n ih =>
    obtain ⟨hin, hout⟩ := ih (step { x.1 with nextIn := cursorNext x.2.freeCtr x.1.nextIn, availIn := x.1.availIn - 1 }
      (memRead x.2.inMem x.1.nextIn.toNat), tickFree x.1.nextIn x.2)
    exact ⟨hin.trans (tickFree_inMem _ _), hout.trans (tickFree_outMem _ _)⟩

/-! ## Being local to an engine -/

/-- `s` with everything outside the engine `e` taken from `o`, the bus, the parameters and the last result apart: those the
engines share. -/
def withOutside (e : Engine) (o s : State) : State :=
  match e with
  | .defl => { s with infl := o.infl, cks := o.cks, queue := o.queue, readData := o.readData }
  | .infl => { s with defl := o.defl, cks := o.cks, queue := o.queue, readData := o.readData }
  | .cks => { s with defl := o.defl, infl := o.infl, queue := o.queue, readData := o.readData }
  | .none => { s with defl := o.defl, infl := o.infl, cks := o.cks, queue := o.queue, readData := o.readData }

theorem withOutside_self (e : Engine) (s : State) : withOutside e s s = s := by cases e <;> rfl

/-- What an engine may do to the bus: `IN` is never written, `OUT` only by `DEFL` and `INFL` (R531, R602). -/
def keepsMemory (e : Engine) (b b' : Bus) : Prop :=
  match e with
  | .defl | .infl => b'.inMem = b.inMem
  | .cks | .none => b'.inMem = b.inMem ∧ b'.outMem = b.outMem

theorem keepsMemory.refl (e : Engine) (b : Bus) : keepsMemory e b b := by
  cases e with
  | defl | infl => exact rfl
  | cks | none => exact ⟨rfl, rfl⟩

theorem keepsMemory.trans {e : Engine} {a b c : Bus} (h : keepsMemory e a b) (k : keepsMemory e b c) : keepsMemory e a c := by
  cases e with
  | defl | infl => exact Eq.trans k h
  | cks | none => exact ⟨k.1.trans h.1, k.2.trans h.2⟩

theorem keepsMemory.inMem {e : Engine} {b b' : Bus} (h : keepsMemory e b b') : b'.inMem = b.inMem := by
  cases e with
  | defl | infl => exact h
  | cks | none => exact h.1

theorem keepsMemory.outMem {e : Engine} {b b' : Bus} (h : keepsMemory e b b') (he : e = .cks ∨ e = .none) :
    b'.outMem = b.outMem := by
  obtain rfl | rfl := he
  · exact h.2
  · exact h.2

/-- A change of state that neither sees nor changes what is outside the engine `e`. -/
structure LocalUpdate (e : Engine) (f : State → State) : Prop where
  blind : ∀ o s, f (withOutside e o s) = withOutside e o (f s)
  memory : ∀ s, keepsMemory e s.bus (f s).bus

/-- The same for what answers an outcome. -/
structure LocalTo (e : Engine) (g : State → Result) : Prop where
  blind : ∀ o s, g (withOutside e o s) = onNext (withOutside e o) (g s)
  memory : ∀ s t, g s = .next t → keepsMemory e s.bus t.bus

section
variable {e : Engine}

theorem LocalUpdate.of_sameBus {f : State → State} (hf : ∀ o s, f (withOutside e o s) = withOutside e o (f s))
    (hb : ∀ s, (f s).bus = s.bus) : LocalUpdate e f :=
  ⟨hf, fun s => (hb s).symm ▸ keepsMemory.refl e s.bus⟩

theorem LocalUpdate.id : LocalUpdate e id := .of_sameBus (fun _ _ => rfl) fun _ => rfl

theorem LocalUpdate.comp {f g : State → State} (hg : LocalUpdate e g) (hf : LocalUpdate e f) : LocalUpdate e fun s => g (f s) :=
  ⟨fun o s => by rw [hf.blind, hg.blind], fun s => (hf.memory s).trans (hg.memory _)⟩

theorem LocalUpdate.ite {c : State → Prop} {_ : DecidablePred c} {f g : State → State}
    (hc : ∀ o s, c (withOutside e o s) = c s) (hf : LocalUpdate e f) (hg : LocalUpdate e g) :
    LocalUpdate e fun s => if c s then f s else g s where
  blind o s := by
    simp only [hc o s]
    split_ifs
    · exact hf.blind o s
    · exact hg.blind o s
  memory s := by
    split_ifs
    · exact hf.memory s
    · exact hg.memory s

theorem LocalTo.next {f : State → State} (hf : LocalUpdate e f) : LocalTo e fun s => .next (f s) where
  blind o s := congrArg Host.Outcome.next (hf.blind o s)
  memory s t h := by
    cases h
    exact hf.memory s

theorem LocalTo.yielding (y : Yield) {f : State → State} (hf : LocalUpdate e f) :
    LocalTo e fun s => Machine.yielding y (f s) where
  blind o s := by
    rw [hf.blind]
    cases e <;> rfl
  memory s t h := by
    cases h
    exact hf.memory s

theorem LocalTo.ite {c : State → Prop} {_ : DecidablePred c} {f g : State → Result}
    (hc : ∀ o s, c (withOutside e o s) = c s) (hf : LocalTo e f) (hg : LocalTo e g) :
    LocalTo e fun s => if c s then f s else g s where
  blind o s := by
    simp only [hc o s]
    split_ifs
    · exact hf.blind o s
    · exact hg.blind o s
  memory s t h := by
    split_ifs at h
    · exact hf.memory s t h
    · exact hg.memory s t h

theorem LocalTo.fault (r : Fault) : LocalTo e fun _ => .fault r := ⟨fun _ _ => rfl, fun _ _ h => nomatch h⟩

theorem LocalTo.inRange {c : State → Prop} {_ : DecidablePred c} {g : State → Result}
    (hc : ∀ o s, c (withOutside e o s) = c s) (hg : LocalTo e g) : LocalTo e fun s => Machine.inRange (c s) (g s) :=
  .ite hc hg (.fault _)

/-- What follows from being local, for an outcome that is a next state: nothing outside the engine has changed. -/
theorem LocalTo.frame {g : State → Result} (hg : LocalTo e g) {s t : State} (h : g s = .next t) : t = withOutside e s t := by
  have hb := hg.blind s s
  rw [withOutside_self, h] at hb
  exact Host.Outcome.next.inj hb

end

/-! ## The operations of `DEFL` -/

theorem local_execBwTake : LocalTo .defl execBwTake :=
  .yielding _ ⟨fun _ _ => rfl, fun s => bwTake_inMem ⟨s.defl, s.bus⟩⟩

theorem local_deflRun (f : Flush) : LocalTo .defl (deflRun f) where
  blind o s := by
    simp only [deflRun, withOutside]
    split <;> rfl
  memory s t h := by
    simp only [deflRun] at h
    split at h
    · cases h
    · rename_i hl
      cases h
      exact deflLoop_inMem hl

theorem local_deflReturn {x : State → Status} (hx : ∀ o s, x (withOutside .defl o s) = x s) :
    LocalTo .defl fun s => .next (deflReturn (x s) s) :=
  .next (.of_sameBus (fun o s => by rw [hx]; rfl) fun _ => rfl)

theorem local_deflRaise (x : Status) : LocalTo .defl fun s => .next { s with defl := deflRaise x s.defl } :=
  .next (.of_sameBus (fun _ _ => rfl) fun _ => rfl)

/-- The entry checks of R380 in their order: each answers by `DEFL` alone, and so does the work after them. -/
theorem local_deflWrite (f : Flush) : LocalTo .defl (deflWrite f) := by
  refine .ite (fun _ _ => rfl) (local_deflReturn fun _ _ => rfl) ?_
  refine .ite (fun _ _ => rfl) (local_deflReturn fun _ _ => rfl) ?_
  refine .ite (fun _ _ => rfl) (local_deflReturn fun _ _ => rfl) ?_
  refine .ite (fun _ _ => rfl) ?_ (.ite (fun _ _ => rfl) ?_ (local_deflRun f))
  · exact .ite (fun _ _ => rfl) (local_deflRaise _) (local_deflReturn fun _ _ => rfl)
  · exact .ite (fun _ _ => rfl) (local_deflRaise _) (local_deflRun .finish)

/-! ## The operations of `INFL` -/

theorem localUpdate_withInfl {g : State → InflCtx} (hg : ∀ o s, g (withOutside .infl o s) = g s)
    (hm : ∀ s, (g s).bus.inMem = s.bus.inMem) : LocalUpdate .infl fun s => withInfl (g s) s :=
  ⟨fun o s => by rw [hg]; rfl, hm⟩

/-- A unit operation of `INFL` ends with an engine and a bus, yielding what it yields. -/
theorem local_yielding_withInfl {y : State → Yield} {g : State → InflCtx} (hy : ∀ o s, y (withOutside .infl o s) = y s)
    (hg : ∀ o s, g (withOutside .infl o s) = g s) (hm : ∀ s, (g s).bus.inMem = s.bus.inMem) :
    LocalTo .infl fun s => yielding (y s) (withInfl (g s) s) :=
  .next ⟨fun o s => by rw [hy, hg]; rfl, hm⟩

theorem local_execBrNeed (n : Nat) : LocalTo .infl (execBrNeed n) :=
  .inRange (fun _ _ => rfl)
    (local_yielding_withInfl (g := fun s => (brNeed n ⟨s.infl, s.bus⟩).2) (fun _ _ => rfl) (fun _ _ => rfl)
      fun _ => brNeed_inMem n _)

theorem local_execBrGet (n : Nat) : LocalTo .infl (execBrGet n) :=
  .inRange (fun _ _ => rfl)
    (.ite (fun _ _ => rfl)
      (local_yielding_withInfl (fun _ _ => rfl) (fun _ _ => rfl) fun s => brNeed_inMem n ⟨s.infl, s.bus⟩)
      (local_yielding_withInfl (fun _ _ => rfl) (fun _ _ => rfl) fun s => brNeed_inMem n ⟨s.infl, s.bus⟩))

theorem local_execHdDecode (t : TableId) : LocalTo .infl (execHdDecode t) :=
  local_yielding_withInfl (g := fun s => (hdDecode (tableLens t s.infl) (tableMax t) ⟨s.infl, s.bus⟩).2) (fun _ _ => rfl)
    (fun _ _ => rfl) fun _ => hdDecode_inMem _ _ _

/-- An error of `HD.BUILD` on its own (R442, R565; log 15). -/
theorem local_raiseWhereLive (x : Status) :
    LocalTo .infl fun s => yielding (.raised x) (if inflLive s.infl then { s with infl := inflRaise x s.infl } else s) :=
  .yielding _ (.ite (fun _ _ => rfl) (.of_sameBus (fun _ _ => rfl) fun _ => rfl) .id)

theorem local_execHdBuild (lens : Lens) (max : Nat) (kind : CodeKind) : LocalTo .infl (execHdBuild lens max kind) := by
  refine .inRange (fun _ _ => rfl) ⟨fun o s => ?_, fun s t h => ?_⟩
  · have hp : (withOutside .infl o s).params = s.params := rfl
    rw [hp]
    cases hdBuild s.params lens max kind with
    | ok => rfl
    | error x => exact (local_raiseWhereLive x).blind o s
  · cases hb : hdBuild s.params lens max kind with
    | ok =>
      rw [hb] at h
      cases h
      exact rfl
    | error x =>
      rw [hb] at h
      exact (local_raiseWhereLive x).memory s t h

theorem local_inflRun (f : Flush) : LocalTo .infl (inflRun f) where
  blind o s := by
    simp only [inflRun, withOutside]
    split
    · rfl
    · rename_i r _
      cases r <;> rfl
  memory s t h := by
    simp only [inflRun] at h
    split at h
    · cases h
    · rename_i r hl
      have hr := inflLoop_inMem hl
      cases h
      cases r <;> exact hr

theorem local_inflReturn {x : State → Status} (hx : ∀ o s, x (withOutside .infl o s) = x s) :
    LocalTo .infl fun s => .next (inflReturn (x s) s) :=
  .next (.of_sameBus (fun o s => by rw [hx]; rfl) fun _ => rfl)

/-- The entry checks of R462 in their order. -/
theorem local_inflWrite (f : Flush) : LocalTo .infl (inflWrite f) := by
  refine .ite (fun _ _ => rfl) (local_inflReturn fun _ _ => rfl) ?_
  refine .ite (fun _ _ => rfl) (local_inflReturn fun _ _ => rfl) ?_
  refine .ite (fun _ _ => rfl) (local_inflReturn fun _ _ => rfl) ?_
  exact .ite (fun _ _ => rfl) (local_inflReturn fun _ _ => rfl) (local_inflRun f)

/-! ## Stream elements -/

/-- The bytes stand in `IN` for the run only, and are taken away again after it. -/
theorem local_streamBytes (bytes : List Byte) : LocalTo .infl (streamBytes bytes) where
  blind o s := by
    have h := (local_inflWrite .none).blind o (withInput bytes s)
    have hw : withInput bytes (withOutside .infl o s) = withOutside .infl o (withInput bytes s) := rfl
    simp only [streamBytes, hw, h]
    cases inflWrite .none (withInput bytes s) <;> rfl
  memory s t h := by
    obtain ⟨u, hu, hm, -⟩ := streamBytes_next bytes s
    cases hu.symm.trans h
    exact hm

theorem localUpdate_endAct (act : Infl → Act) : LocalUpdate .infl fun s => endAct s (act s.infl) where
  blind o s := by
    show endAct (withOutside .infl o s) (act s.infl) = _
    cases act s.infl <;> rfl
  memory s := by
    cases act s.infl <;> exact rfl

theorem local_element (fmt : Fmt) (i : Instr) (act : Infl → Act) : LocalTo .infl fun s => element fmt i s act :=
  .ite (fun _ _ => rfl) (.next (localUpdate_endAct act)) (local_streamBytes _)

theorem local_execStolen (len nlen : BitVec 16) : LocalTo .infl (execStolen len nlen) := local_element _ _ _

theorem local_execSyncMarker : LocalTo .infl execSyncMarker := local_element _ _ _

theorem local_execPartialMarker : LocalTo .infl execPartialMarker := local_element _ _ _

theorem local_execEmptyFinal : LocalTo .infl execEmptyFinal := local_element _ _ _

theorem local_symbolElement (fmt : Fmt) (tb : TableId) (sym : Nat) (i : Instr) (act : Infl → Act) {after : State → State}
    (ha : LocalUpdate .infl after) : LocalTo .infl fun s => symbolElement fmt tb sym i s act after :=
  .ite (fun _ _ => rfl) (.next (ha.comp (localUpdate_endAct act))) (local_streamBytes _)

theorem localUpdate_afterLit : LocalUpdate .infl afterLit :=
  .ite (fun _ _ => rfl) .id (localUpdate_withInfl (fun _ _ => rfl) fun s => litByte_inMem ⟨s.infl, s.bus⟩)

theorem localUpdate_afterDist : LocalUpdate .infl afterDist :=
  .ite (fun _ _ => rfl) (localUpdate_withInfl (fun _ _ => rfl) fun s => matchRun_inMem ⟨s.infl, s.bus⟩) .id

theorem local_lenElement (k x : Nat) (i : Instr) : LocalTo .infl (lenElement k x i) := local_symbolElement _ _ _ _ _ .id

theorem local_distElement (k x : Nat) (i : Instr) : LocalTo .infl (distElement k x i) :=
  local_symbolElement _ _ _ _ _ localUpdate_afterDist

theorem local_clElement (k x : Nat) (i : Instr) : LocalTo .infl (clElement k x i) := local_symbolElement _ _ _ _ _ .id

theorem local_execStoredRaw (b : Byte) : LocalTo .infl (execStoredRaw b) :=
  .ite (fun _ _ => rfl)
    (.next (.ite (fun _ _ => rfl) .id (localUpdate_withInfl (fun _ _ => rfl) fun s => storedByte_inMem b ⟨s.infl, s.bus⟩)))
    (local_streamBytes _)

/-! ## The updates of `CKS` -/

theorem local_cksUpdate (step : Cks → Byte → Cks) : LocalTo .cks (cksUpdate step) :=
  .ite (fun _ _ => rfl) (.next (.of_sameBus (fun _ _ => rfl) fun _ => rfl))
    (.next ⟨fun _ _ => rfl, fun s => cksLoop_memory step _ (s.cks, s.bus)⟩)

/-! ## Every instruction -/

/-- Every instruction is local to its engine (R3, R531). -/
theorem exec_local (i : Instr) : LocalTo (engineOf i) (exec i) := by
  cases i with
  | deflReset | bwAlign | hdrZenc | hdrGzenc | hdrTrailer | lzInsert _ | lzFind _ _ | lzClear | hbPlan _ | hbEmitHeader
  | hbEmitSymbols | inflReset | brAlign | adlerStep _ _ | crcStep _ _ | hbRle _ =>
    exact .next (.of_sameBus (fun _ _ => rfl) fun _ => rfl)
  | bwPut _ _ | bwPutcode _ _ | lzStep | brPeek _ _ | brDrop _ | hbBuild _ _ | hbCanon _ _ =>
    exact .inRange (fun _ _ => rfl) (.next (.of_sameBus (fun _ _ => rfl) fun _ => rfl))
  | deflWriteNone | deflWriteBlock | deflWritePartial | deflWriteSync | deflWriteFull | deflWriteFinish | deflWriteTrees =>
    exact local_deflWrite _
  | inflWriteNone | inflWriteBlock | inflWritePartial | inflWriteSync | inflWriteFull | inflWriteFinish | inflWriteTrees =>
    exact local_inflWrite _
  | cksAdlerUpdate | cksCrcUpdate => exact local_cksUpdate _
  | bwTake => exact local_execBwTake
  | brNeed n => exact local_execBrNeed n
  | brGet n => exact local_execBrGet n
  | hdBuild lens max kind => exact local_execHdBuild lens max kind
  | hdDecode t => exact local_execHdDecode t
  | storedRaw b => exact local_execStoredRaw b
  | clsymLen _ | clsymRep16 _ | clsymZero17 _ | clsymZero18 _ => exact local_clElement _ _ _
  | lit b => exact local_symbolElement _ _ _ _ _ localUpdate_afterLit
  | eob | llsymReserved _ | dsymReserved _ => exact local_symbolElement _ _ _ _ _ .id
  | len257 | len258 | len259 | len260 | len261 | len262 | len263 | len264 | len265 _ | len266 _ | len267 _ | len268 _
  | len269 _ | len270 _ | len271 _ | len272 _ | len273 _ | len274 _ | len275 _ | len276 _ | len277 _ | len278 _ | len279 _
  | len280 _ | len281 _ | len282 _ | len283 _ | len284 _ | len285 => exact local_lenElement _ _ _
  | dist0 | dist1 | dist2 | dist3 | dist4 _ | dist5 _ | dist6 _ | dist7 _ | dist8 _ | dist9 _ | dist10 _ | dist11 _
  | dist12 _ | dist13 _ | dist14 _ | dist15 _ | dist16 _ | dist17 _ | dist18 _ | dist19 _ | dist20 _ | dist21 _ | dist22 _
  | dist23 _ | dist24 _ | dist25 _ | dist26 _ | dist27 _ | dist28 _ | dist29 _ => exact local_distElement _ _ _
  | blkhdrStored _ | blkhdrFixed _ | blkhdrDynamic _ | blkhdrReserved _ | dynhdr _ _ _ | cllen _ | zhdr _ _
  | zdictid _ | ztrl _ | gzMagic _ _ | gzCmflg _ _ | gzMtime _ | gzXflos _ _ | gzXlen _ | gzExtra _ | gzName _
  | gzComment _ | gzHcrc _ | gzCrc32 _ | gzIsize _ => exact local_element _ _ _
  | stolen len nlen => exact local_execStolen len nlen
  | syncMarker => exact local_execSyncMarker
  | partialMarker => exact local_execPartialMarker
  | emptyFinal => exact local_execEmptyFinal

/-! ## Frame and independence -/

theorem withOutside_defl {e : Engine} (he : e ≠ .defl) (o s : State) : (withOutside e o s).defl = o.defl := by
  cases e with
  | defl => exact absurd rfl he
  | infl | cks | none => rfl

theorem withOutside_infl {e : Engine} (he : e ≠ .infl) (o s : State) : (withOutside e o s).infl = o.infl := by
  cases e with
  | infl => exact absurd rfl he
  | defl | cks | none => rfl

theorem withOutside_cks {e : Engine} (he : e ≠ .cks) (o s : State) : (withOutside e o s).cks = o.cks := by
  cases e with
  | cks => exact absurd rfl he
  | defl | infl | none => rfl

@[simp] theorem withOutside_queue (e : Engine) (o s : State) : (withOutside e o s).queue = o.queue := by cases e <;> rfl

@[simp] theorem withOutside_readData (e : Engine) (o s : State) : (withOutside e o s).readData = o.readData := by
  cases e <;> rfl

theorem exec_frame {i : Instr} {s t : State} (h : exec i s = .next t) : t = withOutside (engineOf i) s t :=
  (exec_local i).frame h

theorem exec_queue {i : Instr} {s t : State} (h : exec i s = .next t) : t.queue = s.queue := by
  rw [exec_frame h, withOutside_queue]

theorem exec_readData {i : Instr} {s t : State} (h : exec i s = .next t) : t.readData = s.readData := by
  rw [exec_frame h, withOutside_readData]

theorem exec_memory {i : Instr} {s t : State} (h : exec i s = .next t) : keepsMemory (engineOf i) s.bus t.bus :=
  (exec_local i).memory s t h

theorem onNext_congr {f g : State → State} {r : Result} (h : ∀ t, r = .next t → f t = g t) : onNext f r = onNext g r := by
  cases r with
  | next t => exact congrArg _ (h t rfl)
  | fault | refused => rfl

/-- An instruction run with what is outside its engine replaced: the host's side of the replacement is not seen either. -/
theorem exec_withOutside {i : Instr} {e : Engine} (he : engineOf i = e) {o s : State} {f : State → State}
    (hf : ∀ t, t.queue = s.queue → t.readData = s.readData → withOutside e o t = f t) :
    exec i (withOutside e o s) = onNext f (exec i s) := by
  subst he
  exact ((exec_local i).blind o s).trans (onNext_congr fun t h => hf t (exec_queue h) (exec_readData h))

end Sys2Proof.Machine

open Sys2Proof Sys2Proof.Machine

/-- Settles O15: the frame and the independence of the engines, both from `exec_local`. -/
theorem enginesAreIndependent : Obligations.EnginesAreIndependent := by
  refine ⟨fun i s t h => ?_, fun i s d x c => ⟨fun he => ?_, fun he => ?_, fun he => ?_⟩⟩
  · have hf := exec_frame h
    have hm := exec_memory h
    refine ⟨fun he => ?_, fun he => ?_, fun he => ?_, hm.inMem, hm.outMem, exec_queue h, exec_readData h⟩
    · rw [hf, withOutside_defl he]
    · rw [hf, withOutside_infl he]
    · rw [hf, withOutside_cks he]
  · exact exec_withOutside he (o := { s with infl := x, cks := c }) fun t hq hr => by simp only [withOutside, ← hq, ← hr]
  · exact exec_withOutside he (o := { s with defl := d, cks := c }) fun t hq hr => by simp only [withOutside, ← hq, ← hr]
  · exact exec_withOutside he (o := { s with defl := d, infl := x }) fun t hq hr => by simp only [withOutside, ← hq, ← hr]
end

section
/-! PROOFS. The fields of the two STATUS words (R26), what a hardware reset leaves (R70), and what a step does with the oldest
request (R571). -/

namespace Sys2Proof.Machine

theorem Status.code_lt (e : Status) : e.code < 24 := by cases e <;> decide

theorem DStage.num_lt (x : DStage) : x.num < 4 := by cases x <;> decide

theorem DPhase.num_lt (x : DPhase) : x.num < 4 := by cases x <;> decide

theorem IStage.num_lt (x : IStage) : x.num < 27 := by cases x <;> decide

/-- The fields of a `STATUS` word, and the bits that read 0 (R26). -/
theorem statusWord_fields {ec stage phase : Nat} {flag sticky configured : Bool} {w : Nat} (he : ec < 32) (hs : stage < 32)
    (hp : phase < 8) (hw : w = (statusWord ec stage flag sticky configured phase).toNat) :
    field 0 5 w = ec ∧ field 5 3 w = 0 ∧ field 8 5 w = stage ∧ field 13 1 w = flag.toNat ∧
      field 14 1 w = sticky.toNat ∧ field 15 1 w = configured.toNat ∧ field 16 3 w = phase ∧ field 19 13 w = 0 := by
  have := bool_toNat_le flag
  have := bool_toNat_le sticky
  have := bool_toNat_le configured
  simp only [hw, field, statusWord, BitVec.toNat_ofNat]
  omega

theorem recorded_iff (e : Status) : (e != .ok).toNat = 1 ↔ e ≠ .ok := by cases e <;> decide

/-- A stage that reads a format is no silent one. -/
theorem isSilent_of_elementReady {fmt : Fmt} {i : Infl} (h : elementReady fmt i = true) : isSilent i = false := by
  simp only [elementReady, Bool.and_eq_true] at h
  obtain ⟨⟨hc, hs⟩, hr⟩ := h
  simp only [isSilent, hc, hs, Bool.true_and]
  cases fmt <;> simp only [readsFmt, Bool.and_eq_true, Bool.not_eq_true', beq_iff_eq, decide_eq_true_eq] at hr <;>
    simp [hr]
  case raw => omega
  case gzExtra => omega

theorem fetchHcrc_of_not_header {bytes : List Byte} {i : Infl} (h : headerCrcStage i.stage = false) :
    fetchHcrc bytes i = i := by
  simp [fetchHcrc, h]

/-- An element the stage reads can be run, or its stage is none of a header. -/
theorem canRun_of_elementReady {fmt : Fmt} {i : Infl} (h : elementReady fmt i = true) (bytes : List Byte) :
    canRun fmt bytes i = true ∨ fetchHcrc bytes i = i := by
  have hr := h
  simp only [elementReady, Bool.and_eq_true] at hr
  cases fmt with
  | llsym | dsym | clsym =>
    simp only [readsFmt, Bool.and_eq_true, beq_iff_eq] at hr
    exact .inr (fetchHcrc_of_not_header (by simp [hr, headerCrcStage]))
  | _ => exact .inl h

/-- Where the stage reads the format, the fetch steps the header checksum and does nothing else (R275). -/
theorem fetchElement_of_elementReady {fmt : Fmt} {s : State} (h : elementReady fmt s.infl = true) (bytes : List Byte) :
    fetchElement fmt bytes s = .ok { s with infl := fetchHcrc bytes s.infl } := by
  have hs : settle s.params ⟨s.infl, s.bus⟩ = .left false ⟨s.infl, s.bus⟩ := by
    simp [settle, settleLoop, isSilent_of_elementReady h]
  simp only [fetchElement, hs]
  obtain hc | hc := canRun_of_elementReady h bytes
  · rw [if_pos hc]; rfl
  · rw [hc]; simp [withInfl]

end Sys2Proof.Machine

open Sys2Proof Sys2Proof.Machine

/-- Settles O7, from the fields of a status word. -/
theorem statusFields : Obligations.StatusFields := by
  intro s
  obtain ⟨h1, h2, h3, h4, h5, h6, h7, h8⟩ := statusWord_fields (s.defl.ec.code_lt.trans (by decide))
    (s.defl.stage.num_lt.trans (by decide)) (s.defl.phase.num_lt.trans (by decide))
    (show (readReg 0x004 s).toNat = (deflStatus s.defl).toNat from rfl)
  obtain ⟨k1, k2, k3, k4, k5, k6, k7, k8⟩ := statusWord_fields (s.infl.ec.code_lt.trans (by decide))
    (s.infl.stage.num_lt.trans (by decide)) (by decide)
    (show (readReg 0x104 s).toNat = (inflStatus s.infl).toNat from rfl)
  exact ⟨fun v => ⟨rfl, rfl⟩, ⟨h1, h2, h3, h4, h5 ▸ recorded_iff _, h6, h7, h8⟩,
    k1, k2, k3, k4, k5 ▸ recorded_iff _, k6, k7, k8⟩

/-- Settles O8: `hardwareReset` puts the reset values in, whatever stood there. -/
theorem hardwareReset : Obligations.HardwareReset := by
  refine fun s => ⟨Machine.hardwareReset s, rfl, rfl, rfl, rfl, rfl, ?_, ?_, rfl⟩
  · simp [Defl.reset, StreamRegs.reset]
  · simp [Infl.reset, StreamRegs.reset]

/-- Settles O5, by the case of the oldest request and of what its bytes decode to. -/
theorem stepRunsTheDecodedInstruction : Obligations.StepRunsTheDecodedInstruction := by
  refine ⟨fun s off v rest p i hq hp hd => ?_, fun s bytes rest i hq hd => ?_,
    fun s fmt bytes rest i hq hd => ⟨fun t ht => ?_, fun t ht => ?_⟩,
    fun s fmt bytes h => fetchElement_of_elementReady h bytes, fun s bytes rest e hq hd => ?_,
    fun s fmt bytes rest e hq hd => ?_, fun s hq => ?_⟩
  · simp [step, hq, serve, hp, runCommand, hd]
  · simp [step, hq, serve, runUnitOp, hd]
  · simp [step, hq, serve, runElement, hd, ht]
  · simp [step, hq, serve, runElement, hd, ht]
  · cases e <;> simp [step, hq, serve, runUnitOp, hd]
  · simp [step, hq, serve, runElement, hd]
  · simp [step, hq]

end

section
/-! PROOFS. The registers (R21 to R29, R535): a read after a write to the same and to another offset, and what a write leaves
unchanged. -/

namespace Sys2Proof.Machine

/-! ## The two words of a counter (R22) -/

theorem lowWord_eq (t : DWord) : lowWord t = BitVec.ofNat 32 t.toNat := by
  simp [lowWord, BitVec.extractLsb']

theorem highWord_eq (t : DWord) : highWord t = BitVec.ofNat 32 (t.toNat / 2 ^ 32) := by
  simp [highWord, BitVec.extractLsb', Nat.shiftRight_eq_div_pow]

@[simp] theorem lowWord_setLow (t : DWord) (v : Word) : lowWord (setLow t v) = v := BitVec.extractLsb'_append_eq_right

@[simp] theorem highWord_setLow (t : DWord) (v : Word) : highWord (setLow t v) = highWord t :=
  BitVec.extractLsb'_append_eq_left

@[simp] theorem lowWord_setHigh (t : DWord) (v : Word) : lowWord (setHigh t v) = lowWord t :=
  BitVec.extractLsb'_append_eq_right

@[simp] theorem highWord_setHigh (t : DWord) (v : Word) : highWord (setHigh t v) = v := BitVec.extractLsb'_append_eq_left

/-! ## Reading what was written -/

theorem bankRead_streamWrite_other {off k : Nat} (h : k ≠ off) (status config check dictid v : Word) (r : StreamRegs) :
    bankRead status config check dictid (streamWrite off v r) k = bankRead status config check dictid r k := by
  unfold streamWrite
  split <;> unfold bankRead <;> split <;> simp_all

theorem deflBank_other {off k : Nat} (h : k ≠ off) (v : Word) (d : Defl) :
    let e := deflWriteReg off v d
    bankRead (deflStatus e) e.config e.check 0 e.regs k = bankRead (deflStatus d) d.config d.check 0 d.regs k := by
  unfold deflWriteReg
  split_ifs with h8
  · subst h8
    unfold bankRead
    split <;> simp_all [deflStatus]
  · exact bankRead_streamWrite_other h ..

theorem inflBank_other {off k : Nat} (h : k ≠ off) (v : Word) (i : Infl) :
    let e := inflWriteReg off v i
    bankRead (inflStatus e) e.config e.check e.dictid e.regs k =
      bankRead (inflStatus i) i.config i.check i.dictid i.regs k := by
  unfold inflWriteReg
  split_ifs with h8
  · subst h8
    unfold bankRead
    split <;> simp_all [inflStatus]
  · exact bankRead_streamWrite_other h ..

theorem cksRead_other {off k : Nat} (h : k ≠ off) (v : Word) (c : Cks) :
    cksRead (cksWriteReg off v c) k = cksRead c k := by
  unfold cksWriteReg
  split <;> unfold cksRead <;> split <;> simp_all [cksStatus]

/-- The host-owned offsets of an engine bank (R22). -/
def bankRw : List Nat := [0x08, 0x10, 0x14, 0x18, 0x1C, 0x20, 0x24, 0x28, 0x2C]

/-- The host-owned offsets of the `CKS` bank (R23). -/
def cksRw : List Nat := [0x10, 0x14, 0x20, 0x24]

theorem mem_rwOffsets_iff (off : BitVec 12) :
    off ∈ rwOffsets ↔
      (off.toNat / 256 < 2 ∧ off.toNat % 256 ∈ bankRw) ∨ (off.toNat / 256 = 2 ∧ off.toNat % 256 ∈ cksRw) := by
  simp only [rwOffsets, bankRw, cksRw, List.mem_cons, List.not_mem_nil, or_false, ← BitVec.toNat_inj, BitVec.reduceToNat]
  omega

theorem not_mem_listedOffsets {off : BitVec 12} (h : off ∉ listedOffsets) :
    off ∉ rwOffsets ∧ (off.toNat / 256 = 0 → off.toNat % 256 ∉ [0x04, 0x30]) ∧
    (off.toNat / 256 = 1 → off.toNat % 256 ∉ [0x04, 0x30, 0x34]) ∧ (off.toNat / 256 = 2 → off.toNat % 256 ≠ 0x04) := by
  simp only [listedOffsets, List.mem_append, not_or] at h
  obtain ⟨hrw, hro⟩ := h
  refine ⟨hrw, ?_⟩
  simp only [List.mem_cons, List.not_mem_nil, or_false, ← BitVec.toNat_inj, BitVec.reduceToNat] at hro ⊢
  omega

theorem readReg_writeReg_other {off off' : BitVec 12} (h : off' ≠ off) (v : Word) (s : State) :
    readReg off' (writeReg off v s) = readReg off' s := by
  have hn : off'.toNat ≠ off.toNat := fun e => h (BitVec.eq_of_toNat_eq e)
  have hk : off'.toNat / 256 = off.toNat / 256 → off'.toNat % 256 ≠ off.toNat % 256 := by omega
  unfold writeReg
  split <;> rename_i hb <;> unfold readReg
  · split
    · exact deflBank_other (hk (by omega)) v s.defl
    all_goals rfl
  · split
    case h_2 => exact inflBank_other (hk (by omega)) v s.infl
    all_goals rfl
  · split
    case h_3 => exact cksRead_other (hk (by omega)) v s.cks
    all_goals rfl
  · rfl

theorem bankRead_streamWrite_self {k : Nat} (h : k ∈ bankRw) (hc : k ≠ 0x08) (status config check dictid v : Word)
    (r : StreamRegs) :
    bankRead status config check dictid (streamWrite k v r) k = v := by
  simp only [bankRw, List.mem_cons, List.not_mem_nil, or_false] at h
  rcases h with rfl | rfl | rfl | rfl | rfl | rfl | rfl | rfl | rfl <;> simp [bankRead, streamWrite] at *

theorem cksRead_self {k : Nat} (h : k ∈ cksRw) (v : Word) (c : Cks) : cksRead (cksWriteReg k v c) k = v := by
  simp only [cksRw, List.mem_cons, List.not_mem_nil, or_false] at h
  rcases h with rfl | rfl | rfl | rfl <;> rfl

theorem readReg_writeReg_self {off : BitVec 12} (h : off ∈ rwOffsets) (v : Word) (s : State) :
    readReg off (writeReg off v s) = v := by
  rw [mem_rwOffsets_iff] at h
  have hb : off.toNat / 256 < 2 → off.toNat / 256 = 0 ∨ off.toNat / 256 = 1 := by omega
  obtain ⟨hlt, hm⟩ | ⟨hb, hm⟩ := h
  · obtain hb | hb := hb hlt <;> simp only [readReg, writeReg, hb]
    · simp only [deflWriteReg]
      split_ifs with h8
      · rw [h8]; rfl
      · exact bankRead_streamWrite_self hm h8 ..
    · simp only [inflWriteReg]
      split_ifs with h8
      · rw [h8]; rfl
      · exact bankRead_streamWrite_self hm h8 ..
  · simp only [readReg, writeReg, hb]
    exact cksRead_self hm ..

theorem commandPort_of_rw {off : BitVec 12} (h : off ∈ rwOffsets) : commandPort off = none := by
  rw [mem_rwOffsets_iff] at h
  unfold commandPort
  split <;> simp_all [bankRw, cksRw]

theorem streamWrite_of_not_mem {k : Nat} (h : k ∉ bankRw) (v : Word) (r : StreamRegs) : streamWrite k v r = r := by
  unfold streamWrite
  split <;> simp [bankRw] at h ⊢

theorem cksWriteReg_of_not_mem {k : Nat} (h : k ∉ cksRw) (v : Word) (c : Cks) : cksWriteReg k v c = c := by
  unfold cksWriteReg
  split <;> simp [cksRw] at h ⊢

theorem deflWriteReg_of_not_mem {k : Nat} (h : k ∉ bankRw) (v : Word) (d : Defl) : deflWriteReg k v d = d := by
  rw [deflWriteReg, if_neg (by rintro rfl; exact h (by decide)), streamWrite_of_not_mem h]

theorem inflWriteReg_of_not_mem {k : Nat} (h : k ∉ bankRw) (v : Word) (i : Infl) : inflWriteReg k v i = i := by
  rw [inflWriteReg, if_neg (by rintro rfl; exact h (by decide)), streamWrite_of_not_mem h]

theorem writeReg_of_not_mem {off : BitVec 12} (h : off ∉ rwOffsets) (v : Word) (s : State) : writeReg off v s = s := by
  rw [mem_rwOffsets_iff] at h
  unfold writeReg
  split <;> rename_i hb
  · rw [deflWriteReg_of_not_mem (by simpa [hb] using h)]
  · rw [inflWriteReg_of_not_mem (by simpa [hb] using h)]
  · rw [cksWriteReg_of_not_mem (by simpa [hb] using h)]
  · rfl

theorem bankRead_of_not_mem {k : Nat} (h : k ∉ bankRw) (h4 : k ≠ 0x04) (h30 : k ≠ 0x30)
    (status config check dictid : Word) (r : StreamRegs) :
    bankRead status config check dictid r k = if k = 0x34 then dictid else 0 := by
  unfold bankRead
  split <;> simp_all [bankRw]

theorem cksRead_of_not_mem {k : Nat} (h : k ∉ cksRw) (h4 : k ≠ 0x04) (c : Cks) : cksRead c k = 0 := by
  unfold cksRead
  split <;> simp_all [cksRw]

theorem readReg_of_not_listed {off : BitVec 12} (h : off ∉ listedOffsets) (s : State) : readReg off s = 0 := by
  obtain ⟨h1, h2, h3, h4⟩ := not_mem_listedOffsets h
  rw [mem_rwOffsets_iff] at h1
  simp only [List.mem_cons, List.not_mem_nil, or_false] at h2 h3
  unfold readReg
  split <;> rename_i hb
  · rw [bankRead_of_not_mem (by simpa [hb] using h1) (by omega) (by omega), ite_self]
  · rw [bankRead_of_not_mem (by simpa [hb] using h1) (by omega) (by omega), if_neg (by omega)]
  · exact cksRead_of_not_mem (by simpa [hb] using h1) (by omega) _
  · rfl

theorem deflWriteReg_frame (k : Nat) (v : Word) (d : Defl) :
    { deflWriteReg k v d with config := d.config, regs := d.regs } = d := by
  unfold deflWriteReg
  split_ifs <;> rfl

theorem inflWriteReg_frame (k : Nat) (v : Word) (i : Infl) :
    { inflWriteReg k v i with config := i.config, regs := i.regs } = i := by
  unfold inflWriteReg
  split_ifs <;> rfl

theorem cksWriteReg_ec (k : Nat) (v : Word) (c : Cks) : (cksWriteReg k v c).ec = c.ec := by
  unfold cksWriteReg
  split <;> rfl

theorem writeReg_frame (off : BitVec 12) (v : Word) (s : State) :
    { (writeReg off v s).defl with config := s.defl.config, regs := s.defl.regs } = s.defl ∧
      { (writeReg off v s).infl with config := s.infl.config, regs := s.infl.regs } = s.infl ∧
      (writeReg off v s).cks.ec = s.cks.ec ∧
      writeReg off v s =
        { s with defl := (writeReg off v s).defl, infl := (writeReg off v s).infl, cks := (writeReg off v s).cks } := by
  unfold writeReg
  split
  · exact ⟨deflWriteReg_frame _ v s.defl, rfl, rfl, rfl⟩
  · exact ⟨rfl, inflWriteReg_frame _ v s.infl, rfl, rfl⟩
  · exact ⟨rfl, rfl, cksWriteReg_ec _ v s.cks, rfl⟩
  · exact ⟨rfl, rfl, rfl, rfl⟩

theorem serve_writeReg {off : BitVec 12} (h : commandPort off = none) (v : Word) (s : State) :
    serve (.writeReg off v) s = .next (writeReg off v s) := by
  simp only [serve, h]

end Sys2Proof.Machine

open Sys2Proof Sys2Proof.Machine

/-- Settles O6: a read finds what the last write stored, and other offsets read as before. -/
theorem registerAccess : Obligations.RegisterAccess := by
  refine ⟨fun s => ?_, fun a b s hw => ?_, fun a s => ?_, fun s off v => ?_⟩
  · simp only [← lowWord_eq, ← highWord_eq]
    exact ⟨⟨rfl, rfl, rfl, rfl, rfl, rfl, rfl, rfl, rfl, rfl, rfl⟩,
      ⟨rfl, rfl, rfl, rfl, rfl, rfl, rfl, rfl, rfl, rfl, rfl⟩, rfl, rfl, rfl, rfl, rfl, rfl, rfl⟩
  · exact ⟨storeIn a b s, rfl, rfl, memRead_memWrite_self hw _ _, fun x hx => memRead_memWrite_other _ _ hx⟩
  · rw [BitVec.ofNat_toNat]
    rfl
  · refine ⟨⟨_, rfl, rfl⟩, fun h => readReg_of_not_listed h s, fun h => ?_, fun h hp => ?_, fun p i hp hd => ?_⟩
    · obtain ⟨hd, hi, hc, hs⟩ := writeReg_frame off v s
      exact ⟨_, serve_writeReg (commandPort_of_rw h) v s, readReg_writeReg_self h v s,
        fun off' ho => readReg_writeReg_other ho v s, hd, hi, hc, hs⟩
    · rw [serve_writeReg hp, writeReg_of_not_mem h]
    · simp only [serve, hp, runCommand, hd]

end

section
/-! PROOFS. The bit writer and the Huffman builder within their ranges: no operation leaves bits beyond the count (R201), and a
planned block fits the fields it is emitted in (R352). -/

namespace Sys2Proof.Machine

/-! ## The bit writer -/

/-- The accumulator holds no bits beyond its count (R201). -/
def Defl.BitsOk (d : Defl) : Prop := d.bitCnt ≤ 7 ∧ d.bitBuf < 2 ^ d.bitCnt

theorem revBits_lt (n c : Nat) : revBits n c < 2 ^ n := by
  induction n generalizing c with
  | zero => simp [revBits]
  | succ n ih =>
    have := ih (c / 2)
    obtain h | h := Nat.mod_two_eq_zero_or_one c <;> simp only [revBits, h, Nat.pow_succ] <;> omega

theorem Defl.BitsOk.bwPut {v n : Nat} {d : Defl} (h : d.BitsOk) (hv : v < 2 ^ n) : (bwPut v n d).BitsOk := by
  obtain ⟨-, hb⟩ := h
  refine ⟨Nat.le_of_lt_succ (Nat.mod_lt _ (by decide)), ?_⟩
  have hacc : d.bitBuf + v * 2 ^ d.bitCnt < 2 ^ (d.bitCnt + n) := calc
    d.bitBuf + v * 2 ^ d.bitCnt < (v + 1) * 2 ^ d.bitCnt := by rw [Nat.succ_mul]; omega
    _ ≤ 2 ^ n * 2 ^ d.bitCnt := Nat.mul_le_mul_right _ hv
    _ = 2 ^ (d.bitCnt + n) := by rw [← Nat.pow_add, Nat.add_comm]
  rw [bwPut_bitBuf, bwPut_bitCnt, Nat.div_lt_iff_lt_mul (Nat.two_pow_pos _), ← Nat.pow_add, Nat.mod_add_div]
  exact hacc

theorem Defl.BitsOk.bwPutcode {d : Defl} (h : d.BitsOk) (c n : Nat) : (bwPutcode c n d).BitsOk := h.bwPut (revBits_lt n c)

theorem Defl.BitsOk.bwAlign {d : Defl} (h : d.BitsOk) : (bwAlign d).BitsOk := by
  unfold Machine.bwAlign
  split_ifs
  · exact ⟨Nat.zero_le _, Nat.zero_lt_one⟩
  · exact h

theorem Defl.BitsOk.marker {d : Defl} (h : d.BitsOk) (f : Flush) : (marker f d).BitsOk := by
  cases f with
  | sync | full => exact (((h.bwPut (by decide)).bwAlign).bwPut (by decide)).bwPut (by decide)
  | part => exact (h.bwPut (by decide)).bwPutcode _ _
  | none | block | finish | trees => exact h

/-! ## The extra bits of a match fit (R145, R346) -/

theorem lt_of_largestLe {base : List Nat} {v n : Nat} (h : largestLe base v n + 1 < n) :
    v < base.getD (largestLe base v n + 1) 0 := by
  induction n with
  | zero => simp at h
  | succ n ih =>
    simp only [largestLe] at h ⊢
    split_ifs at h ⊢ with hb
    · omega
    · obtain hn | hn := Nat.lt_or_ge (largestLe base v n + 1) n
      · exact ih hn
      · have : largestLe base v n + 1 = n := by omega
        rw [this]
        omega

theorem largestLe_lt {base : List Nat} {v n : Nat} (h : 0 < n) : largestLe base v n < n := by
  induction n with
  | zero => exact h
  | succ n ih =>
    simp only [largestLe]
    split_ifs
    · exact Nat.lt_succ_self n
    · obtain rfl | hn := Nat.eq_zero_or_pos n
      · exact Nat.zero_lt_one
      · exact (ih hn).trans (Nat.lt_succ_self n)

/-- The extra value of a length (R145, R346). -/
theorem lenXb_fits {len : Nat} (h : len ≤ 258) : len - lenBase.getD (lsymOf len) 0 < 2 ^ lenXb.getD (lsymOf len) 0 := by
  unfold lsymOf
  split_ifs with h258
  · subst h258
    decide
  · have hstep : ∀ i < 27, lenBase.getD (i + 1) 0 ≤ lenBase.getD i 0 + 2 ^ lenXb.getD i 0 := by decide
    have hlt : largestLe lenBase len 28 < 28 := largestLe_lt (by decide)
    have hnext := lt_of_largestLe (base := lenBase) (v := len) (n := 28)
    generalize largestLe lenBase len 28 = i at *
    have hpos := Nat.two_pow_pos (lenXb.getD i 0)
    obtain hi | rfl : i < 27 ∨ i = 27 := by omega
    · have := hstep i hi
      have := hnext (by omega)
      omega
    · simp [lenBase, lenXb]
      omega

/-- The extra value of a distance (R145, R346). -/
theorem distXb_fits {dist : Nat} (h : dist ≤ 32768) :
    dist - distBase.getD (dsymOf dist) 0 < 2 ^ distXb.getD (dsymOf dist) 0 := by
  unfold dsymOf
  have hstep : ∀ i < 29, distBase.getD (i + 1) 0 ≤ distBase.getD i 0 + 2 ^ distXb.getD i 0 := by decide
  have hlt : largestLe distBase dist 30 < 30 := largestLe_lt (by decide)
  have hnext := lt_of_largestLe (base := distBase) (v := dist) (n := 30)
  generalize largestLe distBase dist 30 = i at *
  have hpos := Nat.two_pow_pos (distXb.getD i 0)
  obtain hi | rfl : i < 29 ∨ i = 29 := by omega
  · have := hstep i hi
    have := hnext (by omega)
    omega
  · simp [distBase, distXb]
    omega

/-! ## Emitting a block (R352, R354) -/

theorem Defl.BitsOk.foldl {α : Type} {g : Defl → α → Defl} {l : List α}
    (hg : ∀ x ∈ l, ∀ d : Defl, d.BitsOk → (g d x).BitsOk) {d : Defl} (h : d.BitsOk) : (l.foldl g d).BitsOk :=
  List.foldlRecOn l g h fun d hd x hx => hg x hx d hd

theorem getD_le {l : List Nat} {n : Nat} (h : ∀ x ∈ l, x ≤ n) (i : Nat) : l.getD i 0 ≤ n := by
  rw [List.getD_eq_getElem?_getD]
  cases hi : l[i]? with
  | none => exact Nat.zero_le n
  | some x => exact h x (List.mem_of_getElem? hi)

theorem Defl.BitsOk.emitTrees {b : Blk} (hb : b.Inv) {d : Defl} (h : d.BitsOk) : (emitTrees b d).BitsOk := by
  obtain ⟨hlit, hdist, hclen, hcl, hrl, -⟩ := hb
  have h3 : (Machine.bwPut (b.hclen - 4) 4 (Machine.bwPut (b.hdist - 1) 5 (Machine.bwPut (b.hlit - 257) 5 d))).BitsOk :=
    ((h.bwPut (by omega)).bwPut (by omega)).bwPut (by omega)
  have hlens := h3.foldl (l := clOrder.take b.hclen) (g := fun d s => Machine.bwPut (b.clLens.getD s 0) 3 d) fun s _ d hd =>
    hd.bwPut (Nat.lt_succ_of_le (getD_le hcl s))
  exact hlens.foldl fun q hq d hd => (hd.bwPutcode _ _).bwPut (hrl q hq)

theorem Defl.BitsOk.hbEmitHeader {b : Blk} (hb : b.Inv) {d : Defl} (h : d.BitsOk) : (hbEmitHeader b d).BitsOk := by
  have hfinal : b.final.toNat < 2 ^ 1 := Nat.lt_succ_of_le (bool_toNat_le _)
  have htyp : blockTypeNum b.typ < 2 ^ 2 := by cases b.typ <;> decide
  have h1 := (h.bwPut hfinal).bwPut htyp
  unfold Machine.hbEmitHeader
  cases ht : b.typ with
  | stored =>
    obtain ⟨-, -, -, -, -, -, hraw⟩ := hb
    have hlen : b.raw.length ≤ 65535 := hraw ht
    rw [ht] at h1
    exact (h1.bwAlign.bwPut (by omega)).bwPut (by omega)
  | fixed => rw [ht] at h1; exact h1
  | dynamic => rw [ht] at h1; exact h1.emitTrees hb

theorem Defl.BitsOk.emitSymbol (lc ll dc dl : List Nat) {d : Defl} (h : d.BitsOk) {t : Token} (ht : tokenOk t = true) :
    (emitSymbol lc ll dc dl d t).BitsOk := by
  cases t with
  | lit b => exact h.bwPutcode _ _
  | mat len dist =>
    obtain ⟨-, hlen, hdist⟩ := of_decide_eq_true ht
    exact (((h.bwPutcode _ _).bwPut (lenXb_fits hlen)).bwPutcode _ _).bwPut (distXb_fits hdist)

theorem Defl.BitsOk.hbEmitSymbols {b : Blk} (hb : b.Inv) {d : Defl} (h : d.BitsOk) : (hbEmitSymbols b d).BitsOk := by
  obtain ⟨-, -, -, -, -, htoks, -⟩ := hb
  unfold Machine.hbEmitSymbols
  split
  · exact h.foldl fun x _ d hd => hd.bwPut x.isLt
  · exact (h.foldl fun t ht d hd => hd.emitSymbol _ _ _ _ (htoks t ht)).bwPutcode _ _
  · exact (h.foldl fun t ht d hd => hd.emitSymbol _ _ _ _ (htoks t ht)).bwPutcode _ _

/-! ## The lengths `HB.BUILD` gives are within the limit (R333) -/

theorem ceilLog_le {fuel m k : Nat} (h : m ≤ 2 ^ k) : ceilLog fuel m ≤ k := by
  induction fuel generalizing m k with
  | zero => exact Nat.zero_le k
  | succ fuel ih =>
    simp only [ceilLog]
    split_ifs with h1
    · exact Nat.zero_le k
    · cases k with
      | zero => omega
      | succ k => exact Nat.succ_le_succ (ih (by rw [Nat.pow_succ] at h; omega))

theorem balancedLens_le {m max : Nat} (h : m ≤ 2 ^ max) : ∀ l ∈ balancedLens m, l ≤ max := by
  have hk : ceilLog m m ≤ max := ceilLog_le h
  intro l hl
  simp only [balancedLens, List.mem_append, List.mem_replicate] at hl
  omega

theorem mem_handOut_le {b : Nat} {bl : List Nat} {l : Nat} (h : l ∈ handOut b bl) : l < b + bl.length := by
  induction bl generalizing b with
  | nil => simp [handOut] at h
  | cons x bl ih =>
    simp only [handOut, List.mem_append, List.length_cons] at h ⊢
    obtain h | h := h
    · split_ifs at h
      · simp at h
      · have := (List.mem_replicate.1 h).2
        omega
    · have := ih h
      omega

@[simp] theorem bump_length (i : Nat) (l : List Nat) : (bump i l).length = l.length := List.length_set

@[simp] theorem dent_length (i : Nat) (l : List Nat) : (dent i l).length = l.length := List.length_set

theorem foldl_bump_length {α : Type} (g : α → Nat) (xs : List α) (l : List Nat) :
    (xs.foldl (fun l x => bump (g x) l) l).length = l.length :=
  List.foldlRecOn (motive := fun m : List Nat => m.length = l.length) xs _ rfl fun _ h _ _ => (bump_length _ _).trans h

@[simp] theorem clampCounts_length (max : Nat) (depths : List Nat) : (clampCounts max depths).length = max + 1 :=
  (foldl_bump_length (fun dep => min dep max) depths _).trans List.length_replicate

theorem rebalance_length {max k : Nat} {bl bl' : List Nat} (h : rebalance max k bl = some bl') :
    bl'.length = bl.length := by
  induction k generalizing bl with
  | zero => cases h; rfl
  | succ k ih =>
    simp only [rebalance] at h
    split_ifs at h
    simpa [rebalanceRound] using ih h

theorem usedCount_le (f : List Nat) : usedCount f ≤ f.length := List.length_filter_le _ _

theorem builtLens_le {f : List Nat} {max : Nat} (h : f.length ≤ 2 ^ max) : ∀ l ∈ builtLens f max, l ≤ max := by
  intro l hl
  simp only [builtLens] at hl
  split at hl
  · rename_i bl hbl
    have := mem_handOut_le hl
    rw [rebalance_length hbl, clampCounts_length] at this
    omega
  · exact balancedLens_le ((usedCount_le f).trans h) l hl

theorem mem_assignLens {order : List (Nat × Nat)} {ls acc : List Nat} {l : Nat} (h : l ∈ assignLens order ls acc) :
    l ∈ ls ∨ l ∈ acc := by
  induction order generalizing ls acc with
  | nil => exact .inr h
  | cons s ss ih =>
    cases ls with
    | nil => exact .inr h
    | cons x ls =>
      obtain h | h := ih h
      · exact .inl (List.mem_cons_of_mem _ h)
      · obtain h | rfl := List.mem_or_eq_of_mem_set h
        · exact .inr h
        · exact .inl List.mem_cons_self

@[simp] theorem forceOne_length (f : List Nat) : (forceOne f).length = f.length := by
  induction f with
  | nil => rfl
  | cons x xs ih =>
    simp only [forceOne]
    split_ifs <;> simp [ih]

@[simp] theorem forceTwo_length (f : List Nat) : (forceTwo f).length = f.length := by
  simp only [forceTwo]
  split_ifs <;> simp

/-- R333: no length is above the limit. -/
theorem hbBuild_le {freq : List Nat} {max : Nat} (h : freq.length ≤ 2 ^ max) : ∀ l ∈ hbBuild freq max, l ≤ max := by
  intro l hl
  simp only [hbBuild] at hl
  split_ifs at hl
  · obtain ⟨-, -, rfl⟩ := List.mem_map.1 hl
    exact Nat.min_le_left _ _
  · obtain hl | hl := mem_assignLens hl
    · exact builtLens_le (by simpa using h) l hl
    · exact (List.mem_replicate.1 hl).2 ▸ Nat.zero_le max

/-! ## The extra values of `HB.RLE` fit (R344) -/

/-- The extra values are within the width of their symbols (R146). -/
def pairsFit (l : List (Nat × Nat)) : Prop := ∀ q ∈ l, q.2 < 2 ^ clXb q.1

theorem pairsFit.append {xs ys : List (Nat × Nat)} (hx : pairsFit xs) (hy : pairsFit ys) : pairsFit (xs ++ ys) :=
  fun q hq => (List.mem_append.1 hq).elim (hx q) (hy q)

theorem pairsFit.cons {q : Nat × Nat} {l : List (Nat × Nat)} (hq : q.2 < 2 ^ clXb q.1) (hl : pairsFit l) :
    pairsFit (q :: l) :=
  List.forall_mem_cons.2 ⟨hq, hl⟩

theorem pairsFit_replicate (r v : Nat) : pairsFit (List.replicate r (v, 0)) := by
  intro q hq
  rw [(List.mem_replicate.1 hq).2]
  exact Nat.two_pow_pos _

theorem pairsFit_nil : pairsFit [] := fun _ h => nomatch h

theorem rleZeros_fit (k r : Nat) : pairsFit (rleZeros k r) := by
  induction k generalizing r with
  | zero => exact pairsFit_nil
  | succ k ih =>
    simp only [rleZeros]
    split_ifs with h11 h3
    · exact .cons (show min r 138 - 11 < 128 by omega) (ih _)
    · exact .cons (show r - 3 < 8 by omega) pairsFit_nil
    · exact pairsFit_replicate _ _

theorem rleCopies_fit (v k r : Nat) : pairsFit (rleCopies v k r) := by
  induction k generalizing r with
  | zero => exact pairsFit_nil
  | succ k ih =>
    simp only [rleCopies]
    split_ifs
    · exact .cons (show min r 6 - 3 < 4 by omega) (ih _)
    · exact pairsFit_replicate _ _

theorem rleRun_fit (v r : Nat) : pairsFit (rleRun v r) := by
  unfold rleRun
  split_ifs
  · exact rleZeros_fit _ _
  · exact .cons (Nat.two_pow_pos _) (rleCopies_fit _ _ _)

theorem rleFrom_fit (v r : Nat) (ls : Lens) : pairsFit (rleFrom v r ls) := by
  induction ls generalizing v r with
  | nil => exact rleRun_fit v r
  | cons l ls ih =>
    simp only [rleFrom]
    split_ifs
    · exact ih _ _
    · exact (rleRun_fit v r).append (ih _ _)

theorem hbRle_fit (lens : Lens) : pairsFit (hbRle lens) := by
  cases lens with
  | nil => exact pairsFit_nil
  | cons l ls => exact rleFrom_fit _ _ _

/-! ## `HB.PLAN` (R348) -/

theorem trimTo_le (lens : Lens) {low n : Nat} (h : low ≤ n) : trimTo lens low n ≤ n := by
  induction n with
  | zero => exact h
  | succ n ih =>
    simp only [trimTo]
    split_ifs
    · exact h
    · exact (ih (by omega)).trans (Nat.le_succ n)
    · exact le_rfl

theorem hbPlan_widths (toks : List Token) (b : Blk) :
    (hbPlan toks b).hlit ≤ 286 ∧ (hbPlan toks b).hdist ≤ 30 ∧ (hbPlan toks b).hclen ≤ 19 := by
  simp only [hbPlan, hclenOf]
  exact ⟨trimTo_le _ (by decide), trimTo_le _ (by decide), trimTo_le _ (by decide)⟩

theorem hbPlan_rl_fit (toks : List Token) (b : Blk) : pairsFit (hbPlan toks b).rl := (hbRle_fit _).append (hbRle_fit _)

theorem clFreq_length (rl : List (Nat × Nat)) :
    (clFreq rl).length = 19 := foldl_bump_length (fun q : Nat × Nat => q.1) rl _

theorem hbPlan_clLens_le (toks : List Token) (b : Blk) : ∀ l ∈ (hbPlan toks b).clLens, l ≤ 7 :=
  hbBuild_le (freq := clFreq (hbPlan toks b).rl) (by rw [clFreq_length]; decide)

theorem Blk.Inv.hbPlan {b : Blk} (h : b.Inv) (toks : List Token) : (hbPlan toks b).Inv := by
  obtain ⟨-, -, -, -, -, htoks, hraw⟩ := h
  obtain ⟨hlit, hdist, hclen⟩ := hbPlan_widths toks b
  exact ⟨hlit.trans (by decide), hdist.trans (by decide), hclen, hbPlan_clLens_le toks b, hbPlan_rl_fit toks b, htoks, hraw⟩

end Sys2Proof.Machine

end

section
/-! PROOFS. `DEFL` keeps its invariant: the tokeniser (R301 to R306), the input, the blocks, the work loop, and so each of its
instructions. -/

namespace Sys2Proof.Machine

/-! ## The invariant of `DEFL`, with the room in the open block apart -/

/-- What `Defl.Inv` says but for the room left in the open block, and that a match is deferred in lazy mode only. -/
structure Defl.Core (pr : Params) (d : Defl) : Prop where
  config : d.ConfigInv
  bits : d.BitsOk
  sticky : d.sticky = .ok ∨ d.sticky = .streamError
  ec : deflCodes d.ec
  sat : d.sat ≤ 5
  cursor : d.CursorInv
  tokens : ∀ t ∈ d.syms, tokenOk t = true
  stage : d.StageInv
  blk : d.blk.Inv
  head : sparseWf none d.head
  prev : sparseWf none d.prev
  isize : d.isize = BitVec.ofNat 32 (dataEnd d)
  check : d.check = d.data.foldl (checkStep d.wrap) (checkInit d.wrap)
  mode : d.deferred.valid = true → stepMode pr d = .lazy

/-- The open block has room for its tokens, and at level 0 for its bytes (R43, R400). -/
structure Defl.Sound (pr : Params) (d : Defl) : Prop extends d.Core pr where
  room : d.syms.length ≤ symCap d.mem - 1
  span : d.level = 0 → blockSpan d ≤ min (wsize d.wbits) storedMax

theorem Defl.sound_iff {pr : Params} {d : Defl} :
    d.Sound pr ↔ d.Inv ∧ (d.deferred.valid = true → stepMode pr d = .lazy) := by
  constructor
  · intro h
    exact ⟨⟨h.config, h.bits, h.sticky, h.ec, h.sat, h.cursor, ⟨h.room, h.tokens, h.span⟩, h.stage, h.blk, h.head, h.prev,
      h.isize, h.check⟩, h.mode⟩
  · rintro ⟨⟨config, bits, sticky, ec, sat, cursor, ⟨room, tokens, span⟩, stage, blk, head, prev, isize, check⟩, mode⟩
    exact { config, bits, sticky, ec, sat, cursor, room, tokens, span, stage, blk, head, prev, isize, check, mode }

variable {pr : Params} {d e : Defl}

/-! ## What leaves the invariant as it was -/

theorem Defl.Sound.of_onlyBits (h : d.Sound pr) (hf : onlyBits d e) (hb : e.BitsOk) : e.Sound pr := by
  rw [hf]
  exact { h with bits := hb }

theorem Defl.Sound.withRegs (h : d.Sound pr) (r : StreamRegs) : Defl.Sound pr { d with regs := r } := { h with }

/-- The chains are in canonical form wherever they were (R40, R41). -/
def chained (d e : Defl) : Prop :=
  onlyChains d e ∧ (sparseWf none d.head → sparseWf none d.prev → sparseWf none e.head ∧ sparseWf none e.prev)

theorem chained.trans {a b c : Defl} (h : chained a b) (k : chained b c) : chained a c :=
  ⟨h.1.trans k.1, fun hh hp => have ⟨kh, kp⟩ := h.2 hh hp; k.2 kh kp⟩

theorem chained.refl (d : Defl) : chained d d := ⟨rfl, fun hh hp => ⟨hh, hp⟩⟩

theorem chained_insertOne (d : Defl) : chained d (insertOne d) :=
  ⟨rfl, fun hh hp => ⟨sparseSet_wf _ hh _ _, sparseSet_wf _ hp _ _⟩⟩

theorem chained_lzInsertLoop (k p : Nat) (d : Defl) : chained d (lzInsertLoop k p d) := by
  induction k generalizing d with
  | zero => exact .refl d
  | succ k ih =>
    simp only [lzInsertLoop]
    split_ifs
    · exact (chained_insertOne d).trans (ih _)
    · exact .refl d

theorem chained_lzInsert (p : Nat) (d : Defl) : chained d (lzInsert p d) := chained_lzInsertLoop _ _ _

theorem chained_lzInsertBelow (p : Nat) (d : Defl) : chained d (lzInsertBelow p d) := by
  unfold lzInsertBelow
  split_ifs
  · exact .refl d
  · exact chained_lzInsert _ _

theorem chained_insertBoth (p : Nat) (d : Defl) : chained d (lzInsert p (lzInsertBelow p d)) :=
  (chained_lzInsertBelow p d).trans (chained_lzInsert p _)

theorem Defl.Core.of_chained (h : d.Core pr) (hc : chained d e) : e.Core pr := by
  obtain ⟨hf, hw⟩ := hc
  obtain ⟨head, prev⟩ := hw h.head h.prev
  rw [hf]
  exact { h with head, prev }

theorem Defl.Sound.of_chained (h : d.Sound pr) (hc : chained d e) : e.Sound pr := by
  obtain ⟨hf, hw⟩ := hc
  obtain ⟨head, prev⟩ := hw h.head h.prev
  rw [hf]
  exact { h with head, prev }

theorem Defl.Sound.lzClear (h : d.Sound pr) : (lzClear d).Sound pr :=
  { h with head := ⟨.nil, fun _ hm => nomatch hm⟩ }

/-! ## What a search finds (R297 to R299) -/

theorem commonPrefix_le (m : Nat) (xs ys : List Byte) : commonPrefix m xs ys ≤ m := by
  induction m generalizing xs ys with
  | zero => simp [commonPrefix]
  | succ m ih =>
    cases xs with
    | nil => simp [commonPrefix]
    | cons x xs =>
      cases ys with
      | nil => simp [commonPrefix]
      | cons y ys =>
        simp only [commonPrefix]
        split_ifs
        · exact Nat.succ_le_succ (ih xs ys)
        · exact Nat.zero_le _

theorem runLen_le (b : Byte) (m : Nat) (xs : List Byte) : runLen b m xs ≤ m := by
  induction m generalizing xs with
  | zero => simp [runLen]
  | succ m ih =>
    cases xs with
    | nil => simp [runLen]
    | cons x xs =>
      simp only [runLen]
      split_ifs
      · exact Nat.succ_le_succ (ih xs)
      · exact Nat.zero_le _

/-- A match found for position `p` is in the ranges of R42 and ends within the data. -/
def matchFits (d : Defl) (p : Nat) (m : Nat × Nat) : Prop :=
  3 ≤ m.1 → m.1 ≤ 258 ∧ m.2 ≤ 32768 ∧ p + m.1 ≤ dataEnd d

theorem matchFits_none (d : Defl) (p : Nat) : matchFits d p (0, 0) := fun h => absurd h (by decide)

/-- A candidate within the window, compared over no more than the data left. -/
theorem candidate_fits {p cand : Nat} (hw : d.wbits ≤ 15) (hp : 3 ≤ dataEnd d - p) (hc : ¬wsize d.wbits < p - cand) :
    matchFits d p (mlen d cand p (min maxMatch (dataEnd d - p)), p - cand) := by
  have hl : mlen d cand p (min maxMatch (dataEnd d - p)) ≤ min maxMatch (dataEnd d - p) := commonPrefix_le _ _ _
  have hsize : wsize d.wbits ≤ 2 ^ 15 := Nat.pow_le_pow_right (by decide) hw
  intro _
  simp only [maxMatch] at hl ⊢
  omega

theorem findLoop_fits {p nice n : Nat} {cand : Option Nat} {best : Nat × Nat} (hw : d.wbits ≤ 15) (hp : 3 ≤ dataEnd d - p)
    (hb : matchFits d p best) : matchFits d p (findLoop d p (min maxMatch (dataEnd d - p)) nice n cand best) := by
  induction n generalizing cand best with
  | zero => simpa [findLoop] using hb
  | succ n ih =>
    cases cand with
    | none => simpa [findLoop] using hb
    | some cand =>
      simp only [findLoop]
      split_ifs with hstop
      · exact hb
      · exact candidate_fits hw hp fun hc => hstop (.inl hc)
      · exact ih (candidate_fits hw hp fun hc => hstop (.inl hc))
      · exact ih hb

theorem keepMatch_fits {p : Nat} {m : Nat × Nat} (s : Strategy) (h : matchFits d p m) :
    matchFits d p (keepMatch s m) := by
  unfold keepMatch
  split_ifs
  · exact matchFits_none d p
  · exact matchFits_none d p
  · exact matchFits_none d p
  · exact h

theorem findChain_fits {p chain nice : Nat} (hw : d.wbits ≤ 15) : matchFits d p (findChain d p chain nice) := by
  unfold findChain
  split_ifs with hp
  · exact matchFits_none d p
  · exact keepMatch_fits _ (findLoop_fits hw (by omega) fun h => absurd h (by decide))

theorem findRle_fits {p : Nat} : matchFits d p (findRle d p) := by
  simp only [findRle]
  split_ifs with hp h3
  · exact matchFits_none d p
  · have hl := runLen_le (d.data.getD (p - 1) 0) (min maxMatch (dataEnd d - p)) (d.data.drop p)
    intro _
    simp only [maxMatch] at hl ⊢
    omega
  · exact matchFits_none d p

theorem lzFind_fits {p chain : Nat} (hw : d.wbits ≤ 15) : matchFits d p (lzFind pr p chain d) := by
  unfold lzFind
  split_ifs
  · exact findRle_fits
  · exact findChain_fits hw

theorem lazySearch_fits {p pl : Nat} (hw : d.wbits ≤ 15) : matchFits d p (lazySearch pr p pl d) := by
  simp only [lazySearch]
  split_ifs
  · exact matchFits_none d p
  · exact lzFind_fits hw
  · exact lzFind_fits hw

/-! ## One step of the tokeniser (R302 to R306) -/

/-- A deferred match that may stand when the next position is `q` (R42, R304). -/
def Deferred.fits (f : Deferred) (pr : Params) (d : Defl) (q : Nat) : Prop :=
  f.valid = true →
    (3 ≤ f.len ∧ f.len ≤ 258 ∧ f.dist ≤ 32768 ∧ q - 1 + f.len ≤ dataEnd d) ∧ stepMode pr d = .lazy

/-- What a step of the tokeniser can do: nothing, or, with the chains brought up to date, put out one token or put a match
off. -/
inductive Stepped (pr : Params) (d : Defl) : Defl → Prop
  | idle : Stepped pr d d
  | token (e : Defl) (t : Token) (q : Nat) (f : Deferred) (hc : chained d e) (ht : tokenOk t = true)
      (hq : d.emitPos + tokenLen t + f.valid.toNat = q) (hle : q ≤ dataEnd d) (hf : f.fits pr d q)
      (h0 : d.level = 0 → tokenLen t = 1) : Stepped pr d { emitToken t e with pos := q, deferred := f }
  | defer (e : Defl) (f : Deferred) (hc : chained d e) (hd : d.deferred.valid = false) (hv : f.valid = true)
      (hlt : d.pos < dataEnd d) (hf : f.fits pr d (d.pos + 1)) : Stepped pr d { e with deferred := f, pos := d.pos + 1 }

theorem stepMode_of_level_zero (h : d.level = 0) : stepMode pr d = .literal := if_pos h

theorem level_ne_zero {m : StepMode} (hm : stepMode pr d = m) (hl : m ≠ .literal) : d.level ≠ 0 := fun h0 =>
  hl (hm.symm.trans (stepMode_of_level_zero h0))

theorem Deferred.fits_of_not_valid {f : Deferred} (h : f.valid = false) (q : Nat) : f.fits pr d q :=
  fun hv => by simp [h] at hv

theorem Defl.Core.not_deferred (h : d.Core pr) {m : StepMode} (hm : stepMode pr d = m) (hl : m ≠ .lazy) :
    d.deferred.valid = false :=
  Bool.eq_false_iff.2 fun hv => hl (hm.symm.trans (h.mode hv))

theorem chained.deferred (h : chained d e) : e.deferred = d.deferred := by rw [h.1]

theorem chained.dataEnd (h : chained d e) : dataEnd e = dataEnd d := by rw [h.1]; rfl

theorem Defl.Core.wbits_le (h : d.Core pr) : d.wbits ≤ 15 := by
  obtain ⟨-, -, hw, -, -⟩ := h.config
  exact hw

theorem Defl.Core.wbits_le_of_chained (h : d.Core pr) (hc : chained d e) : e.wbits ≤ 15 := (h.of_chained hc).wbits_le

theorem Defl.Core.final_eq (h : d.Core pr) : d.blk.final = d.finishing := by
  obtain ⟨-, -, -, -, -, hf⟩ := h.stage
  exact hf

/-- A literal put out at `pos`, with no match deferred. -/
theorem Stepped.literal (h : d.Core pr) (hc : chained d e) (hlt : d.pos < dataEnd d) (hd : d.deferred.valid = false) :
    Stepped pr d { emitLit d.pos e with pos := d.pos + 1 } := by
  obtain ⟨-, hpos, -, -⟩ := h.cursor
  have he : e.deferred.valid = false := hc.deferred ▸ hd
  refine .token e _ _ e.deferred hc rfl ?_ hlt (Deferred.fits_of_not_valid he _) fun _ => rfl
  simp only [hd, he, tokenLen, Bool.toNat_false] at hpos ⊢
  omega

/-- A match put out that was found for `pos`, with none deferred. -/
theorem Stepped.found (h : d.Core pr) (hc : chained d e) {m : Nat × Nat} (hm : matchFits d d.pos m) (h3 : 3 ≤ m.1)
    (hd : d.deferred.valid = false) (h0 : d.level ≠ 0) :
    Stepped pr d { emitToken (.mat m.1 m.2) e with pos := d.pos + m.1 } := by
  obtain ⟨-, hpos, -, -⟩ := h.cursor
  obtain ⟨hlen, hdist, hend⟩ := hm h3
  have he : e.deferred.valid = false := hc.deferred ▸ hd
  refine .token e _ _ e.deferred hc (decide_eq_true ⟨h3, hlen, hdist⟩) ?_ hend (Deferred.fits_of_not_valid he _) fun hl =>
    absurd hl h0
  simp only [hd, he, tokenLen, Bool.toNat_false] at hpos ⊢
  omega

/-- The deferred match put out (R305, R306). -/
theorem Stepped.deferred (h : d.Core pr) (hc : chained d e) (hd : d.deferred.valid = true) :
    Stepped pr d { emitToken (.mat d.deferred.len d.deferred.dist) e with
      deferred := { d.deferred with valid := false }, pos := d.pos - 1 + d.deferred.len } := by
  obtain ⟨-, hpos, -, hr⟩ := h.cursor
  obtain ⟨h3, hlen, hdist, hend⟩ := hr hd
  refine .token e _ _ { d.deferred with valid := false } hc (decide_eq_true ⟨h3, hlen, hdist⟩) ?_ hend
    (Deferred.fits_of_not_valid rfl _) fun hl => absurd hl (level_ne_zero (h.mode hd) (by decide))
  simp only [hd, tokenLen, Bool.toNat_true, Bool.toNat_false] at hpos ⊢
  omega

theorem Stepped.greedy (h : d.Core pr) (hm : stepMode pr d = .greedy) (hlt : d.pos < dataEnd d) :
    Stepped pr d (stepGreedy pr d) := by
  have hd := h.not_deferred hm (by decide)
  have hc := chained_insertBoth d.pos d
  have hb := chained_lzInsertBelow d.pos d
  have hw := h.wbits_le_of_chained hb
  simp only [stepGreedy]
  split_ifs with h3
  · exact .found h hc (by simpa [matchFits, hb.dataEnd] using lzFind_fits hw) h3 hd (level_ne_zero hm (by decide))
  · exact .literal h hc hlt hd

theorem Stepped.lazyFresh (h : d.Core pr) (hm : stepMode pr d = .lazy) (hd : d.deferred.valid = false)
    (hlt : d.pos < dataEnd d) : Stepped pr d (stepLazyFresh pr d) := by
  have hc := chained_insertBoth d.pos d
  have hb := chained_lzInsertBelow d.pos d
  have hw := h.wbits_le_of_chained hb
  have hfit := lzFind_fits (pr := pr) (p := d.pos) (chain := (levelRow pr d.level).chain) hw
  simp only [stepLazyFresh]
  split_ifs with h3
  · obtain ⟨hlen, hdist, hend⟩ := hfit h3
    refine .defer _ _ hc hd rfl hlt fun _ => ⟨⟨h3, hlen, hdist, ?_⟩, hm⟩
    rwa [hb.dataEnd] at hend
  · exact .literal h hc hlt hd

theorem Stepped.lazyDeferred (h : d.Core pr) (hd : d.deferred.valid = true) (hlt : d.pos < dataEnd d) :
    Stepped pr d (stepLazyDeferred pr d) := by
  have hc := chained_insertBoth d.pos d
  have hb := chained_lzInsertBelow d.pos d
  have hw := h.wbits_le_of_chained hb
  have hfit := lazySearch_fits (pr := pr) (p := d.pos) (pl := d.deferred.len) hw
  obtain ⟨-, hpos, -, hr⟩ := h.cursor
  obtain ⟨hl3, -⟩ := hr hd
  simp only [stepLazyDeferred]
  split_ifs with hlonger
  · obtain ⟨hlen, hdist, hend⟩ := hfit (by omega)
    rw [hb.dataEnd] at hend
    refine .token _ _ _ _ hc rfl ?_ hlt (fun _ => ⟨⟨by simp only []; omega, hlen, hdist, hend⟩, h.mode hd⟩) fun _ => rfl
    simp only [hd, tokenLen, Bool.toNat_true] at hpos ⊢
    omega
  · exact .deferred h hc hd

/-- A step of the tokeniser, in whatever mode (R301). -/
theorem lzStep_stepped (h : d.Core pr) : Stepped pr d (lzStep pr d) := by
  unfold lzStep
  split_ifs with hlt hd hd
  · cases hm : stepMode pr d with
    | literal => exact .literal h (.refl d) hlt (h.not_deferred hm (by decide))
    | greedy => exact .greedy h hm hlt
    | lazy => exact .lazyDeferred h hd hlt
  · cases hm : stepMode pr d with
    | literal => exact .literal h (.refl d) hlt (h.not_deferred hm (by decide))
    | greedy => exact .greedy h hm hlt
    | lazy => exact .lazyFresh h hm (Bool.eq_false_iff.2 hd) hlt
  · exact .deferred h (.refl d) hd
  · exact .idle

/-- A step keeps all but the room in the open block, of which it takes one token at most, and at level 0 one byte (R302). -/
theorem Stepped.core (h : d.Core pr) (hs : Stepped pr d e) :
    e.Core pr ∧ e.syms.length ≤ d.syms.length + 1 ∧ (d.level = 0 → blockSpan e ≤ blockSpan d + 1) := by
  obtain ⟨hsum, hpos, hle, -⟩ := h.cursor
  cases hs with
  | idle => exact ⟨h, Nat.le_succ _, fun _ => Nat.le_succ _⟩
  | token e t q f hc ht hq hle hf h0 =>
    obtain ⟨head, prev⟩ := hc.2 h.head h.prev
    rw [hc.1]
    refine ⟨{ h with
      head, prev, cursor := ⟨?_, hq, hle, fun hv => (hf hv).1⟩, tokens := ?_, mode := fun hv => (hf hv).2 }, ?_, ?_⟩
    · simp only [emitToken_syms, emitToken_blockStart, emitToken_emitPos, List.map_append, List.sum_append,
        List.map_singleton, List.sum_singleton]
      omega
    · exact List.forall_mem_append.2 ⟨h.tokens, List.forall_mem_singleton.2 ht⟩
    · exact (List.length_append ..).le
    · intro hl
      have := h0 hl
      simp only [blockSpan, emitToken_emitPos, emitToken_blockStart]
      omega
  | defer e f hc hd hv hlt hf =>
    obtain ⟨head, prev⟩ := hc.2 h.head h.prev
    rw [hc.1]
    refine ⟨{ h with
      head, prev, cursor := ⟨hsum, ?_, hlt, fun hv => (hf hv).1⟩, mode := fun hv => (hf hv).2 }, Nat.le_succ _,
      fun _ => Nat.le_succ _⟩
    simp only [hd, hv, Bool.toNat_true, Bool.toNat_false] at hpos ⊢
    omega

/-- An open block over its room by no more than the step that filled it (R389; log 27). -/
structure Defl.Full (pr : Params) (d : Defl) : Prop extends d.Core pr where
  span : d.level = 0 → blockSpan d ≤ min (wsize d.wbits) storedMax + 1

theorem Defl.Core.sound_of_not_full (h : d.Core pr) (hf : blockFull d = false) : d.Sound pr := by
  simp only [blockFull, Bool.or_eq_false_iff, Bool.and_eq_false_iff, decide_eq_false_iff_not, Nat.not_le] at hf
  obtain ⟨hroom, hspan⟩ := hf
  exact { h with room := hroom.le, span := fun h0 => hspan.elim (absurd h0) Nat.le_of_lt }

theorem lzStep_full (h : d.Sound pr) : (lzStep pr d).Full pr := by
  obtain ⟨hcore, -, hspan⟩ := (lzStep_stepped h.toCore).core h.toCore
  refine { hcore with span := fun h0 => ?_ }
  rw [onlyTokens_lzStep pr d] at h0
  have hw : (lzStep pr d).wbits = d.wbits := by rw [onlyTokens_lzStep pr d]
  rw [hw]
  exact (hspan h0).trans (Nat.succ_le_succ (h.span h0))

/-- Where there is room for a token, a step keeps the invariant (R389). -/
theorem lzStep_sound (h : d.Core pr) (hf : blockFull d = false) : (lzStep pr d).Sound pr := by
  obtain ⟨hcore, hlen, hspan⟩ := (lzStep_stepped h).core h
  simp only [blockFull, Bool.or_eq_false_iff, Bool.and_eq_false_iff, decide_eq_false_iff_not, Nat.not_le] at hf
  obtain ⟨hroom, hfull⟩ := hf
  have ht := onlyTokens_lzStep pr d
  refine { hcore with room := ?_, span := fun h0 => ?_ }
  · have hm : (lzStep pr d).mem = d.mem := by rw [ht]
    rw [hm]
    omega
  · rw [ht] at h0
    have hw : (lzStep pr d).wbits = d.wbits := by rw [ht]
    rw [hw]
    exact (hspan h0).trans (hfull.elim (absurd h0) id)

/-- Tokenising leaves an open block that has room, or says that it is full (R389). -/
theorem tokenise_sound (f : Flush) (n : Nat) (h : d.Sound pr) :
    ((tokenise pr f n d).1 = true → (tokenise pr f n d).2.Full pr) ∧
      ((tokenise pr f n d).1 = false → (tokenise pr f n d).2.Sound pr) := by
  induction n generalizing d with
  | zero => exact ⟨nofun, fun _ => h⟩
  | succ n ih =>
    simp only [tokenise]
    split_ifs with hcan hfull
    · exact ⟨fun _ => lzStep_full h, nofun⟩
    · exact ih ((lzStep_full h).toCore.sound_of_not_full (Bool.eq_false_iff.2 hfull))
    · exact ⟨nofun, fun _ => h⟩

/-! ## Accepting input (R388) -/

theorem acceptByte_sound {c : DeflCtx} (h : c.d.Sound pr) : (acceptByte c).d.Sound pr := by
  obtain ⟨hsum, hpos, hle, hr⟩ := h.cursor
  have hend : dataEnd (acceptByte c).d = dataEnd c.d + 1 := by simp [dataEnd]
  refine { h with cursor := ⟨hsum, hpos, ?_, fun hv => ?_⟩, isize := ?_, check := ?_ }
  · rw [hend]
    exact hle.trans (Nat.le_succ _)
  · obtain ⟨h3, hlen, hdist, hend'⟩ := hr hv
    rw [hend]
    exact ⟨h3, hlen, hdist, hend'.trans (Nat.le_succ _)⟩
  · rw [acceptByte_d_isize, h.isize, hend, BitVec.ofNat_add]
    rfl
  · rw [acceptByte_d_check, acceptByte_d_data, List.foldl_append, h.check]
    rfl

theorem acceptLoop_sound (k : Nat) {c : DeflCtx} (h : c.d.Sound pr) : (acceptLoop k c).d.Sound pr := by
  induction k generalizing c with
  | zero => exact h
  | succ k ih => exact ih (acceptByte_sound h)

/-- A context whose engine meets the invariant and whose spaces are in canonical form. -/
def DeflCtx.Sound (pr : Params) (c : DeflCtx) : Prop := c.d.Sound pr ∧ c.bus.Inv

theorem accept_sound {c : DeflCtx} (h : c.Sound pr) : (accept c).Sound pr := by
  obtain ⟨hd, hb⟩ := h
  have hd' := acceptLoop_sound (acceptCount c.d) hd
  obtain ⟨-, -, hin, hout⟩ := acceptLoop_frame (acceptCount c.d) c
  have hb' : (acceptLoop (acceptCount c.d) c).bus.Inv := by simpa only [Bus.Inv, hin, hout] using hb
  simp only [accept]
  split_ifs
  · exact ⟨{ hd' with sat := Nat.zero_le 5 }, hb'⟩
  · exact ⟨hd', hb'⟩

/-! ## Closing a block (R398 to R402) -/

/-- A block is stored only where it may be (R398). -/
theorem chooseBlock_stored {ch : Chooser} {st : BlockStats} (h : chooseBlock ch st = .stored) :
    st.level = 0 ∨ st.storedOk = true := by
  by_contra hn
  obtain ⟨h0, hs⟩ := not_or.1 hn
  cases ch with
  | byCost =>
    simp only [chooseBlock, chooseByCost, if_neg h0, if_neg fun h => hs (And.left h)] at h
    split_ifs at h
  | other =>
    simp only [chooseBlock, clampChoice, if_neg h0, hs] at h
    cases hw : Config.freeChoice st <;> simp only [hw] at h
    · cases h
    · cases h
    · split_ifs at h

theorem blockRaw_length_le (d : Defl) : (blockRaw d).length ≤ blockSpan d := by
  simp only [blockRaw, List.length_take]
  exact Nat.min_le_left _ _

/-- A block description given its type, its tokens and its bytes. -/
theorem Blk.Inv.withBlock {b : Blk} (h : b.Inv) {final : Bool} {typ : BlockType} {toks : List Token} {raw : List Byte}
    (ht : ∀ t ∈ toks, tokenOk t = true) (hr : typ = .stored → raw.length ≤ storedMax) :
    Blk.Inv { b with final, typ, toks, raw } := by
  obtain ⟨hlit, hdist, hclen, hcl, hrl, -, -⟩ := h
  exact ⟨hlit, hdist, hclen, hcl, hrl, ht, hr⟩

/-- The block that `close_block` plans. -/
theorem closeBlock_blk_inv (h : d.Full pr) (final : Bool) : (closeBlock pr final d).blk.Inv := by
  refine (h.blk.hbPlan d.syms).withBlock h.tokens fun ht => ?_
  rw [if_pos ht]
  refine (blockRaw_length_le d).trans ?_
  obtain h0 | hs := chooseBlock_stored ht
  · have hw : wsize d.wbits ≤ 2 ^ 15 := Nat.pow_le_pow_right (by decide) h.wbits_le
    have := h.span h0
    simp only [storedMax] at this ⊢
    omega
  · exact (of_decide_eq_true hs).2

/-- What `StageInv` asks in stage `body`. -/
theorem stageInv_of_body (hs : d.stage = .body) (hcollect : d.finishing = true → d.phase ≠ .collect)
    (htrailer : d.phase = .trailer → d.finishing = true) (hfinal : d.blk.final = d.finishing) : d.StageInv :=
  ⟨fun h => absurd (hs.symm.trans h) nofun, fun h => absurd (hs.symm.trans h) nofun, fun h => absurd (hs.symm.trans h) nofun,
    fun _ => hcollect, htrailer, hfinal⟩

/-- `close_block` in stage `body` keeps the invariant, with `finishing` as the block's `final` says (R401, R402). -/
theorem closeBlock_sound (h : d.Full pr) (hs : d.stage = .body) (final : Bool) :
    Defl.Sound pr { closeBlock pr final d with finishing := final } := by
  obtain ⟨-, hpos, hle, hr⟩ := h.cursor
  exact { h with
    cursor := ⟨rfl, hpos, hle, hr⟩, tokens := nofun, blk := closeBlock_blk_inv h final
    room := Nat.zero_le _, span := fun _ => (Nat.sub_self d.emitPos).le.trans (Nat.zero_le _)
    stage := stageInv_of_body hs (fun _ => nofun) nofun rfl }

theorem Defl.Sound.toFull (h : d.Sound pr) : d.Full pr := { h with span := fun h0 => (h.span h0).trans (Nat.le_succ _) }

/-! ## Markers (R404) -/

theorem Blk.Inv.marker {b : Blk} (h : b.Inv) (f : Flush) : (markerBlock f b).Inv := by
  cases f with
  | sync | full => exact h.withBlock nofun fun _ => Nat.zero_le _
  | part => exact h.withBlock nofun nofun
  | none | block | finish | trees => exact h

theorem markerBlock_final (f : Flush) (b : Blk) : (markerBlock f b).final = b.final := by cases f <;> rfl

theorem writeMarker_sound (f : Flush) (h : d.Sound pr) : (writeMarker f d).Sound pr := by
  have bits : (writeMarker f d).BitsOk := h.bits.marker f
  obtain ⟨hinit, hpend, hdone, hbody, htrailer, hfin⟩ := h.stage
  rw [writeMarker_frame]
  exact { h with
    bits, blk := h.blk.marker f
    stage := ⟨hinit, hpend, hdone, hbody, htrailer, (markerBlock_final f d.blk).trans hfin⟩ }

/-- A flush that acts in phase `collect` (R391 steps 6 to 8). -/
theorem completeFlush_sound {f : Flush} (h : d.Sound pr) (hf : f ≠ .finish) (hc : d.phase = .collect) :
    (completeFlush f d).Sound pr := by
  have h1 := writeMarker_sound f h
  have h2 : Defl.Sound pr (if f = .full then lzClear (writeMarker f d) else writeMarker f d) := by
    split_ifs
    · exact h1.lzClear
    · exact h1
  have hph : Defl.phase (if f = .full then lzClear (writeMarker f d) else writeMarker f d) = .collect := by
    rw [← hc, writeMarker_frame]
    split_ifs <;> rfl
  have hrank : flushRank f ≤ 5 := by
    cases f with
    | finish => exact absurd rfl hf
    | none | block | part | sync | full | trees => decide
  exact { h2 with
    sat := hrank
    stage := ⟨nofun, fun _ => hph, nofun, nofun, fun ht => absurd (hph.symm.trans ht) nofun, h2.final_eq⟩ }

/-! ## The work loop (R382 to R391) -/

/-- Where the work loop goes on (R381). -/
def Defl.running (d : Defl) : Prop := d.stage = .body ∨ d.stage = .flushPending

/-- A round leaves the invariant, and the loop goes on only from `body` and `flush_pending`. -/
def DeflRound.Ok (pr : Params) (r : DeflRound) : Prop := r.c.Sound pr ∧ (r.stopped = false → r.c.d.running)

theorem DeflCtx.cont_ok {c : DeflCtx} {trees : Bool} (hd : d.Sound pr) (hb : c.bus.Inv) (hr : d.running) :
    (c.cont trees d).Ok pr := ⟨⟨hd, hb⟩, fun _ => hr⟩

theorem DeflCtx.halt_ok {c : DeflCtx} {trees : Bool} (hd : d.Sound pr) (hb : c.bus.Inv) : (c.halt trees d).Ok pr :=
  ⟨⟨hd, hb⟩, nofun⟩

theorem finishing_of_collect (h : d.Core pr) (hs : d.stage = .body) (hc : d.phase = .collect) : d.finishing = false := by
  obtain ⟨-, -, -, hbody, -, -⟩ := h.stage
  exact Bool.eq_false_iff.2 fun hf => hbody hs hf hc

/-- A block that is not the last closes in phase `collect`. -/
theorem closeBlock_more_sound (h : d.Full pr) (hs : d.stage = .body) (hc : d.phase = .collect) :
    (closeBlock pr false d).Sound pr := by
  have hf := finishing_of_collect h.toCore hs hc
  have := closeBlock_sound h hs false
  rwa [show { closeBlock pr false d with finishing := false } = closeBlock pr false d from by rw [← hf]; rfl] at this

theorem decideCollect_ok (f : Flush) {c : DeflCtx} (h : c.Sound pr) (hs : c.d.stage = .body) (hc : c.d.phase = .collect) :
    (decideCollect pr f c).Ok pr := by
  obtain ⟨hd, hb⟩ := h
  simp only [decideCollect]
  split_ifs with h1 h2 h3 h4 h5 h6
  · exact DeflCtx.cont_ok hd hb (.inl hs)
  · exact DeflCtx.halt_ok hd hb
  · exact DeflCtx.cont_ok (closeBlock_sound hd.toFull hs true) hb (.inl hs)
  · exact DeflCtx.cont_ok (writeMarker_sound f hd) hb (.inl (by rw [writeMarker_frame]; exact hs))
  · exact DeflCtx.halt_ok hd hb
  · exact DeflCtx.cont_ok (closeBlock_more_sound hd.toFull hs hc) hb (.inl hs)
  · exact DeflCtx.cont_ok (completeFlush_sound hd h3 hc) hb (.inr rfl)

theorem accept_frame (c : DeflCtx) : (accept c).d.stage = c.d.stage ∧ (accept c).d.phase = c.d.phase := by
  obtain ⟨hf, -⟩ := acceptLoop_frame (acceptCount c.d) c
  simp only [accept]
  split_ifs <;> rw [hf] <;> exact ⟨rfl, rfl⟩

theorem collect_ok (f : Flush) {c : DeflCtx} (h : c.Sound pr) (hs : c.d.stage = .body) (hc : c.d.phase = .collect) :
    (collect pr f c).Ok pr := by
  obtain ⟨hd, hb⟩ := accept_sound h
  obtain ⟨ha, hp⟩ := accept_frame c
  obtain ⟨hfull, hmore⟩ := tokenise_sound f (tokeniseFuel (accept c).d) hd
  have ht := onlyTokens_tokenise pr f (tokeniseFuel (accept c).d) (accept c).d
  have hs' : (tokenise pr f (tokeniseFuel (accept c).d) (accept c).d).2.stage = .body := by rw [ht]; exact ha.trans hs
  have hc' : (tokenise pr f (tokeniseFuel (accept c).d) (accept c).d).2.phase = .collect := by rw [ht]; exact hp.trans hc
  simp only [collect]
  split_ifs with h1
  · exact DeflCtx.cont_ok (closeBlock_more_sound (hfull h1) hs' hc') hb (.inl hs')
  · exact decideCollect_ok f ⟨hmore (Bool.eq_false_iff.2 h1), hb⟩ hs' hc'

theorem deflWork_ok (f : Flush) {c : DeflCtx} (h : c.Sound pr) (hr : c.d.running) : (deflWork pr f c).Ok pr := by
  obtain ⟨hd, hb⟩ := h
  obtain ⟨hinit, hpend, hdone, hbody, htrailer, hfin⟩ := hd.stage
  unfold deflWork
  by_cases hs : c.d.stage = .flushPending
  · have hc := hpend hs
    simp only [if_pos hs]
    split_ifs with hf
    · exact DeflCtx.halt_ok { hd with
        stage := ⟨nofun, nofun, fun _ => ⟨hc, hf⟩, nofun, htrailer, hfin⟩ } hb
    · exact DeflCtx.cont_ok { hd with
        stage := ⟨nofun, nofun, nofun, fun _ hf' => absurd hf' hf, htrailer, hfin⟩ } hb (.inl rfl)
  · have hs' : c.d.stage = .body := hr.resolve_right hs
    simp only [if_neg hs]
    cases hc : c.d.phase with
    | collect => exact collect_ok f ⟨hd, hb⟩ hs' hc
    | blkHeader =>
      have ho := onlyBits_hbEmitHeader c.d.blk c.d
      have h' := hd.of_onlyBits ho (hd.bits.hbEmitHeader hd.blk)
      have hs'' : (hbEmitHeader c.d.blk c.d).stage = .body := by rw [ho]; exact hs'
      exact DeflCtx.cont_ok { h' with
        stage := stageInv_of_body hs'' (fun _ => nofun) nofun h'.final_eq } hb (.inl hs'')
    | blkSymbols =>
      have ho := onlyBits_hbEmitSymbols c.d.blk c.d
      have h' := hd.of_onlyBits ho (hd.bits.hbEmitSymbols hd.blk)
      have hs'' : (hbEmitSymbols c.d.blk c.d).stage = .body := by rw [ho]; exact hs'
      have hfin' : (hbEmitSymbols c.d.blk c.d).finishing = c.d.blk.final := by rw [ho]; exact hfin.symm
      refine DeflCtx.cont_ok { h' with stage := stageInv_of_body hs'' ?_ ?_ h'.final_eq } hb (.inl hs'')
      · intro hf
        simp [hfin'.symm.trans hf]
      · intro hp
        refine hfin'.trans (Bool.of_not_eq_false fun hf => ?_)
        simp [hf] at hp
    | trailer =>
      have ho := (onlyBits_bwAlign c.d).trans (onlyBits_hdrTrailer (bwAlign c.d))
      have h' := hd.of_onlyBits ho hd.bits.bwAlign
      exact DeflCtx.cont_ok { h' with
        stage := ⟨nofun, fun _ => rfl, nofun, nofun, nofun, h'.final_eq⟩ } hb (.inr rfl)

/-! ## `BW.TAKE` (R206) -/

theorem bwTakeLoop_bus_inv (q : List Byte) {c : DeflCtx} (hb : c.bus.Inv) : (bwTakeLoop q c).bus.Inv := by
  induction q generalizing c with
  | nil => exact hb
  | cons v q ih =>
    simp only [bwTakeLoop]
    split_ifs
    · exact hb
    · exact ih (outByteBus_inv hb)

theorem bwTake_sound {c : DeflCtx} (h : c.Sound pr) : (bwTake c).Sound pr := by
  obtain ⟨hd, hb⟩ := h
  obtain ⟨hf, -⟩ := bwTake_frame c
  refine ⟨?_, bwTakeLoop_bus_inv _ hb⟩
  rw [hf]
  exact { hd with }

/-! ## `WRITE` (R380) -/

theorem deflRound_ok (f : Flush) (trees : Bool) {c : DeflCtx} (h : c.Sound pr) (hr : c.d.running) :
    (deflRound pr f trees c).Ok pr := by
  have ht := bwTake_sound h
  obtain ⟨hf, -⟩ := bwTake_frame c
  have hr' : (bwTake c).d.running := by rw [hf]; exact hr
  simp only [deflRound]
  split_ifs
  · exact DeflCtx.halt_ok ht.1 ht.2
  · exact DeflCtx.halt_ok ht.1 ht.2
  · exact deflWork_ok f ht hr'

theorem deflLoop_sound {f : Flush} {n : Nat} {trees : Bool} {c : DeflCtx} {r : Bool × DeflCtx} (h : c.Sound pr)
    (hr : c.d.running) (hl : deflLoop pr f n trees c = some r) : r.2.Sound pr := by
  induction n generalizing trees c with
  | zero => cases hl
  | succ n ih =>
    obtain ⟨hs, hgo⟩ := deflRound_ok f trees h hr
    simp only [deflLoop] at hl
    split_ifs at hl with hstop
    · cases hl
      exact hs
    · exact ih hs (hgo (Bool.eq_false_iff.2 hstop)) hl

/-- Stage `init` is left with the container's header (R381). -/
theorem deflInit_sound (h : d.Sound pr) : (deflInit pr d).Sound pr := by
  unfold deflInit
  split_ifs with hs
  · obtain ⟨-, hfin⟩ := h.stage.1 hs
    have hstage : ∀ e, onlyBits d e → Defl.StageInv { e with stage := .body, phase := .collect } := fun e he => by
      rw [he]
      exact stageInv_of_body rfl (fun hf => absurd (hfin.symm.trans hf) nofun) nofun h.final_eq
    cases d.wrap with
    | none => exact { h with stage := hstage d rfl }
    | zlib => exact { h with stage := hstage _ (onlyBits_hdrZenc d) }
    | gzip => exact { h with stage := hstage _ (onlyBits_hdrGzenc pr d) }
  · exact h

theorem deflInit_running (h : d.stage ≠ .done) : (deflInit pr d).running := by
  unfold deflInit
  split_ifs with hs
  · exact .inl rfl
  · unfold Defl.running
    cases hd : d.stage <;> simp_all

theorem deflCode_reported (r0 : StreamRegs) (trees : Bool) (d : Defl) : deflCodes (deflCode r0 trees d) := by
  unfold deflCode
  split_ifs
  · exact .inr (.inr (.inl rfl))
  · exact .inl rfl
  · exact .inr (.inl rfl)

/-- What an operation of `DEFL` answers: an engine that meets the invariant, and spaces in canonical form. -/
def DeflAnswers (s : State) (r : Result) : Prop :=
  ∀ t, r = .next t → t.defl.Sound s.params ∧ t.bus.Inv

theorem deflRun_answers (f : Flush) {s : State} (h : s.defl.Sound s.params) (hb : s.bus.Inv) (hd : s.defl.stage ≠ .done) :
    DeflAnswers s (deflRun f s) := by
  intro t ht
  simp only [deflRun] at ht
  split at ht
  · cases ht
  · rename_i trees c hl
    cases ht
    obtain ⟨hs, hb'⟩ :=
      deflLoop_sound (c := ⟨deflInit s.params s.defl, s.bus⟩) ⟨deflInit_sound h, hb⟩ (deflInit_running hd) hl
    exact ⟨{ hs with ec := deflCode_reported _ _ _ }, hb'⟩

theorem deflReturn_answers {x : Status} (hx : deflCodes x) {s : State} (h : s.defl.Sound s.params) (hb : s.bus.Inv) :
    DeflAnswers s (.next (deflReturn x s)) := by
  intro t ht
  cases ht
  exact ⟨{ h with ec := hx }, hb⟩

theorem deflRaise_answers {s : State} (h : s.defl.Sound s.params) (hb : s.bus.Inv) :
    DeflAnswers s (.next { s with defl := deflRaise .streamError s.defl }) := by
  intro t ht
  cases ht
  exact ⟨{ h with ec := .inr (.inr (.inr rfl)), sticky := .inr rfl }, hb⟩

/-- The entry checks of R380 in their order. -/
theorem deflWrite_answers (f : Flush) {s : State} (h : s.defl.Sound s.params) (hb : s.bus.Inv) :
    DeflAnswers s (deflWrite f s) := by
  have herror : deflCodes .streamError := .inr (.inr (.inr rfl))
  simp only [deflWrite]
  split_ifs with h1 h2 h3 h4 h5 h6 h7
  · exact deflReturn_answers herror h hb
  · exact deflReturn_answers (h.sticky.elim (absurd · h2) (· ▸ herror)) h hb
  · exact deflReturn_answers herror h hb
  · exact deflRaise_answers h hb
  · exact deflReturn_answers (.inr (.inr (.inl rfl))) h hb
  · exact deflRaise_answers h hb
  · exact deflRun_answers .finish h hb h4
  · exact deflRun_answers f h hb h4

/-! ## `RESET` (R378) -/

/-- An engine that has nothing of a stream in it, as a reset leaves it (R70). -/
theorem Defl.sound_of_fresh (hc : d.ConfigInv) (hk : d.check = checkInit d.wrap)
    (hd : d = { Defl.reset with
      config := d.config, regs := d.regs, configured := d.configured, level := d.level, wbits := d.wbits, mem := d.mem
      strategy := d.strategy, wrap := d.wrap, check := d.check }) : d.Sound pr := by
  have hblk : Blk.reset.Inv := by decide
  rw [hd]
  exact {
    config := hc, bits := ⟨Nat.zero_le _, Nat.zero_lt_one⟩, sticky := .inl rfl, ec := .inl rfl, sat := Nat.zero_le _
    cursor := ⟨rfl, rfl, le_rfl, nofun⟩, tokens := nofun, stage := ⟨fun _ => ⟨rfl, rfl⟩, nofun, nofun, nofun, nofun, rfl⟩
    blk := hblk, head := ⟨.nil, nofun⟩, prev := ⟨.nil, nofun⟩, isize := rfl, check := hk, mode := nofun
    room := Nat.zero_le _, span := fun _ => Nat.zero_le _ }

theorem cfgWindowBits_le (c : Word) : cfgWindowBits c ≤ 15 := Nat.le_of_lt_succ (field_lt _ _ _)

theorem deflStart_sound {c : Word} (hl : deflLegal c = true) (r : StreamRegs) : (deflStart c r).Sound pr := by
  simp only [deflLegal, Bool.and_eq_true, decide_eq_true_eq] at hl
  obtain ⟨⟨⟨⟨⟨hlevel, hw⟩, hmem⟩, -⟩, -⟩, -⟩ := hl
  refine Defl.sound_of_fresh ⟨?_, hw, cfgWindowBits_le c, hmem⟩ rfl rfl
  simp only [deflStart]
  split_ifs <;> omega

/-- `RESET` with a legal `CONFIG`, and a refused one (R378, R73). -/
theorem deflReset_sound (h : d.Sound pr) : (deflReset d).Sound pr := by
  unfold deflReset
  split_ifs with hl
  · exact deflStart_sound hl _
  · exact { h with sticky := .inl rfl, ec := .inr (.inr (.inr rfl)) }

/-! ## Every instruction of `DEFL` -/

section
variable {s : State}

theorem DeflAnswers.yielding {y : Yield} {t : State} (hd : t.defl.Sound s.params) (hb : t.bus.Inv) :
    DeflAnswers s (yielding y t) := by
  intro u hu
  cases hu
  exact ⟨hd, hb⟩

theorem DeflAnswers.inRange {c : Prop} {_ : Decidable c} {r : Result} (h : c → DeflAnswers s r) :
    DeflAnswers s (inRange c r) := by
  unfold Machine.inRange
  split_ifs with hc
  · exact h hc
  · intro t ht
    cases ht

theorem exec_deflAnswers {i : Instr} (he : engineOf i = .defl) (h : s.defl.Sound s.params) (hb : s.bus.Inv) :
    DeflAnswers s (exec i s) := by
  cases i with
  | deflReset =>
    intro t ht
    cases ht
    exact ⟨deflReset_sound h, hb⟩
  | deflWriteNone | deflWriteBlock | deflWritePartial | deflWriteSync | deflWriteFull | deflWriteFinish | deflWriteTrees =>
    exact deflWrite_answers _ h hb
  | bwPut v n => exact .inRange fun hr => .yielding (h.of_onlyBits (onlyBits_bwPut _ _ _) (h.bits.bwPut hr.2)) hb
  | bwPutcode c n => exact .inRange fun _ => .yielding (h.of_onlyBits (onlyBits_bwPutcode _ _ _) (h.bits.bwPutcode _ _)) hb
  | bwAlign => exact .yielding (h.of_onlyBits (onlyBits_bwAlign _) h.bits.bwAlign) hb
  | bwTake =>
    obtain ⟨hd, hb'⟩ := bwTake_sound (c := ⟨s.defl, s.bus⟩) ⟨h, hb⟩
    exact .yielding hd hb'
  | hdrZenc => exact .yielding (h.of_onlyBits (onlyBits_hdrZenc _) h.bits) hb
  | hdrGzenc => exact .yielding (h.of_onlyBits (onlyBits_hdrGzenc _ _) h.bits) hb
  | hdrTrailer => exact .yielding (h.of_onlyBits (onlyBits_hdrTrailer _) h.bits) hb
  | lzInsert p => exact .yielding (h.of_chained (chained_lzInsert p _)) hb
  | lzFind p chain => exact .yielding h hb
  | lzStep =>
    refine .inRange fun hr => .yielding (lzStep_sound h.toCore ?_) hb
    simp only [canLzStep, Bool.and_eq_true, Bool.not_eq_true'] at hr
    exact hr.2
  | lzClear => exact .yielding h.lzClear hb
  | hbPlan toks =>
    exact .yielding { h with
      blk := h.blk.hbPlan toks
      stage := h.stage } hb
  | hbEmitHeader => exact .yielding (h.of_onlyBits (onlyBits_hbEmitHeader _ _) (h.bits.hbEmitHeader h.blk)) hb
  | hbEmitSymbols => exact .yielding (h.of_onlyBits (onlyBits_hbEmitSymbols _ _) (h.bits.hbEmitSymbols h.blk)) hb
  | _ => cases he

end

end Sys2Proof.Machine

end

section
/-! PROOFS. `INFL` keeps its invariant: the reader (R213), the micro-steps of the work loop, the elements run on their own, and so
each of its instructions. -/

namespace Sys2Proof.Machine

/-! ## The invariant of `INFL`, with what the stage asks apart -/

/-- The reader holds no bits beyond its count (R212). -/
def Infl.BitsOk (i : Infl) : Prop := i.cnt ≤ 39 ∧ i.hold < 2 ^ i.cnt

/-- What `Infl.Inv` says in every stage. -/
structure Infl.Base (i : Infl) : Prop where
  wbits : 9 ≤ i.wbits ∧ i.wbits ≤ 15
  bits : i.BitsOk
  range : i.RangeInv
  cl : ∀ l ∈ i.cl, l ≤ 7
  clt : ∀ l ∈ i.clt, l ≤ 7
  lens : ∀ l ∈ i.lens, l ≤ 15
  ll : ∀ l ∈ i.ll, l ≤ 15
  dt : ∀ l ∈ i.dt, l ≤ 15
  win : i.win.wf
  isize : i.isize = BitVec.ofNat 32 i.produced

/-- An engine that meets the invariant and has no error recorded, at a stage where stream work can go on. -/
structure Infl.Live (i : Infl) : Prop extends i.Base where
  sticky : i.sticky = .ok
  notBad : i.stage ≠ .bad
  room : i.stage = .dynLens → i.lens.length ≤ i.nlen + i.ndist
  mat : i.stage = .mat → 1 ≤ i.dist ∧ i.dist ≤ whave i

/-- A context whose engine is live and whose spaces are in canonical form. -/
def InflCtx.Live (c : InflCtx) : Prop := c.e.Live ∧ c.bus.Inv

/-- A context in which an error may be raised. -/
def InflCtx.Base (c : InflCtx) : Prop := c.e.Base ∧ c.bus.Inv

theorem Infl.Inv.base {i : Infl} (h : i.Inv) : i.Base := by
  obtain ⟨wbits, bits, range, ⟨cl, clt, lens, ll, dt, -⟩, -, -, win, isize⟩ := h
  exact { wbits, bits, range, cl, clt, lens, ll, dt, win, isize }

/-- No error is recorded where the stage is not `BAD`. -/
theorem Infl.Inv.live {i : Infl} (h : i.Inv) (hs : i.stage ≠ .bad) : i.Live := by
  have hb := h.base
  obtain ⟨-, -, -, ⟨-, -, -, -, -, room⟩, ⟨hbad, -, -⟩, mat, -, -⟩ := h
  exact { hb with sticky := not_not.1 (mt hbad hs), notBad := hs, room, mat }

theorem Infl.Inv.notBad {i : Infl} (h : i.Inv) (hc : i.configured = true) (hs : i.sticky = .ok) : i.stage ≠ .bad := by
  obtain ⟨-, -, -, -, ⟨-, hbad, -⟩, -⟩ := h
  exact hbad hc hs

theorem Infl.Live.inv {i : Infl} (h : i.Live) : i.Inv :=
  ⟨h.wbits, h.bits, h.range, ⟨h.cl, h.clt, h.lens, h.ll, h.dt, h.room⟩,
    ⟨fun hs => absurd h.sticky hs, fun _ _ => h.notBad, .inl h.sticky⟩, h.mat, h.win, h.isize⟩

/-- `raise` leaves the invariant: the stage is `BAD` and the code is one of an error (R463, R552). -/
theorem Infl.Base.raise {i : Infl} (h : i.Base) {x : Status} (hx : 3 ≤ x.code) : (inflRaise x i).Inv :=
  ⟨h.wbits, h.bits, h.range, ⟨h.cl, h.clt, h.lens, h.ll, h.dt, nofun⟩,
    ⟨fun _ => rfl, fun _ (hs : x = .ok) => absurd (hs ▸ hx) (by decide), .inr hx⟩, nofun, h.win, h.isize⟩

/-! ## The reader -/

/-- `j` is `i` but for the reader and the stream parameters (R210 to R218). -/
def onlyReader (i j : Infl) : Prop := j = { i with regs := j.regs, hcrc := j.hcrc, hold := j.hold, cnt := j.cnt }

theorem onlyReader.refl (i : Infl) : onlyReader i i := rfl

theorem onlyReader.trans {i j k : Infl} (h : onlyReader i j) (h' : onlyReader j k) : onlyReader i k := by
  unfold onlyReader at *
  rw [h', h]

theorem Infl.Live.of_onlyReader {i j : Infl} (h : i.Live) (hr : onlyReader i j) (hb : j.BitsOk) : j.Live := by
  rw [hr]
  exact { h with bits := hb }

theorem Infl.Inv.of_onlyReader {i j : Infl} (h : i.Inv) (hr : onlyReader i j) (hb : j.BitsOk) : j.Inv := by
  rw [hr]
  obtain ⟨hw, -, hrest⟩ := h
  exact ⟨hw, hb, hrest⟩

theorem Infl.BitsOk.brDrop {i : Infl} (h : i.BitsOk) (n : Nat) : (brDrop n i).BitsOk := by
  obtain ⟨hc, hb⟩ := h
  refine ⟨(Nat.sub_le _ _).trans hc, Nat.div_lt_of_lt_mul (hb.trans_le ?_)⟩
  rw [brDrop_cnt, ← Nat.pow_add]
  exact Nat.pow_le_pow_right (by decide) (by omega)

theorem Infl.Live.brDrop {i : Infl} (h : i.Live) (n : Nat) : (brDrop n i).Live := h.of_onlyReader rfl (h.bits.brDrop n)

/-- What each fetched byte keeps, `BR.NEED` keeps (R213). -/
theorem brNeed_induction {P : InflCtx → Prop} {n : Nat} (hstep : ∀ c, c.e.cnt < n → P c → P (brFetch c)) {c : InflCtx}
    (h : P c) : P (brNeed n c).2 := by
  have hloop : ∀ k c, P c → P (brNeedLoop k n c).2 := by
    intro k
    induction k with
    | zero => exact fun _ h => h
    | succ k ih =>
      intro c h
      simp only [brNeedLoop]
      split_ifs with henough
      · exact h
      · exact h
      · exact ih _ (hstep c (Nat.not_le.1 henough) h)
  exact hloop n c h

/-- What the operations of the reader leave: an engine changed in the reader only, with its bits in order. -/
structure Fetched (c c1 : InflCtx) : Prop where
  frame : onlyReader c.e c1.e
  bits : c1.e.BitsOk
  bus : c1.bus.Inv

theorem Fetched.refl {c : InflCtx} (h : c.e.BitsOk) (hb : c.bus.Inv) : Fetched c c := ⟨rfl, h, hb⟩

theorem Fetched.trans {c c1 c2 : InflCtx} (h : Fetched c c1) (h' : Fetched c1 c2) : Fetched c c2 :=
  ⟨h.frame.trans h'.frame, h'.bits, h'.bus⟩

theorem Fetched.live {c c1 : InflCtx} (h : Fetched c c1) (hl : c.e.Live) : c1.Live :=
  ⟨hl.of_onlyReader h.frame h.bits, h.bus⟩

/-- One fetched byte, with room for it in the accumulator (R213). -/
theorem fetched_brFetch {c : InflCtx} (h : c.e.BitsOk) (hb : c.bus.Inv) (hc : c.e.cnt ≤ 31) : Fetched c (brFetch c) := by
  refine ⟨rfl, ⟨?_, ?_⟩, inByteBus_inv hb⟩
  · rw [brFetch_e_cnt]
    omega
  · have hbyte := (inByteVal c.e.regs c.bus).isLt
    have hhold := h.2
    rw [brFetch_e_hold, brFetch_e_cnt, Nat.pow_add]
    calc c.e.hold + (inByteVal c.e.regs c.bus).toNat * 2 ^ c.e.cnt
        < ((inByteVal c.e.regs c.bus).toNat + 1) * 2 ^ c.e.cnt := by rw [Nat.succ_mul]; omega
      _ ≤ 2 ^ 8 * 2 ^ c.e.cnt := Nat.mul_le_mul_right _ hbyte
      _ = 2 ^ c.e.cnt * 2 ^ 8 := Nat.mul_comm _ _

theorem fetched_brNeed {n : Nat} (hn : n ≤ 32) {c : InflCtx} (h : c.e.BitsOk) (hb : c.bus.Inv) :
    Fetched c (brNeed n c).2 :=
  brNeed_induction (P := Fetched c) (fun _ hc hf => hf.trans (fetched_brFetch hf.bits hf.bus (by omega))) (.refl h hb)

/-! ## `HD.DECODE` (R447) -/

theorem maxLen_le {lens : Lens} {m : Nat} (h : ∀ l ∈ lens, l ≤ m) : maxLen lens ≤ m :=
  List.foldlRecOn (motive := fun n => n ≤ m) lens max (Nat.zero_le m) fun _ hb l hl => Nat.max_le.2 ⟨hb, h l hl⟩

/-- More bits are asked for only below the longest code (R447). -/
theorem cnt_lt_of_scan_more {lens codes hold cnt left n c} (h : scanCodes lens codes hold cnt left n c = .more) :
    cnt < n + left := by
  induction left generalizing n c with
  | zero => cases h
  | succ left ih =>
    simp only [scanCodes] at h
    split_ifs at h with hc
    · omega
    · split at h
      · cases h
      · have := ih h
        omega

theorem length_lt_of_scan_found {lens codes hold cnt left n c s m}
    (h : scanCodes lens codes hold cnt left n c = .found s m) :
    m < n + left := by
  induction left generalizing n c with
  | zero => cases h
  | succ left ih =>
    simp only [scanCodes] at h
    split_ifs at h with hc
    split at h
    · cases h
      omega
    · have := ih h
      omega

/-- What each fetched byte keeps, `HD.DECODE` keeps (R447). -/
theorem hdDecode_induction {P : InflCtx → Prop} {lens : Lens} {max : Nat}
    (hstep : ∀ c, c.e.cnt ≤ maxLen lens → P c → P (brFetch c)) {c : InflCtx} (h : P c) : P (hdDecode lens max c).2 := by
  have hloop : ∀ k c, P c → P (hdDecodeLoop lens max k c).2 := by
    intro k
    induction k with
    | zero => exact fun _ h => h
    | succ k ih =>
      intro c h
      simp only [hdDecodeLoop]
      split
      · rename_i hmore
        split_ifs
        · exact h
        · exact ih _ (hstep c (by have := cnt_lt_of_scan_more hmore; omega) h)
      · exact h
  exact hloop _ c h

/-- No code is longer than the longest of its table. -/
theorem length_le_of_hdDecode_found {lens : Lens} {max s n : Nat} {c : InflCtx} (h : (hdDecode lens max c).1 = .found s n) :
    n ≤ maxLen lens := by
  have hscan {hold cnt} (hs : scan lens max hold cnt = .found s n) : n ≤ maxLen lens := by
    have := length_lt_of_scan_found hs
    omega
  have hloop : ∀ k c, (hdDecodeLoop lens max k c).1 = .found s n → n ≤ maxLen lens := by
    intro k
    induction k with
    | zero => exact fun _ h => hscan h
    | succ k ih =>
      intro c h
      simp only [hdDecodeLoop] at h
      split at h
      · split_ifs at h
        exact ih _ h
      · exact hscan h
  exact hloop _ c h

theorem fetched_hdDecode {lens : Lens} {max : Nat} (hl : ∀ l ∈ lens, l ≤ 15) {c c1 : InflCtx} {r : Scan} (h : c.e.BitsOk)
    (hb : c.bus.Inv) (hd : hdDecode lens max c = (r, c1)) : Fetched c c1 ∧ ∀ s n, r = .found s n → n ≤ maxLen lens := by
  have hf := hdDecode_induction (P := Fetched c) (lens := lens) (max := max)
    (fun _ hc hf => hf.trans (fetched_brFetch hf.bits hf.bus (by have := maxLen_le hl; omega))) (.refl h hb)
  have hn := fun s n => length_le_of_hdDecode_found (lens := lens) (max := max) (s := s) (n := n) (c := c)
  rw [hd] at hf hn
  exact ⟨hf, hn⟩

/-! ## What each element does -/

/-- An element leaves a live engine, or raises one of the terminal errors (R463, R542). -/
def Act.Ok : Act → Prop
  | .good j => j.Live
  | .bad x j => j.Base ∧ 3 ≤ x.code

/-- The stages of which the invariant asks nothing. -/
def IStage.plain : IStage → Bool
  | .bad | .dynLens | .mat => false
  | _ => true

theorem Infl.Base.live {i : Infl} (h : i.Base) (hs : i.sticky = .ok) (hp : i.stage.plain = true) : i.Live :=
  { h with
    sticky := hs
    notBad := fun hb => by simp [hb, IStage.plain] at hp
    room := fun hb => by simp [hb, IStage.plain] at hp
    mat := fun hb => by simp [hb, IStage.plain] at hp }

theorem Infl.Live.at {i : Infl} (h : i.Live) {x : IStage} (hx : x.plain = true) : Infl.Live { i with stage := x } :=
  Infl.Base.live { h.toBase with } h.sticky hx

theorem fixLl_le : ∀ l ∈ fixLl, l ≤ 15 := by
  intro l hl
  simp only [fixLl, List.mem_append, List.mem_replicate] at hl
  omega

theorem fixD_le : ∀ l ∈ fixD, l ≤ 15 := by decide

theorem hdBuild_error_code {p : Params} {lens : Lens} {max : Nat} {kind : CodeKind} {x : Status}
    (hx : hdBuild p lens max kind = .error x) : 3 ≤ x.code := by
  unfold hdBuild at hx
  split_ifs at hx <;> cases hx
  · unfold overError
    split_ifs <;> decide
  · unfold incompleteError
    split_ifs <;> decide

theorem hdBuild_ok {p : Params} {lens t : Lens} {max : Nat} {kind : CodeKind} (ht : hdBuild p lens max kind = .ok t) :
    t = lens := by
  unfold hdBuild at ht
  split_ifs at ht
  cases ht
  rfl

theorem clXb_le (s : Nat) : clXb s ≤ 7 := by
  unfold clXb
  split_ifs <;> decide

/-- The length of a match stays within `MAX_MATCH` (R143, R494). -/
theorem lenBase_add_le {k x : Nat} (hk : k ≤ 28) (hx : x < 2 ^ lenXb.getD k 0) : lenBase.getD k 0 + x ≤ 258 := by
  have hall : ∀ k ≤ 28, lenBase.getD k 0 + 2 ^ lenXb.getD k 0 ≤ 259 := by decide
  have := hall k hk
  omega

theorem distBase_pos {k : Nat} (hk : k ≤ 29) : 1 ≤ distBase.getD k 0 := by
  have hall : ∀ k ≤ 29, 1 ≤ distBase.getD k 0 := by decide
  exact hall k hk

section
variable {i : Infl} (h : i.Live)
include h

theorem Infl.Live.raises {x : Status} (hx : 3 ≤ x.code) : (Act.bad x i).Ok := ⟨h.toBase, hx⟩

theorem zhdrAct_ok (cmf flg : Byte) : (zhdrAct cmf flg i).Ok := by
  unfold zhdrAct
  split
  · rename_i x hx
    refine h.raises ?_
    unfold zhdrCheck at hx
    split_ifs at hx <;> cases hx <;> decide
  · refine h.at ?_
    split_ifs <;> rfl

theorem dictAct_ok (id : Word) : (dictAct id i).Ok := ⟨{ h.toBase with }, by decide⟩

theorem gzMagicAct_ok (id1 id2 : Byte) : (gzMagicAct id1 id2 i).Ok := by
  unfold gzMagicAct
  split_ifs
  · exact h.at rfl
  · exact h.raises (by decide)

theorem gzCmflgAct_ok (cm flg : Byte) : (gzCmflgAct cm flg i).Ok := by
  have h' : Infl.Live { i with gzflags := flg } := { h with }
  simp only [gzCmflgAct]
  split
  · rename_i x hx
    refine h'.raises ?_
    unfold gzCmflgCheck at hx
    split_ifs at hx <;> cases hx <;> decide
  · exact h'.at rfl

theorem gzXflosAct_ok (xfl os : Byte) : (gzXflosAct xfl os i).Ok := by
  refine h.at ?_
  split_ifs <;> rfl

theorem gzXlenAct_ok (n : BitVec 16) : (gzXlenAct n i).Ok := by
  obtain ⟨-, hrest⟩ := h.range
  exact Infl.Base.live { h.toBase with range := ⟨Nat.le_of_lt_succ n.isLt, hrest⟩ } h.sticky rfl

theorem gzExtraAct_ok (b : Byte) : (gzExtraAct b i).Ok := by
  obtain ⟨hx, hrest⟩ := h.range
  exact { h with range := ⟨(Nat.sub_le _ _).trans hx, hrest⟩ }

theorem gzNameAct_ok (b : Byte) : (gzNameAct b i).Ok := by
  simp only [gzNameAct, Act.Ok]
  split_ifs
  · exact h.at rfl
  · exact h

theorem gzCommentAct_ok (b : Byte) : (gzCommentAct b i).Ok := by
  simp only [gzCommentAct, Act.Ok]
  split_ifs
  · exact h.at rfl
  · exact h

theorem gzHcrcAct_ok (c : BitVec 16) : (gzHcrcAct c i).Ok := by
  unfold gzHcrcAct
  split_ifs
  · exact h.raises (by decide)
  · exact h.at rfl

theorem blkhdrAct_ok (final : Bool) (t : Nat) : (blkhdrAct final t i).Ok := by
  have h' : Infl.Live { i with last := final } := { h with }
  simp only [blkhdrAct]
  split
  · exact h'.at rfl
  · exact Infl.Base.live { h'.toBase with ll := fixLl_le, dt := fixD_le } h.sticky rfl
  · exact h'.at rfl
  · exact h'.raises (by decide)

theorem stolenAct_ok (len nlen : BitVec 16) : (stolenAct len nlen i).Ok := by
  obtain ⟨hx, hnl, hnd, hnc, hnh, hls, hln, hds, -⟩ := h.range
  unfold stolenAct
  split_ifs
  · exact h.raises (by decide)
  · exact Infl.Base.live
      { h.toBase with range := ⟨hx, hnl, hnd, hnc, hnh, hls, hln, hds, Nat.le_of_lt_succ len.isLt⟩ } h.sticky rfl

theorem dynhdrAct_ok (hlit hdist : BitVec 5) (hclen : BitVec 4) : (dynhdrAct hlit hdist hclen i).Ok := by
  obtain ⟨hx, -, -, -, hnh, hls, hln, hds, hrm⟩ := h.range
  have hnl := hlit.isLt
  have hnd := hdist.isLt
  have hnc := hclen.isLt
  have hb : ∀ nhave ≤ 19, Infl.RangeInv { i with
      nlen := hlit.toNat + 257, ndist := hdist.toNat + 1, ncode := hclen.toNat + 4, nhave := nhave } := fun nhave hnh =>
    ⟨hx, by simp only []; omega, by simp only []; omega, by simp only []; omega, hnh, hls, hln, hds, hrm⟩
  simp only [dynhdrAct]
  split_ifs
  · exact ⟨{ h.toBase with range := hb i.nhave hnh }, by decide⟩
  · exact Infl.Base.live
      { h.toBase with range := hb 0 (by decide), cl := fun l hl => (List.mem_replicate.1 hl).2 ▸ Nat.zero_le 7 } h.sticky rfl

theorem cllenAct_ok (len : BitVec 3) (hlt : i.nhave < i.ncode) : (cllenAct len i).Ok := by
  obtain ⟨hx, hnl, hnd, hnc, hnh, hrest⟩ := h.range
  refine { h with range := ⟨hx, hnl, hnd, hnc, hlt.trans_le hnc, hrest⟩, cl := fun l hl => ?_ }
  obtain hl | rfl := List.mem_or_eq_of_mem_set hl
  · exact h.cl l hl
  · exact Nat.le_of_lt_succ len.isLt

theorem buildClt_ok (p : Params) : (buildClt p i).Ok := by
  unfold buildClt
  split
  · rename_i hx
    exact h.raises (hdBuild_error_code hx)
  · rename_i ht
    obtain rfl := hdBuild_ok ht
    exact { h with clt := h.cl, lens := nofun, notBad := nofun, room := fun _ => Nat.zero_le _, mat := nofun }

theorem runAct_ok {v : Nat} (hv : v ≤ 15) (c : Nat) : (runAct v c i).Ok := by
  unfold runAct
  split_ifs with hc
  · exact h.raises (by decide)
  · refine { h with
      lens := List.forall_mem_append.2 ⟨h.lens, fun l hl => (List.mem_replicate.1 hl).2 ▸ hv⟩, room := fun _ => ?_ }
    rw [List.length_append, List.length_replicate]
    exact Nat.not_lt.1 hc

theorem clsymAct_ok (s x : Nat) (hlt : i.lens.length < i.nlen + i.ndist) : (clsymAct s x i).Ok := by
  unfold clsymAct
  split_ifs with h16
  · refine { h with
      lens := List.forall_mem_append.2 ⟨h.lens, List.forall_mem_singleton.2 (Nat.le_of_lt_succ h16)⟩, room := fun _ => ?_ }
    rw [List.length_append]
    exact hlt
  · split
    · exact h.raises (by decide)
    · rename_i v hv
      exact runAct_ok h (h.lens v (List.mem_of_getLast? hv)) _
  · exact runAct_ok h (Nat.zero_le _) _
  · exact runAct_ok h (Nat.zero_le _) _

theorem buildTables_ok (p : Params) : (buildTables p i).Ok := by
  unfold buildTables
  split_ifs
  · exact h.raises (by decide)
  · split
    · rename_i hx
      exact h.raises (hdBuild_error_code hx)
    · rename_i t ht
      have hll : ∀ l ∈ t, l ≤ 15 := hdBuild_ok ht ▸ fun l hl => h.lens l (List.mem_of_mem_take hl)
      have h' : Infl.Live { i with ll := t } := { h with ll := hll }
      simp only []
      split
      · rename_i hx
        exact h'.raises (hdBuild_error_code hx)
      · rename_i u hu
        have hdt : ∀ l ∈ u, l ≤ 15 := hdBuild_ok hu ▸ fun l hl => h.lens l (List.mem_of_mem_drop (List.mem_of_mem_take hl))
        exact Infl.Base.live { h'.toBase with dt := hdt } h.sticky rfl

theorem symAct_ok (s : Nat) : (symAct s i).Ok := by
  obtain ⟨hx, hnl, hnd, hnc, hnh, -, hrest⟩ := h.range
  unfold symAct
  split_ifs with h286
  · exact h.raises (by decide)
  · exact Infl.Base.live { h.toBase with } h.sticky rfl
  · exact h.at rfl
  · exact Infl.Base.live
      { h.toBase with range := ⟨hx, hnl, hnd, hnc, hnh, by simp only []; omega, hrest⟩ } h.sticky rfl

theorem lenextAct_ok {x : Nat} (hl : lenBase.getD i.lsym 0 + x ≤ 258) : (lenextAct x i).Ok := by
  obtain ⟨hx, hnl, hnd, hnc, hnh, hls, -, hrest⟩ := h.range
  exact Infl.Base.live { h.toBase with range := ⟨hx, hnl, hnd, hnc, hnh, hls, hl, hrest⟩ } h.sticky rfl

theorem distAct_ok (s : Nat) : (distAct s i).Ok := by
  obtain ⟨hx, hnl, hnd, hnc, hnh, hls, hln, -, hrm⟩ := h.range
  unfold distAct
  split_ifs with h30
  · exact h.raises (by decide)
  · exact Infl.Base.live
      { h.toBase with range := ⟨hx, hnl, hnd, hnc, hnh, hls, hln, by simp only []; omega, hrm⟩ } h.sticky rfl

theorem distextAct_ok (x : Nat) : (distextAct x i).Ok := by
  obtain ⟨-, -, -, -, -, -, -, hds, -⟩ := h.range
  have hpos := distBase_pos hds
  simp only [distextAct]
  split_ifs with hd
  · exact h.raises (by decide)
  · exact { h with notBad := nofun, room := nofun, mat := fun _ => ⟨hpos.trans (Nat.le_add_right _ _), Nat.not_lt.1 hd⟩ }

theorem ztrlAct_ok (adler : Word) : (ztrlAct adler i).Ok := by
  unfold ztrlAct
  split_ifs
  · exact h.raises (by decide)
  · exact h.at rfl

theorem gzCrcAct_ok (crc : Word) : (gzCrcAct crc i).Ok := by
  unfold gzCrcAct
  split_ifs
  · exact h.raises (by decide)
  · exact h.at rfl

theorem gzIsizeAct_ok (n : Word) : (gzIsizeAct n i).Ok := by
  unfold gzIsizeAct
  split_ifs
  · exact h.raises (by decide)
  · exact h.at rfl

end

/-! ## Producing a byte (R468) -/

section
variable {c : InflCtx} (h : c.Live)
include h

theorem inflEmit_live (v : Byte) : (inflEmit v c).Live := by
  obtain ⟨he, hb⟩ := h
  have hw : whave c.e ≤ whave (inflEmit v c).e := by
    simp only [whave, inflEmit_e_produced, inflEmit_e_wbits]
    omega
  refine ⟨{ he with win := memWrite_wf he.win _ _, isize := ?_, mat := fun hs => ?_ }, outByteBus_inv hb⟩
  · rw [inflEmit_e_isize, inflEmit_e_produced, he.isize, BitVec.ofNat_add]
    rfl
  · obtain ⟨hpos, hle⟩ := he.mat hs
    exact ⟨hpos, hle.trans hw⟩

theorem copyByte_live : (copyByte c).Live := by
  obtain ⟨he, hb⟩ := inflEmit_live h (matchByte c.e)
  obtain ⟨hx, hnl, hnd, hnc, hnh, hls, hln, hrest⟩ := he.range
  exact ⟨{ he with range := ⟨hx, hnl, hnd, hnc, hnh, hls, (Nat.sub_le _ _).trans hln, hrest⟩ }, hb⟩

theorem litByte_live : (litByte c).Live := by
  obtain ⟨he, hb⟩ := inflEmit_live h c.e.lit
  exact ⟨he.at rfl, hb⟩

theorem storedByte_live (b : Byte) : (storedByte b c).Live := by
  obtain ⟨he, hb⟩ := inflEmit_live h b
  obtain ⟨hx, hnl, hnd, hnc, hnh, hls, hln, hds, hrm⟩ := he.range
  exact ⟨{ he with range := ⟨hx, hnl, hnd, hnc, hnh, hls, hln, hds, (Nat.sub_le _ _).trans hrm⟩ }, hb⟩

end

/-! ## Micro-steps (R463) -/

/-- A micro-step leaves a live engine, or raises a terminal error. -/
def Micro.Ok : Micro → Prop
  | .complete c | .suspend c | .stop c => c.Live
  | .raised x c => c.Base ∧ 3 ≤ x.code

theorem finish_ok {n : Nat} {halts : Bool} {c : InflCtx} {a : Act} (ha : a.Ok) (hb : c.bus.Inv) :
    (finish n halts c a).Ok := by
  cases a with
  | bad x i => exact ⟨⟨ha.1, hb⟩, ha.2⟩
  | good i =>
    have hl : InflCtx.Live { c with e := brDrop n i } := ⟨Infl.Live.brDrop ha n, hb⟩
    simp only [finish]
    split_ifs <;> exact hl

section
variable {c : InflCtx} (h : c.Live)
include h

theorem needing_ok {n : Nat} (hn : n ≤ 32) {g : InflCtx → Micro} (hg : ∀ c1, Fetched c c1 → c1.Live → (g c1).Ok) :
    (needing n c g).Ok := by
  have hf := fetched_brNeed hn h.1.bits h.2
  have hl := hf.live h.1
  simp only [needing]
  split_ifs
  · exact hg _ hf hl
  · exact hl

theorem reading_ok {n : Nat} (hn : n ≤ 32) {act : Nat → Infl → Act}
    (ha : ∀ v i, v < 2 ^ n → onlyReader c.e i → i.Live → (act v i).Ok) : (reading n c act).Ok :=
  needing_ok h hn fun _ hf hl => finish_ok (ha _ _ (Nat.mod_lt _ (Nat.two_pow_pos n)) hf.frame hl.1) hl.2

theorem silently_ok {i : Infl} (hi : i.Live) : (silently c i).Ok := ⟨hi, h.2⟩

theorem blockTypeMicro_ok (f : Flush) : (blockTypeMicro f c).Ok := by
  unfold blockTypeMicro
  split_ifs
  · exact h
  · exact silently_ok h ((h.1.brDrop _).at rfl)
  · exact needing_ok h (by decide) fun _ _ hl => finish_ok (blkhdrAct_ok hl.1 _ _) hl.2

theorem storedLenMicro_ok (f : Flush) : (storedLenMicro f c).Ok :=
  needing_ok (c := { c with e := brAlign c.e }) ⟨h.1.brDrop _, h.2⟩ (by decide) fun _ _ hl =>
    finish_ok (stolenAct_ok hl.1 _ _) hl.2

theorem storedCopyMicro_ok : (storedCopyMicro c).Ok := by
  unfold storedCopyMicro
  split_ifs
  · exact silently_ok h (h.1.at rfl)
  · exact h
  · exact storedByte_live (c := { e := { c.e with regs := inByteRegs c.e.regs c.bus }, bus := inByteBus c.e.regs c.bus })
      ⟨{ h.1 with }, inByteBus_inv h.2⟩ _

theorem dynClensMicro_ok (p : Params) : (dynClensMicro p c).Ok := by
  unfold dynClensMicro
  split_ifs with hlt
  · refine reading_ok h (by decide) fun v i _ hr hl => cllenAct_ok hl _ ?_
    rw [hr]
    exact hlt
  · exact finish_ok (buildClt_ok h.1 p) h.2

theorem dynLensMicro_ok (p : Params) (f : Flush) : (dynLensMicro p f c).Ok := by
  unfold dynLensMicro
  split_ifs with hlt
  · split <;> rename_i hd <;>
      obtain ⟨hf, hn⟩ := fetched_hdDecode (fun l hl => (h.1.clt l hl).trans (by decide)) h.1.bits h.2 hd
    · exact hf.live h.1
    · exact ⟨⟨(hf.live h.1).1.toBase, hf.bus⟩, by decide⟩
    · rename_i s n c1
      have hn := hn s n rfl
      have := maxLen_le h.1.clt
      have := clXb_le s
      refine needing_ok (hf.live h.1) (by omega) fun c2 hf2 hl => finish_ok (clsymAct_ok hl.1 _ _ ?_) hl.2
      rw [(hf.trans hf2).frame]
      exact hlt
  · exact finish_ok (buildTables_ok h.1 p) h.2

theorem symMicro_ok : (symMicro c).Ok := by
  unfold symMicro
  split <;> rename_i hd <;> obtain ⟨hf, -⟩ := fetched_hdDecode h.1.ll h.1.bits h.2 hd <;> have hl := hf.live h.1
  · exact hl
  · exact ⟨⟨hl.1.toBase, hl.2⟩, by decide⟩
  · exact finish_ok (symAct_ok hl.1 _) hl.2

theorem distMicro_ok : (distMicro c).Ok := by
  unfold distMicro
  split <;> rename_i hd <;> obtain ⟨hf, -⟩ := fetched_hdDecode h.1.dt h.1.bits h.2 hd <;> have hl := hf.live h.1
  · exact hl
  · exact ⟨⟨hl.1.toBase, hl.2⟩, by decide⟩
  · exact finish_ok (distAct_ok hl.1 _) hl.2

theorem litMicro_ok : (litMicro c).Ok := by
  unfold litMicro
  split_ifs
  · exact h
  · exact litByte_live h

theorem lenextMicro_ok : (reading (lenXb.getD c.e.lsym 0) c lenextAct).Ok := by
  obtain ⟨-, -, -, -, -, hls, -⟩ := h.1.range
  have hxb : ∀ k ≤ 28, lenXb.getD k 0 ≤ 32 := by decide
  refine reading_ok h (hxb _ hls) fun v i hv hr hl => lenextAct_ok hl ?_
  rw [hr]
  exact lenBase_add_le hls hv

theorem distextMicro_ok : (reading (distXb.getD c.e.dsym 0) c distextAct).Ok := by
  obtain ⟨-, -, -, -, -, -, -, hds, -⟩ := h.1.range
  have hxb : ∀ k ≤ 29, distXb.getD k 0 ≤ 32 := by decide
  exact reading_ok h (hxb _ hds) fun v i _ _ hl => distextAct_ok hl v

theorem matchMicro_ok : (matchMicro c).Ok := by
  unfold matchMicro
  split_ifs
  · exact silently_ok h (h.1.at rfl)
  · exact h
  · exact copyByte_live h

theorem trailerMicro_ok : (trailerMicro c).Ok := by
  unfold trailerMicro
  split
  · exact ⟨h.1.at rfl, h.2⟩
  · exact needing_ok h (by decide) fun _ _ hl => finish_ok (ztrlAct_ok hl.1 _) hl.2
  · exact reading_ok h (by decide) fun _ _ _ _ hl => gzCrcAct_ok hl _

/-- Every micro-step keeps the engine live or raises (R463). -/
theorem inflMicro_ok (p : Params) (f : Flush) : (inflMicro p f c).Ok := by
  cases hs : c.e.stage <;> simp only [inflMicro, hs]
  case zhdr => exact reading_ok h (by decide) fun _ _ _ _ hl => zhdrAct_ok hl _ _
  case dictid => exact needing_ok h (by decide) fun _ _ hl => finish_ok (dictAct_ok (hl.1.brDrop _) _) hl.2
  case gzMagic => exact reading_ok h (by decide) fun _ _ _ _ hl => gzMagicAct_ok hl _ _
  case gzCmflg => exact reading_ok h (by decide) fun _ _ _ _ hl => gzCmflgAct_ok hl _ _
  case gzMtime => exact reading_ok h (by decide) fun _ _ _ _ hl => hl.at rfl
  case gzXflos => exact reading_ok h (by decide) fun _ _ _ _ hl => gzXflosAct_ok hl _ _
  case gzExlen => exact reading_ok h (by decide) fun _ _ _ _ hl => gzXlenAct_ok hl _
  case gzExtra =>
    split_ifs
    · exact silently_ok h (h.1.at rfl)
    · exact reading_ok h (by decide) fun _ _ _ _ hl => gzExtraAct_ok hl _
  case gzName =>
    split_ifs
    · exact reading_ok h (by decide) fun _ _ _ _ hl => gzNameAct_ok hl _
    · exact silently_ok h (h.1.at rfl)
  case gzComment =>
    split_ifs
    · exact reading_ok h (by decide) fun _ _ _ _ hl => gzCommentAct_ok hl _
    · exact silently_ok h (h.1.at rfl)
  case gzHcrc =>
    split_ifs
    · exact reading_ok h (by decide) fun _ _ _ _ hl => gzHcrcAct_ok hl _
    · exact silently_ok h (h.1.at rfl)
  case blockType => exact blockTypeMicro_ok h f
  case storedLen => exact storedLenMicro_ok h f
  case storedCopy => exact storedCopyMicro_ok h
  case dynCounts => exact needing_ok h (by decide) fun _ _ hl => finish_ok (dynhdrAct_ok hl.1 _ _ _) hl.2
  case dynClens => exact dynClensMicro_ok h p
  case dynLens => exact dynLensMicro_ok h p f
  case sym => exact symMicro_ok h
  case lit => exact litMicro_ok h
  case lenext => exact lenextMicro_ok h
  case dist => exact distMicro_ok h
  case distext => exact distextMicro_ok h
  case mat => exact matchMicro_ok h
  case trailer => exact trailerMicro_ok h
  case gzIsize => exact needing_ok h (by decide) fun _ _ hl => finish_ok (gzIsizeAct_ok hl.1 _) hl.2
  case done | bad => exact h

end

/-! ## The work loop and `WRITE` (R462, R463) -/

/-- How a run of micro-steps leaves the engine. -/
def LoopEnd.Ok : LoopEnd → Prop
  | .error x c => c.Base ∧ 3 ≤ x.code
  | .left _ c => c.Live

theorem inflLoop_ok {p : Params} {f : Flush} {n : Nat} {c : InflCtx} (h : c.Live) {r : LoopEnd}
    (hl : inflLoop p f n c = some r) : r.Ok := by
  induction n generalizing c with
  | zero => cases hl
  | succ n ih =>
    have hm := inflMicro_ok h p f
    simp only [inflLoop] at hl
    split at hl <;> rename_i hc <;> rw [hc] at hm
    · cases hl
      exact hm
    · cases hl
      exact hm
    · cases hl
      exact hm
    · exact ih (c := staleCtx _) ⟨{ hm.1 with }, hm.2⟩ hl

/-- What an operation of `INFL` answers: an engine that meets the invariant, and spaces in canonical form. -/
def InflAnswers (r : Result) : Prop := ∀ t, r = .next t → t.infl.Inv ∧ t.bus.Inv

section
variable {s : State}

theorem InflAnswers.next {t : State} (hi : t.infl.Inv) (hb : t.bus.Inv) : InflAnswers (.next t) := by
  intro u hu
  cases hu
  exact ⟨hi, hb⟩

theorem InflAnswers.inRange {c : Prop} {_ : Decidable c} {r : Result} (h : c → InflAnswers r) :
    InflAnswers (inRange c r) := by
  unfold Machine.inRange
  split_ifs with hc
  · exact h hc
  · intro t ht
    cases ht

theorem LoopEnd.Ok.inflEnd {r : LoopEnd} (h : r.Ok) (f : Flush) (r0 : StreamRegs) (s : State) :
    (inflEnd f r0 s r).infl.Inv ∧ (inflEnd f r0 s r).bus.Inv := by
  cases r with
  | error x c => exact ⟨h.1.1.raise h.2, h.1.2⟩
  | left stopped c => exact ⟨h.1.inv, h.2⟩

theorem inflRun_answers (f : Flush) (h : s.infl.Live) (hb : s.bus.Inv) : InflAnswers (inflRun f s) := by
  intro t ht
  simp only [inflRun] at ht
  split at ht
  · cases ht
  · rename_i r hl
    cases ht
    exact (inflLoop_ok (c := ⟨{ s.infl with fresh := true }, s.bus⟩) ⟨{ h with }, hb⟩ hl).inflEnd _ _ _

/-- The entry checks of R462 in their order: none of them is about anything but the code. -/
theorem inflWrite_answers (f : Flush) (h : s.infl.Inv) (hb : s.bus.Inv) : InflAnswers (inflWrite f s) := by
  simp only [inflWrite]
  split_ifs with h1 h2 h3 h4
  · exact .next h hb
  · exact .next h hb
  · exact .next h hb
  · exact .next h hb
  · exact inflRun_answers f (h.live (h.notBad (Bool.of_not_eq_false h1) (not_not.1 h2))) hb

/-- Bytes taken by the stage; the host's `IN` is put back (log 5). -/
theorem streamBytes_answers (bytes : List Byte) (h : s.infl.Inv) (hb : s.bus.Inv) :
    InflAnswers (streamBytes bytes s) := by
  have hw := inflWrite_answers .none (s := withInput bytes s) h ⟨memOf_wf bytes, hb.2⟩
  intro t ht
  unfold streamBytes at ht
  split at ht
  · rename_i u hu
    cases ht
    obtain ⟨hi, hb'⟩ := hw u hu
    exact ⟨hi, hb.1, hb'.2⟩
  · exact absurd ht (by rename_i hn; exact hn t)

/-! ## `RESET` (R461) -/

theorem Infl.reset_base : Infl.reset.Base where
  wbits := by decide
  bits := by simp [Infl.BitsOk, Infl.reset]
  range := by decide
  cl := nofun
  clt := nofun
  lens := nofun
  ll := nofun
  dt := nofun
  win := Memory.wf_nil
  isize := rfl

theorem firstStage_plain (w : Wrap) : (firstStage w).plain = true := by cases w <;> rfl

theorem inflStart_inv {c : Word} (hl : inflLegal c = true) (r : StreamRegs) : (inflStart c r).Inv := by
  simp only [inflLegal, Bool.and_eq_true, decide_eq_true_eq] at hl
  obtain ⟨⟨hw, -⟩, -⟩ := hl
  have hbase : (inflStart c r).Base := { Infl.reset_base with wbits := ⟨hw, Nat.le_of_lt_succ (field_lt 4 4 c.toNat)⟩ }
  exact (hbase.live rfl (firstStage_plain _)).inv

theorem inflReset_inv {i : Infl} (h : i.Inv) : (inflReset i).Inv := by
  unfold inflReset
  split_ifs with hl
  · exact inflStart_inv hl _
  · obtain ⟨wbits, bits, range, lens, -, hrest⟩ := h
    exact ⟨wbits, bits, range, lens, ⟨fun hs => absurd rfl hs, nofun, .inl rfl⟩, hrest⟩

/-! ## Stream elements on their own (log 5) -/

/-- The outcome of an element put back (R463; log 25). -/
theorem Act.Ok.endAct {a : Act} (h : a.Ok) (s : State) : (endAct s a).infl.Inv := by
  cases a with
  | good i => exact h.inv
  | bad x i => exact h.1.raise h.2

theorem endAct_bus (s : State) (a : Act) : (endAct s a).bus = s.bus := by cases a <;> rfl

theorem Infl.Inv.ready {fmt : Fmt} {i : Infl} (h : i.Inv) (hr : elementReady fmt i = true) :
    i.Live ∧ readsFmt fmt i = true := by
  simp only [elementReady, Bool.and_eq_true, beq_iff_eq] at hr
  exact ⟨h.live (h.notBad hr.1.1 hr.1.2), hr.2⟩

section
variable (h : s.infl.Inv) (hb : s.bus.Inv)
include h hb

theorem element_answers {fmt : Fmt} {i : Instr} {act : Infl → Act}
    (ha : s.infl.Live → readsFmt fmt s.infl = true → (act s.infl).Ok) : InflAnswers (element fmt i s act) := by
  unfold element
  split_ifs with hr
  · obtain ⟨hl, hf⟩ := h.ready hr
    exact .next ((ha hl hf).endAct s) (by rw [endAct_bus]; exact hb)
  · exact streamBytes_answers _ h hb

theorem symbolElement_answers {fmt : Fmt} {tb : TableId} {sym : Nat} {i : Instr} {act : Infl → Act} {after : State → State}
    (ha : s.infl.Live → readsFmt fmt s.infl = true → InflAnswers (.next (after (endAct s (act s.infl))))) :
    InflAnswers (symbolElement fmt tb sym i s act after) := by
  unfold symbolElement
  split_ifs with hr
  · simp only [symbolReady, Bool.and_eq_true] at hr
    obtain ⟨hl, hf⟩ := h.ready hr.1
    exact ha hl hf
  · exact streamBytes_answers _ h hb

theorem symbolElement_id_answers {fmt : Fmt} {tb : TableId} {sym : Nat} {i : Instr} {act : Infl → Act}
    (ha : s.infl.Live → readsFmt fmt s.infl = true → (act s.infl).Ok) : InflAnswers (symbolElement fmt tb sym i s act id) :=
  symbolElement_answers h hb fun hl hf => .next ((ha hl hf).endAct s) (by rw [id, endAct_bus]; exact hb)

theorem clElement_answers (k x : Nat) (i : Instr) : InflAnswers (clElement k x i s) :=
  symbolElement_id_answers h hb fun hl hf => clsymAct_ok hl _ _ (by
    simp only [readsFmt, Bool.and_eq_true, decide_eq_true_eq] at hf
    exact hf.2)

end

theorem Act.Ok.andThen {a : Act} {g : Infl → Act} (ha : a.Ok) (hg : ∀ j, a = .good j → j.Live → (g j).Ok) :
    (a.andThen g).Ok := by
  cases a with
  | good j => exact hg j rfl ha
  | bad x j => exact ha

/-- A length symbol leaves its length within `MAX_MATCH` (R143, R492, R494). -/
theorem lenAct_ok {i : Infl} (h : i.Live) {k x : Nat} (hk : 257 ≤ k ∧ k < 286) (hx : x < 2 ^ lenXb.getD (k - 257) 0) :
    ((symAct k i).andThen (lenextAct x)).Ok := by
  refine (symAct_ok h k).andThen fun j hj hl => lenextAct_ok hl ?_
  have hs : j.lsym = k - 257 := by
    rw [symAct, if_neg (by omega), if_neg (by omega), if_neg (by omega)] at hj
    cases hj
    rfl
  rw [hs]
  exact lenBase_add_le (by omega) hx

theorem lenElement_answers (h : s.infl.Inv) (hb : s.bus.Inv) {k x : Nat} {i : Instr} (hk : 257 ≤ k ∧ k < 286)
    (hx : x < 2 ^ lenXb.getD (k - 257) 0) : InflAnswers (lenElement k x i s) :=
  symbolElement_id_answers h hb fun hl _ => lenAct_ok hl hk hx

theorem copyLoop_live (n : Nat) {c : InflCtx} (h : c.Live) : (copyLoop n c).Live := by
  induction n generalizing c with
  | zero => exact h
  | succ n ih =>
    simp only [copyLoop]
    split_ifs
    · exact h
    · exact ih (copyByte_live h)

theorem matchRun_live {c : InflCtx} (h : c.Live) : (matchRun c).Live := by
  have hl := copyLoop_live c.e.length h
  simp only [matchRun]
  split_ifs
  · exact ⟨hl.1.at rfl, hl.2⟩
  · exact hl

/-- The copy after a distance symbol (R497). -/
theorem afterDist_answers {t : State} (hi : t.infl.Inv) (hb : t.bus.Inv) : InflAnswers (.next (afterDist t)) := by
  unfold afterDist
  split_ifs with hs
  · have hm := matchRun_live (c := ⟨t.infl, t.bus⟩) ⟨hi.live (hs ▸ nofun), hb⟩
    exact .next hm.1.inv hm.2
  · exact .next hi hb

/-- The byte put out after a literal (R493). -/
theorem afterLit_answers {t : State} (hi : t.infl.Inv) (hb : t.bus.Inv) (hs : t.infl.stage ≠ .bad) :
    InflAnswers (.next (afterLit t)) := by
  unfold afterLit
  split_ifs
  · exact .next hi hb
  · have hm := litByte_live (c := ⟨t.infl, t.bus⟩) ⟨hi.live hs, hb⟩
    exact .next hm.1.inv hm.2

theorem distElement_answers (h : s.infl.Inv) (hb : s.bus.Inv) (k x : Nat) (i : Instr) :
    InflAnswers (distElement k x i s) :=
  symbolElement_answers h hb fun hl _ =>
    have ha : ((distAct k s.infl).andThen (distextAct x)).Ok := (distAct_ok hl k).andThen fun _ _ hj => distextAct_ok hj x
    afterDist_answers (ha.endAct s) (by rw [endAct_bus]; exact hb)

theorem lit_answers (h : s.infl.Inv) (hb : s.bus.Inv) (b : Byte) : InflAnswers (execLit b s) := by
  refine symbolElement_answers h hb fun hl _ =>
    afterLit_answers ((symAct_ok hl _).endAct s) (by rw [endAct_bus]; exact hb) ?_
  have := b.isLt
  rw [symAct, if_neg (by omega), if_pos (by omega)]
  exact nofun

theorem storedRaw_answers (h : s.infl.Inv) (hb : s.bus.Inv) (b : Byte) : InflAnswers (execStoredRaw b s) := by
  unfold execStoredRaw
  split_ifs with hr
  · exact .next h hb
  · have hm := storedByte_live (c := ⟨s.infl, s.bus⟩) ⟨(h.ready hr).1, hb⟩ b
    exact .next hm.1.inv hm.2
  · exact streamBytes_answers _ h hb

/-! ## Unit operations of `INFL` -/

theorem Fetched.answers {c : InflCtx} (h : s.infl.Inv) (hf : Fetched ⟨s.infl, s.bus⟩ c) (y : Yield) :
    InflAnswers (yielding y (withInfl c s)) := .next (h.of_onlyReader hf.frame hf.bits) hf.bus

theorem tableLens_le {i : Infl} (h : i.Base) (t : TableId) : ∀ l ∈ tableLens t i, l ≤ 15 := by
  cases t with
  | clt => exact fun l hl => (h.clt l hl).trans (by decide)
  | ll => exact h.ll
  | dt => exact h.dt

theorem execHdBuild_answers (h : s.infl.Inv) (hb : s.bus.Inv) (lens : Lens) (max : Nat) (kind : CodeKind) :
    InflAnswers (execHdBuild lens max kind s) := by
  refine .inRange fun _ => ?_
  split
  · exact .next h hb
  · rename_i x hx
    split_ifs
    · exact .next (h.base.raise (hdBuild_error_code hx)) hb
    · exact .next h hb

theorem execBrNeed_answers (h : s.infl.Inv) (hb : s.bus.Inv) (n : Nat) : InflAnswers (execBrNeed n s) :=
  .inRange fun hn => (fetched_brNeed hn h.base.bits hb).answers h _

theorem execBrGet_answers (h : s.infl.Inv) (hb : s.bus.Inv) (n : Nat) : InflAnswers (execBrGet n s) := by
  refine .inRange fun hn => ?_
  have hf := fetched_brNeed (c := ⟨s.infl, s.bus⟩) hn h.base.bits hb
  simp only []
  split_ifs
  · exact .next (h.of_onlyReader (hf.frame.trans rfl) (hf.bits.brDrop n)) hf.bus
  · exact hf.answers h _

theorem execHdDecode_answers (h : s.infl.Inv) (hb : s.bus.Inv) (t : TableId) : InflAnswers (execHdDecode t s) :=
  (fetched_hdDecode (max := tableMax t) (c := ⟨s.infl, s.bus⟩) (tableLens_le h.base t) h.base.bits hb rfl).1.answers h _

/-! ## Pseudo-elements (R161) -/

theorem execSyncMarker_answers (h : s.infl.Inv) (hb : s.bus.Inv) : InflAnswers (execSyncMarker s) :=
  element_answers (fmt := .pseudo) h hb fun hl _ =>
    ((blkhdrAct_ok hl false 0).andThen fun _ _ hj => stolenAct_ok (hj.brDrop _) _ _).andThen fun _ _ hj => hj.at rfl

theorem emptyFixed_ok {i : Infl} (h : i.Live) (final : Bool) : ((blkhdrAct final 1 i).andThen (symAct 256)).Ok :=
  (blkhdrAct_ok h final 1).andThen fun _ _ hj => symAct_ok hj 256

theorem execPartialMarker_answers (h : s.infl.Inv) (hb : s.bus.Inv) : InflAnswers (execPartialMarker s) :=
  element_answers (fmt := .pseudo) h hb fun hl _ => emptyFixed_ok hl false

theorem execEmptyFinal_answers (h : s.infl.Inv) (hb : s.bus.Inv) : InflAnswers (execEmptyFinal s) :=
  element_answers (fmt := .pseudo) h hb fun hl _ => emptyFixed_ok hl true

theorem execStolen_answers (h : s.infl.Inv) (hb : s.bus.Inv) (len nlen : BitVec 16) :
    InflAnswers (execStolen len nlen s) :=
  element_answers (fmt := .stolen) h hb fun hl _ => stolenAct_ok (hl.brDrop _) len nlen

/-! ## Every instruction of `INFL` -/

theorem exec_inflAnswers {i : Instr} (he : engineOf i = .infl) (h : s.infl.Inv) (hb : s.bus.Inv) :
    InflAnswers (exec i s) := by
  cases i with
  | inflReset => exact .next (inflReset_inv h) hb
  | inflWriteNone | inflWriteBlock | inflWritePartial | inflWriteSync | inflWriteFull | inflWriteFinish | inflWriteTrees =>
    exact inflWrite_answers _ h hb
  | brNeed n => exact execBrNeed_answers h hb n
  | brPeek k n => exact .inRange fun _ => .next h hb
  | brDrop n => exact .inRange fun _ => .next (h.of_onlyReader rfl (h.base.bits.brDrop n)) hb
  | brGet n => exact execBrGet_answers h hb n
  | brAlign => exact .next (h.of_onlyReader rfl (h.base.bits.brDrop _)) hb
  | hdBuild lens max kind => exact execHdBuild_answers h hb lens max kind
  | hdDecode t => exact execHdDecode_answers h hb t
  | blkhdrStored _ | blkhdrFixed _ | blkhdrDynamic _ | blkhdrReserved _ =>
    exact element_answers h hb fun hl _ => blkhdrAct_ok hl _ _
  | stolen len nlen => exact execStolen_answers h hb len nlen
  | storedRaw b => exact storedRaw_answers h hb b
  | dynhdr _ _ _ => exact element_answers h hb fun hl _ => dynhdrAct_ok hl _ _ _
  | cllen len =>
    refine element_answers h hb fun hl hf => cllenAct_ok hl len ?_
    simp only [readsFmt, Bool.and_eq_true, decide_eq_true_eq] at hf
    exact hf.2
  | clsymLen _ | clsymRep16 _ | clsymZero17 _ | clsymZero18 _ => exact clElement_answers h hb _ _ _
  | lit b => exact lit_answers h hb b
  | eob | llsymReserved _ => exact symbolElement_id_answers h hb fun hl _ => symAct_ok hl _
  | len257 | len258 | len259 | len260 | len261 | len262 | len263 | len264 | len285 =>
    exact lenElement_answers h hb (by decide) (by decide)
  | len265 x | len266 x | len267 x | len268 x | len269 x | len270 x | len271 x | len272 x | len273 x | len274 x | len275 x
  | len276 x | len277 x | len278 x | len279 x | len280 x | len281 x | len282 x | len283 x | len284 x =>
    exact lenElement_answers h hb (by decide) x.isLt
  | dsymReserved _ => exact symbolElement_id_answers h hb fun hl _ => distAct_ok hl _
  | dist0 | dist1 | dist2 | dist3 | dist4 _ | dist5 _ | dist6 _ | dist7 _ | dist8 _ | dist9 _ | dist10 _ | dist11 _
  | dist12 _ | dist13 _ | dist14 _ | dist15 _ | dist16 _ | dist17 _ | dist18 _ | dist19 _ | dist20 _ | dist21 _ | dist22 _
  | dist23 _ | dist24 _ | dist25 _ | dist26 _ | dist27 _ | dist28 _ | dist29 _ => exact distElement_answers h hb _ _ _
  | zhdr _ _ => exact element_answers h hb fun hl _ => zhdrAct_ok hl _ _
  | zdictid _ => exact element_answers h hb fun hl _ => dictAct_ok hl _
  | ztrl _ => exact element_answers h hb fun hl _ => ztrlAct_ok hl _
  | gzMagic _ _ => exact element_answers h hb fun hl _ => gzMagicAct_ok hl _ _
  | gzCmflg _ _ => exact element_answers h hb fun hl _ => gzCmflgAct_ok hl _ _
  | gzMtime _ => exact element_answers h hb fun hl _ => hl.at rfl
  | gzXflos _ _ => exact element_answers h hb fun hl _ => gzXflosAct_ok hl _ _
  | gzXlen _ => exact element_answers h hb fun hl _ => gzXlenAct_ok hl _
  | gzExtra _ => exact element_answers h hb fun hl _ => gzExtraAct_ok hl _
  | gzName _ => exact element_answers h hb fun hl _ => gzNameAct_ok hl _
  | gzComment _ => exact element_answers h hb fun hl _ => gzCommentAct_ok hl _
  | gzHcrc _ => exact element_answers h hb fun hl _ => gzHcrcAct_ok hl _
  | gzCrc32 _ => exact element_answers h hb fun hl _ => gzCrcAct_ok hl _
  | gzIsize _ => exact element_answers h hb fun hl _ => gzIsizeAct_ok hl _
  | syncMarker => exact execSyncMarker_answers h hb
  | partialMarker => exact execPartialMarker_answers h hb
  | emptyFinal => exact execEmptyFinal_answers h hb
  | _ => cases he

/-! ## The silent micro-steps before an element (log 5) -/

/-- How the silent micro-steps before an element leave the engine, which may be one in which none of them runs. -/
def LoopEnd.Settled : LoopEnd → Prop
  | .error x c => c.Base ∧ 3 ≤ x.code
  | .left _ c => c.e.Inv ∧ c.bus.Inv

theorem settleLoop_settled (p : Params) (n : Nat) {c : InflCtx} (h : c.e.Inv) (hb : c.bus.Inv) :
    (settleLoop p n c).Settled := by
  induction n generalizing c with
  | zero => exact ⟨h, hb⟩
  | succ n ih =>
    unfold settleLoop
    split_ifs with hs
    · have hlive : c.Live := by
        simp only [isSilent, Bool.and_eq_true, beq_iff_eq] at hs
        exact ⟨h.live (h.notBad hs.1.1 hs.1.2), hb⟩
      have hm := inflMicro_ok hlive p .none
      split <;> rename_i hr <;> rw [hr] at hm
      · exact ih hm.1.inv hm.2
      · exact ih hm.1.inv hm.2
      · exact ⟨hm.1.inv, hm.2⟩
      · exact hm
    · exact ⟨h, hb⟩

theorem fetchHcrc_inv {i : Infl} (h : i.Inv) (bytes : List Byte) : (fetchHcrc bytes i).Inv := by
  unfold fetchHcrc
  split_ifs
  · exact h.of_onlyReader rfl h.base.bits
  · exact h

/-- What is done before an element keeps the invariant of `INFL`, whether the element can then be run or not. -/
theorem fetchElement_inv {fmt : Fmt} {bytes : List Byte} {t : State} (h : s.infl.Inv) (hb : s.bus.Inv)
    (ht : fetchElement fmt bytes s = .ok t ∨ fetchElement fmt bytes s = .error t) : t.infl.Inv ∧ t.bus.Inv := by
  have hs : (settle s.params ⟨s.infl, s.bus⟩).Settled := settleLoop_settled _ _ h hb
  unfold fetchElement at ht
  cases hr : settle s.params ⟨s.infl, s.bus⟩ with
  | error x c =>
    rw [hr] at hs ht
    obtain ht | ht := ht <;> cases ht
    exact ⟨hs.1.1.raise hs.2, hs.1.2⟩
  | left stopped c =>
    rw [hr] at hs ht
    obtain ht | ht := ht <;> cases ht
    split_ifs
    · exact ⟨fetchHcrc_inv hs.1 bytes, hs.2⟩
    · exact ⟨h, hb⟩

end

end Sys2Proof.Machine

end

section
/-! PROOFS. What configures the engines (R604, R602, R71): every instruction but the two `RESET`s keeps both configurations and
the open parameters, and the `RESET`s keep `CONFIG`. -/

namespace Sys2Proof.Machine

/-! ## What only `RESET` changes in `DEFL` (R604) -/

/-- The configuration of `DEFL`: `CONFIG`, the flag, and the latched options (R35). -/
def Defl.setup (d : Defl) : Word × Bool × Nat × Nat × Nat × Strategy × Wrap :=
  (d.config, d.configured, d.level, d.wbits, d.mem, d.strategy, d.wrap)

theorem setup_of_onlyBits {d e : Defl} (h : onlyBits d e) : e.setup = d.setup := by rw [h]; rfl

theorem setup_of_onlyChains {d e : Defl} (h : onlyChains d e) : e.setup = d.setup := by rw [h]; rfl

theorem setup_of_onlyTokens {d e : Defl} (h : onlyTokens d e) : e.setup = d.setup := by rw [h]; rfl

theorem bwTake_setup (c : DeflCtx) : (bwTake c).d.setup = c.d.setup := by
  obtain ⟨h, -⟩ := bwTake_frame c
  rw [h]
  rfl

theorem accept_setup (c : DeflCtx) : (accept c).d.setup = c.d.setup := by
  obtain ⟨h, -⟩ := acceptLoop_frame (acceptCount c.d) c
  simp only [accept]
  split_ifs <;> rw [h] <;> rfl

theorem completeFlush_setup (f : Flush) (d : Defl) :
    (completeFlush f d).setup = d.setup := by rw [completeFlush_frame]; rfl

theorem writeMarker_setup (f : Flush) (d : Defl) : (writeMarker f d).setup = d.setup := by rw [writeMarker_frame]; rfl

theorem decideCollect_setup (pr : Params) (f : Flush) (c : DeflCtx) : (decideCollect pr f c).c.d.setup = c.d.setup := by
  simp only [decideCollect]
  split_ifs
  · rfl
  · rfl
  · rfl
  · exact writeMarker_setup f c.d
  · rfl
  · rfl
  · exact completeFlush_setup f c.d

theorem collect_setup (pr : Params) (f : Flush) (c : DeflCtx) : (collect pr f c).c.d.setup = c.d.setup := by
  have ht := setup_of_onlyTokens (onlyTokens_tokenise pr f (tokeniseFuel (accept c).d) (accept c).d)
  simp only [collect]
  split_ifs
  · exact ht.trans (accept_setup c)
  · exact (decideCollect_setup pr f _).trans (ht.trans (accept_setup c))

theorem deflWork_setup (pr : Params) (f : Flush) (c : DeflCtx) : (deflWork pr f c).c.d.setup = c.d.setup := by
  unfold deflWork
  by_cases hs : c.d.stage = .flushPending
  · simp only [if_pos hs]
    split_ifs <;> rfl
  · simp only [if_neg hs]
    cases c.d.phase with
    | collect => exact collect_setup pr f c
    | blkHeader =>
      have h := setup_of_onlyBits (onlyBits_hbEmitHeader c.d.blk c.d)
      exact h
    | blkSymbols =>
      have h := setup_of_onlyBits (onlyBits_hbEmitSymbols c.d.blk c.d)
      exact h
    | trailer =>
      have h := setup_of_onlyBits (onlyBits_bwAlign c.d)
      exact h

theorem deflRound_setup (pr : Params) (f : Flush) (trees : Bool) (c : DeflCtx) :
    (deflRound pr f trees c).c.d.setup = c.d.setup := by
  simp only [deflRound]
  split_ifs
  · exact bwTake_setup c
  · exact bwTake_setup c
  · exact (deflWork_setup pr f _).trans (bwTake_setup c)

theorem deflLoop_setup {pr : Params} {f : Flush} {n : Nat} {trees : Bool} {c : DeflCtx} {r : Bool × DeflCtx}
    (h : deflLoop pr f n trees c = some r) : r.2.d.setup = c.d.setup := by
  induction n generalizing trees c with
  | zero => cases h
  | succ n ih =>
    simp only [deflLoop] at h
    split_ifs at h
    · cases h; exact deflRound_setup pr f trees c
    · exact (ih h).trans (deflRound_setup pr f trees c)

theorem deflInit_setup (pr : Params) (d : Defl) : (deflInit pr d).setup = d.setup := by
  unfold deflInit
  split_ifs
  · cases d.wrap <;> rfl
  · rfl

/-! ## What only `RESET` changes in `INFL` (R604) -/

/-- The configuration of `INFL` (R50). -/
def Infl.setup (i : Infl) : Word × Bool × Nat × Wrap := (i.config, i.configured, i.wbits, i.wrap)

/-- The engine an element leaves, with an error or without. -/
def Act.infl : Act → Infl
  | .good i | .bad _ i => i

section
variable (i : Infl)

theorem zhdrAct_setup (a b : Byte) : (zhdrAct a b i).infl.setup = i.setup := by
  unfold zhdrAct; split <;> rfl

theorem gzMagicAct_setup (a b : Byte) : (gzMagicAct a b i).infl.setup = i.setup := by
  unfold gzMagicAct; split <;> rfl

theorem gzCmflgAct_setup (a b : Byte) : (gzCmflgAct a b i).infl.setup = i.setup := by
  simp only [gzCmflgAct]; split <;> rfl

theorem gzNameAct_setup (b : Byte) : (gzNameAct b i).infl.setup = i.setup := by
  unfold gzNameAct; split <;> rfl

theorem gzCommentAct_setup (b : Byte) : (gzCommentAct b i).infl.setup = i.setup := by
  unfold gzCommentAct; split <;> rfl

theorem gzHcrcAct_setup (c : BitVec 16) : (gzHcrcAct c i).infl.setup = i.setup := by
  unfold gzHcrcAct; split <;> rfl

theorem blkhdrAct_setup (b : Bool) (t : Nat) : (blkhdrAct b t i).infl.setup = i.setup := by
  simp only [blkhdrAct]; split <;> rfl

theorem stolenAct_setup (a b : BitVec 16) : (stolenAct a b i).infl.setup = i.setup := by
  unfold stolenAct; split <;> rfl

theorem dynhdrAct_setup (a b : BitVec 5) (c : BitVec 4) : (dynhdrAct a b c i).infl.setup = i.setup := by
  simp only [dynhdrAct]; split <;> rfl

theorem buildClt_setup (p : Params) : (buildClt p i).infl.setup = i.setup := by
  unfold buildClt; split <;> rfl

theorem runAct_setup (v c : Nat) : (runAct v c i).infl.setup = i.setup := by
  unfold runAct; split <;> rfl

theorem clsymAct_setup (s x : Nat) : (clsymAct s x i).infl.setup = i.setup := by
  unfold clsymAct
  split_ifs
  · rfl
  · split
    · rfl
    · exact runAct_setup i _ _
  · exact runAct_setup i _ _
  · exact runAct_setup i _ _

theorem buildTables_setup (p : Params) : (buildTables p i).infl.setup = i.setup := by
  unfold buildTables
  split_ifs
  · rfl
  · split
    · rfl
    · simp only []
      split <;> rfl

theorem symAct_setup (s : Nat) : (symAct s i).infl.setup = i.setup := by
  unfold symAct; split_ifs <;> rfl

theorem distAct_setup (s : Nat) : (distAct s i).infl.setup = i.setup := by
  unfold distAct; split_ifs <;> rfl

theorem distextAct_setup (x : Nat) : (distextAct x i).infl.setup = i.setup := by
  simp only [distextAct]; split_ifs <;> rfl

theorem ztrlAct_setup (c : Word) : (ztrlAct c i).infl.setup = i.setup := by
  unfold ztrlAct; split <;> rfl

theorem gzCrcAct_setup (c : Word) : (gzCrcAct c i).infl.setup = i.setup := by
  unfold gzCrcAct; split <;> rfl

theorem gzIsizeAct_setup (n : Word) : (gzIsizeAct n i).infl.setup = i.setup := by
  unfold gzIsizeAct; split <;> rfl

theorem andThen_setup {a : Act} {g : Infl → Act} (ha : a.infl.setup = i.setup) (hg : ∀ j, (g j).infl.setup = j.setup) :
    (a.andThen g).infl.setup = i.setup := by
  cases a with
  | good j => exact (hg j).trans ha
  | bad x j => exact ha

end

theorem brNeed_setup (n : Nat) (c : InflCtx) : (brNeed n c).2.e.setup = c.e.setup :=
  brNeed_induction (P := fun c1 => c1.e.setup = c.e.setup) (fun _ _ h => h) rfl

theorem hdDecode_setup (lens : Lens) (max : Nat) (c : InflCtx) : (hdDecode lens max c).2.e.setup = c.e.setup :=
  hdDecode_induction (P := fun c1 => c1.e.setup = c.e.setup) (fun _ _ h => h) rfl

theorem setup_of_hdDecode {lens : Lens} {max : Nat} {c c1 : InflCtx} {r : Scan} (h : hdDecode lens max c = (r, c1)) :
    c1.e.setup = c.e.setup := by
  simpa only [h] using hdDecode_setup lens max c

theorem copyLoop_setup (n : Nat) (c : InflCtx) : (copyLoop n c).e.setup = c.e.setup := by
  induction n generalizing c with
  | zero => rfl
  | succ n ih =>
    simp only [copyLoop]
    split_ifs
    · rfl
    · exact ih (copyByte c)

theorem matchRun_setup (c : InflCtx) : (matchRun c).e.setup = c.e.setup := by
  simp only [matchRun]
  split_ifs <;> exact copyLoop_setup _ c

/-- The engine a micro-step leaves, however it ends. -/
def Micro.infl : Micro → Infl
  | .complete c | .suspend c | .stop c | .raised _ c => c.e

theorem finish_setup {n : Nat} {halts : Bool} {c : InflCtx} {a : Act} (ha : a.infl.setup = c.e.setup) :
    (finish n halts c a).infl.setup = c.e.setup := by
  cases a with
  | bad x i => exact ha
  | good i =>
    simp only [finish]
    split_ifs <;> exact ha

theorem needing_setup (n : Nat) (c : InflCtx) {g : InflCtx → Micro} (hg : ∀ c1, (g c1).infl.setup = c1.e.setup) :
    (needing n c g).infl.setup = c.e.setup := by
  simp only [needing]
  split_ifs
  · exact (hg _).trans (brNeed_setup n c)
  · exact brNeed_setup n c

theorem reading_setup (n : Nat) (c : InflCtx) {act : Nat → Infl → Act} (ha : ∀ v i, (act v i).infl.setup = i.setup) :
    (reading n c act).infl.setup = c.e.setup := needing_setup n c fun _ => finish_setup (ha _ _)

theorem blockTypeMicro_setup (f : Flush) (c : InflCtx) : (blockTypeMicro f c).infl.setup = c.e.setup := by
  unfold blockTypeMicro
  split_ifs
  · rfl
  · rfl
  · exact needing_setup _ _ fun _ => finish_setup (blkhdrAct_setup _ _ _)

theorem storedCopyMicro_setup (c : InflCtx) : (storedCopyMicro c).infl.setup = c.e.setup := by
  unfold storedCopyMicro
  split_ifs <;> rfl

theorem dynClensMicro_setup (p : Params) (c : InflCtx) : (dynClensMicro p c).infl.setup = c.e.setup := by
  unfold dynClensMicro
  split_ifs
  · exact reading_setup _ _ fun _ _ => rfl
  · exact finish_setup (buildClt_setup _ p)

theorem dynLensMicro_setup (p : Params) (f : Flush) (c : InflCtx) : (dynLensMicro p f c).infl.setup = c.e.setup := by
  unfold dynLensMicro
  split_ifs
  · split <;> rename_i hd
    · exact setup_of_hdDecode hd
    · exact setup_of_hdDecode hd
    · exact (needing_setup _ _ fun _ => finish_setup (clsymAct_setup _ _ _)).trans (setup_of_hdDecode hd)
  · exact finish_setup (buildTables_setup _ p)

theorem symMicro_setup (c : InflCtx) : (symMicro c).infl.setup = c.e.setup := by
  unfold symMicro
  split <;> rename_i hd
  · exact setup_of_hdDecode hd
  · exact setup_of_hdDecode hd
  · exact (finish_setup (symAct_setup _ _)).trans (setup_of_hdDecode hd)

theorem distMicro_setup (c : InflCtx) : (distMicro c).infl.setup = c.e.setup := by
  unfold distMicro
  split <;> rename_i hd
  · exact setup_of_hdDecode hd
  · exact setup_of_hdDecode hd
  · exact (finish_setup (distAct_setup _ _)).trans (setup_of_hdDecode hd)

theorem litMicro_setup (c : InflCtx) : (litMicro c).infl.setup = c.e.setup := by
  unfold litMicro
  split_ifs <;> rfl

theorem matchMicro_setup (c : InflCtx) : (matchMicro c).infl.setup = c.e.setup := by
  unfold matchMicro
  split_ifs <;> rfl

theorem trailerMicro_setup (c : InflCtx) : (trailerMicro c).infl.setup = c.e.setup := by
  unfold trailerMicro
  split
  · rfl
  · exact needing_setup _ _ fun _ => finish_setup (ztrlAct_setup _ _)
  · exact reading_setup _ _ fun _ i => gzCrcAct_setup i _

/-- Every micro-step leaves the configuration as it was (R604). -/
theorem inflMicro_setup (p : Params) (f : Flush) (c : InflCtx) : (inflMicro p f c).infl.setup = c.e.setup := by
  cases hs : c.e.stage <;> simp only [inflMicro, hs]
  case zhdr => exact reading_setup _ _ fun _ i => zhdrAct_setup i _ _
  case dictid => exact needing_setup _ _ fun _ => finish_setup rfl
  case gzMagic => exact reading_setup _ _ fun _ i => gzMagicAct_setup i _ _
  case gzCmflg => exact reading_setup _ _ fun _ i => gzCmflgAct_setup i _ _
  case gzMtime | gzXflos | gzExlen | lenext => exact reading_setup _ _ fun _ _ => rfl
  case gzExtra =>
    split_ifs
    · rfl
    · exact reading_setup _ _ fun _ _ => rfl
  case gzName =>
    split_ifs
    · exact reading_setup _ _ fun _ i => gzNameAct_setup i _
    · rfl
  case gzComment =>
    split_ifs
    · exact reading_setup _ _ fun _ i => gzCommentAct_setup i _
    · rfl
  case gzHcrc =>
    split_ifs
    · exact reading_setup _ _ fun _ i => gzHcrcAct_setup i _
    · rfl
  case blockType => exact blockTypeMicro_setup f c
  case storedLen => exact needing_setup _ _ fun _ => finish_setup (stolenAct_setup _ _ _)
  case storedCopy => exact storedCopyMicro_setup c
  case dynCounts => exact needing_setup _ _ fun _ => finish_setup (dynhdrAct_setup _ _ _ _)
  case dynClens => exact dynClensMicro_setup p c
  case dynLens => exact dynLensMicro_setup p f c
  case sym => exact symMicro_setup c
  case lit => exact litMicro_setup c
  case dist => exact distMicro_setup c
  case distext => exact reading_setup _ _ fun v i => distextAct_setup i v
  case mat => exact matchMicro_setup c
  case trailer => exact trailerMicro_setup c
  case gzIsize => exact needing_setup _ _ fun _ => finish_setup (gzIsizeAct_setup _ _)
  case done | bad => rfl

/-- The engine the work loop is left with. -/
def LoopEnd.infl : LoopEnd → Infl
  | .error _ c | .left _ c => c.e

theorem inflLoop_setup {p : Params} {f : Flush} {n : Nat} {c : InflCtx} {r : LoopEnd} (h : inflLoop p f n c = some r) :
    r.infl.setup = c.e.setup := by
  induction n generalizing c with
  | zero => cases h
  | succ n ih =>
    have hm := inflMicro_setup p f c
    simp only [inflLoop] at h
    split at h <;> rename_i hc <;> rw [hc] at hm
    · cases h; exact hm
    · cases h; exact hm
    · cases h; exact hm
    · exact (ih h).trans hm

/-! ## Every instruction but the two `RESET`s -/

/-- Neither configuration nor the open parameters have changed. -/
structure SameSetup (s t : State) : Prop where
  params : t.params = s.params
  defl : t.defl.setup = s.defl.setup
  infl : t.infl.setup = s.infl.setup

theorem SameSetup.refl (s : State) : SameSetup s s := ⟨rfl, rfl, rfl⟩

/-- What answers a next state leaves the configurations and the open parameters as they were. -/
def KeepsSetup (g : State → Result) : Prop := ∀ s t, g s = .next t → SameSetup s t

theorem KeepsSetup.next {f : State → State} (hf : ∀ s, SameSetup s (f s)) : KeepsSetup fun s => .next (f s) := by
  intro s t h
  cases h
  exact hf s

theorem KeepsSetup.ite {c : State → Prop} {_ : DecidablePred c} {f g : State → Result} (hf : KeepsSetup f)
    (hg : KeepsSetup g) : KeepsSetup fun s => if c s then f s else g s := by
  intro s t h
  simp only [] at h
  split_ifs at h
  · exact hf s t h
  · exact hg s t h

theorem KeepsSetup.inRange {c : State → Prop} {_ : DecidablePred c} {g : State → Result} (hg : KeepsSetup g) :
    KeepsSetup fun s => Machine.inRange (c s) (g s) := .ite hg fun _ _ h => nomatch h

theorem keepsSetup_deflRun (f : Flush) : KeepsSetup (deflRun f) := by
  intro s t h
  simp only [deflRun] at h
  split at h
  · cases h
  · rename_i hl
    cases h
    exact ⟨rfl, (deflLoop_setup hl).trans (deflInit_setup s.params s.defl), rfl⟩

theorem keepsSetup_deflWrite (f : Flush) : KeepsSetup (deflWrite f) := by
  have hreturn (x : State → Status) : KeepsSetup fun s => .next (deflReturn (x s) s) := .next fun _ => ⟨rfl, rfl, rfl⟩
  have hraise : KeepsSetup fun s => .next { s with defl := deflRaise .streamError s.defl } := .next fun _ => ⟨rfl, rfl, rfl⟩
  refine .ite (hreturn _) (.ite (hreturn _) (.ite (hreturn _) (.ite ?_ (.ite ?_ (keepsSetup_deflRun f)))))
  · exact .ite hraise (hreturn _)
  · exact .ite hraise (keepsSetup_deflRun .finish)

theorem keepsSetup_inflRun (f : Flush) : KeepsSetup (inflRun f) := by
  intro s t h
  simp only [inflRun] at h
  split at h
  · cases h
  · rename_i r hl
    have hr := inflLoop_setup hl
    cases h
    cases r <;> exact ⟨rfl, rfl, hr⟩

theorem keepsSetup_inflWrite (f : Flush) : KeepsSetup (inflWrite f) := by
  have hreturn (x : State → Status) : KeepsSetup fun s => .next (inflReturn (x s) s) := .next fun _ => ⟨rfl, rfl, rfl⟩
  exact .ite (hreturn _) (.ite (hreturn _) (.ite (hreturn _) (.ite (hreturn _) (keepsSetup_inflRun f))))

theorem keepsSetup_streamBytes (bytes : List Byte) : KeepsSetup (streamBytes bytes) := by
  intro s t h
  unfold streamBytes at h
  split at h
  · rename_i u hu
    cases h
    obtain ⟨hp, hd, hi⟩ := keepsSetup_inflWrite .none _ _ hu
    exact ⟨hp, hd, hi⟩
  · rename_i hn
    exact absurd h (hn t)

theorem endAct_sameSetup {s : State} {a : Act} (ha : a.infl.setup = s.infl.setup) : SameSetup s (endAct s a) := by
  cases a <;> exact ⟨rfl, rfl, ha⟩

theorem keepsSetup_element {fmt : Fmt} {i : Instr} {act : Infl → Act} (ha : ∀ j, (act j).infl.setup = j.setup) :
    KeepsSetup fun s => element fmt i s act :=
  .ite (.next fun s => endAct_sameSetup (ha s.infl)) (keepsSetup_streamBytes _)

theorem keepsSetup_symbolElement {fmt : Fmt} {tb : TableId} {sym : Nat} {i : Instr} {act : Infl → Act}
    {after : State → State} (ha : ∀ j, (act j).infl.setup = j.setup) (hafter : ∀ s, SameSetup s (after s)) :
    KeepsSetup fun s => symbolElement fmt tb sym i s act after := by
  refine .ite (.next fun s => ?_) (keepsSetup_streamBytes _)
  obtain ⟨hp, hd, hi⟩ := endAct_sameSetup (s := s) (ha s.infl)
  obtain ⟨hp', hd', hi'⟩ := hafter (endAct s (act s.infl))
  exact ⟨hp'.trans hp, hd'.trans hd, hi'.trans hi⟩

theorem afterLit_sameSetup (s : State) : SameSetup s (afterLit s) := by
  unfold afterLit
  split_ifs <;> exact ⟨rfl, rfl, rfl⟩

theorem afterDist_sameSetup (s : State) : SameSetup s (afterDist s) := by
  unfold afterDist
  split_ifs
  · exact ⟨rfl, rfl, matchRun_setup _⟩
  · exact .refl s

theorem keepsSetup_lenElement (k x : Nat) (i : Instr) : KeepsSetup (lenElement k x i) :=
  keepsSetup_symbolElement (fun j => andThen_setup j (symAct_setup j k) fun _ => rfl) SameSetup.refl

theorem keepsSetup_distElement (k x : Nat) (i : Instr) : KeepsSetup (distElement k x i) :=
  keepsSetup_symbolElement (fun j => andThen_setup j (distAct_setup j k) fun j' => distextAct_setup j' x) afterDist_sameSetup

theorem keepsSetup_clElement (k x : Nat) (i : Instr) : KeepsSetup (clElement k x i) :=
  keepsSetup_symbolElement (fun j => clsymAct_setup j k x) SameSetup.refl

theorem keepsSetup_execStolen (len nlen : BitVec 16) : KeepsSetup (execStolen len nlen) :=
  keepsSetup_element fun _ => stolenAct_setup _ len nlen

theorem keepsSetup_execSyncMarker : KeepsSetup execSyncMarker :=
  keepsSetup_element fun i =>
    andThen_setup i (andThen_setup i (blkhdrAct_setup i false 0) fun j => stolenAct_setup (brAlign j) _ _) fun _ => rfl

theorem keepsSetup_execPartialMarker : KeepsSetup execPartialMarker :=
  keepsSetup_element fun i => andThen_setup i (blkhdrAct_setup i false 1) fun j => symAct_setup j 256

theorem keepsSetup_execEmptyFinal : KeepsSetup execEmptyFinal :=
  keepsSetup_element fun i => andThen_setup i (blkhdrAct_setup i true 1) fun j => symAct_setup j 256

theorem keepsSetup_execHdBuild (lens : Lens) (max : Nat) (kind : CodeKind) : KeepsSetup (execHdBuild lens max kind) := by
  refine .inRange fun s t h => ?_
  split at h
  · cases h
    exact ⟨rfl, rfl, rfl⟩
  · cases h
    split_ifs <;> exact ⟨rfl, rfl, rfl⟩

theorem keepsSetup_execBrGet (n : Nat) : KeepsSetup (execBrGet n) :=
  .inRange (.ite (.next fun _ => ⟨rfl, rfl, brNeed_setup n _⟩) (.next fun _ => ⟨rfl, rfl, brNeed_setup n _⟩))

theorem keepsSetup_cksUpdate (step : Cks → Byte → Cks) : KeepsSetup (cksUpdate step) :=
  .ite (.next fun _ => ⟨rfl, rfl, rfl⟩) (.next fun _ => ⟨rfl, rfl, rfl⟩)

theorem keepsSetup_execStoredRaw (b : Byte) : KeepsSetup (execStoredRaw b) :=
  .ite (.next fun s => by split_ifs <;> exact ⟨rfl, rfl, rfl⟩) (keepsSetup_streamBytes _)

theorem keepsSetup_execLit (b : Byte) : KeepsSetup (execLit b) :=
  keepsSetup_symbolElement (fun j => symAct_setup j _) afterLit_sameSetup

/-- Every instruction but the two `RESET`s leaves both configurations and the open parameters (R604, R602). -/
theorem exec_keepsSetup {i : Instr} (hd : i ≠ .deflReset) (hi : i ≠ .inflReset) : KeepsSetup (exec i) := by
  cases i with
  | deflReset => exact absurd rfl hd
  | inflReset => exact absurd rfl hi
  | hdrZenc | hdrGzenc | hdrTrailer | lzFind _ _ | lzClear | hbPlan _ | brAlign | adlerStep _ _ | crcStep _ _ | hbRle _ =>
    exact .next fun _ => ⟨rfl, rfl, rfl⟩
  | bwPut _ _ | bwPutcode _ _ | brPeek _ _ | brDrop _ | hbBuild _ _ | hbCanon _ _ =>
    exact .inRange (.next fun _ => ⟨rfl, rfl, rfl⟩)
  | bwAlign => exact .next fun s => ⟨rfl, setup_of_onlyBits (onlyBits_bwAlign s.defl), rfl⟩
  | hbEmitHeader => exact .next fun s => ⟨rfl, setup_of_onlyBits (onlyBits_hbEmitHeader s.defl.blk s.defl), rfl⟩
  | hbEmitSymbols => exact .next fun s => ⟨rfl, setup_of_onlyBits (onlyBits_hbEmitSymbols s.defl.blk s.defl), rfl⟩
  | lzInsert p => exact .next fun s => ⟨rfl, setup_of_onlyChains (onlyChains_lzInsert p s.defl), rfl⟩
  | lzStep => exact .inRange (.next fun s => ⟨rfl, setup_of_onlyTokens (onlyTokens_lzStep s.params s.defl), rfl⟩)
  | bwTake => exact .next fun s => ⟨rfl, bwTake_setup ⟨s.defl, s.bus⟩, rfl⟩
  | deflWriteNone | deflWriteBlock | deflWritePartial | deflWriteSync | deflWriteFull | deflWriteFinish | deflWriteTrees =>
    exact keepsSetup_deflWrite _
  | inflWriteNone | inflWriteBlock | inflWritePartial | inflWriteSync | inflWriteFull | inflWriteFinish | inflWriteTrees =>
    exact keepsSetup_inflWrite _
  | cksAdlerUpdate | cksCrcUpdate => exact keepsSetup_cksUpdate _
  | brNeed n => exact .inRange (.next fun s => ⟨rfl, rfl, brNeed_setup n ⟨s.infl, s.bus⟩⟩)
  | brGet n => exact keepsSetup_execBrGet n
  | hdBuild lens max kind => exact keepsSetup_execHdBuild lens max kind
  | hdDecode t =>
    exact .next fun s => ⟨rfl, rfl, hdDecode_setup (tableLens t s.infl) (tableMax t) ⟨s.infl, s.bus⟩⟩
  | blkhdrStored _ | blkhdrFixed _ | blkhdrDynamic _ | blkhdrReserved _ =>
    exact keepsSetup_element fun j => blkhdrAct_setup j _ _
  | stolen len nlen => exact keepsSetup_execStolen len nlen
  | storedRaw b => exact keepsSetup_execStoredRaw b
  | dynhdr _ _ _ => exact keepsSetup_element fun j => dynhdrAct_setup j _ _ _
  | clsymLen _ | clsymRep16 _ | clsymZero17 _ | clsymZero18 _ => exact keepsSetup_clElement _ _ _
  | lit b => exact keepsSetup_execLit b
  | eob | llsymReserved _ => exact keepsSetup_symbolElement (fun j => symAct_setup j _) SameSetup.refl
  | dsymReserved _ => exact keepsSetup_symbolElement (fun j => distAct_setup j _) SameSetup.refl
  | len257 | len258 | len259 | len260 | len261 | len262 | len263 | len264 | len265 _ | len266 _ | len267 _ | len268 _
  | len269 _ | len270 _ | len271 _ | len272 _ | len273 _ | len274 _ | len275 _ | len276 _ | len277 _ | len278 _ | len279 _
  | len280 _ | len281 _ | len282 _ | len283 _ | len284 _ | len285 => exact keepsSetup_lenElement _ _ _
  | dist0 | dist1 | dist2 | dist3 | dist4 _ | dist5 _ | dist6 _ | dist7 _ | dist8 _ | dist9 _ | dist10 _ | dist11 _
  | dist12 _ | dist13 _ | dist14 _ | dist15 _ | dist16 _ | dist17 _ | dist18 _ | dist19 _ | dist20 _ | dist21 _ | dist22 _
  | dist23 _ | dist24 _ | dist25 _ | dist26 _ | dist27 _ | dist28 _ | dist29 _ => exact keepsSetup_distElement _ _ _
  | cllen _ | zdictid _ | gzMtime _ | gzXflos _ _ | gzXlen _ | gzExtra _ => exact keepsSetup_element fun _ => rfl
  | zhdr _ _ => exact keepsSetup_element fun j => zhdrAct_setup j _ _
  | ztrl _ => exact keepsSetup_element fun j => ztrlAct_setup j _
  | gzMagic _ _ => exact keepsSetup_element fun j => gzMagicAct_setup j _ _
  | gzCmflg _ _ => exact keepsSetup_element fun j => gzCmflgAct_setup j _ _
  | gzName _ => exact keepsSetup_element fun j => gzNameAct_setup j _
  | gzComment _ => exact keepsSetup_element fun j => gzCommentAct_setup j _
  | gzHcrc _ => exact keepsSetup_element fun j => gzHcrcAct_setup j _
  | gzCrc32 _ => exact keepsSetup_element fun j => gzCrcAct_setup j _
  | gzIsize _ => exact keepsSetup_element fun j => gzIsizeAct_setup j _
  | syncMarker => exact keepsSetup_execSyncMarker
  | partialMarker => exact keepsSetup_execPartialMarker
  | emptyFinal => exact keepsSetup_execEmptyFinal

/-! ## The two `RESET`s -/

theorem deflReset_config (d : Defl) : (deflReset d).config = d.config := by
  unfold deflReset; split_ifs <;> rfl

theorem inflReset_config (i : Infl) : (inflReset i).config = i.config := by
  unfold inflReset; split_ifs <;> rfl

/-- No instruction writes the open parameters (R71). -/
theorem exec_params {i : Instr} {s t : State} (h : exec i s = .next t) : t.params = s.params := by
  by_cases hd : i = .deflReset
  · subst hd; cases h; rfl
  · by_cases hi : i = .inflReset
    · subst hi; cases h; rfl
    · exact (exec_keepsSetup hd hi s t h).params

/-- Only `DEFL.RESET` touches the configuration of `DEFL`; any other instruction is of another engine or keeps it. -/
theorem exec_deflSetup {i : Instr} {s t : State} (hd : i ≠ .deflReset) (h : exec i s = .next t) :
    t.defl.setup = s.defl.setup := by
  by_cases hi : i = .inflReset
  · subst hi; cases h; rfl
  · exact (exec_keepsSetup hd hi s t h).defl

theorem exec_inflSetup {i : Instr} {s t : State} (hi : i ≠ .inflReset) (h : exec i s = .next t) :
    t.infl.setup = s.infl.setup := by
  by_cases hd : i = .deflReset
  · subst hd; cases h; rfl
  · exact (exec_keepsSetup hd hi s t h).infl

theorem exec_deflConfig {i : Instr} {s t : State} (h : exec i s = .next t) : t.defl.config = s.defl.config := by
  by_cases hd : i = .deflReset
  · subst hd; cases h; exact deflReset_config s.defl
  · exact congrArg Prod.fst (exec_deflSetup hd h)

theorem exec_inflConfig {i : Instr} {s t : State} (h : exec i s = .next t) : t.infl.config = s.infl.config := by
  by_cases hi : i = .inflReset
  · subst hi; cases h; exact inflReset_config s.infl
  · exact congrArg Prod.fst (exec_inflSetup hi h)

end Sys2Proof.Machine

open Sys2Proof Sys2Proof.Machine

/-- Settles O14: an instruction other than a `RESET` keeps both configurations, and a `RESET` keeps its `CONFIG`. -/
theorem onlyResetConfigures : Obligations.OnlyResetConfigures := by
  refine fun i s t h => ⟨exec_deflConfig h, exec_inflConfig h, exec_params h, fun hd => ?_, fun hi => ?_⟩
  · have hs := exec_deflSetup hd h
    simp only [Defl.setup, Prod.mk.injEq] at hs
    exact hs.2
  · have hs := exec_inflSetup hi h
    simp only [Infl.setup, Prod.mk.injEq] at hs
    exact hs.2

end

section
/-! PROOFS. The invariant of the machine holds at reset and every step keeps it, whatever the host asks: from what each engine
keeps, and from what an instruction leaves of the other two. -/

namespace Sys2Proof.Machine

/-- The codes the `CKS` port can report (R242). -/
def cksCodes (e : Status) : Prop := e = .ok ∨ e = .streamError

/-- The invariant of the machine, by engine: what a deferred match says of the mode belongs to `DEFL`. -/
theorem State.inv_iff {s : State} :
    s.Inv ↔ s.defl.Sound s.params ∧ s.infl.Inv ∧ cksCodes s.cks.ec ∧ s.bus.Inv := by
  rw [Defl.sound_iff]
  constructor
  · rintro ⟨hd, hi, hc, hb, hm⟩
    exact ⟨⟨hd, hm⟩, hi, hc, hb⟩
  · rintro ⟨⟨hd, hm⟩, hi, hc, hb⟩
    exact ⟨hd, hi, hc, hb, hm⟩

/-! ## Reset -/

theorem Defl.reset_sound (pr : Params) : Defl.reset.Sound pr := Defl.sound_of_fresh (by decide) rfl rfl

theorem Infl.reset_inv : Infl.reset.Inv := by
  have h := Infl.reset_base
  exact ⟨h.wbits, h.bits, h.range, ⟨h.cl, h.clt, h.lens, h.ll, h.dt, nofun⟩, ⟨fun _ => rfl, nofun, .inl rfl⟩, nofun,
    h.win, h.isize⟩

theorem Bus.reset_inv : State.reset.bus.Inv := ⟨Memory.wf_nil, Memory.wf_nil⟩

theorem hardwareReset_inv {s : State} (hb : s.bus.Inv) : (hardwareReset s).Inv :=
  State.inv_iff.2 ⟨Defl.reset_sound _, Infl.reset_inv, .inl rfl, hb⟩

/-! ## What each engine keeps, put together -/

section
variable {s t : State}

/-- A change to `INFL` and the bus alone. -/
theorem State.Inv.of_infl (h : s.Inv) (hd : t.defl = s.defl) (hc : t.cks = s.cks) (hp : t.params = s.params)
    (ht : t.infl.Inv ∧ t.bus.Inv) : t.Inv := by
  obtain ⟨hs, -, hk, -⟩ := State.inv_iff.1 h
  exact State.inv_iff.2 ⟨by rw [hd, hp]; exact hs, ht.1, by rw [hc]; exact hk, ht.2⟩

theorem cksUpdate_codes {step : Cks → Byte → Cks} (ht : cksUpdate step s = .next t) : cksCodes t.cks.ec := by
  unfold cksUpdate at ht
  split_ifs at ht
  · cases ht; exact .inr rfl
  · cases ht; exact .inl rfl

theorem exec_cksCodes {i : Instr} (he : engineOf i = .cks) (ht : exec i s = .next t) : cksCodes t.cks.ec := by
  cases i with
  | cksAdlerUpdate | cksCrcUpdate => exact cksUpdate_codes ht
  | _ => cases he

/-- Every instruction keeps the invariant: its engine by what was shown of it, the rest by its frame (R3, R531). -/
theorem exec_inv {i : Instr} (h : s.Inv) (ht : exec i s = .next t) : t.Inv := by
  obtain ⟨hd, hi, hc, hin, hout, -, -⟩ := enginesAreIndependent.1 i s t ht
  have hp := exec_params ht
  obtain ⟨hs, hinfl, hk, hb⟩ := State.inv_iff.1 h
  have hkept (ho : t.bus.outMem = s.bus.outMem) : t.bus.Inv := by rw [Bus.Inv, hin, ho]; exact hb
  cases he : engineOf i with
  | defl =>
    obtain ⟨hd', hb'⟩ := exec_deflAnswers he hs hb t ht
    rw [he] at hi hc
    exact State.inv_iff.2 ⟨hp ▸ hd', hi nofun ▸ hinfl, hc nofun ▸ hk, hb'⟩
  | infl =>
    rw [he] at hd hc
    exact h.of_infl (hd nofun) (hc nofun) hp (exec_inflAnswers he hinfl hb t ht)
  | cks =>
    rw [he] at hd hi hout
    exact State.inv_iff.2 ⟨by rw [hd nofun, hp]; exact hs, hi nofun ▸ hinfl, exec_cksCodes he ht, hkept (hout (.inl rfl))⟩
  | none =>
    rw [he] at hd hi hc hout
    exact h.of_infl (hd nofun) (hc nofun) hp ⟨hi nofun ▸ hinfl, hkept (hout (.inr rfl))⟩

/-! ## The requests of the host -/

theorem illegalCommand_inv (h : s.Inv) (p : Port) : (illegalCommand p s).Inv := by
  obtain ⟨hd, hi, hk, hb⟩ := State.inv_iff.1 h
  cases p with
  | deflCmd => exact State.inv_iff.2 ⟨{ hd with ec := .inr (.inr (.inr rfl)) }, hi, hk, hb⟩
  | inflCmd => exact State.inv_iff.2 ⟨hd, hi, hk, hb⟩
  | cksCmd => exact State.inv_iff.2 ⟨hd, hi, .inr rfl, hb⟩
  | uop | element => exact h

theorem runCommand_inv (h : s.Inv) {p : Port} {v : Word} (ht : runCommand p v s = .next t) : t.Inv := by
  unfold runCommand at ht
  split at ht
  · exact exec_inv h ht
  · cases ht
    exact illegalCommand_inv h p

theorem deflWriteReg_sound {pr : Params} {d : Defl} (h : d.Sound pr) (off : Nat) (v : Word) :
    (deflWriteReg off v d).Sound pr := by
  unfold deflWriteReg
  split_ifs
  · exact { h with }
  · exact h.withRegs _

theorem inflWriteReg_inv {i : Infl} (h : i.Inv) (off : Nat) (v : Word) : (inflWriteReg off v i).Inv := by
  unfold inflWriteReg
  split_ifs <;> exact h

theorem writeReg_inv (h : s.Inv) (off : BitVec 12) (v : Word) : (writeReg off v s).Inv := by
  obtain ⟨hd, hi, hk, hb⟩ := State.inv_iff.1 h
  unfold writeReg
  split
  · exact State.inv_iff.2 ⟨deflWriteReg_sound hd _ v, hi, hk, hb⟩
  · exact State.inv_iff.2 ⟨hd, inflWriteReg_inv hi _ v, hk, hb⟩
  · exact State.inv_iff.2 ⟨hd, hi, (cksWriteReg_ec _ v s.cks).symm ▸ hk, hb⟩
  · exact h

theorem storeIn_keeps_inv (h : s.Inv) (a : Word) (b : Byte) : (storeIn a b s).Inv := by
  obtain ⟨hd, hi, hk, hb⟩ := State.inv_iff.1 h
  exact State.inv_iff.2 ⟨hd, hi, hk, storeIn_inv hb⟩

theorem runUnitOp_inv (h : s.Inv) {bytes : List Byte} (ht : runUnitOp bytes s = .next t) : t.Inv := by
  unfold runUnitOp at ht
  split at ht
  · exact exec_inv h ht
  · cases ht
  · cases ht
    exact h

theorem streamBytes_inv (h : s.Inv) {bytes : List Byte} (ht : streamBytes bytes s = .next t) : t.Inv := by
  obtain ⟨-, hi, -, hb⟩ := State.inv_iff.1 h
  have hf := (local_streamBytes bytes).frame ht
  exact h.of_infl (by rw [hf]; rfl) (by rw [hf]; rfl) (keepsSetup_streamBytes bytes s t ht).params
    (streamBytes_answers bytes hi hb t ht)

/-- What is done before an element reaches `INFL` and the bus alone. -/
theorem fetchElement_frame {fmt : Fmt} {bytes : List Byte}
    (ht : fetchElement fmt bytes s = .ok t ∨ fetchElement fmt bytes s = .error t) : ∃ c, t = withInfl c s := by
  unfold fetchElement at ht
  split at ht
  · obtain ht | ht := ht <;> cases ht
    exact ⟨_, rfl⟩
  · obtain ht | ht := ht <;> cases ht
    split_ifs
    · exact ⟨_, rfl⟩
    · exact ⟨⟨s.infl, s.bus⟩, rfl⟩

theorem fetchElement_keeps_inv (h : s.Inv) {fmt : Fmt} {bytes : List Byte}
    (ht : fetchElement fmt bytes s = .ok t ∨ fetchElement fmt bytes s = .error t) : t.Inv := by
  obtain ⟨-, hi, -, hb⟩ := State.inv_iff.1 h
  obtain ⟨c, rfl⟩ := fetchElement_frame ht
  exact h.of_infl rfl rfl rfl (fetchElement_inv hi hb ht)

theorem runElement_inv (h : s.Inv) {fmt : Fmt} {bytes : List Byte} (ht : runElement fmt bytes s = .next t) : t.Inv := by
  unfold runElement at ht
  split at ht
  · split at ht <;> rename_i u hu
    · exact exec_inv (fetchElement_keeps_inv h (.inl hu)) ht
    · cases ht
      exact fetchElement_keeps_inv h (.inr hu)
  · exact streamBytes_inv h ht

/-- Serving a request keeps the invariant, whichever it is. -/
theorem serve_inv (h : s.Inv) (r : Request) (ht : serve r s = .next t) : t.Inv := by
  cases r with
  | writeReg off v =>
    simp only [serve] at ht
    split at ht
    · exact runCommand_inv h ht
    · cases ht
      exact writeReg_inv h off v
  | readReg off => cases ht; exact h
  | storeIn a b => cases ht; exact storeIn_keeps_inv h a b
  | loadOut a => cases ht; exact h
  | hwReset =>
    obtain ⟨-, -, -, hb⟩ := State.inv_iff.1 h
    cases ht
    exact hardwareReset_inv hb
  | unitOp bytes => exact runUnitOp_inv h ht
  | element fmt bytes => exact runElement_inv h ht

theorem step_inv (h : s.Inv) (ht : step s = .next t) : t.Inv := by
  unfold step at ht
  split at ht
  · cases ht
    exact h
  · rename_i r rest _
    exact serve_inv (s := { s with queue := rest }) h r ht

end

end Sys2Proof.Machine

open Sys2Proof Sys2Proof.Machine

/-- Settles O9: a fresh `DEFL` and a fresh `INFL` meet their invariants, and empty memories are in canonical form. -/
theorem invAtReset : Obligations.InvAtReset :=
  State.inv_iff.2 ⟨Defl.reset_sound _, Infl.reset_inv, .inl rfl, Bus.reset_inv⟩

/-- Settles O10: every request keeps the invariant, and so does idling. -/
theorem stepKeepsInv : Obligations.StepKeepsInv := fun _ _ h ht => step_inv h ht

end

section
/-! PROOFS. The encoding (R120 to R161): what the encoder writes at a port the decoder reads back, whatever follows; what the
decoder accepts is well formed and of its port. Command words, unit operations and stream elements each have one lemma that
says when the decoder accepts them, and each instruction is a case of it. -/

namespace Sys2Proof

/-! ## Numbers behind which more bytes stand -/

theorem leNat_leBytes_append (m a : Nat) (rest : List Byte) :
    leNat (leBytes m a ++ rest) = a % 256 ^ m + 256 ^ m * leNat rest := by
  rw [leNat_append, leNat_leBytes, Laws.leBytes_length]

/-- The low bits of a number do not depend on what stands above them. -/
theorem ofNat_add_mul {n k : Nat} (hk : 2 ^ n ∣ k) (x y : Nat) : BitVec.ofNat n (x + k * y) = BitVec.ofNat n x := by
  obtain ⟨j, rfl⟩ := hk
  apply BitVec.eq_of_toNat_eq
  rw [BitVec.toNat_ofNat, BitVec.toNat_ofNat, Nat.mul_assoc, Nat.add_mul_mod_self_left]

/-! ## Host commands (R122 to R126) -/

/-- The word of a command: 1 for `RESET`, the `WRITE` word otherwise (R122). -/
def commandWord : Option Flush → Nat
  | none => 1
  | some f => writeWord f

theorem hcmdOf_commandWord (c : Option Flush) : hcmdOf (commandWord c % 256 ^ 4) = some c := by
  cases c with
  | none => rfl
  | some f => cases f <;> rfl

theorem exists_deflCommand {i : Instr} (h : i.port = .deflCmd) : ∃ c, i = deflCommand c ∧ encode i = leBytes 4 (commandWord c) := by
  cases i <;> cases h
  exacts [⟨none, rfl, rfl⟩, ⟨some .none, rfl, rfl⟩, ⟨some .block, rfl, rfl⟩, ⟨some .part, rfl, rfl⟩, ⟨some .sync, rfl, rfl⟩,
    ⟨some .full, rfl, rfl⟩, ⟨some .finish, rfl, rfl⟩, ⟨some .trees, rfl, rfl⟩]

theorem exists_inflCommand {i : Instr} (h : i.port = .inflCmd) : ∃ c, i = inflCommand c ∧ encode i = leBytes 4 (commandWord c) := by
  cases i <;> cases h
  exacts [⟨none, rfl, rfl⟩, ⟨some .none, rfl, rfl⟩, ⟨some .block, rfl, rfl⟩, ⟨some .part, rfl, rfl⟩, ⟨some .sync, rfl, rfl⟩,
    ⟨some .full, rfl, rfl⟩, ⟨some .finish, rfl, rfl⟩, ⟨some .trees, rfl, rfl⟩]

/-- A command port looks at the first four bytes. -/
theorem leNat_word (w : Nat) (rest : List Byte) :
    ¬(leBytes 4 w ++ rest).length < 4 ∧ leNat ((leBytes 4 w ++ rest).take 4) = w % 256 ^ 4 := by
  rw [take_append_length, leNat_leBytes, List.length_append, Laws.leBytes_length]
  exact ⟨by omega, rfl⟩

theorem decode_deflCommand (c : Option Flush) (rest : List Byte) :
    decode .deflCmd (leBytes 4 (commandWord c) ++ rest) = .ok (deflCommand c) := by
  obtain ⟨hl, hw⟩ := leNat_word (commandWord c) rest
  simp only [decode, if_neg hl, hw, hcmdOf_commandWord]

theorem decode_inflCommand (c : Option Flush) (rest : List Byte) :
    decode .inflCmd (leBytes 4 (commandWord c) ++ rest) = .ok (inflCommand c) := by
  obtain ⟨hl, hw⟩ := leNat_word (commandWord c) rest
  simp only [decode, if_neg hl, hw, hcmdOf_commandWord]

theorem decode_cksCommand {w : Nat} {i : Instr} (h : ccmdOf (w % 256 ^ 4) = some i) (rest : List Byte) :
    decode .cksCmd (leBytes 4 w ++ rest) = .ok i := by
  obtain ⟨hl, hw⟩ := leNat_word w rest
  simp only [decode, if_neg hl, hw, h]

/-! ## Unit operations (R129; log 3) -/

/-- What the decoder asks of a unit operation: a selector it knows, bytes enough, operands in range. -/
theorem decode_uop {sel : Byte} {o : List Byte} {k each : Nat} {i : Instr} (hs : uopSize sel.toNat = some (k, each))
    (hk : k ≤ o.length) (he : each ≠ 0 → k + each * rd (k - 2) 2 o ≤ o.length) (ho : uopOf sel.toNat o = some i)
    (hw : i.wf = true) : decode .uop (sel :: o) = .ok i := by
  have hlen : ¬(o.length < k ∨ (each ≠ 0 ∧ o.length < k + each * rd (k - 2) 2 o)) := by
    rintro (h | ⟨h0, h⟩)
    · omega
    · exact absurd (he h0) (by omega)
  simp only [decode, decodeUop, hs, if_neg hlen, ho, if_pos hw]

/-- The number in the bytes just written. -/
theorem rd_leBytes {k a : Nat} (h : a < 256 ^ k) (rest : List Byte) : rd 0 k (leBytes k a ++ rest) = a := by
  rw [rd, List.drop_zero, take_append_length, leNat_leBytes, Nat.mod_eq_of_lt h]

theorem drop_leBytes (m a : Nat) (rest : List Byte) : (leBytes m a ++ rest).drop m = rest :=
  List.drop_left' (Laws.leBytes_length m a)

/-- Behind bytes already read, the offset counts from their end. -/
theorem rd_behind (m k a : Nat) (rest : List Byte) : rd m k (leBytes m a ++ rest) = rd 0 k rest := by
  rw [rd, rd, drop_leBytes, List.drop_zero]

theorem flatMap_leBytes_length (k : Nat) (l : List Nat) : (l.flatMap (leBytes k)).length = k * l.length := by
  induction l with
  | nil => simp
  | cons a l ih => simp [ih, Laws.leBytes_length, Nat.mul_add, Nat.add_comm]

/-- The numbers of a list operand are read back where each fits its bytes. -/
theorem rdList_flatMap {k : Nat} {l : List Nat} (h : ∀ a ∈ l, a < 256 ^ k) (rest : List Byte) :
    rdList k l.length (l.flatMap (leBytes k) ++ rest) = l := by
  induction l with
  | nil => rfl
  | cons a l ih =>
    rw [List.forall_mem_cons] at h
    simp only [List.flatMap_cons, List.append_assoc, List.length_cons, rdList, take_append_length, drop_leBytes, leNat_leBytes,
      Nat.mod_eq_of_lt h.1, ih h.2]

theorem kindOf_kindNum (k : CodeKind) : kindOf (kindNum k) = some k := by cases k <;> rfl

theorem tableOf_tableNum (t : TableId) : tableOf (tableNum t) = some t := by cases t <;> rfl

theorem tokenOf_tokenNum {t : Token} (h : t.wf = true) : tokenOf (tokenNum t) = t := by
  cases t with
  | lit b =>
    have : 65536 * b.toNat / 65536 = b.toNat := by omega
    simp [tokenOf, tokenNum, this]
  | mat len dist =>
    simp only [Token.wf, decide_eq_true_eq] at h
    have h1 : (len + 65536 * dist) % 65536 = len := by omega
    have h2 : (len + 65536 * dist) / 65536 = dist := by omega
    simp only [tokenOf, tokenNum, h1, h2, if_neg (show len ≠ 0 by omega)]

theorem tokenNum_lt {t : Token} (h : t.wf = true) : tokenNum t < 256 ^ 4 := by
  cases t with
  | lit b =>
    have := b.isLt
    simp only [tokenNum]
    omega
  | mat len dist =>
    simp only [Token.wf, decide_eq_true_eq] at h
    simp only [tokenNum]
    omega

theorem listWf_iff {top : Nat} {l : List Nat} : listWf top l = true ↔ l.length < 65536 ∧ ∀ x ∈ l, x ≤ top := by
  simp [listWf]

/-- The length of a list operand, read behind the operands before it. -/
theorem rd_listBytes {p : List Byte} {off k : Nat} {l : List Nat} (hp : p.length = off) (hl : l.length < 65536)
    (rest : List Byte) : rd off 2 (p ++ (listBytes k l ++ rest)) = l.length := by
  rw [rd, List.drop_left' hp, listBytes, List.append_assoc, take_append_length, leNat_leBytes]
  exact Nat.mod_eq_of_lt hl

/-- A list operand is read back, its length first, behind the operands before it. -/
theorem rdList_listBytes {p : List Byte} {off off' k : Nat} {l : List Nat} (hp : p.length = off) (hp' : off + 2 = off')
    (hl : l.length < 65536) (hx : ∀ a ∈ l, a < 256 ^ k) (rest : List Byte) :
    rdList k (rd off 2 (p ++ (listBytes k l ++ rest))) ((p ++ (listBytes k l ++ rest)).drop off') = l := by
  rw [rd_listBytes hp hl, ← hp', ← List.drop_drop, List.drop_left' hp, listBytes, List.append_assoc, drop_leBytes,
    rdList_flatMap hx]

/-! ## Stream elements -/

theorem decode_element {fmt : Fmt} {bs : List Byte} {i : Instr} (hl : fmtBytes fmt ≤ bs.length)
    (h : elementOf fmt bs = some i) : decode (.element fmt) bs = .ok i := by
  simp only [decode, decodeElement, if_neg (Nat.not_lt.2 hl), h]

/-- The extra values of length symbols have at most 5 bits (R143). -/
theorem lenInstr_add (s x y : Nat) : lenInstr s (x + 128 * y) = lenInstr s x := by
  have h : ∀ n ≤ 7, BitVec.ofNat n (x + 128 * y) = BitVec.ofNat n x := fun n hn => ofNat_add_mul (Nat.pow_dvd_pow 2 hn) x y
  unfold lenInstr
  simp (disch := decide) only [h]

/-- The extra values of distance symbols have at most 13 bits (R144). -/
theorem distInstr_add (s x y : Nat) : distInstr s (x + 2 ^ 19 * y) = distInstr s x := by
  have h : ∀ n ≤ 19, BitVec.ofNat n (x + 2 ^ 19 * y) = BitVec.ofNat n x := fun n hn =>
    ofNat_add_mul (Nat.pow_dvd_pow 2 hn) x y
  unfold distInstr
  simp (disch := decide) only [h]

theorem llsymInstr_add (s x y : Nat) : llsymInstr s (x + 128 * y) = llsymInstr s x := by
  simp only [llsymInstr, lenInstr_add]

theorem dsymInstr_add (s x y : Nat) : dsymInstr s (x + 2 ^ 19 * y) = dsymInstr s x := by
  simp only [dsymInstr, distInstr_add]

/-- The extra values of code-length symbols have at most 7 bits (R146). -/
theorem clsymInstr_add (s x y : Nat) : clsymInstr s (x + 2 ^ 11 * y) = clsymInstr s x := by
  have h : ∀ n ≤ 11, BitVec.ofNat n (x + 2 ^ 11 * y) = BitVec.ofNat n x := fun n hn =>
    ofNat_add_mul (Nat.pow_dvd_pow 2 hn) x y
  unfold clsymInstr
  simp (disch := decide) only [h]

/-- A symbol number with the extra value above it, read back from the bytes it was laid out in (log 5). -/
theorem symbol_fields {n m s x w : Nat} (hs : s < 2 ^ n) (hx : x < 2 ^ m) (hw : 2 ^ n * 2 ^ m = 256 ^ w) (rest : List Byte) :
    field 0 n (leNat (leBytes w (s + 2 ^ n * x) ++ rest)) = s ∧
      leNat (leBytes w (s + 2 ^ n * x) ++ rest) / 2 ^ n = x + 2 ^ m * leNat rest := by
  have hlt : s + 2 ^ n * x < 256 ^ w := by nlinarith
  have he : s + 2 ^ n * x + 256 ^ w * leNat rest = s + 2 ^ n * (x + 2 ^ m * leNat rest) := by rw [← hw]; ring
  rw [leNat_leBytes_append, Nat.mod_eq_of_lt hlt, he, field, Nat.pow_zero, Nat.div_one, Nat.add_mul_mod_self_left,
    Nat.add_mul_div_left _ _ (Nat.two_pow_pos n), Nat.mod_eq_of_lt hs, Nat.div_eq_of_lt hs, Nat.zero_add]
  exact ⟨rfl, rfl⟩

theorem elementOf_llsym {s x : Nat} (hs : s < 512) (hx : x < 128) (rest : List Byte) :
    elementOf .llsym (llsymBytes s x ++ rest) = llsymInstr s x := by
  obtain ⟨hf, hd⟩ := symbol_fields (n := 9) (m := 7) (w := 2) hs hx (by decide) rest
  rw [← llsymInstr_add s x (leNat rest)]
  exact congrArg₂ llsymInstr hf hd

theorem elementOf_dsym {s x : Nat} (hs : s < 32) (hx : x < 2 ^ 19) (rest : List Byte) :
    elementOf .dsym (dsymBytes s x ++ rest) = dsymInstr s x := by
  obtain ⟨hf, hd⟩ := symbol_fields (n := 5) (m := 19) (w := 3) hs hx (by decide) rest
  rw [← dsymInstr_add s x (leNat rest)]
  exact congrArg₂ dsymInstr hf hd

theorem elementOf_clsym {s x : Nat} (hs : s < 32) (hx : x < 2 ^ 11) (rest : List Byte) :
    elementOf .clsym (clsymBytes s x ++ rest) = clsymInstr s x := by
  obtain ⟨hf, hd⟩ := symbol_fields (n := 5) (m := 11) (w := 2) hs hx (by decide) rest
  rw [← clsymInstr_add s x (leNat rest)]
  exact congrArg₂ clsymInstr hf hd

/-- Every literal/length element is a symbol number and an extra value, and is laid out as such. -/
theorem exists_llsymInstr {i : Instr} (h : i.port = .element .llsym) :
    ∃ s x, encode i = llsymBytes s x ∧ llsymInstr s x = some i ∧ s < 512 ∧ x < 128 := by
  cases i <;> cases h
  case lit b => exact ⟨b.toNat, 0, rfl, by simp [llsymInstr, b.isLt], by omega, by decide⟩
  case llsymReserved hi => exact ⟨286 + hi.toNat, 0, rfl, by cases hi <;> rfl, by cases hi <;> decide, by decide⟩
  all_goals exact ⟨_, _, rfl, by simp [llsymInstr, lenInstr], by decide, by omega⟩

/-- Every distance element is a symbol number and an extra value, and is laid out as such. -/
theorem exists_dsymInstr {i : Instr} (h : i.port = .element .dsym) :
    ∃ s x, encode i = dsymBytes s x ∧ dsymInstr s x = some i ∧ s < 32 ∧ x < 2 ^ 19 := by
  cases i <;> cases h
  case dsymReserved hi => exact ⟨30 + hi.toNat, 0, rfl, by cases hi <;> rfl, by cases hi <;> decide, by decide⟩
  all_goals exact ⟨_, _, rfl, by simp [dsymInstr, distInstr], by decide, by omega⟩

/-- Every code-length element is a symbol number and an extra value, and is laid out as such. -/
theorem exists_clsymInstr {i : Instr} (h : i.port = .element .clsym) :
    ∃ s x, encode i = clsymBytes s x ∧ clsymInstr s x = some i ∧ s < 32 ∧ x < 2 ^ 11 := by
  cases i <;> cases h
  case clsymLen v => exact ⟨v.toNat, 0, rfl, by simp [clsymInstr, v.isLt], by omega, by decide⟩
  all_goals exact ⟨_, _, rfl, by simp [clsymInstr], by decide, by omega⟩

/-! ## Elements with fixed fields (R131 to R158) -/

/-- A word of whole bytes, or narrower, read back from the low end of its bytes. -/
theorem ofNat_leBytes {n m : Nat} (x : BitVec n) (h : 2 ^ n ∣ 256 ^ m) (rest : List Byte) :
    BitVec.ofNat n (leNat (leBytes m x.toNat ++ rest)) = x := by
  have hx : x.toNat < 256 ^ m := x.isLt.trans_le (Nat.le_of_dvd (Nat.pow_pos (by decide)) h)
  rw [leNat_leBytes_append, ofNat_add_mul h, Nat.mod_eq_of_lt hx, BitVec.ofNat_toNat, BitVec.setWidth_eq]

theorem ofNat_leNat_cons (a : Byte) (bs : List Byte) : BitVec.ofNat 8 (leNat (a :: bs)) = a := by
  rw [leNat_cons, ofNat_add_mul (by decide), BitVec.ofNat_toNat, BitVec.setWidth_eq]

theorem leNat_cons_div (a : Byte) (bs : List Byte) : leNat (a :: bs) / 256 = leNat bs := by
  rw [leNat_cons]
  omega

theorem ofNat_beBytes (x : Word) (rest : List Byte) :
    BitVec.ofNat 32 (leNat ((beBytes 4 x.toNat ++ rest).take 4).reverse) = x := by
  have ht : (beBytes 4 x.toNat ++ rest).take 4 = beBytes 4 x.toNat := List.take_left' (Laws.beBytes_length 4 _)
  rw [ht, beBytes, List.reverse_reverse]
  simpa using ofNat_leBytes x (m := 4) (by decide) []

theorem elementOf_blkhdr (final : Bool) {t : Nat} (ht : t < 4) (rest : List Byte) :
    elementOf .blkhdr (blkhdrBytes final t ++ rest) = some (blkhdrInstr final t) := by
  have hb : final.toNat ≤ 1 := Bool.toNat_le final
  have h0 : field 0 1 (leNat (blkhdrBytes final t ++ rest)) = final.toNat := by
    simp only [blkhdrBytes, leNat_leBytes_append, field]
    omega
  have h1 : field 1 2 (leNat (blkhdrBytes final t ++ rest)) = t := by
    simp only [blkhdrBytes, leNat_leBytes_append, field]
    omega
  simp only [elementOf, h0, h1]
  cases final <;> rfl

theorem elementOf_stolen (len nlen : BitVec 16) (rest : List Byte) :
    elementOf .stolen (encode (.stolen len nlen) ++ rest) = some (.stolen len nlen) := by
  have hlen := len.isLt
  have hnlen := nlen.isLt
  have hw : leNat (encode (.stolen len nlen) ++ rest) = len.toNat + 65536 * (nlen.toNat + 65536 * leNat rest) := by
    simp only [encode, leNat_leBytes_append]
    omega
  have hd : (len.toNat + 65536 * (nlen.toNat + 65536 * leNat rest)) / 65536 = nlen.toNat + 65536 * leNat rest := by omega
  simp only [elementOf, hw, hd, ofNat_add_mul (by decide : 2 ^ 16 ∣ 65536), BitVec.ofNat_toNat, BitVec.setWidth_eq]

theorem elementOf_dynhdr (hlit hdist : BitVec 5) (hclen : BitVec 4) (rest : List Byte) :
    elementOf .dynhdr (encode (.dynhdr hlit hdist hclen) ++ rest) = some (.dynhdr hlit hdist hclen) := by
  have h1 := hlit.isLt
  have h2 := hdist.isLt
  have h3 := hclen.isLt
  have hw : leNat (encode (.dynhdr hlit hdist hclen) ++ rest) =
      hlit.toNat + 32 * (hdist.toNat + 32 * (hclen.toNat + 16 * (4 * leNat rest))) := by
    simp only [encode, leNat_leBytes_append]
    omega
  have hd1 : ∀ y, (hlit.toNat + 32 * y) / 32 = y := by omega
  have hd2 : ∀ y, (hlit.toNat + 32 * (hdist.toNat + 32 * y)) / 1024 = y := by omega
  simp only [elementOf, hw, hd1, hd2, ofNat_add_mul (by decide : 2 ^ 5 ∣ 32), ofNat_add_mul (by decide : 2 ^ 4 ∣ 16),
    BitVec.ofNat_toNat, BitVec.setWidth_eq]

theorem elementOf_pseudo {i : Instr} (h : i.port = .element .pseudo) (rest : List Byte) :
    elementOf .pseudo (encode i ++ rest) = some i := by
  cases i <;> cases h <;> simp [elementOf, pseudoInstr, encode, leBytes, field]

/-- Reading an element's bytes in its format gives the element back. -/
theorem elementOf_encode {i : Instr} {fmt : Fmt} (h : i.port = .element fmt) (rest : List Byte) :
    elementOf fmt (encode i ++ rest) = some i := by
  cases fmt
  case llsym =>
    obtain ⟨s, x, he, hi, hs, hx⟩ := exists_llsymInstr h
    rw [he, elementOf_llsym hs hx, hi]
  case dsym =>
    obtain ⟨s, x, he, hi, hs, hx⟩ := exists_dsymInstr h
    rw [he, elementOf_dsym hs hx, hi]
  case clsym =>
    obtain ⟨s, x, he, hi, hs, hx⟩ := exists_clsymInstr h
    rw [he, elementOf_clsym hs hx, hi]
  case pseudo => exact elementOf_pseudo h rest
  all_goals cases i <;> cases h
  case blkhdr.blkhdrStored.refl final => exact elementOf_blkhdr final (by decide) rest
  case blkhdr.blkhdrFixed.refl final => exact elementOf_blkhdr final (by decide) rest
  case blkhdr.blkhdrDynamic.refl final => exact elementOf_blkhdr final (by decide) rest
  case blkhdr.blkhdrReserved.refl final => exact elementOf_blkhdr final (by decide) rest
  case stolen.stolen.refl len nlen => exact elementOf_stolen len nlen rest
  case dynhdr.dynhdr.refl hlit hdist hclen => exact elementOf_dynhdr hlit hdist hclen rest
  all_goals
    simp (disch := decide) only [elementOf, encode, List.cons_append, List.nil_append, ofNat_leBytes, ofNat_beBytes,
      ofNat_leNat_cons, leNat_cons_div]

theorem fmtBytes_le_encode {i : Instr} {fmt : Fmt} (h : i.port = .element fmt) : fmtBytes fmt ≤ (encode i).length := by
  have hs : Laws.EncodedBytes.Statement i := by
    cases i <;> cases h
    case syncMarker => exact Laws.EncodedBytes.syncMarker
    all_goals exact Nat.le_refl _
  rw [Laws.EncodedBytes.Statement, h] at hs
  exact hs

/-! ## The round trip -/

theorem decode_encode_element {i : Instr} {fmt : Fmt} (h : i.port = .element fmt) (rest : List Byte) :
    decode (.element fmt) (encode i ++ rest) = .ok i :=
  decode_element ((fmtBytes_le_encode h).trans (by simp)) (elementOf_encode h rest)

/-- A unit operation without a list operand. -/
theorem decode_uop_fixed (n : Nat) {sel : Byte} {o : List Byte} {i : Instr} (hn : sel.toNat = n)
    (hs : uopSize n = some (o.length, 0)) (rest : List Byte) (ho : uopOf n (o ++ rest) = some i) (hw : i.wf = true) :
    decode .uop ((sel :: o) ++ rest) = .ok i := by
  subst hn
  exact decode_uop hs (by simp) (fun h => absurd rfl h) ho hw

/-- A unit operation whose last operand is a list. -/
theorem decode_uop_list (n : Nat) {sel : Byte} {p : List Byte} {each : Nat} {l : List Nat} {i : Instr} (hn : sel.toNat = n)
    (hs : uopSize n = some (p.length + 2, each)) (hl : l.length < 65536) (rest : List Byte)
    (ho : uopOf n (p ++ (listBytes each l ++ rest)) = some i) (hw : i.wf = true) :
    decode .uop (sel :: (p ++ (listBytes each l ++ rest))) = .ok i := by
  subst hn
  have hlen : (p ++ (listBytes each l ++ rest)).length = p.length + 2 + each * l.length + rest.length := by
    simp only [List.length_append, listBytes, Laws.leBytes_length, flatMap_leBytes_length]
    omega
  refine decode_uop hs ?_ (fun _ => ?_) ho hw
  · omega
  · rw [Nat.add_sub_cancel, rd_listBytes rfl hl]
    omega

theorem tokens_read_back {toks : List Token} (h : ∀ t ∈ toks, t.wf = true) : (toks.map tokenNum).map tokenOf = toks := by
  rw [List.map_map]
  exact (List.map_congr_left fun t ht => tokenOf_tokenNum (h t ht)).trans (List.map_id toks)

theorem decode_hbBuild {freq : List Nat} {max : Nat} (hw : (Instr.hbBuild freq max).wf = true) (rest : List Byte) :
    decode .uop (encode (.hbBuild freq max) ++ rest) = .ok (.hbBuild freq max) := by
  obtain ⟨⟨hm, -⟩, hl, hx⟩ : (max < 256 ∧ freq.length ≤ 2 ^ max) ∧ freq.length < 65536 ∧ ∀ x ∈ freq, x ≤ 4294967295 := by
    simpa [Instr.wf, listWf_iff] using hw
  have hb := rdList_listBytes (p := leBytes 1 max) (off := 1) (k := 4) rfl rfl hl (fun x h => Nat.lt_succ_of_le (hx x h)) rest
  refine decode_uop_list 0x60 (p := leBytes 1 max) rfl rfl hl rest ?_ hw
  simp only [uopOf, hb, rd_leBytes (k := 1) hm]

theorem decode_hbCanon {lens : Lens} {max : Nat} (hw : (Instr.hbCanon lens max).wf = true) (rest : List Byte) :
    decode .uop (encode (.hbCanon lens max) ++ rest) = .ok (.hbCanon lens max) := by
  obtain ⟨hm, hl, hx⟩ : max < 256 ∧ lens.length < 65536 ∧ ∀ x ∈ lens, x ≤ max := by simpa [Instr.wf, listWf_iff] using hw
  have hb := rdList_listBytes (p := leBytes 1 max) (off := 1) (k := 1) rfl rfl hl (fun x h => (hx x h).trans_lt hm) rest
  refine decode_uop_list 0x61 (p := leBytes 1 max) rfl rfl hl rest ?_ hw
  simp only [uopOf, hb, rd_leBytes (k := 1) hm]

theorem decode_hbRle {lens : Lens} (hw : (Instr.hbRle lens).wf = true) (rest : List Byte) :
    decode .uop (encode (.hbRle lens) ++ rest) = .ok (.hbRle lens) := by
  obtain ⟨hl, hx⟩ : lens.length < 65536 ∧ ∀ x ∈ lens, x ≤ 15 := listWf_iff.1 hw
  have hb := rdList_listBytes (p := []) (off := 0) (k := 1) rfl rfl hl (fun x h => (hx x h).trans_lt (by decide)) rest
  refine decode_uop_list 0x62 (p := []) rfl rfl hl rest ?_ hw
  simp only [uopOf, hb]

theorem decode_hbPlan {toks : List Token} (hw : (Instr.hbPlan toks).wf = true) (rest : List Byte) :
    decode .uop (encode (.hbPlan toks) ++ rest) = .ok (.hbPlan toks) := by
  obtain ⟨hl, ht⟩ : toks.length < 65536 ∧ ∀ t ∈ toks, t.wf = true := by simpa [Instr.wf] using hw
  have hl' : (toks.map tokenNum).length < 65536 := by rwa [List.length_map]
  have hx : ∀ a ∈ toks.map tokenNum, a < 256 ^ 4 := by
    rintro a ha
    obtain ⟨t, hmem, rfl⟩ := List.mem_map.1 ha
    exact tokenNum_lt (ht t hmem)
  have hb := rdList_listBytes (p := []) (off := 0) rfl rfl hl' hx rest
  refine decode_uop_list 0x63 (p := []) rfl rfl hl' rest ?_ hw
  simp only [uopOf, hb, tokens_read_back ht]

theorem decode_hdBuild {lens : Lens} {max : Nat} {kind : CodeKind} (hw : (Instr.hdBuild lens max kind).wf = true)
    (rest : List Byte) : decode .uop (encode (.hdBuild lens max kind) ++ rest) = .ok (.hdBuild lens max kind) := by
  obtain ⟨hm, hl, hx⟩ : max < 256 ∧ lens.length < 65536 ∧ ∀ x ∈ lens, x ≤ max := by simpa [Instr.wf, listWf_iff] using hw
  have hk : kindNum kind < 256 ^ 1 := by cases kind <;> decide
  have hb := rdList_listBytes (p := leBytes 1 (kindNum kind) ++ leBytes 1 max) (off := 2) (k := 1) rfl rfl hl
    (fun x h => (hx x h).trans_lt hm) rest
  refine decode_uop_list 0x70 (p := leBytes 1 (kindNum kind) ++ leBytes 1 max) rfl rfl hl rest ?_ hw
  rw [uopOf, hb]
  simp only [List.append_assoc, rd_leBytes hk, rd_behind, rd_leBytes (k := 1) hm,
    kindOf_kindNum, Option.map_some]

theorem decode_hdDecode (t : TableId) (rest : List Byte) : decode .uop (encode (.hdDecode t) ++ rest) = .ok (.hdDecode t) := by
  have ht : tableNum t < 256 ^ 1 := by cases t <;> decide
  refine decode_uop_fixed 0x71 rfl rfl rest ?_ rfl
  simp only [uopOf, rd_leBytes ht, tableOf_tableNum, Option.map_some]

/-- A unit operation is read back, operand by operand, where its operands are in their ranges. -/
theorem decode_encode_uop {i : Instr} (h : i.port = .uop) (hw : i.wf = true) (rest : List Byte) :
    decode .uop (encode i ++ rest) = .ok i := by
  cases i <;> cases h
  case hbBuild => exact decode_hbBuild hw rest
  case hbCanon => exact decode_hbCanon hw rest
  case hbRle => exact decode_hbRle hw rest
  case hbPlan => exact decode_hbPlan hw rest
  case hdBuild => exact decode_hdBuild hw rest
  case hdDecode => exact decode_hdDecode _ rest
  case bwAlign => exact decode_uop_fixed 0x12 rfl rfl rest rfl hw
  case bwTake => exact decode_uop_fixed 0x13 rfl rfl rest rfl hw
  case brAlign => exact decode_uop_fixed 0x24 rfl rfl rest rfl hw
  case hdrZenc => exact decode_uop_fixed 0x40 rfl rfl rest rfl hw
  case hdrGzenc => exact decode_uop_fixed 0x41 rfl rfl rest rfl hw
  case hdrTrailer => exact decode_uop_fixed 0x42 rfl rfl rest rfl hw
  case lzStep => exact decode_uop_fixed 0x52 rfl rfl rest rfl hw
  case lzClear => exact decode_uop_fixed 0x53 rfl rfl rest rfl hw
  case hbEmitHeader => exact decode_uop_fixed 0x64 rfl rfl rest rfl hw
  case hbEmitSymbols => exact decode_uop_fixed 0x65 rfl rfl rest rfl hw
  case bwPut.refl v n =>
    obtain ⟨hn, -⟩ : n ≤ 32 ∧ v.toNat < 2 ^ n := of_decide_eq_true hw
    refine decode_uop_fixed 0x10 rfl rfl rest ?_ hw
    simp (disch := omega) only [uopOf, List.append_assoc, rd_leBytes, rd_behind, BitVec.ofNat_toNat, BitVec.setWidth_eq]
  case bwPutcode.refl c n =>
    obtain ⟨h1, hn, -⟩ : 1 ≤ n ∧ n ≤ 15 ∧ c.toNat < 2 ^ n := of_decide_eq_true hw
    refine decode_uop_fixed 0x11 rfl rfl rest ?_ hw
    simp (disch := omega) only [uopOf, List.append_assoc, rd_leBytes, rd_behind, BitVec.ofNat_toNat, BitVec.setWidth_eq,
      Nat.sub_add_cancel]
  case brNeed.refl n =>
    have hn : n ≤ 32 := of_decide_eq_true hw
    refine decode_uop_fixed 0x20 rfl rfl rest ?_ hw
    simp (disch := omega) only [uopOf, rd_leBytes]
  case brPeek.refl k n =>
    have hn : k + n ≤ 39 := of_decide_eq_true hw
    refine decode_uop_fixed 0x21 rfl rfl rest ?_ hw
    simp (disch := omega) only [uopOf, List.append_assoc, rd_leBytes, rd_behind]
  case brDrop.refl n =>
    have hn : n ≤ 39 := of_decide_eq_true hw
    refine decode_uop_fixed 0x22 rfl rfl rest ?_ hw
    simp (disch := omega) only [uopOf, rd_leBytes]
  case brGet.refl n =>
    have hn : n ≤ 32 := of_decide_eq_true hw
    refine decode_uop_fixed 0x23 rfl rfl rest ?_ hw
    simp (disch := omega) only [uopOf, rd_leBytes]
  case adlerStep.refl a b =>
    refine decode_uop_fixed 0x30 rfl rfl rest ?_ hw
    simp (disch := omega) only [uopOf, List.append_assoc, rd_leBytes, rd_behind, BitVec.ofNat_toNat, BitVec.setWidth_eq]
  case crcStep.refl c b =>
    refine decode_uop_fixed 0x31 rfl rfl rest ?_ hw
    simp (disch := omega) only [uopOf, List.append_assoc, rd_leBytes, rd_behind, BitVec.ofNat_toNat, BitVec.setWidth_eq]
  case lzInsert.refl p =>
    have hp : p < 2 ^ 64 := of_decide_eq_true hw
    refine decode_uop_fixed 0x50 rfl rfl rest ?_ hw
    simp (disch := omega) only [uopOf, rd_leBytes]
  case lzFind.refl p chain =>
    obtain ⟨hp, hc⟩ : p < 2 ^ 64 ∧ chain < 2 ^ 32 := of_decide_eq_true hw
    refine decode_uop_fixed 0x51 rfl rfl rest ?_ hw
    simp (disch := omega) only [uopOf, List.append_assoc, rd_leBytes, rd_behind]

theorem decode_encode {i : Instr} (h : i.wf = true) (rest : List Byte) : decode i.port (encode i ++ rest) = .ok i := by
  cases hp : i.port with
  | deflCmd =>
    obtain ⟨c, rfl, he⟩ := exists_deflCommand hp
    rw [he, decode_deflCommand]
  | inflCmd =>
    obtain ⟨c, rfl, he⟩ := exists_inflCommand hp
    rw [he, decode_inflCommand]
  | cksCmd =>
    cases i <;> cases hp
    · exact decode_cksCommand rfl rest
    · exact decode_cksCommand rfl rest
  | uop => exact decode_encode_uop hp h rest
  | element fmt => exact decode_encode_element hp rest

/-! ## What the decoder accepts -/

theorem element_wf {i : Instr} {fmt : Fmt} (h : i.port = .element fmt) : i.wf = true := by cases i <;> cases h <;> rfl

theorem deflCommand_ok (c : Option Flush) : (deflCommand c).wf = true ∧ (deflCommand c).port = .deflCmd := by
  cases c with
  | none => exact ⟨rfl, rfl⟩
  | some f => cases f <;> exact ⟨rfl, rfl⟩

theorem inflCommand_ok (c : Option Flush) : (inflCommand c).wf = true ∧ (inflCommand c).port = .inflCmd := by
  cases c with
  | none => exact ⟨rfl, rfl⟩
  | some f => cases f <;> exact ⟨rfl, rfl⟩

theorem ccmdOf_ok {w : Nat} {i : Instr} (h : ccmdOf w = some i) : i.wf = true ∧ i.port = .cksCmd := by
  unfold ccmdOf at h
  split_ifs at h <;> cases h <;> exact ⟨rfl, rfl⟩

theorem uopOf_port {sel : Nat} {o : List Byte} {i : Instr} (h : uopOf sel o = some i) : i.port = .uop := by
  unfold uopOf at h
  split at h
  case h_25 =>
    obtain ⟨kind, -, rfl⟩ := Option.map_eq_some_iff.1 h
    rfl
  case h_26 =>
    obtain ⟨t, -, rfl⟩ := Option.map_eq_some_iff.1 h
    rfl
  all_goals cases h <;> rfl

theorem decodeUop_ok {bs : List Byte} {i : Instr} (h : decodeUop bs = .ok i) : i.wf = true ∧ i.port = .uop := by
  unfold decodeUop at h
  split at h
  · cases h
  · split at h
    · cases h
    · split_ifs at h
      split at h
      · cases h
      · split_ifs at h with hw
        cases h
        exact ⟨hw, uopOf_port ‹_›⟩

theorem lenInstr_port {s x : Nat} {i : Instr} (h : lenInstr s x = some i) : i.port = .element .llsym := by
  unfold lenInstr at h
  split at h <;> cases h <;> rfl

theorem distInstr_port {s x : Nat} {i : Instr} (h : distInstr s x = some i) : i.port = .element .dsym := by
  unfold distInstr at h
  split at h <;> cases h <;> rfl

theorem llsymInstr_port {s x : Nat} {i : Instr} (h : llsymInstr s x = some i) : i.port = .element .llsym := by
  unfold llsymInstr at h
  split_ifs at h
  case neg => exact lenInstr_port h
  all_goals (cases h; rfl)

theorem dsymInstr_port {s x : Nat} {i : Instr} (h : dsymInstr s x = some i) : i.port = .element .dsym := by
  unfold dsymInstr at h
  split_ifs at h
  case neg => exact distInstr_port h
  all_goals (cases h; rfl)

theorem clsymInstr_port {s x : Nat} {i : Instr} (h : clsymInstr s x = some i) : i.port = .element .clsym := by
  unfold clsymInstr at h
  split_ifs at h <;> (cases h; rfl)

theorem blkhdrInstr_port (final : Bool) (t : Nat) : (blkhdrInstr final t).port = .element .blkhdr := by
  unfold blkhdrInstr
  split <;> rfl

theorem pseudoInstr_port {bs : List Byte} {i : Instr} (h : pseudoInstr bs = some i) : i.port = .element .pseudo := by
  unfold pseudoInstr at h
  split_ifs at h <;> (cases h; rfl)

theorem elementOf_port {fmt : Fmt} {bs : List Byte} {i : Instr} (h : elementOf fmt bs = some i) : i.port = .element fmt := by
  cases fmt
  case blkhdr =>
    cases h
    exact blkhdrInstr_port _ _
  case llsym => exact llsymInstr_port h
  case dsym => exact dsymInstr_port h
  case clsym => exact clsymInstr_port h
  case pseudo => exact pseudoInstr_port h
  all_goals (cases h; rfl)

theorem decodeElement_ok {fmt : Fmt} {bs : List Byte} {i : Instr} (h : decodeElement fmt bs = .ok i) :
    i.wf = true ∧ i.port = .element fmt := by
  unfold decodeElement at h
  split at h
  · cases h
  · split at h <;> cases h
    exact ⟨element_wf (elementOf_port ‹_›), elementOf_port ‹_›⟩

theorem decode_ok {p : Port} {bs : List Byte} {i : Instr} (h : decode p bs = .ok i) : i.wf = true ∧ i.port = p := by
  cases p with
  | deflCmd =>
    simp only [decode] at h
    split_ifs at h
    split at h <;> cases h
    exact deflCommand_ok _
  | inflCmd =>
    simp only [decode] at h
    split_ifs at h
    split at h <;> cases h
    exact inflCommand_ok _
  | cksCmd =>
    simp only [decode] at h
    split_ifs at h
    split at h <;> cases h
    exact ccmdOf_ok ‹_›
  | uop => exact decodeUop_ok h
  | element fmt => exact decodeElement_ok h

/-! ## Reserved words (R125) -/

theorem flushOf_eq_none {m : Nat} (h : m < 8) : flushOf m = none ↔ m = 7 := by
  revert m
  decide

namespace Machine

theorem hcmdOf_eq_none (w : Word) : hcmdOf w.toNat = none ↔ reservedHcmd w := by
  have hw := w.isLt
  simp only [reservedHcmd, field, hcmdOf]
  split_ifs with h128 h1 h16 h2
  · simp only [true_iff]
    omega
  · simp only [false_iff]
    omega
  · simp only [true_iff]
    omega
  · rw [Option.map_eq_none_iff, flushOf_eq_none (by omega)]
    omega
  · simp only [true_iff]
    omega

theorem ccmdOf_eq_none (w : Word) : ccmdOf w.toNat = none ↔ reservedCcmd w := by
  have hw := w.isLt
  simp only [reservedCcmd, field, ccmdOf]
  split_ifs with h1 h2
  · simp only [false_iff]
    omega
  · simp only [false_iff]
    omega
  · simp only [true_iff]
    omega

theorem not_reservedHcmd_iff (w : Word) :
    ¬reservedHcmd w ↔ w ∈ [(0x01 : Word), 0x02, 0x12, 0x22, 0x32, 0x42, 0x52, 0x62] := by
  have hw := w.isLt
  simp only [reservedHcmd, field, List.mem_cons, List.not_mem_nil, or_false, ← BitVec.toNat_inj,
    BitVec.reduceToNat]
  omega

theorem not_reservedCcmd_iff (w : Word) : ¬reservedCcmd w ↔ w ∈ [(0x01 : Word), 0x02] := by
  have hw := w.isLt
  simp only [reservedCcmd, field, List.mem_cons, List.not_mem_nil, or_false, ← BitVec.toNat_inj,
    BitVec.reduceToNat]
  omega

/-- The bytes of a word written to a command register, as its port reads them. -/
theorem leNat_written (w : Word) : ¬(leBytes 4 w.toNat).length < 4 ∧ leNat ((leBytes 4 w.toNat).take 4) = w.toNat := by
  obtain ⟨hl, hw⟩ := leNat_word w.toNat []
  rw [List.append_nil] at hl hw
  exact ⟨hl, hw.trans (Nat.mod_eq_of_lt w.isLt)⟩

theorem decode_reservedHcmd {w : Word} (h : reservedHcmd w) :
    decode .deflCmd (leBytes 4 w.toNat) = .error .reservedCommand ∧
      decode .inflCmd (leBytes 4 w.toNat) = .error .reservedCommand := by
  obtain ⟨hl, hw⟩ := leNat_written w
  simp only [decode, if_neg hl, hw, (hcmdOf_eq_none w).2 h, and_self]

theorem decode_reservedCcmd {w : Word} (h : reservedCcmd w) :
    decode .cksCmd (leBytes 4 w.toNat) = .error .reservedCommand := by
  obtain ⟨hl, hw⟩ := leNat_written w
  simp only [decode, if_neg hl, hw, (ccmdOf_eq_none w).2 h]

/-- The word of each listed command decodes to it at the port of the listed offset (R126). -/
theorem hostCommands_decode : ∀ x ∈ hostCommands,
    commandPort x.1 = some x.2.2.port ∧ decode x.2.2.port (leBytes 4 x.2.1.toNat) = .ok x.2.2 := by decide

theorem serve_command {off : BitVec 12} {w : Word} {p : Port} {i : Instr} (hp : commandPort off = some p)
    (hd : decode p (leBytes 4 w.toNat) = .ok i) (s : State) : serve (.writeReg off w) s = exec i s := by
  simp only [serve, hp, runCommand, hd]

theorem serve_illegalCommand {off : BitVec 12} {w : Word} {p : Port} {e : DecodeError} (hp : commandPort off = some p)
    (hd : decode p (leBytes 4 w.toNat) = .error e) (s : State) : serve (.writeReg off w) s = .next (illegalCommand p s) := by
  simp only [serve, hp, runCommand, hd]

end Machine

end Sys2Proof

open Sys2Proof Sys2Proof.Machine

/-- Settles O2: by the port, each instruction a case of the lemma for its port. -/
theorem decodeOfEncode : Obligations.DecodeOfEncode := fun _ rest h => decode_encode h rest

/-- Settles O3: by the port the decoder reads at. -/
theorem decodeYieldsWellFormed : Obligations.DecodeYieldsWellFormed := fun _ _ _ h => decode_ok h

/-- Settles O4: the listed words decode to the listed commands, and a reserved word to none. -/
theorem hostCommandWords : Obligations.HostCommandWords := by
  refine ⟨fun x hx s => ?_, fun w => ⟨not_reservedHcmd_iff w, not_reservedCcmd_iff w⟩, fun w s => ⟨fun h => ?_, fun h => ?_⟩⟩
  · obtain ⟨hp, hd⟩ := hostCommands_decode x hx
    exact serve_command hp hd s
  · obtain ⟨hd, hi⟩ := decode_reservedHcmd h
    exact ⟨serve_illegalCommand (p := .deflCmd) rfl hd s, serve_illegalCommand (p := .inflCmd) rfl hi s⟩
  · exact serve_illegalCommand (p := .cksCmd) rfl (decode_reservedCcmd h) s

/-- Settles O1: each word is the encoding of the instruction, or reserved. -/
theorem writtenWordsDecode : Obligations.WrittenWordsDecode := by
  unfold Obligations.WrittenWordsDecode
  decide

end

section
/-! PROOFS. The stream elements where their stage reads them (R131 to R161, R470 to R500): each does its stage's action, and an
action either goes on or raises (R463). The conditions of the actions are put in the words of the rules. -/

namespace Sys2Proof.Machine

/-! ## Running an element in place -/

section
variable {fmt : Fmt} {s : State} {i : Instr} {act : Infl → Act} {e : Infl} {x : Status}

theorem element_ready (h : elementReady fmt s.infl = true) : element fmt i s act = .next (endAct s (act s.infl)) := if_pos h

theorem element_good (h : elementReady fmt s.infl = true) (ha : act s.infl = .good e) :
    element fmt i s act = .next { s with infl := e } := by rw [element_ready h, ha, endAct]

theorem element_bad (h : elementReady fmt s.infl = true) (ha : act s.infl = .bad x e) :
    element fmt i s act = .next { s with infl := inflRaise x e } := by rw [element_ready h, ha, endAct]

variable {t : TableId} {k : Nat} {after : State → State}

theorem symbolElement_ready (h : elementReady fmt s.infl = true) (hc : (tableLens t s.infl).getD k 0 ≠ 0) :
    symbolElement fmt t k i s act after = .next (after (endAct s (act s.infl))) :=
  if_pos (by rw [symbolReady, h, Bool.true_and, bne_iff_ne]; exact hc)

theorem symbolElement_good (h : elementReady fmt s.infl = true) (hc : (tableLens t s.infl).getD k 0 ≠ 0)
    (ha : act s.infl = .good e) : symbolElement fmt t k i s act after = .next (after { s with infl := e }) := by
  rw [symbolElement_ready h hc, ha, endAct]

theorem symbolElement_bad (h : elementReady fmt s.infl = true) (hc : (tableLens t s.infl).getD k 0 ≠ 0)
    (ha : act s.infl = .bad x e) : symbolElement fmt t k i s act after = .next (after { s with infl := inflRaise x e }) := by
  rw [symbolElement_ready h hc, ha, endAct]

end

theorem getLsbD_iff {n : Nat} (b : BitVec n) (k : Nat) : b.getLsbD k = true ↔ b.toNat / 2 ^ k % 2 = 1 := by
  rw [BitVec.getLsbD, Nat.testBit_eq_decide_div_mod_eq, decide_eq_true_eq]

/-! ## Block headers and stored blocks (R482 to R485) -/

theorem kraft_append (max : Nat) (xs ys : Lens) : kraft max (xs ++ ys) = kraft max xs + kraft max ys := by
  simp only [kraft, List.map_append, List.sum_append]

theorem kraft_replicate (max n l : Nat) : kraft max (List.replicate n l) = n * if l = 0 then 0 else 2 ^ (max - l) := by
  simp only [kraft, List.map_replicate, List.sum_replicate, smul_eq_mul]

/-- The two fixed codes are complete (R446). -/
theorem kraft_fixed : kraft 15 fixLl = 2 ^ 15 ∧ kraft 15 fixD = 2 ^ 15 := by
  simp only [fixLl, fixD, kraft_append, kraft_replicate]
  decide

/-- The test of R484 is that the second word is the complement of the first. -/
theorem complement_iff (len nlen : BitVec 16) : len.toNat ≠ 0xFFFF - nlen.toNat ↔ nlen ≠ ~~~len := by
  have h : (~~~len).toNat = 0xFFFF - len.toNat := BitVec.toNat_not
  have hl := len.isLt
  have hn := nlen.isLt
  rw [ne_eq, ne_eq, not_iff_not, ← BitVec.toNat_inj, h]
  omega

theorem stolenAct_of_complement {len nlen : BitVec 16} (h : nlen = ~~~len) (i : Infl) :
    stolenAct len nlen i = .good { i with remaining := len.toNat, stage := .storedCopy } :=
  if_neg fun hc => (complement_iff len nlen).1 hc h

theorem stolenAct_of_not_complement {len nlen : BitVec 16} (h : nlen ≠ ~~~len) (i : Infl) :
    stolenAct len nlen i = .bad .invalidStoredLength i := if_pos ((complement_iff len nlen).2 h)

/-! ## Dynamic headers (R487 to R489) -/

theorem dynhdrAct_of_le {hlit hdist : BitVec 5} (h : hlit.toNat ≤ 29 ∧ hdist.toNat ≤ 29) (hclen : BitVec 4) (i : Infl) :
    dynhdrAct hlit hdist hclen i = .good { i with
      nlen := hlit.toNat + 257, ndist := hdist.toNat + 1, ncode := hclen.toNat + 4
      cl := List.replicate 19 0, nhave := 0, stage := .dynClens } :=
  if_neg (show ¬(286 < hlit.toNat + 257 ∨ 30 < hdist.toNat + 1) by omega)

theorem dynhdrAct_of_not_le {hlit hdist : BitVec 5} (h : ¬(hlit.toNat ≤ 29 ∧ hdist.toNat ≤ 29)) (hclen : BitVec 4) (i : Infl) :
    dynhdrAct hlit hdist hclen i = .bad .tooManySymbols { i with
      nlen := hlit.toNat + 257, ndist := hdist.toNat + 1, ncode := hclen.toNat + 4 } :=
  if_pos (show 286 < hlit.toNat + 257 ∨ 30 < hdist.toNat + 1 by omega)

/-- There is room for a length where the stage reads one. -/
theorem lens_room {i : Infl} (h : elementReady .clsym i = true) : i.lens.length < i.nlen + i.ndist := by
  simp only [elementReady, readsFmt, Bool.and_eq_true, decide_eq_true_eq] at h
  exact h.2.2

section
variable {i : Infl} {v c : Nat}

theorem runAct_of_le (hl : i.lens.length < i.nlen + i.ndist) (h : c ≤ i.nlen + i.ndist - i.lens.length) :
    runAct v c i = .good { i with lens := i.lens ++ List.replicate c v } := if_neg (by omega)

theorem runAct_of_lt (h : i.nlen + i.ndist - i.lens.length < c) : runAct v c i = .bad .invalidBitLengthRepeat i :=
  if_pos (by omega)

theorem clsymAct_len (h : v < 16) (x : Nat) : clsymAct v x i = .good { i with lens := i.lens ++ [v] } := if_pos h

/-- Symbol 16 repeats the length before it. -/
theorem clsymAct_rep16 (hv : i.lens.getLast? = some v) (x : Nat) : clsymAct 16 x i = runAct v (3 + x) i := by
  simp [clsymAct, hv]

theorem clsymAct_rep16_nil (hv : i.lens = []) (x : Nat) : clsymAct 16 x i = .bad .invalidBitLengthRepeat i := by
  simp [clsymAct, hv]

/-- With nothing before it, or past the last length, symbol 16 is an error. -/
theorem clsymAct_rep16_bad {x : Nat} (h : i.lens = [] ∨ i.nlen + i.ndist - i.lens.length < 3 + x) :
    clsymAct 16 x i = .bad .invalidBitLengthRepeat i := by
  cases hv : i.lens.getLast? with
  | none => exact clsymAct_rep16_nil (List.getLast?_eq_none_iff.1 hv) x
  | some v =>
    have hne : i.lens ≠ [] := fun hnil => by simp [hnil] at hv
    rw [clsymAct_rep16 hv, runAct_of_lt (h.resolve_left hne)]

end

end Sys2Proof.Machine

open Sys2Proof Sys2Proof.Machine

/-- Settles O51: each header's action, and the two fixed codes are complete. -/
theorem blockHeaders : Obligations.BlockHeaders := fun _ _ h =>
  ⟨element_good h rfl, element_good h rfl, element_good h rfl, element_bad h rfl, kraft_fixed⟩

/-- Settles O52: the pair is tested for the complement; the raw byte is put out where there is room. -/
theorem storedBlock : Obligations.StoredBlock := by
  refine ⟨fun len nlen s h => ⟨fun hc => ?_, fun hc => ?_⟩, fun b s h => ⟨fun ha => ?_, fun ha => ?_⟩⟩
  · exact element_good (act := fun i => stolenAct len nlen (brAlign i)) h (stolenAct_of_complement hc (brAlign s.infl))
  · exact element_bad (act := fun i => stolenAct len nlen (brAlign i)) h (stolenAct_of_not_complement hc (brAlign s.infl))
  · exact (if_pos h).trans (by rw [if_pos ha])
  · exact (if_pos h).trans (by rw [if_neg ha]; rfl)

/-- Settles O53: the counts by their limits, and each code-length symbol by the room its run has. -/
theorem dynamicHeader : Obligations.DynamicHeader := by
  refine ⟨⟨fun hlit hdist hclen s h => ⟨fun hc => ?_, fun hc => ?_⟩, fun len s h => element_good h rfl⟩, fun s h => ?_⟩
  · exact element_good h (dynhdrAct_of_le hc _ _)
  · exact element_bad h (dynhdrAct_of_not_le hc _ _)
  · have hroom := lens_room h
    refine ⟨fun v hv => ?_, fun x hx => ⟨fun v hlast hle => ?_, fun hbad => ?_⟩, fun x hx => ⟨fun hle => ?_, fun hlt => ?_⟩,
      fun x hx => ⟨fun hle => ?_, fun hlt => ?_⟩⟩
    · exact symbolElement_good h hv (clsymAct_len v.isLt 0)
    · exact symbolElement_good h hx ((clsymAct_rep16 hlast _).trans (runAct_of_le hroom hle))
    · exact symbolElement_bad h hx (clsymAct_rep16_bad hbad)
    · exact symbolElement_good h hx (runAct_of_le hroom hle)
    · exact symbolElement_bad h hx (runAct_of_lt hlt)
    · exact symbolElement_good h hx (runAct_of_le hroom hle)
    · exact symbolElement_bad h hx (runAct_of_lt hlt)

end

section
/-! PROOFS. The symbols of the literal/length code, the container fields and the pseudo-elements, where their stage reads them
(R142, R143, R150 to R161, R470 to R500). -/

namespace Sys2Proof.Machine

/-! ## What a ready element tells of the engine -/

theorem elementReady_iff {fmt : Fmt} {i : Infl} :
    elementReady fmt i = true ↔ i.configured = true ∧ i.sticky = .ok ∧ readsFmt fmt i = true := by
  simp only [elementReady, Bool.and_eq_true, beq_iff_eq, and_assoc]

/-- A stage change keeps an engine that takes elements ready, for the formats of the new stage. -/
theorem elementReady_of_reads {fmt fmt' : Fmt} {i j : Infl} (h : elementReady fmt i = true) (hc : j.configured = i.configured)
    (hs : j.sticky = i.sticky) (hr : readsFmt fmt' j = true) : elementReady fmt' j = true := by
  obtain ⟨hic, his, -⟩ := elementReady_iff.1 h
  exact elementReady_iff.2 ⟨hc.trans hic, hs.trans his, hr⟩

theorem stage_of_llsym {i : Infl} (h : elementReady .llsym i = true) : i.stage = .sym := by
  obtain ⟨-, -, hr⟩ := elementReady_iff.1 h
  exact beq_iff_eq.1 hr

/-- Where a pseudo-element is read, a block header is (R161). -/
theorem stage_of_pseudo {i : Infl} (h : elementReady .pseudo i = true) : i.stage = .blockType := by
  obtain ⟨-, -, hr⟩ := elementReady_iff.1 h
  simp only [readsFmt, Bool.and_eq_true, beq_iff_eq] at hr
  exact hr.1

/-! ## Literal/length symbols (R492 to R494) -/

theorem symAct_lit (b : Byte) (i : Infl) : symAct b.toNat i = .good { i with lit := b, stage := .lit } := by
  have hb := b.isLt
  simp only [symAct, if_neg (show ¬286 ≤ b.toNat by omega), if_pos hb, BitVec.ofNat_toNat, BitVec.setWidth_eq]

theorem symAct_eob (i : Infl) : symAct 256 i = .good { i with stage := .blockType } := rfl

theorem symAct_reserved (hi : Bool) (i : Infl) : symAct (286 + hi.toNat) i = .bad .invalidLiteralLength i :=
  if_pos (Nat.le_add_right _ _)

theorem symAct_len {k : Nat} (hk : 257 ≤ k) (hk' : k < 286) (i : Infl) :
    symAct k i = .good { i with lsym := k - 257, stage := .lenext } := by
  simp only [symAct, if_neg (Nat.not_le.2 hk'), if_neg (show ¬k < 256 by omega), if_neg (show ¬k = 256 by omega)]

/-- A length symbol is a row of the length table, and its extra value is taken within the row's width (R143). -/
theorem exec_of_lenInstr {k x : Nat} {j : Instr} (h : lenInstr k x = some j) (s : State) :
    257 ≤ k ∧ k < 286 ∧ exec j s = lenElement k (x % 2 ^ lenXb.getD (k - 257) 0) j s := by
  unfold lenInstr at h
  split at h <;> cases h <;>
    exact ⟨by decide, by decide, congrArg (lenElement _ · _ s) (by simp [lenXb, Nat.mod_one])⟩

/-- The extra bits of a length symbol, by its number (R143). -/
theorem lenXb_eq {k : Nat} (hk : 257 ≤ k) (hk' : k < 286) :
    lenXb.getD (k - 257) 0 = if k < 265 ∨ k = 285 then 0 else (k - 261) / 4 := by
  interval_cases k <;> rfl

/-! ## The zlib header (R269, R470) -/

section
variable {cmf flg : Byte} {i : Infl}

theorem zhdrAct_bad_sum (h : (cmf.toNat * 256 + flg.toNat) % 31 ≠ 0) : zhdrAct cmf flg i = .bad .incorrectHeaderCheck i := by
  simp only [zhdrAct, zhdrCheck, if_pos h]

theorem zhdrAct_bad_method (h : (cmf.toNat * 256 + flg.toNat) % 31 = 0) (hm : cmf.toNat % 16 ≠ 8) :
    zhdrAct cmf flg i = .bad .unknownCompressionMethod i := by
  simp only [zhdrAct, zhdrCheck, if_neg (not_not_intro h), if_pos hm]

theorem zhdrAct_bad_window (h : (cmf.toNat * 256 + flg.toNat) % 31 = 0) (hm : cmf.toNat % 16 = 8)
    (hw : i.wbits < cmf.toNat / 16 + 8) : zhdrAct cmf flg i = .bad .invalidWindowSize i := by
  simp only [zhdrAct, zhdrCheck, if_neg (not_not_intro h), if_neg (not_not_intro hm), if_pos hw]

theorem zhdrAct_good (h : (cmf.toNat * 256 + flg.toNat) % 31 = 0) (hm : cmf.toNat % 16 = 8)
    (hw : cmf.toNat / 16 + 8 ≤ i.wbits) :
    zhdrAct cmf flg i = .good { i with stage := if flg.toNat / 32 % 2 = 1 then .dictid else .blockType } := by
  simp only [zhdrAct, zhdrCheck, if_neg (not_not_intro h), if_neg (not_not_intro hm), if_neg (Nat.not_lt.2 hw), getLsbD_iff,
    Nat.reducePow]

end

/-! ## The gzip header (R272, R472 to R480) -/

section
variable {cm flg : Byte} {i : Infl}

theorem gzCmflgAct_bad_method (h : cm ≠ 8) :
    gzCmflgAct cm flg i = .bad .unknownCompressionMethod { i with gzflags := flg } := by
  simp only [gzCmflgAct, gzCmflgCheck, if_pos h]

theorem gzCmflgAct_bad_flags (h : cm = 8) (hf : 32 ≤ flg.toNat) :
    gzCmflgAct cm flg i = .bad .unknownHeaderFlags { i with gzflags := flg } := by
  simp only [gzCmflgAct, gzCmflgCheck, if_neg (not_not_intro h), if_pos (show flg.toNat / 32 ≠ 0 by omega)]

theorem gzCmflgAct_good (h : cm = 8) (hf : flg.toNat < 32) :
    gzCmflgAct cm flg i = .good { i with gzflags := flg, stage := .gzMtime } := by
  simp only [gzCmflgAct, gzCmflgCheck, if_neg (not_not_intro h), if_neg (show ¬flg.toNat / 32 ≠ 0 by omega)]

theorem gzXflosAct_eq (a b : Byte) (i : Infl) :
    gzXflosAct a b i = .good { i with stage := if i.gzflags.toNat / 4 % 2 = 1 then .gzExlen else .gzName } := by
  simp only [gzXflosAct, gzFlag, getLsbD_iff, Nat.reducePow]

/-- The name ends with a zero byte (R478). -/
theorem gzNameAct_eq (b : Byte) (hs : i.stage = .gzName) :
    gzNameAct b i = .good { i with stage := if b = 0 then .gzComment else .gzName } := by
  unfold gzNameAct
  split_ifs
  · rfl
  · rw [← hs]

/-- The comment ends with a zero byte (R479). -/
theorem gzCommentAct_eq (b : Byte) (hs : i.stage = .gzComment) :
    gzCommentAct b i = .good { i with stage := if b = 0 then .gzHcrc else .gzComment } := by
  unfold gzCommentAct
  split_ifs
  · rfl
  · rw [← hs]

theorem stage_of_gzName (h : elementReady .gzName i = true) : i.stage = .gzName := by
  obtain ⟨-, -, hr⟩ := elementReady_iff.1 h
  simp only [readsFmt, Bool.and_eq_true, beq_iff_eq] at hr
  exact hr.1

theorem stage_of_gzComment (h : elementReady .gzComment i = true) : i.stage = .gzComment := by
  obtain ⟨-, -, hr⟩ := elementReady_iff.1 h
  simp only [readsFmt, Bool.and_eq_true, beq_iff_eq] at hr
  exact hr.1

end

/-! ## Pseudo-elements (R161) -/

/-- The empty stored block of `SYNC_MARKER` (R161): header, aligned lengths, end. -/
def syncMarkerAct (i : Infl) : Act :=
  ((blkhdrAct false 0 i).andThen fun j => stolenAct 0 0xFFFF (brAlign j)).andThen storedEndAct

theorem syncMarkerAct_eq (i : Infl) :
    syncMarkerAct i =
      .good { brAlign { i with last := false, stage := .storedLen } with remaining := 0, stage := .blockType } := by
  simp only [syncMarkerAct, blkhdrAct, Act.andThen, stolenAct_of_complement (show (0xFFFF : BitVec 16) = ~~~0 by decide)]
  rfl

/-- The empty fixed block of the other two (R161): header, end of block. -/
def emptyFixedAct (final : Bool) (i : Infl) : Act := (blkhdrAct final 1 i).andThen (symAct 256)

theorem emptyFixedAct_eq {i : Infl} (hs : i.stage = .blockType) (final : Bool) :
    emptyFixedAct final i = .good { i with last := final, ll := fixLl, dt := fixD } := by
  simp only [emptyFixedAct, blkhdrAct, Act.andThen, symAct_eob, ← hs]

theorem fixLl_eob : fixLl.getD 256 0 ≠ 0 := by decide

/-- A fixed block header and an end of block run one after another come back to the next block header. -/
theorem fixedThenEob {s : State} (h : elementReady .pseudo s.infl = true) (final : Bool) :
    exec (.blkhdrFixed final) s = .next { s with infl := { s.infl with last := final, ll := fixLl, dt := fixD, stage := .sym } } ∧
      exec .eob { s with infl := { s.infl with last := final, ll := fixLl, dt := fixD, stage := .sym } } =
        .next { s with infl := { s.infl with last := final, ll := fixLl, dt := fixD } } := by
  refine ⟨element_good (fmt := .blkhdr) h rfl, ?_⟩
  have hr : elementReady .llsym { s.infl with last := final, ll := fixLl, dt := fixD, stage := .sym } = true :=
    elementReady_of_reads h rfl rfl rfl
  refine (symbolElement_good (s := { s with infl := { s.infl with last := final, ll := fixLl, dt := fixD, stage := .sym } })
    (t := .ll) hr fixLl_eob (symAct_eob _)).trans ?_
  rw [← stage_of_pseudo h]
  rfl

end Sys2Proof.Machine

open Sys2Proof Sys2Proof.Machine

/-- Settles O55: a literal is decoded and then put out where there is room; the other symbols end or raise. -/
theorem literalSymbols : Obligations.LiteralSymbols := by
  refine fun s h => ⟨fun b hb => ⟨fun ha => ?_, fun ha => ?_⟩, fun hb => ?_, fun hi hb => ?_⟩
  · exact (symbolElement_good (t := .ll) h hb (symAct_lit b _)).trans (congrArg Host.Outcome.next (if_pos ha))
  · refine (symbolElement_good (t := .ll) h hb (symAct_lit b _)).trans (congrArg Host.Outcome.next ((if_neg ha).trans ?_))
    simp only [litByte, inflEmit, withInfl, stage_of_llsym h]
    rfl
  · exact symbolElement_good h hb (symAct_eob _)
  · exact symbolElement_bad h hb (symAct_reserved hi _)

/-- Settles O56: each symbol is a row of the length table. -/
theorem lengthSymbols : Obligations.LengthSymbols := by
  intro k x j s hj h hc
  obtain ⟨hk, hk', he⟩ := exec_of_lenInstr hj s
  rw [lenXb_eq hk hk'] at he
  refine he.trans (symbolElement_good h hc ?_)
  rw [symAct_len hk hk']
  rfl

/-- Settles O58: the checks of R269 in their order, and the two words compared. -/
theorem zlibElements : Obligations.ZlibElements :=
  fun _ => ⟨fun _ _ h => ⟨fun hs => element_bad h (zhdrAct_bad_sum hs), fun hs hm => element_bad h (zhdrAct_bad_method hs hm),
      fun hs hm hw => element_bad h (zhdrAct_bad_window hs hm hw), fun hs hm hw => element_good h (zhdrAct_good hs hm hw)⟩,
    fun _ h => element_ready h,
    fun _ h => ⟨fun hc => element_good h (if_neg (not_not_intro hc)), fun hc => element_bad h (if_pos hc)⟩⟩

/-- Settles O59: each field's action at its stage. -/
theorem gzipElements : Obligations.GzipElements :=
  ⟨fun _ => ⟨fun _ _ h => ⟨fun hc => element_good h (if_pos hc), fun hc => element_bad h (if_neg hc)⟩,
      fun _ _ h => ⟨fun hm => element_bad h (gzCmflgAct_bad_method hm), fun hm hf => element_bad h (gzCmflgAct_bad_flags hm hf),
        fun hm hf => element_good h (gzCmflgAct_good hm hf)⟩,
      fun _ h => element_good h rfl, fun a b h => element_good h (gzXflosAct_eq a b _), fun _ h => element_good h rfl,
      fun _ h => element_good h rfl, fun b h => element_good h (gzNameAct_eq b (stage_of_gzName h)),
      fun b h => element_good h (gzCommentAct_eq b (stage_of_gzComment h)),
      fun _ h => ⟨fun hc => element_good h (if_neg (not_not_intro hc)), fun hc => element_bad h (if_pos hc)⟩⟩,
    fun _ _ => ⟨fun h => ⟨fun hc => element_good h (if_neg (not_not_intro hc)), fun hc => element_bad h (if_pos hc)⟩,
      fun h => ⟨fun hc => element_good h (if_neg (not_not_intro hc)), fun hc => element_bad h (if_pos hc)⟩⟩⟩

/-- Settles O60: the elements one after another, each where the one before leaves the engine. -/
theorem pseudoElements : Obligations.PseudoElements := by
  intro s h
  have hst := stage_of_pseudo h
  refine ⟨?_, ?_, ?_⟩
  · have hr : elementReady .stolen { s.infl with last := false, stage := .storedLen } = true := elementReady_of_reads h rfl rfl rfl
    have hb : exec (.blkhdrStored false) s = .next { s with infl := { s.infl with last := false, stage := .storedLen } } :=
      element_good (fmt := .blkhdr) h rfl
    have hm : exec .syncMarker s = .next { s with infl :=
        { brAlign { s.infl with last := false, stage := .storedLen } with remaining := 0, stage := .blockType } } :=
      element_good (act := syncMarkerAct) h (syncMarkerAct_eq _)
    exact ⟨_, _, hb, element_good (act := fun i => stolenAct 0 0xFFFF (brAlign i)) hr (stolenAct_of_complement (by decide) _),
      rfl, hm⟩
  · obtain ⟨hb, he⟩ := fixedThenEob h false
    refine ⟨_, hb, ?_⟩
    rw [he, and_self]
    exact element_good (act := emptyFixedAct false) h (emptyFixedAct_eq hst false)
  · obtain ⟨hb, he⟩ := fixedThenEob h true
    refine ⟨_, hb, ?_⟩
    rw [he, and_self]
    exact element_good (act := emptyFixedAct true) h (emptyFixedAct_eq hst true)

end

section
/-! PROOFS. Run-length coded code lengths expand to what they were made from (R146, R344): each kind of run in turn, then the
sequence cut into its maximal runs. -/

namespace Sys2Proof.Machine

/-! ## Expanding one pair, and one run after another -/

theorem expandLens_append (acc : Lens) (xs ys : List (Nat × Nat)) :
    expandLens acc (xs ++ ys) = expandLens (expandLens acc xs) ys := by
  induction xs generalizing acc with
  | nil => rfl
  | cons q xs ih => exact ih _

section
variable (acc : Lens) (x : Nat) (qs : List (Nat × Nat))

theorem expandLens_len {v : Nat} (h : v < 16) : expandLens acc ((v, x) :: qs) = expandLens (acc ++ [v]) qs := by
  rw [expandLens, if_pos h]

theorem expandLens_copies : expandLens acc ((16, x) :: qs) = expandLens (acc ++ List.replicate (3 + x) (acc.getLastD 0)) qs :=
  rfl

theorem expandLens_zeros17 : expandLens acc ((17, x) :: qs) = expandLens (acc ++ List.replicate (3 + x) 0) qs := rfl

theorem expandLens_zeros18 : expandLens acc ((18, x) :: qs) = expandLens (acc ++ List.replicate (11 + x) 0) qs := rfl

end

theorem expandLens_replicate (acc : Lens) {v : Nat} (h : v < 16) (r : Nat) :
    expandLens acc (List.replicate r (v, 0)) = acc ++ List.replicate r v := by
  induction r generalizing acc with
  | zero => simp [expandLens]
  | succ r ih => rw [List.replicate_succ, expandLens_len _ _ _ h, ih, List.append_assoc, List.replicate_succ]; rfl

/-- Two runs of one value make one. -/
theorem append_replicate_add (acc : Lens) {m r : Nat} (h : m ≤ r) (v : Nat) :
    acc ++ List.replicate m v ++ List.replicate (r - m) v = acc ++ List.replicate r v := by
  rw [List.append_assoc, List.replicate_append_replicate, Nat.add_sub_cancel' h]

theorem getLastD_append_replicate (acc : Lens) {r : Nat} (h : 0 < r) (v : Nat) :
    (acc ++ List.replicate r v).getLastD 0 = v := by
  obtain ⟨r, rfl⟩ := Nat.exists_eq_succ_of_ne_zero (Nat.ne_of_gt h)
  rw [List.replicate_succ', ← List.append_assoc, List.getLastD_concat]

/-! ## The runs of R344 -/

theorem expandLens_rleZeros (acc : Lens) {k r : Nat} (h : r < k) :
    expandLens acc (rleZeros k r) = acc ++ List.replicate r 0 := by
  induction k generalizing acc r with
  | zero => exact absurd h (Nat.not_lt_zero r)
  | succ k ih =>
    simp only [rleZeros]
    split_ifs with h11 h3
    · rw [expandLens_zeros18, Nat.add_sub_cancel' (by omega), ih _ (by omega), append_replicate_add _ (Nat.min_le_left _ _)]
    · rw [expandLens_zeros17, Nat.add_sub_cancel' h3, expandLens]
    · exact expandLens_replicate acc (by decide) r

theorem expandLens_rleCopies (acc : Lens) {v k r : Nat} (hv : v < 16) (hlast : acc.getLastD 0 = v) (h : r ≤ k) :
    expandLens acc (rleCopies v k r) = acc ++ List.replicate r v := by
  induction k generalizing acc r with
  | zero =>
    obtain rfl : r = 0 := Nat.le_zero.1 h
    simp [rleCopies, expandLens]
  | succ k ih =>
    simp only [rleCopies]
    split_ifs with h3
    · rw [expandLens_copies, hlast, Nat.add_sub_cancel' (by omega), ih _ (getLastD_append_replicate _ (by omega) v) (by omega),
        append_replicate_add _ (Nat.min_le_left _ _)]
    · exact expandLens_replicate acc hv r

theorem expandLens_rleRun (acc : Lens) {v r : Nat} (hv : v < 16) (hr : 0 < r) :
    expandLens acc (rleRun v r) = acc ++ List.replicate r v := by
  unfold rleRun
  split_ifs with h0
  · rw [h0, expandLens_rleZeros _ (Nat.lt_succ_self r)]
  · rw [expandLens_len _ _ _ hv, expandLens_rleCopies _ hv (List.getLastD_concat ..) (Nat.sub_le r 1), List.append_assoc,
      List.singleton_append, ← List.replicate_succ, Nat.sub_add_cancel hr]

/-- The run so far, then the rest of the sequence. -/
theorem expandLens_rleFrom (acc : Lens) {v r : Nat} {ls : Lens} (hv : v < 16) (hr : 0 < r) (hls : ∀ l ∈ ls, l < 16) :
    expandLens acc (rleFrom v r ls) = acc ++ List.replicate r v ++ ls := by
  induction ls generalizing acc v r with
  | nil => rw [rleFrom, expandLens_rleRun _ hv hr, List.append_nil]
  | cons l ls ih =>
    obtain ⟨hl, hls⟩ := List.forall_mem_cons.1 hls
    rw [rleFrom]
    split_ifs with hlv
    · rw [ih _ hv (Nat.succ_pos r) hls, hlv, List.replicate_succ', List.append_assoc, List.append_assoc, List.append_assoc,
        List.singleton_append]
    · rw [expandLens_append, expandLens_rleRun _ hv hr, ih _ hl Nat.one_pos hls, List.replicate_one, List.append_assoc,
        List.singleton_append]

theorem expandLens_hbRle {lens : Lens} (h : ∀ l ∈ lens, l < 16) : expandLens [] (hbRle lens) = lens := by
  cases lens with
  | nil => rfl
  | cons l ls =>
    obtain ⟨hl, hls⟩ := List.forall_mem_cons.1 h
    exact expandLens_rleFrom [] hl Nat.one_pos hls

/-! ## The symbols are those of the code-length code (R146) -/

/-- Every pair has a symbol of the code-length code. -/
def symbolsInRange (rl : List (Nat × Nat)) : Prop := ∀ q ∈ rl, q.1 ≤ 18

theorem symbolsInRange_nil : symbolsInRange [] := fun _ h => nomatch h

theorem symbolsInRange_cons {q : Nat × Nat} {rl : List (Nat × Nat)} (hq : q.1 ≤ 18) (h : symbolsInRange rl) :
    symbolsInRange (q :: rl) := List.forall_mem_cons.2 ⟨hq, h⟩

theorem symbolsInRange_replicate {v : Nat} (hv : v < 16) (r : Nat) : symbolsInRange (List.replicate r (v, 0)) := by
  intro q hq
  rw [List.eq_of_mem_replicate hq]
  omega

theorem symbolsInRange_rleZeros (k r : Nat) : symbolsInRange (rleZeros k r) := by
  induction k generalizing r with
  | zero => exact symbolsInRange_nil
  | succ k ih =>
    simp only [rleZeros]
    split_ifs
    · exact symbolsInRange_cons (Nat.le_refl 18) (ih _)
    · exact symbolsInRange_cons (Nat.le_succ 17) symbolsInRange_nil
    · exact symbolsInRange_replicate (by decide) r

theorem symbolsInRange_rleCopies {v : Nat} (hv : v < 16) (k r : Nat) : symbolsInRange (rleCopies v k r) := by
  induction k generalizing r with
  | zero => exact symbolsInRange_nil
  | succ k ih =>
    simp only [rleCopies]
    split_ifs
    · exact symbolsInRange_cons (show 16 ≤ 18 by decide) (ih _)
    · exact symbolsInRange_replicate hv r

theorem symbolsInRange_rleRun {v : Nat} (hv : v < 16) (r : Nat) : symbolsInRange (rleRun v r) := by
  unfold rleRun
  split_ifs
  · exact symbolsInRange_rleZeros _ _
  · exact symbolsInRange_cons (show v ≤ 18 by omega) (symbolsInRange_rleCopies hv _ _)

theorem symbolsInRange_rleFrom {v : Nat} (hv : v < 16) (r : Nat) {ls : Lens} (hls : ∀ l ∈ ls, l < 16) :
    symbolsInRange (rleFrom v r ls) := by
  induction ls generalizing v r with
  | nil => exact symbolsInRange_rleRun hv r
  | cons l ls ih =>
    obtain ⟨hl, hls⟩ := List.forall_mem_cons.1 hls
    rw [rleFrom]
    split_ifs
    · exact ih hv _ hls
    · exact List.forall_mem_append.2 ⟨symbolsInRange_rleRun hv r, ih hl _ hls⟩

theorem symbolsInRange_hbRle {lens : Lens} (h : ∀ l ∈ lens, l < 16) : symbolsInRange (hbRle lens) := by
  cases lens with
  | nil => exact symbolsInRange_nil
  | cons l ls =>
    obtain ⟨hl, hls⟩ := List.forall_mem_cons.1 h
    exact symbolsInRange_rleFrom hl 1 hls

end Sys2Proof.Machine

open Sys2Proof Sys2Proof.Machine

/-- Settles O45, by the recursion that cuts the sequence into its runs. -/
theorem hbRleExpands : Obligations.HbRleExpands := by
  intro lens s h
  have h' : ∀ l ∈ lens, l < 16 := fun l hl => Nat.lt_succ_of_le (h l hl)
  exact ⟨hbRle lens, rfl, expandLens_hbRle h', fun q hq => ⟨symbolsInRange_hbRle h' q hq, hbRle_fit lens q hq⟩⟩

end

section
/-! PROOFS. What a run of emitted bytes leaves in `OUT`, in the window, in the checksum and in the registers (R15, R468), and the
copy of a match as such a run (R497): the byte copied next is the one `dist` back, which the copy itself may have written. -/

namespace Sys2Proof.Machine

/-! ## A run of emitted bytes (R468) -/

/-- From `c` to `d` the bytes `bs` were emitted, in canonical memories. -/
structure Emitted (c : InflCtx) (bs : List Byte) (d : InflCtx) : Prop where
  availIn : d.e.regs.availIn = c.e.regs.availIn
  nextIn : d.e.regs.nextIn = c.e.regs.nextIn
  totalIn : d.e.regs.totalIn = c.e.regs.totalIn
  availOut : d.e.regs.availOut = c.e.regs.availOut - BitVec.ofNat 32 bs.length
  totalOut : d.e.regs.totalOut = c.e.regs.totalOut + BitVec.ofNat 64 bs.length
  nextOut : c.e.regs.nextOut.toNat + bs.length < 2 ^ 32 → d.e.regs.nextOut.toNat = c.e.regs.nextOut.toNat + bs.length
  config : d.e.wbits = c.e.wbits ∧ d.e.wrap = c.e.wrap
  produced : d.e.produced = c.e.produced + bs.length
  check : d.e.check = bs.foldl (checkStep c.e.wrap) c.e.check
  inMem : d.bus.inMem = c.bus.inMem
  outWf : d.bus.outMem.wf
  out : bytesAt d.bus.outMem c.e.regs.nextOut.toNat bs.length = bs
  outside : sameOutside c.e.regs.nextOut.toNat bs.length c.bus.outMem d.bus.outMem
  winWf : d.e.win.wf
  win : ∀ j, j < bs.length → bs.length ≤ j + wsize c.e.wbits →
    memRead d.e.win ((c.e.produced + j) % wsize c.e.wbits) = bs.getD j 0
  winOther : ∀ x, (∀ j, j < bs.length → (c.e.produced + j) % wsize c.e.wbits ≠ x) → memRead d.e.win x = memRead c.e.win x

theorem Emitted.nil {c : InflCtx} (ho : c.bus.outMem.wf) (hw : c.e.win.wf) : Emitted c [] c where
  availIn := rfl
  nextIn := rfl
  totalIn := rfl
  availOut := by simp
  totalOut := by simp
  nextOut _ := rfl
  config := ⟨rfl, rfl⟩
  produced := rfl
  check := rfl
  inMem := rfl
  outWf := ho
  out := rfl
  outside _ _ := rfl
  winWf := hw
  win _ h := absurd h (Nat.not_lt_zero _)
  winOther _ _ := rfl

/-- Two numbers that differ by less than the window have different places in it. -/
theorem mod_ne_of_lt {a b w : Nat} (h : a < b) (hw : b < a + w) : a % w ≠ b % w := by
  intro he
  have hz : (b - a) % w = 0 := Nat.sub_mod_eq_zero_of_mod_eq he.symm
  rw [Nat.mod_eq_of_lt (by omega)] at hz
  omega

theorem memRead_bytesAt {m : Memory} {a n j : Nat} (h : j < n) : (bytesAt m a n).getD j 0 = memRead m (a + j) := by
  simp [bytesAt, h]

theorem bytesAt_congr {m m' : Memory} {a n : Nat} (h : ∀ j, j < n → memRead m' (a + j) = memRead m (a + j)) :
    bytesAt m' a n = bytesAt m a n := List.map_congr_left fun j hj => h j (List.mem_range.1 hj)

/-- One byte more (R468). -/
theorem Emitted.snoc {c d : InflCtx} {bs : List Byte} (h : Emitted c bs d) (v : Byte)
    (hr : c.e.regs.nextOut.toNat + (bs.length + 1) ≤ 2 ^ 32) : Emitted c (bs ++ [v]) (inflEmit v d) := by
  have ha : d.e.regs.nextOut.toNat = c.e.regs.nextOut.toNat + bs.length := h.nextOut (by omega)
  obtain ⟨hwb, hwr⟩ := h.config
  have hlen : (bs ++ [v]).length = bs.length + 1 := by simp
  have hmem : (inflEmit v d).bus.outMem = memWrite d.bus.outMem (c.e.regs.nextOut.toNat + bs.length) v := by
    rw [inflEmit_e_bus, outByteBus_outMem, ha]
  have hwin : (inflEmit v d).e.win = memWrite d.e.win ((c.e.produced + bs.length) % wsize c.e.wbits) v := by
    rw [inflEmit_e_win, h.produced, hwb]
  constructor
  case availIn => exact h.availIn
  case nextIn => exact h.nextIn
  case totalIn => exact h.totalIn
  case availOut => rw [inflEmit_e_regs, outByteRegs_availOut, h.availOut, hlen, BitVec.ofNat_add, BitVec.sub_sub]; rfl
  case totalOut => rw [inflEmit_e_regs, outByteRegs_totalOut, h.totalOut, hlen, BitVec.ofNat_add, BitVec.add_assoc]; rfl
  case nextOut =>
    intro hlt
    rw [hlen] at hlt ⊢
    rw [inflEmit_e_regs, outByteRegs_nextOut, cursorNext_toNat _ (by omega), ha]
    omega
  case config => exact ⟨hwb, hwr⟩
  case produced => rw [inflEmit_e_produced, h.produced, hlen, Nat.add_assoc]
  case check => rw [inflEmit_e_check, h.check, hwr, List.foldl_append]; rfl
  case inMem => rw [inflEmit_inMem, h.inMem]
  case outWf => exact hmem ▸ memWrite_wf h.outWf _ _
  case out =>
    rw [hlen, bytesAt_add, hmem]
    congr 1
    · refine (bytesAt_congr fun j hj => ?_).trans h.out
      exact memRead_memWrite_other _ _ (by omega)
    · simp [bytesAt, memRead_memWrite_self h.outWf]
  case outside =>
    intro x hx
    rw [hlen] at hx
    rw [hmem, memRead_memWrite_other _ _ (by omega), h.outside x (by omega)]
  case winWf => exact hwin ▸ memWrite_wf h.winWf _ _
  case win =>
    intro j hj hw
    rw [hlen] at hj hw
    rw [hwin]
    rcases Nat.lt_succ_iff_lt_or_eq.1 hj with hlt | rfl
    · rw [memRead_memWrite_other _ _ (mod_ne_of_lt (by omega) (by omega)), h.win j hlt (by omega), List.getD_append _ _ _ _ hlt]
    · rw [memRead_memWrite_self h.winWf]
      simp
  case winOther =>
    intro x hx
    rw [hlen] at hx
    rw [hwin, memRead_memWrite_other _ _ (hx bs.length (Nat.lt_succ_self _)).symm,
      h.winOther x fun j hj => hx j (Nat.lt_succ_of_lt hj)]

/-- The stream parameters moved by what was emitted (R375, R24). -/
theorem Emitted.moved {c d : InflCtx} {bs : List Byte} (h : Emitted c bs d) (hl : bs.length ≤ c.e.regs.availOut.toNat) :
    regsMoved c.e.regs d.e.regs ∧ consumed c.e.regs d.e.regs = 0 ∧ Machine.produced c.e.regs d.e.regs = bs.length := by
  have ha := c.e.regs.availOut.isLt
  have hout : d.e.regs.availOut.toNat = c.e.regs.availOut.toNat - bs.length := by
    rw [h.availOut, BitVec.toNat_sub_of_le] <;> simp [BitVec.le_def] <;> omega
  have hc : consumed c.e.regs d.e.regs = 0 := by rw [consumed, h.availIn, Nat.sub_self]
  have hp : Machine.produced c.e.regs d.e.regs = bs.length := by
    rw [Machine.produced, hout]
    omega
  refine ⟨⟨?_, ?_, ?_, ?_, ?_, ?_⟩, hc, hp⟩
  · rw [h.availIn]
  · omega
  · rw [hc, h.totalIn]; simp
  · rw [hp, h.totalOut]
  · intro _
    rw [hc, h.nextIn, Nat.add_zero]
  · rw [hp]
    exact h.nextOut

/-! ## Copying a match (R497) -/

/-- The byte `m` of a match of distance `dist`: the match repeats what stood `dist` back. -/
def sourceByte (i : Infl) (dist m : Nat) : Byte := memRead i.win ((i.produced - dist + m % dist) % wsize i.wbits)

/-- The first `n` bytes of a match. -/
def sourceBytes (i : Infl) (dist n : Nat) : List Byte := (List.range n).map (sourceByte i dist)

@[simp] theorem sourceBytes_length (i : Infl) (dist n : Nat) : (sourceBytes i dist n).length = n := by simp [sourceBytes]

theorem sourceBytes_succ (i : Infl) (dist n : Nat) : sourceBytes i dist (n + 1) = sourceBytes i dist n ++ [sourceByte i dist n] := by
  simp [sourceBytes, List.range_succ]

theorem sourceBytes_getD (i : Infl) (dist : Nat) {n j : Nat} (h : j < n) : (sourceBytes i dist n).getD j 0 = sourceByte i dist j := by
  simp [sourceBytes, h]

/-- With `m` bytes of a match copied, the byte `dist` back is byte `m` of the match: one that stood there before, or one that was
just copied. -/
theorem Emitted.matchByte {c d : InflCtx} {m : Nat} (h : Emitted c (sourceBytes c.e c.e.dist m) d) (hd : d.e.dist = c.e.dist)
    (h1 : 1 ≤ c.e.dist) (hw : c.e.dist ≤ whave c.e) : matchByte d.e = sourceByte c.e c.e.dist m := by
  have hp := h.produced
  rw [sourceBytes_length] at hp
  have hle : c.e.dist ≤ c.e.produced ∧ c.e.dist ≤ wsize c.e.wbits := le_min_iff.1 hw
  rw [Machine.matchByte, hd, h.config.1, hp]
  rcases Nat.lt_or_ge m c.e.dist with hlt | hge
  · rw [h.winOther]
    · rw [sourceByte, Nat.mod_eq_of_lt hlt]
      congr 2
      omega
    · intro j hj
      rw [sourceBytes_length] at hj
      exact (mod_ne_of_lt (by omega) (by omega)).symm
  · have hj : m - c.e.dist < m := by omega
    have ha : c.e.produced + m - c.e.dist = c.e.produced + (m - c.e.dist) := by omega
    rw [ha, h.win _ (by rwa [sourceBytes_length]) (by rw [sourceBytes_length]; omega), sourceBytes_getD _ _ hj, sourceByte,
      sourceByte, ← Nat.mod_eq_sub_mod hge]

/-- What `m` copied bytes do to the engine: the registers, the window and the checksum apart, only counts move. -/
def copied (m : Nat) (i j : Infl) : Prop :=
  j = { i with
    length := i.length - m, regs := j.regs, win := j.win, produced := i.produced + m, check := j.check
    isize := i.isize + BitVec.ofNat 32 m }

theorem copied_zero (i : Infl) : copied 0 i i := by simp [copied]

theorem copied_succ {m : Nat} {i : Infl} {d : InflCtx} (h : copied m i d.e) : copied (m + 1) i (copyByte d).e := by
  have he : (copyByte d).e = { d.e with
    length := d.e.length - 1, regs := (copyByte d).e.regs, win := (copyByte d).e.win, produced := d.e.produced + 1
    check := (copyByte d).e.check, isize := d.e.isize + 1 } := rfl
  unfold copied at *
  rw [he, h, BitVec.ofNat_add, ← BitVec.add_assoc]
  rfl

theorem copied.dist {m : Nat} {i j : Infl} (h : copied m i j) : j.dist = i.dist := by rw [h]

theorem copied.length {m : Nat} {i j : Infl} (h : copied m i j) : j.length = i.length - m := by rw [h]

theorem copied_iterate (m : Nat) (c : InflCtx) : copied m c.e (copyByte^[m] c).e := by
  induction m with
  | zero => exact copied_zero c.e
  | succ m ih => exact Function.iterate_succ_apply' copyByte m c ▸ copied_succ ih

/-- The loop copies as many bytes as there is output space for. -/
theorem copyLoop_eq_iterate (n : Nat) (c : InflCtx) : copyLoop n c = copyByte^[min n c.e.regs.availOut.toNat] c := by
  induction n generalizing c with
  | zero => rw [Nat.zero_min]; rfl
  | succ n ih =>
    rw [copyLoop]
    split_ifs with h0
    · rw [h0]; rfl
    · have hpos : 0 < c.e.regs.availOut.toNat := Nat.pos_of_ne_zero fun h => h0 (BitVec.eq_of_toNat_eq h)
      have ha : (copyByte c).e.regs.availOut.toNat = c.e.regs.availOut.toNat - 1 := by
        show (c.e.regs.availOut - 1).toNat = _
        rw [BitVec.toNat_sub_of_le (show (1 : Word) ≤ _ from BitVec.le_def.2 hpos)]
        rfl
      have hm : min (n + 1) c.e.regs.availOut.toNat = min n (c.e.regs.availOut.toNat - 1) + 1 := by omega
      rw [ih, ha, hm, Function.iterate_succ_apply]

theorem Emitted.copyByte {c d : InflCtx} {bs : List Byte} (h : Emitted c bs d)
    (hr : c.e.regs.nextOut.toNat + (bs.length + 1) ≤ 2 ^ 32) : Emitted c (bs ++ [Machine.matchByte d.e]) (copyByte d) :=
  { h.snoc (Machine.matchByte d.e) hr with }

/-- A copy that stays within the space emits the bytes of the match. -/
theorem emitted_iterate {c : InflCtx} (ho : c.bus.outMem.wf) (hw : c.e.win.wf) (h1 : 1 ≤ c.e.dist) (hd : c.e.dist ≤ whave c.e)
    {m : Nat} (hr : c.e.regs.nextOut.toNat + m ≤ 2 ^ 32) : Emitted c (sourceBytes c.e c.e.dist m) (copyByte^[m] c) := by
  induction m with
  | zero => exact .nil ho hw
  | succ m ih =>
    have hm := ih (by omega)
    have hdist : (copyByte^[m] c).e.dist = c.e.dist := (copied_iterate m c).dist
    rw [Function.iterate_succ_apply', sourceBytes_succ, ← hm.matchByte hdist h1 hd]
    exact hm.copyByte (by rwa [sourceBytes_length])

/-- How many bytes of a match are copied now. -/
def copyCount (c : InflCtx) : Nat := min c.e.length c.e.regs.availOut.toNat

/-- Stage `MATCH`: the copy, then the next symbol if it is finished (R497). -/
theorem matchRun_eq (c : InflCtx) : matchRun c = { copyByte^[copyCount c] c with
    e := { (copyByte^[copyCount c] c).e with
      stage := if copyCount c = c.e.length then .sym else (copyByte^[copyCount c] c).e.stage } } := by
  have hl := (copied_iterate (copyCount c) c).length
  have hle : copyCount c ≤ c.e.length := Nat.min_le_left _ _
  rw [matchRun, copyLoop_eq_iterate]
  show (if (copyByte^[copyCount c] c).e.length = 0 then _ else copyByte^[copyCount c] c) = _
  by_cases hn : copyCount c = c.e.length
  · rw [if_pos (by omega), if_pos hn]
    rfl
  · rw [if_neg (by omega), if_neg hn]

/-- The copy changes what the bytes change, the length left, and the stage where nothing is left. -/
theorem matchRun_frame {c : InflCtx} (hs : c.e.stage = .mat) : (matchRun c).e = { c.e with
    length := c.e.length - copyCount c, stage := if copyCount c = c.e.length then .sym else .mat
    regs := (matchRun c).e.regs, win := (matchRun c).e.win, produced := c.e.produced + copyCount c
    check := (matchRun c).e.check, isize := c.e.isize + BitVec.ofNat 32 (copyCount c) } := by
  have h : copied (copyCount c) c.e (copyByte^[copyCount c] c).e := copied_iterate _ c
  rw [matchRun_eq, ← hs]
  unfold copied at h
  conv_lhs => rw [h]

/-- A copy that stays within the space emits the bytes of the match. -/
theorem emitted_matchRun {c : InflCtx} (ho : c.bus.outMem.wf) (hw : c.e.win.wf) (h1 : 1 ≤ c.e.dist) (hd : c.e.dist ≤ whave c.e)
    (hr : c.e.regs.nextOut.toNat + copyCount c ≤ 2 ^ 32) : Emitted c (sourceBytes c.e c.e.dist (copyCount c)) (matchRun c) :=
  matchRun_eq c ▸ { emitted_iterate ho hw h1 hd hr with }

theorem afterDist_mat {e : Infl} (h : e.stage = .mat) (s : State) :
    afterDist { s with infl := e } = withInfl (matchRun ⟨e, s.bus⟩) s := if_pos h

/-! ## Distance symbols (R495, R496) -/

theorem distAct_eq {k : Nat} (hk : k < 30) (i : Infl) : distAct k i = .good { i with dsym := k, stage := .distext } :=
  if_neg (Nat.not_le.2 hk)

theorem distAct_reserved (hi : Bool) (i : Infl) : distAct (30 + hi.toNat) i = .bad .invalidDistanceCode i :=
  if_pos (Nat.le_add_right _ _)

/-- A distance symbol is a row of the distance table, and its extra value is taken within the row's width (R144). -/
theorem exec_of_distInstr {k x : Nat} {j : Instr} (h : distInstr k x = some j) (s : State) :
    k < 30 ∧ exec j s = distElement k (x % 2 ^ distXb.getD k 0) j s := by
  unfold distInstr at h
  split at h <;> cases h <;> exact ⟨by decide, congrArg (distElement _ · _ s) (by simp [distXb, Nat.mod_one])⟩

/-- The extra bits of a distance symbol, by its number (R144). -/
theorem distXb_eq {k : Nat} (hk : k < 30) : distXb.getD k 0 = (k - 2) / 2 := by
  interval_cases k <;> rfl

section
variable {k x : Nat} {i : Infl}

/-- A distance that reaches past what was produced, or past the window (R496). -/
theorem distanceAct_bad (hk : k < 30) (h : whave i < distBase.getD k 0 + x) :
    (distAct k i).andThen (distextAct x) = .bad .invalidDistance { i with dsym := k, stage := .distext } := by
  rw [distAct_eq hk]
  exact if_pos h

theorem distanceAct_good (hk : k < 30) (h : distBase.getD k 0 + x ≤ whave i) :
    (distAct k i).andThen (distextAct x) = .good { i with dsym := k, dist := distBase.getD k 0 + x, stage := .mat } := by
  rw [distAct_eq hk]
  exact if_neg (Nat.not_lt.2 h)

end

end Sys2Proof.Machine

open Sys2Proof Sys2Proof.Machine

/-- Settles O57: a distance symbol raises past `whave`, and else starts the copy, which is a run of emitted bytes. -/
theorem distanceSymbols : Obligations.DistanceSymbols := by
  refine ⟨fun k x j s hj h hc => ⟨fun hfar => ?_, fun hnear => ?_⟩, fun hi s h hc => ?_⟩
  · obtain ⟨hk, he⟩ := exec_of_distInstr hj s
    rw [distXb_eq hk] at he
    exact (he.trans (symbolElement_bad (t := .dt) h hc (distanceAct_bad hk hfar))).trans rfl
  · obtain ⟨hk, he⟩ := exec_of_distInstr hj s
    rw [distXb_eq hk] at he
    have hgo := he.trans (symbolElement_good (t := .dt) h hc (distanceAct_good hk hnear))
    rw [afterDist_mat rfl] at hgo
    let c : InflCtx :=
      ⟨{ s.infl with dsym := k, dist := distBase.getD k 0 + x % 2 ^ ((k - 2) / 2), stage := .mat }, s.bus⟩
    refine ⟨_, hgo, ?_, fun hw ho hr => ?_⟩
    · exact congrArg (fun e => { s with infl := e, bus := (matchRun c).bus }) (matchRun_frame (c := c) rfl)
    · have h1 : 1 ≤ c.e.dist := Nat.le_add_right_of_le (distBase_pos (Nat.le_of_lt_succ hk))
      have hem := emitted_matchRun (c := c) ho hw h1 hnear hr
      obtain ⟨hm, hcons, hprod⟩ := hem.moved (by rw [sourceBytes_length]; exact Nat.min_le_right _ _)
      have hout := hem.out
      have hoff := hem.outside
      have hwin := hem.win
      rw [sourceBytes_length] at hprod hout hoff hwin
      exact ⟨hm, hcons, hprod, hout, hoff, hem.inMem, hem.check, hwin⟩
  · exact symbolElement_bad (t := .dt) h hc (distAct_reserved hi _)

end

section
/-! PROOFS. Canonical codes (R340): the code of a symbol is the first code of its length and the number of symbols before it with
that length. So the codes are ordered by length and then by symbol, no code begins another, and under the Kraft bound each
fits its length (R330). -/

namespace Sys2Proof.Machine

/-! ## The code of a symbol -/

theorem getD_bump (i j : Nat) (l : List Nat) (h : i < l.length) : (bump i l).getD j 0 = l.getD j 0 + if i = j then 1 else 0 := by
  unfold bump
  split_ifs with hij
  · subst hij
    simp [List.getD_eq_getElem?_getD, h]
  · simp [List.getD_eq_getElem?_getD, List.getElem?_set_ne hij]

/-- The assignment loop numbers the symbols of one length from the next code of that length on. -/
theorem canonLoop_getD {next : List Nat} {lens : Lens} (hn : ∀ l ∈ lens, l < next.length) {j : Nat} (hj : 0 < lens.getD j 0) :
    (canonLoop next lens).getD j 0 = next.getD (lens.getD j 0) 0 + (lens.take j).count (lens.getD j 0) := by
  induction lens generalizing next j with
  | nil => exact absurd hj (by simp)
  | cons l ls ih =>
    obtain ⟨hl, hls⟩ := List.forall_mem_cons.1 hn
    rw [canonLoop]
    cases j with
    | zero =>
      rw [List.getD_cons_zero] at hj
      rw [if_neg (Nat.ne_of_gt hj)]
      simp
    | succ j =>
      rw [List.getD_cons_succ] at hj ⊢
      rw [List.take_succ_cons, List.count_cons]
      split_ifs with h0 heq heq
      · exact absurd (beq_iff_eq.1 heq) (by omega)
      · exact ih hls hj
      · rw [List.getD_cons_succ, ih (by simpa using hls) hj, getD_bump _ _ _ hl, if_pos (beq_iff_eq.1 heq)]
        omega
      · rw [List.getD_cons_succ, ih (by simpa using hls) hj, getD_bump _ _ _ hl, if_neg (fun h => heq (beq_iff_eq.2 h))]
        omega

theorem canonLoop_length (next : List Nat) (lens : Lens) : (canonLoop next lens).length = lens.length := by
  induction lens generalizing next with
  | nil => rfl
  | cons l ls ih =>
    rw [canonLoop]
    split_ifs <;> simp [ih]

@[simp] theorem hbCanon_length (lens : Lens) (max : Nat) : (hbCanon lens max).length = lens.length := canonLoop_length _ _

section
variable {lens : Lens} {max : Nat}

/-- How many symbols of the same length stand before a symbol. -/
def codeRank (lens : Lens) (j : Nat) : Nat := (lens.take j).count (lens.getD j 0)

theorem hbCanon_getD (hl : ∀ l ∈ lens, l ≤ max) {j : Nat} (hj : 0 < lens.getD j 0) :
    (hbCanon lens max).getD j 0 = firstCode lens (lens.getD j 0) + codeRank lens j := by
  have hle : lens.getD j 0 ≤ max := getD_le hl j
  have hf : (firstCodes lens max).getD (lens.getD j 0) 0 = firstCode lens (lens.getD j 0) := by
    rw [firstCodes, List.getD_eq_getElem?_getD, List.getElem?_map, List.getElem?_range (Nat.lt_succ_of_le hle)]
    rfl
  rw [hbCanon, canonLoop_getD (fun l h => by simpa [firstCodes] using Nat.lt_succ_of_le (hl l h)) hj, hf, codeRank]

theorem getD_pos_lt {j : Nat} (hj : 0 < lens.getD j 0) : j < lens.length := by
  by_contra h
  rw [List.getD_eq_default _ _ (Nat.not_lt.1 h)] at hj
  exact Nat.lt_irrefl 0 hj

/-- Among the symbols of one length, the rank rises with the symbol. -/
theorem codeRank_lt {i j : Nat} (hi : 0 < lens.getD i 0) (he : lens.getD i 0 = lens.getD j 0) (hij : i < j) :
    codeRank lens i < codeRank lens j := by
  have hs : lens.take (i + 1) = lens.take i ++ [lens.getD i 0] := by
    have hlt := getD_pos_lt hi
    rw [List.take_succ_eq_append_getElem hlt, List.getD_eq_getElem _ _ hlt]
  have hsub : (lens.take (i + 1)).count (lens.getD i 0) ≤ (lens.take j).count (lens.getD i 0) :=
    (List.take_sublist_take_left hij).count_le _
  rw [hs, List.count_append, List.count_singleton_self] at hsub
  rw [codeRank, codeRank, ← he]
  omega

/-- The rank of a symbol is below the number of symbols of its length. -/
theorem codeRank_lt_blCount {j : Nat} (hj : 0 < lens.getD j 0) : codeRank lens j < blCount lens (lens.getD j 0) := by
  have hlt := getD_pos_lt hj
  have hsub : (lens.take (j + 1)).count (lens.getD j 0) ≤ lens.count (lens.getD j 0) := (List.take_sublist _ _).count_le _
  rw [List.take_succ_eq_append_getElem hlt, ← List.getD_eq_getElem _ 0 hlt, List.count_append, List.count_singleton_self] at hsub
  rw [codeRank, blCount, if_neg (Nat.ne_of_gt hj)]
  omega

/-! ## Longer codes stand behind the shorter ones -/

/-- The codes of length `b + d` start behind all those of length `b`, extended. -/
theorem firstCode_add (lens : Lens) (b d : Nat) :
    (firstCode lens b + blCount lens b) * 2 ^ (d + 1) ≤ firstCode lens (b + (d + 1)) := by
  induction d with
  | zero => exact Nat.le_refl _
  | succ d ih =>
    have hstep : firstCode lens (b + (d + 1)) * 2 ≤ firstCode lens (b + (d + 1 + 1)) :=
      Nat.mul_le_mul_right 2 (Nat.le_add_right _ _)
    calc (firstCode lens b + blCount lens b) * 2 ^ (d + 1 + 1) = (firstCode lens b + blCount lens b) * 2 ^ (d + 1) * 2 := by ring
      _ ≤ firstCode lens (b + (d + 1)) * 2 := Nat.mul_le_mul_right 2 ih
      _ ≤ firstCode lens (b + (d + 1 + 1)) := hstep

/-- The codes rise with the length and then with the symbol, each compared with the front of the other (R340). -/
theorem hbCanon_lt (hl : ∀ l ∈ lens, l ≤ max) {i j : Nat} (hi : 0 < lens.getD i 0)
    (h : lens.getD i 0 < lens.getD j 0 ∨ (lens.getD i 0 = lens.getD j 0 ∧ i < j)) :
    (hbCanon lens max).getD i 0 < (hbCanon lens max).getD j 0 / 2 ^ (lens.getD j 0 - lens.getD i 0) := by
  rcases h with hlt | ⟨he, hij⟩
  · rw [hbCanon_getD hl hi, hbCanon_getD hl (hi.trans hlt)]
    obtain ⟨d, hd⟩ := Nat.exists_eq_add_of_lt hlt
    have hrank := codeRank_lt_blCount hi
    have hfirst := firstCode_add lens (lens.getD i 0) d
    rw [show lens.getD i 0 + (d + 1) = lens.getD j 0 by omega] at hfirst
    rw [show lens.getD j 0 - lens.getD i 0 = d + 1 by omega]
    refine (Nat.le_div_iff_mul_le (Nat.two_pow_pos _)).2 ?_
    calc (firstCode lens (lens.getD i 0) + codeRank lens i + 1) * 2 ^ (d + 1)
        ≤ (firstCode lens (lens.getD i 0) + blCount lens (lens.getD i 0)) * 2 ^ (d + 1) := Nat.mul_le_mul_right _ (by omega)
      _ ≤ firstCode lens (lens.getD j 0) + codeRank lens j := hfirst.trans (Nat.le_add_right _ _)
  · rw [← he, Nat.sub_self, Nat.pow_zero, Nat.div_one, hbCanon_getD hl hi, hbCanon_getD hl (he ▸ hi), ← he]
    exact Nat.add_lt_add_left (codeRank_lt hi he hij) _

/-- No code begins another (R356). -/
theorem hbCanon_prefix_ne (hl : ∀ l ∈ lens, l ≤ max) {i j : Nat} (hi : 0 < lens.getD i 0) (hle : lens.getD i 0 ≤ lens.getD j 0)
    (hne : i ≠ j) : (hbCanon lens max).getD j 0 / 2 ^ (lens.getD j 0 - lens.getD i 0) ≠ (hbCanon lens max).getD i 0 := by
  rcases Nat.lt_or_eq_of_le hle with hlt | he
  · exact Nat.ne_of_gt (hbCanon_lt hl hi (.inl hlt))
  · rcases Nat.lt_or_gt_of_ne hne with hij | hij
    · exact Nat.ne_of_gt (hbCanon_lt hl hi (.inr ⟨he, hij⟩))
    · have h := hbCanon_lt hl (he ▸ hi) (.inr ⟨he.symm, hij⟩)
      rw [he, Nat.sub_self, Nat.pow_zero, Nat.div_one] at h ⊢
      exact Nat.ne_of_lt h

/-! ## The Kraft bound makes every code fit (R330) -/

/-- The part of the Kraft sum that the codes of length up to `b` have. -/
def kraftUpTo (max b : Nat) (lens : Lens) : Nat := (lens.map fun l => if l = 0 ∨ b < l then 0 else 2 ^ (max - l)).sum

theorem kraftUpTo_le (max b : Nat) (lens : Lens) : kraftUpTo max b lens ≤ kraft max lens := by
  apply List.sum_le_sum
  intro l _
  by_cases h : l = 0 ∨ b < l
  · rw [if_pos h]
    exact Nat.zero_le _
  · rw [if_neg h, if_neg fun h0 => h (.inl h0)]

theorem kraftUpTo_succ (max b : Nat) (lens : Lens) :
    kraftUpTo max (b + 1) lens = kraftUpTo max b lens + blCount lens (b + 1) * 2 ^ (max - (b + 1)) := by
  simp only [blCount, Nat.succ_ne_zero, if_false]
  induction lens with
  | nil => simp [kraftUpTo]
  | cons l ls ih =>
    simp only [kraftUpTo, List.map_cons, List.sum_cons, List.count_cons] at ih ⊢
    rw [ih]
    by_cases hl : l = b + 1
    · rw [if_neg (show ¬(l = 0 ∨ b + 1 < l) by omega), if_pos (show l = 0 ∨ b < l by omega), if_pos (beq_iff_eq.2 hl), hl]
      ring
    · rw [if_neg (fun h => hl (beq_iff_eq.1 h)), Nat.add_zero, Nat.add_assoc]
      congr 1
      exact if_congr (by omega) rfl rfl

theorem kraftUpTo_eq (lens : Lens) {b : Nat} (hb : b ≤ max) :
    kraftUpTo max b lens = (firstCode lens b + blCount lens b) * 2 ^ (max - b) := by
  induction b with
  | zero =>
    rw [firstCode, blCount, if_pos rfl, Nat.zero_mul]
    exact List.sum_eq_zero fun x hx => by
      obtain ⟨l, -, rfl⟩ := List.mem_map.1 hx
      exact if_pos (by omega)
  | succ b ih =>
    rw [kraftUpTo_succ, ih (Nat.le_of_succ_le hb), firstCode, show max - b = max - (b + 1) + 1 by omega]
    ring

theorem hbCanon_fits (hl : ∀ l ∈ lens, l ≤ max) (hk : kraft max lens ≤ 2 ^ max) {j : Nat} (hj : 0 < lens.getD j 0) :
    (hbCanon lens max).getD j 0 < 2 ^ lens.getD j 0 := by
  have hle : lens.getD j 0 ≤ max := getD_le hl j
  have hsum : (firstCode lens (lens.getD j 0) + blCount lens (lens.getD j 0)) * 2 ^ (max - lens.getD j 0) ≤
      2 ^ lens.getD j 0 * 2 ^ (max - lens.getD j 0) := by
    rw [← kraftUpTo_eq lens hle, ← Nat.pow_add, Nat.add_sub_cancel' hle]
    exact (kraftUpTo_le max _ lens).trans hk
  have hrank := codeRank_lt_blCount hj
  have hfit := Nat.le_of_mul_le_mul_right hsum (Nat.two_pow_pos _)
  rw [hbCanon_getD hl hj]
  omega

end

end Sys2Proof.Machine
end

section
/-! PROOFS. Decoding a symbol (R447): with the bits of a canonical code in hand (R91) the lengths below its own find nothing,
because no code begins another, and its own length finds it. -/

namespace Sys2Proof.Machine

/-! ## Numbers and their bits (R90, R91) -/

theorem bitsNum_append (xs ys : List Bool) : bitsNum (xs ++ ys) = bitsNum xs + 2 ^ xs.length * bitsNum ys := by
  induction xs with
  | nil => simp [bitsNum]
  | cons b xs ih =>
    simp only [List.cons_append, bitsNum, ih, List.length_cons, Nat.pow_succ']
    ring

theorem bitsNum_lt (xs : List Bool) : bitsNum xs < 2 ^ xs.length := by
  induction xs with
  | nil => exact Nat.one_pos
  | cons b xs ih =>
    have hb := Bool.toNat_le b
    simp only [bitsNum, List.length_cons, Nat.pow_succ']
    omega

theorem bitsOf_succ (n v : Nat) : bitsOf (n + 1) v = v.testBit 0 :: bitsOf n (v / 2) := by
  rw [Nat.add_comm, bitsOf_append, Nat.pow_one]
  rfl

theorem bitsNum_bitsOf (n v : Nat) : bitsNum (bitsOf n v) = v % 2 ^ n := by
  induction n generalizing v with
  | zero => rw [bitsOf_zero, bitsNum, Nat.pow_zero, Nat.mod_one]
  | succ n ih =>
    rw [bitsOf_succ, bitsNum, ih, Nat.testBit_zero, Nat.pow_succ', Nat.mod_mul]
    congr 1
    rcases Nat.mod_two_eq_zero_or_one v with h | h <;> simp [h]

theorem bitsNum_bit (xs : List Bool) (n : Nat) : bitsNum xs / 2 ^ n % 2 = (xs.getD n false).toNat := by
  induction xs generalizing n with
  | nil => simp [bitsNum]
  | cons b xs ih =>
    have hb := Bool.toNat_le b
    cases n with
    | zero =>
      simp only [bitsNum, List.getD_cons_zero, Nat.pow_zero, Nat.div_one]
      omega
    | succ n =>
      rw [List.getD_cons_succ, ← ih, Nat.pow_succ', ← Nat.div_div_eq_div_mul, bitsNum, show (b.toNat + 2 * bitsNum xs) / 2 = bitsNum xs by omega]

@[simp] theorem codeBits_length (lens : Lens) (max k : Nat) : (codeBits lens max k).length = lens.getD k 0 := by
  simp [codeBits]

/-- A code stands with its highest bit first. -/
theorem codeBits_bit {lens : Lens} {max k n : Nat} (h : n < lens.getD k 0) (rest : List Bool) :
    bitsNum (codeBits lens max k ++ rest) / 2 ^ n % 2 =
      (hbCanon lens max).getD k 0 / 2 ^ (lens.getD k 0 - (n + 1)) % 2 := by
  have hr : lens.getD k 0 - 1 - n = lens.getD k 0 - (n + 1) := by omega
  rw [bitsNum_bit, List.getD_append _ _ _ _ (by simpa using h), codeBits, List.getD_eq_getElem?_getD,
    List.getElem?_reverse (by simpa using h), bitsOf_length, hr]
  have hlt : lens.getD k 0 - (n + 1) < lens.getD k 0 := by omega
  rw [bitsOf, List.getElem?_map, List.getElem?_range hlt, Option.map_some, Option.getD_some, Nat.testBit_eq_decide_div_mod_eq]
  generalize (hbCanon lens max).getD k 0 / 2 ^ (lens.getD k 0 - (n + 1)) = v
  rcases Nat.mod_two_eq_zero_or_one v with h2 | h2 <;> simp [h2]

/-! ## Looking a code up (R441) -/

section
variable {lens : Lens} {codes : List Nat} {n c : Nat}

theorem lookupFrom_none (hlen : codes.length = lens.length)
    (h : ∀ i, i < lens.length → lens.getD i 0 = n → codes.getD i 0 ≠ c) (s : Nat) : lookupFrom s n c lens codes = none := by
  induction lens generalizing codes s with
  | nil => rfl
  | cons l ls ih =>
    obtain ⟨k, ks, rfl⟩ : ∃ k ks, codes = k :: ks := List.exists_cons_of_length_eq_add_one hlen
    have h0 : ¬(l = n ∧ k = c) := fun ⟨hl, hk⟩ => h 0 (Nat.succ_pos _) hl hk
    rw [lookupFrom, if_neg h0]
    exact ih (Nat.succ.inj hlen) (fun i hi => h (i + 1) (Nat.succ_lt_succ hi)) (s + 1)

theorem lookupFrom_first (hlen : codes.length = lens.length) {k : Nat} (hk : k < lens.length)
    (hn : lens.getD k 0 = n) (hc : codes.getD k 0 = c)
    (h : ∀ i, i < k → lens.getD i 0 = n → codes.getD i 0 ≠ c) (s : Nat) : lookupFrom s n c lens codes = some (s + k) := by
  induction lens generalizing codes s k with
  | nil => exact absurd hk (Nat.not_lt_zero k)
  | cons l ls ih =>
    obtain ⟨k0, ks, rfl⟩ : ∃ k ks, codes = k :: ks := List.exists_cons_of_length_eq_add_one hlen
    rw [lookupFrom]
    cases k with
    | zero => rw [if_pos ⟨hn, hc⟩, Nat.add_zero]
    | succ k =>
      have h0 : ¬(l = n ∧ k0 = c) := fun ⟨hl, hk⟩ => h 0 (Nat.succ_pos _) hl hk
      rw [if_neg h0, ih (Nat.succ.inj hlen) (Nat.lt_of_succ_lt_succ hk) hn hc (fun i hi => h (i + 1) (Nat.succ_lt_succ hi)),
        Nat.add_assoc, Nat.add_comm 1 k]

/-! ## The scan (R447) -/

/-- The scan finds a code of `m` bits when no shorter part of it is a code. -/
theorem scanCodes_finds {hold cnt m code k : Nat} (hcnt : m ≤ cnt)
    (hbits : ∀ n, n < m → hold / 2 ^ n % 2 = code / 2 ^ (m - (n + 1)) % 2)
    (hnone : ∀ n, 0 < n → n < m → lookupFrom 0 n (code / 2 ^ (m - n)) lens codes = none)
    (hsome : lookupFrom 0 m code lens codes = some k) {left n : Nat} (hn : n < m) (hleft : m ≤ n + left) :
    scanCodes lens codes hold cnt left (n + 1) (code / 2 ^ (m - n)) = .found k m := by
  induction left generalizing n with
  | zero => omega
  | succ left ih =>
    have hnext : 2 * (code / 2 ^ (m - n)) + hold / 2 ^ n % 2 = code / 2 ^ (m - (n + 1)) := by
      rw [hbits n hn, show m - n = m - (n + 1) + 1 by omega, Nat.pow_succ, ← Nat.div_div_eq_div_mul]
      exact Nat.div_add_mod _ 2
    rw [scanCodes, if_neg (by omega), Nat.add_sub_cancel, hnext]
    rcases Nat.lt_or_eq_of_le hn with hlt | rfl
    · rw [hnone (n + 1) (Nat.succ_pos n) hlt]
      exact ih hlt (by omega)
    · rw [Nat.sub_self, Nat.pow_zero, Nat.div_one, hsome]

end

theorem le_maxLen {lens : Lens} {l : Nat} (h : l ∈ lens) : l ≤ maxLen lens := by
  rw [maxLen, List.foldl_eq_foldr]
  exact List.le_max_of_le' 0 h le_rfl

section
variable {lens : Lens} {max k : Nat} (hl : ∀ l ∈ lens, l ≤ max) (hk : kraft max lens ≤ 2 ^ max) (hpos : 0 < lens.getD k 0)
include hl hk hpos

/-- With the code of a symbol in front, one pass over the bits finds the symbol. -/
theorem scan_code {cnt : Nat} (hcnt : lens.getD k 0 ≤ cnt) (rest : List Bool) :
    scan lens max (bitsNum (codeBits lens max k ++ rest)) cnt = .found k (lens.getD k 0) := by
  have hlt := getD_pos_lt hpos
  have hlen := hbCanon_length lens max
  have hmax : lens.getD k 0 ≤ maxLen lens := by
    rw [List.getD_eq_getElem _ _ hlt]
    exact le_maxLen (List.getElem_mem hlt)
  have hfit := hbCanon_fits hl hk hpos
  have hnone : ∀ n, 0 < n → n < lens.getD k 0 →
      lookupFrom 0 n ((hbCanon lens max).getD k 0 / 2 ^ (lens.getD k 0 - n)) lens (hbCanon lens max) = none := by
    intro n hn hnk
    refine lookupFrom_none hlen (fun i _ hi hc => ?_) 0
    subst hi
    exact hbCanon_prefix_ne hl hn (Nat.le_of_lt hnk) (by rintro rfl; exact Nat.lt_irrefl _ hnk) hc.symm
  have hsome : lookupFrom 0 (lens.getD k 0) ((hbCanon lens max).getD k 0) lens (hbCanon lens max) = some k := by
    refine (lookupFrom_first hlen hlt rfl rfl (fun i hik hi hc => ?_) 0).trans (by rw [Nat.zero_add])
    have hne := hbCanon_prefix_ne hl (hi.symm ▸ hpos) (Nat.le_of_eq hi) (Nat.ne_of_lt hik)
    rw [hi, Nat.sub_self, Nat.pow_zero, Nat.div_one] at hne
    exact hne hc.symm
  have h := scanCodes_finds (codes := hbCanon lens max) hcnt (fun n hn => codeBits_bit hn rest) hnone hsome (left := maxLen lens) hpos (by omega)
  rwa [Nat.sub_zero, Nat.div_eq_of_lt hfit] at h

/-- So `HD.DECODE` yields the symbol and fetches nothing. -/
theorem hdDecode_code {c : InflCtx} {rest : List Bool} (hh : c.e.hold = bitsNum (codeBits lens max k ++ rest))
    (hcnt : lens.getD k 0 ≤ c.e.cnt) : hdDecode lens max c = (.found k (lens.getD k 0), c) := by
  have hs := scan_code hl hk hpos hcnt rest
  rw [← hh] at hs
  unfold hdDecode
  cases hm : maxLen lens with
  | zero => rw [hdDecodeLoop, hs]
  | succ m => simp only [hdDecodeLoop, hs]

end

end Sys2Proof.Machine
end

section
/-! PROOFS. The fixed-field elements as micro-steps (R149, R463): the action of a stage does not look at the reader, so that what
it does with an empty one it does with the element's bits in hand. -/

namespace Sys2Proof.Machine

/-! ## The reader, apart from the rest of the engine (R213 to R216) -/

/-- The engine with `n` bits of the value `v` in hand. -/
def inHand (v n : Nat) (i : Infl) : Infl := { i with hold := v, cnt := n }

theorem holding_eq (bits : List Bool) (i : Infl) : holding bits i = inHand (bitsNum bits) bits.length i := rfl

theorem inHand_empty {i : Infl} (hh : i.hold = 0) (hc : i.cnt = 0) : inHand 0 0 i = i := by
  calc inHand 0 0 i = inHand i.hold i.cnt i := by rw [hh, hc]
    _ = i := rfl

@[simp] theorem inHand_stage (v n : Nat) (i : Infl) : (inHand v n i).stage = i.stage := rfl
@[simp] theorem inHand_cnt (v n : Nat) (i : Infl) : (inHand v n i).cnt = n := rfl
@[simp] theorem inHand_xlen (v n : Nat) (i : Infl) : (inHand v n i).xlen = i.xlen := rfl
@[simp] theorem gzFlag_inHand (k v n : Nat) (i : Infl) : gzFlag k (inHand v n i) = gzFlag k i := rfl

theorem brDrop_inHand (k v n : Nat) (i : Infl) : brDrop k (inHand v n i) = inHand (v / 2 ^ k) (n - k) i := rfl

theorem brNeed_enough {n : Nat} {c : InflCtx} (h : n ≤ c.e.cnt) : brNeed n c = (true, c) := by
  cases n with
  | zero => rfl
  | succ n => exact if_pos h

/-- With enough bits in hand nothing is fetched. -/
theorem needing_enough {n : Nat} {c : InflCtx} (h : n ≤ c.e.cnt) (g : InflCtx → Micro) : needing n c g = g c := by
  rw [needing, brNeed_enough h, if_pos rfl]

/-! ## Actions and the reader -/

/-- The engine of an outcome changed by `g`. -/
def Act.map (g : Infl → Infl) : Act → Act
  | .good i => .good (g i)
  | .bad e i => .bad e (g i)

/-- An action that neither looks at the reader nor changes it. -/
def Blind (act : Infl → Act) : Prop := ∀ v n i, act (inHand v n i) = (act i).map (inHand v n)

/-- The action of the stage that reads a format of fixed fields, on the number it peeks (R470 to R500). -/
def fmtAct (fmt : Fmt) (v : Nat) : Infl → Act :=
  match fmt with
  | .blkhdr => blkhdrAct (decide (v % 2 = 1)) (v / 2 % 4)
  | .stolen => stolenAct (BitVec.ofNat 16 v) (BitVec.ofNat 16 (v / 65536))
  | .dynhdr => dynhdrAct (BitVec.ofNat 5 v) (BitVec.ofNat 5 (v / 32)) (BitVec.ofNat 4 (v / 1024))
  | .cllen => cllenAct (BitVec.ofNat 3 v)
  | .zhdr => zhdrAct (BitVec.ofNat 8 v) (BitVec.ofNat 8 (v / 256))
  | .dictid => dictAct (beWord v)
  | .ztrl => ztrlAct (beWord v)
  | .gzId => gzMagicAct (BitVec.ofNat 8 v) (BitVec.ofNat 8 (v / 256))
  | .gzCmflg => gzCmflgAct (BitVec.ofNat 8 v) (BitVec.ofNat 8 (v / 256))
  | .gzMtime => gzMtimeAct (BitVec.ofNat 32 v)
  | .gzXflos => gzXflosAct (BitVec.ofNat 8 v) (BitVec.ofNat 8 (v / 256))
  | .gzXlen => gzXlenAct (BitVec.ofNat 16 v)
  | .gzExtra => gzExtraAct (BitVec.ofNat 8 v)
  | .gzName => gzNameAct (BitVec.ofNat 8 v)
  | .gzComment => gzCommentAct (BitVec.ofNat 8 v)
  | .gzHcrc => gzHcrcAct (BitVec.ofNat 16 v)
  | .gzCrc => gzCrcAct (BitVec.ofNat 32 v)
  | .gzIsize => gzIsizeAct (BitVec.ofNat 32 v)
  | .raw | .clsym | .llsym | .dsym | .pseudo => .good

/-- Whether the work loop stops after an element of the format (R499, R500). -/
def fmtHalts (fmt : Fmt) : Bool := fmt == .ztrl || fmt == .gzIsize

theorem blind_fmtAct (fmt : Fmt) (v : Nat) : Blind (fmtAct fmt v) := by
  intro w n i
  cases fmt <;> simp only [fmtAct]
  case blkhdr => simp only [blkhdrAct, inHand]; split <;> rfl
  case stolen => simp only [stolenAct, inHand]; split <;> rfl
  case dynhdr => simp only [dynhdrAct, inHand]; split <;> rfl
  case zhdr => simp only [zhdrAct, inHand]; split <;> rfl
  case ztrl => rw [ztrlAct, ztrlAct, apply_ite (Act.map _)]; rfl
  case gzId => simp only [gzMagicAct, inHand]; split <;> rfl
  case gzCmflg => simp only [gzCmflgAct, inHand]; split <;> rfl
  case gzName => simp only [gzNameAct, inHand]; split <;> rfl
  case gzComment => simp only [gzCommentAct, inHand]; split <;> rfl
  case gzHcrc => rw [gzHcrcAct, gzHcrcAct, apply_ite (Act.map _)]; rfl
  case gzCrc => rw [gzCrcAct, gzCrcAct, apply_ite (Act.map _)]; rfl
  case gzIsize => rw [gzIsizeAct, gzIsizeAct, apply_ite (Act.map _)]; rfl
  all_goals rfl

/-! ## A micro-step with exactly its bits in hand -/

section
variable {act : Infl → Act} {s : State} {n v : Nat} {halts : Bool}

theorem brPeek_inHand (hv : v < 2 ^ n) (i : Infl) : brPeek n (inHand v n i) = v := Nat.mod_eq_of_lt hv

/-- A micro-step that reads one field, with just that field in hand. -/
theorem reading_inHand (hv : v < 2 ^ n) {i : Infl} {b : Bus} (act : Nat → Infl → Act) :
    reading n ⟨inHand v n i, b⟩ act = finish n false ⟨inHand v n i, b⟩ (act v (inHand v n i)) := by
  rw [reading, needing_enough (c := ⟨inHand v n i, b⟩) (Nat.le_refl n), brPeek_inHand hv]

/-- The micro-step `m` leaves the engine the element's outcome leaves, or raises the error that outcome is (R149). -/
def Agrees (s : State) (m : Micro) (r : Result) : Prop :=
  (∃ e, (m = .complete ⟨e, s.bus⟩ ∨ m = .stop ⟨e, s.bus⟩) ∧ r = .next { s with infl := e }) ∨
    ∃ x e, m = .raised x ⟨e, s.bus⟩ ∧ r = .next { s with infl := inflRaise x { e with hold := 0, cnt := 0 } }

/-- An action that does not look at the reader leaves the same engine with its bits in hand, which are then dropped, and with
none (R463). -/
theorem Agrees.finish (ha : Blind act) (hh : s.infl.hold = 0) (hc : s.infl.cnt = 0) (hv : v < 2 ^ n) :
    Agrees s (Machine.finish n halts ⟨inHand v n s.infl, s.bus⟩ (act (inHand v n s.infl))) (.next (endAct s (act s.infl))) := by
  have h0 : act s.infl = (act s.infl).map (inHand 0 0) := by
    conv_lhs => rw [← inHand_empty hh hc, ha]
  rw [ha v n]
  cases he : act s.infl with
  | good e =>
    rw [he] at h0
    have hd : brDrop n (inHand v n e) = e := by
      rw [brDrop_inHand, Nat.div_eq_of_lt hv, Nat.sub_self]
      exact (Act.good.inj h0).symm
    refine .inl ⟨e, ?_, rfl⟩
    cases halts
    · exact .inl (congrArg (fun e => Micro.complete ⟨e, s.bus⟩) hd)
    · exact .inr (congrArg (fun e => Micro.stop ⟨e, s.bus⟩) hd)
  | bad x e =>
    rw [he] at h0
    refine .inr ⟨x, inHand v n e, rfl, ?_⟩
    have hx : e = inHand 0 0 e := (Act.bad.inj h0).2
    exact congrArg (fun e => Host.Outcome.next { s with infl := inflRaise x e }) hx

end

/-! ## The element and the number its bytes spell -/

theorem leNat_lt_bits {bs : List Byte} {n : Nat} (h : 8 * bs.length = n) : leNat bs < 2 ^ n := by
  rw [← h, Nat.pow_mul]
  exact leNat_lt bs

/-- The bytes of an element spell a number of as many bits as its format has. -/
theorem leNat_encode_lt {i : Instr} {fmt : Fmt} {n : Nat} (h : i.port = .element fmt) (hn : fmtBits fmt = some n) :
    leNat (encode i) < 2 ^ n := by
  cases i <;> cases h <;> cases hn
  case blkhdrStored final => cases final <;> decide
  case blkhdrFixed final => cases final <;> decide
  case blkhdrDynamic final => cases final <;> decide
  case blkhdrReserved final => cases final <;> decide
  case cllen len => exact (Nat.mod_le _ _).trans_lt len.isLt
  case dynhdr hlit hdist hclen =>
    have h1 := hlit.isLt
    have h2 := hdist.isLt
    have h3 := hclen.isLt
    rw [encode, leNat_leBytes]
    omega
  all_goals exact leNat_lt_bits rfl

theorem byteOf_zero (v : Nat) : byteOf 0 v = BitVec.ofNat 8 v := by rw [byteOf, Nat.pow_zero, Nat.div_one]
theorem byteOf_one (v : Nat) : byteOf 1 v = BitVec.ofNat 8 (v / 256) := rfl

theorem leBytes_leNat {n : Nat} {bs : List Byte} (h : n ≤ bs.length) : leBytes n (leNat bs) = bs.take n := by
  induction n generalizing bs with
  | zero => rfl
  | succ n ih =>
    obtain ⟨b, bs, rfl⟩ : ∃ b bs', bs = b :: bs' := List.exists_cons_of_length_pos (Nat.lt_of_lt_of_le (Nat.succ_pos n) h)
    rw [leBytes, ofNat_leNat_cons, leNat_cons_div, ih (Nat.le_of_succ_le_succ h), List.take_succ_cons]

theorem brDrop_zero (i : Infl) : brDrop 0 i = i := by
  rw [brDrop, Nat.pow_zero, Nat.div_one, Nat.sub_zero]

theorem exec_blkhdrInstr (final : Bool) {t : Nat} (ht : t < 4) (s : State) :
    exec (blkhdrInstr final t) s = element .blkhdr (blkhdrInstr final t) s (blkhdrAct final t) := by
  interval_cases t <;> rfl

theorem ofNat_mod (n v : Nat) : BitVec.ofNat n (v % 2 ^ n) = BitVec.ofNat n v := BitVec.eq_of_toNat_eq (by simp)

theorem blockTypeMicro_header {c : InflCtx} (h : c.e.last = false) :
    blockTypeMicro .none c = needing 3 c fun c1 =>
      finish 3 false c1 (blkhdrAct (decide (brPeek 1 c1.e = 1)) (brPeek2 1 2 c1.e) c1.e) := by
  have hf : ∀ b : Bool, (b && Flush.none == Flush.trees) = false := by decide
  rw [blockTypeMicro, if_neg (by simp), if_neg (by simp [h])]
  simp only [hf]

theorem trailerMicro_zlib {c : InflCtx} (h : c.e.wrap = .zlib) :
    trailerMicro c = needing 32 c fun c1 => finish 32 true c1 (ztrlAct (beWord (brPeek 32 c1.e)) c1.e) := by
  rw [trailerMicro, h]

theorem trailerMicro_gzip {c : InflCtx} (h : c.e.wrap = .gzip) :
    trailerMicro c = reading 32 c fun v i => gzCrcAct (BitVec.ofNat 32 v) i := by
  rw [trailerMicro, h]

section
variable {i : Instr} {fmt : Fmt} {n : Nat} {s : State} {bs : List Byte}

/-- An element of fixed fields does its stage's action on the number its bytes spell. -/
theorem exec_of_elementOf (he : elementOf fmt bs = some i) (hn : fmtBits fmt = some n) (hl : fmtBytes fmt ≤ bs.length)
    (hr : elementReady fmt s.infl = true) (hc : s.infl.cnt = 0) :
    exec i s = .next (endAct s (fmtAct fmt (leNat bs) s.infl)) := by
  have hw : 4 ≤ bs.length → BitVec.ofNat 32 (leNat (bs.take 4).reverse) = beWord (leNat bs) := fun h4 => by
    rw [beWord, leBytes_leNat h4]
  cases fmt <;> cases hn <;> cases he
  case blkhdr =>
    have hb : (field 0 1 (leNat bs) == 1) = decide (leNat bs % 2 = 1) := by simp [field, beq_eq_decide]
    have ht : field 1 2 (leNat bs) = leNat bs / 2 % 4 := rfl
    rw [hb, ht, exec_blkhdrInstr _ (Nat.mod_lt _ (by decide)), element_ready hr]
    rfl
  case stolen =>
    have ha : brAlign s.infl = s.infl := by rw [brAlign, hc]; exact brDrop_zero _
    refine (element_ready (act := fun j => stolenAct _ _ (brAlign j)) hr).trans ?_
    rw [ha]
    rfl
  case dictid =>
    rw [hw hl]
    exact element_ready hr
  case ztrl =>
    rw [hw hl]
    exact element_ready hr
  all_goals exact element_ready hr

/-- The micro-step of a stage that reads a format of fixed fields, with just the bits of one in hand. -/
theorem inflMicro_fixed {v : Nat} (p : Params) (hn : fmtBits fmt = some n) (hd : fmt ≠ .dictid) (hr : elementReady fmt s.infl = true)
    (hv : v < 2 ^ n) : inflMicro p .none ⟨inHand v n s.infl, s.bus⟩ =
      finish n (fmtHalts fmt) ⟨inHand v n s.infl, s.bus⟩ (fmtAct fmt v (inHand v n s.infl)) := by
  obtain ⟨-, -, hr⟩ := elementReady_iff.1 hr
  cases fmt <;> cases hn <;> simp only [readsFmt, Bool.and_eq_true, beq_iff_eq, decide_eq_true_eq, Bool.not_eq_true'] at hr
  case dictid => exact absurd rfl hd
  all_goals simp only [inflMicro, inHand_stage, inHand_xlen, gzFlag_inHand, hr, if_true]
  case blkhdr =>
    have hb : brPeek2 1 2 (inHand v 3 s.infl) = v / 2 % 4 := rfl
    have hf : brPeek 1 (inHand v 3 s.infl) = v % 2 := rfl
    refine (blockTypeMicro_header hr.2).trans ((needing_enough (Nat.le_refl 3) _).trans ?_)
    rw [hb, hf]
    rfl
  case stolen =>
    have ha : brAlign (inHand v 32 s.infl) = inHand v 32 s.infl := by rw [brAlign, inHand_cnt]; exact brDrop_zero _
    rw [storedLenMicro, ha]
    refine (needing_enough (Nat.le_refl 32) _).trans ?_
    rw [brPeek, brPeek2, ofNat_mod, ofNat_mod]
    rfl
  case dynhdr =>
    refine (needing_enough (Nat.le_refl 14) _).trans ?_
    rw [brPeek, brPeek2, brPeek2, ofNat_mod, ofNat_mod, ofNat_mod]
    rfl
  case cllen =>
    exact (if_pos hr.2).trans (reading_inHand hv _)
  case ztrl =>
    refine (trailerMicro_zlib hr.2).trans ((needing_enough (Nat.le_refl 32) _).trans ?_)
    rw [brPeek_inHand hv]
    rfl
  case gzCrc =>
    exact (trailerMicro_gzip hr.2).trans (reading_inHand hv _)
  case gzIsize =>
    refine (needing_enough (Nat.le_refl 32) _).trans ?_
    rw [brPeek_inHand hv]
    rfl
  case gzExtra =>
    refine (if_neg (Nat.ne_of_gt hr.2)).trans ((reading_inHand hv _).trans ?_)
    rw [byteOf_zero]
    rfl
  all_goals
    refine (reading_inHand hv _).trans ?_
    simp only [byteOf_zero, byteOf_one, fmtAct]
    rfl

/-- The identifier of a dictionary is read and dropped before it raises (R471). -/
theorem inflMicro_dictid {v : Nat} (p : Params) (hr : elementReady .dictid s.infl = true) (hv : v < 2 ^ 32) :
    inflMicro p .none ⟨inHand v 32 s.infl, s.bus⟩ =
      .raised .needDict ⟨{ brDrop 32 (inHand v 32 s.infl) with dictid := beWord v }, s.bus⟩ := by
  obtain ⟨-, -, hr⟩ := elementReady_iff.1 hr
  have hs : s.infl.stage = .dictid := beq_iff_eq.1 hr
  simp only [inflMicro, inHand_stage, hs]
  refine (needing_enough (Nat.le_refl 32) _).trans ?_
  rw [brPeek_inHand hv]
  rfl

/-- An element of fixed fields does what the micro-step of its stage does with just its bits in hand (R149). -/
theorem fixed_agrees (h : i.port = .element fmt) (hn : fmtBits fmt = some n) (hr : elementReady fmt s.infl = true)
    (hh : s.infl.hold = 0) (hc : s.infl.cnt = 0) :
    Agrees s (inflMicro s.params .none ⟨inHand (leNat (encode i)) n s.infl, s.bus⟩) (exec i s) := by
  have hv := leNat_encode_lt h hn
  have he := elementOf_encode h []
  rw [List.append_nil] at he
  rw [exec_of_elementOf he hn (fmtBytes_le_encode h) hr hc]
  rcases eq_or_ne fmt .dictid with rfl | hd
  · cases hn
    rw [inflMicro_dictid s.params hr hv]
    refine .inr ⟨.needDict, _, rfl, ?_⟩
    conv_lhs => rw [← inHand_empty hh hc]
    rfl
  · rw [inflMicro_fixed s.params hn hd hr hv]
    exact .finish (blind_fmtAct fmt _) hh hc hv

end

end Sys2Proof.Machine
end

section
/-! PROOFS. The Huffman-coded elements as micro-steps (R149, R463): with the bits of a code and its extra bits in hand, the stages
decode the symbol, read the extra bits and copy the match, and so does the element on its own. -/

namespace Sys2Proof.Machine

/-! ## Micro-steps one after another -/

/-- Completed micro-steps from `c` lead to the state `r`, or to the error that `r` records (R463). -/
def Runs (s : State) (c : InflCtx) (r : Result) : Prop :=
  (∃ n c1, microSteps s.params n c = some c1 ∧ r = .next (withInfl c1 s)) ∨
    ∃ n c1 y e, microSteps s.params n c = some c1 ∧ inflMicro s.params .none c1 = .raised y ⟨e, s.bus⟩ ∧
      r = .next { s with infl := inflRaise y { e with hold := 0, cnt := 0 } }

section
variable {s : State} {c c1 : InflCtx} {r : Result} {e : Infl} {y : Status}

theorem Runs.done (hr : r = .next (withInfl c s)) : Runs s c r := .inl ⟨0, c, rfl, hr⟩

theorem Runs.raise (h : inflMicro s.params .none c = .raised y ⟨e, s.bus⟩)
    (hr : r = .next { s with infl := inflRaise y { e with hold := 0, cnt := 0 } }) : Runs s c r :=
  .inr ⟨0, c, y, e, rfl, h, hr⟩

theorem microSteps_succ (h : inflMicro s.params .none c = .complete c1 ∨ inflMicro s.params .none c = .stop c1) (n : Nat) :
    microSteps s.params (n + 1) c = microSteps s.params n c1 := by
  rcases h with h | h <;> rw [microSteps, h]

theorem Runs.step (h : inflMicro s.params .none c = .complete c1 ∨ inflMicro s.params .none c = .stop c1) (hr : Runs s c1 r) :
    Runs s c r := by
  rcases hr with ⟨n, c2, hn, hr⟩ | ⟨n, c2, y, e, hn, hm, hr⟩
  · exact .inl ⟨n + 1, c2, (microSteps_succ h n).trans hn, hr⟩
  · exact .inr ⟨n + 1, c2, y, e, (microSteps_succ h n).trans hn, hm, hr⟩

/-- An element that one micro-step does. -/
theorem Agrees.runs (h : Agrees s (inflMicro s.params .none c) r) : Runs s c r := by
  rcases h with ⟨e, hm, hr⟩ | ⟨x, e, hm, hr⟩
  · exact .step hm (.done hr)
  · exact .raise hm hr

/-- The steps of stage `MATCH` until it suspends or the match is copied (R497). -/
theorem matchRun_runs {n : Nat} (hs : c.e.stage = .mat) (hn : c.e.length = n) (hr : r = .next (withInfl (matchRun c) s)) :
    Runs s c r := by
  subst hr
  induction n generalizing c with
  | zero =>
    have hm : inflMicro s.params .none c = matchMicro c := by rw [inflMicro, hs]
    refine .step (c1 := { c with e := { c.e with stage := .sym } }) (.inl (hm.trans (if_pos hn))) (.done ?_)
    rw [matchRun, hn, copyLoop, if_pos hn]
  | succ n ih =>
    have hm : inflMicro s.params .none c = matchMicro c := by rw [inflMicro, hs]
    have h0 : ¬c.e.length = 0 := by omega
    rcases eq_or_ne c.e.regs.availOut 0 with ha | ha
    · refine .done ?_
      rw [matchRun, hn, copyLoop, if_pos ha, if_neg h0]
    · have hlen : (copyByte c).e.length = n := by
        show c.e.length - 1 = n
        omega
      refine .step (.inl (hm.trans ((if_neg h0).trans (if_neg ha)))) ?_
      have hrun : matchRun c = matchRun (copyByte c) := by
        rw [matchRun, matchRun, hn, hlen, copyLoop, if_neg ha]
      rw [hrun]
      exact ih (c := copyByte c) hs hlen

end

/-! ## The bits of a code and of its extra value in hand -/

/-- The bits of a code with its extra bits behind it spell a number from which `HD.DECODE` finds the symbol, and above whose code
the extra value stands. -/
theorem code_in_hand {lens : Lens} {max k w x : Nat} (hl : ∀ l ∈ lens, l ≤ max) (hk : kraft max lens ≤ 2 ^ max)
    (hpos : 0 < lens.getD k 0) (hx : x < 2 ^ w) :
    ∃ v, v < 2 ^ (lens.getD k 0 + w) ∧ v / 2 ^ lens.getD k 0 = x ∧ ∀ i b,
      holding (codeBits lens max k ++ bitsOf w x) i = inHand v (lens.getD k 0 + w) i ∧
        hdDecode lens max ⟨inHand v (lens.getD k 0 + w) i, b⟩ =
          (.found k (lens.getD k 0), ⟨inHand v (lens.getD k 0 + w) i, b⟩) := by
  have hlen : (codeBits lens max k ++ bitsOf w x).length = lens.getD k 0 + w := by
    rw [List.length_append, codeBits_length, bitsOf_length]
  refine ⟨bitsNum (codeBits lens max k ++ bitsOf w x), ?_, ?_, fun i b => ⟨?_, ?_⟩⟩
  · rw [← hlen]
    exact bitsNum_lt _
  · have hc := bitsNum_lt (codeBits lens max k)
    rw [codeBits_length] at hc
    rw [bitsNum_append, codeBits_length, bitsNum_bitsOf, Nat.mod_eq_of_lt hx, Nat.add_mul_div_left _ _ (Nat.pow_pos Nat.two_pos),
      Nat.div_eq_of_lt hc, Nat.zero_add]
  · rw [holding_eq, hlen]
  · exact hdDecode_code hl hk hpos rfl (Nat.le_add_right _ _)

/-! ## One stage with its bits in hand -/

section
variable {act : Infl → Act} {i e : Infl} {b : Bus} {n m v : Nat} {y : Status}

theorem finish_good (hb : Blind act) (ha : act i = .good e) :
    finish n false ⟨inHand v m i, b⟩ (act (inHand v m i)) = .complete ⟨inHand (v / 2 ^ n) (m - n) e, b⟩ := by
  rw [hb, ha]
  rfl

theorem finish_bad (hb : Blind act) (ha : act i = .bad y e) :
    finish n false ⟨inHand v m i, b⟩ (act (inHand v m i)) = .raised y ⟨inHand v m e, b⟩ := by
  rw [hb, ha]
  rfl

end

theorem blind_symAct (k : Nat) : Blind (symAct k) := by
  intro v n i
  simp only [symAct, inHand]
  split_ifs <;> rfl

theorem blind_distAct (k : Nat) : Blind (distAct k) := by
  intro v n i
  simp only [distAct, inHand]
  split_ifs <;> rfl

theorem blind_lenextAct (x : Nat) : Blind (lenextAct x) := fun _ _ _ => rfl

theorem blind_distextAct (x : Nat) : Blind (distextAct x) := by
  intro v n i
  rw [distextAct, distextAct, apply_ite (Act.map _)]
  rfl

theorem blind_runAct (v c : Nat) : Blind (runAct v c) := by
  intro w n i
  rw [runAct, runAct, apply_ite (Act.map _)]
  rfl

theorem blind_clsymAct (k x : Nat) : Blind (clsymAct k x) := by
  intro v n i
  have hl : (inHand v n i).lens = i.lens := rfl
  simp only [clsymAct, hl]
  split_ifs
  · rfl
  · split
    · rfl
    · exact blind_runAct _ _ _ _ _
  · exact blind_runAct _ _ _ _ _
  · exact blind_runAct _ _ _ _ _

/-! ## The three coded formats -/

section
variable {i : Instr} {k x w v n : Nat} {s : State} {e : Infl} {y : Status}

theorem stage_of_dsym {i : Infl} (h : elementReady .dsym i = true) : i.stage = .dist := by
  obtain ⟨-, -, hr⟩ := elementReady_iff.1 h
  exact beq_iff_eq.1 hr

theorem stage_of_clsym {i : Infl} (h : elementReady .clsym i = true) : i.stage = .dynLens := by
  obtain ⟨-, -, hr⟩ := elementReady_iff.1 h
  simp only [readsFmt, Bool.and_eq_true, beq_iff_eq] at hr
  exact hr.1

/-- Stage `SYM` with a code in hand does the symbol's action (R492). -/
theorem inflMicro_sym (p : Params) (hs : s.infl.stage = .sym)
    (hd : hdDecode s.infl.ll maxBits ⟨inHand v (n + w) s.infl, s.bus⟩ = (.found k n, ⟨inHand v (n + w) s.infl, s.bus⟩)) :
    inflMicro p .none ⟨inHand v (n + w) s.infl, s.bus⟩ =
      finish n false ⟨inHand v (n + w) s.infl, s.bus⟩ (symAct k (inHand v (n + w) s.infl)) := by
  have hll : (inHand v (n + w) s.infl).ll = s.infl.ll := rfl
  simp only [inflMicro, inHand_stage, hs, symMicro, hll, hd]

/-- Stage `DIST` with a code in hand does the symbol's action (R495). -/
theorem inflMicro_dist (p : Params) (hs : s.infl.stage = .dist)
    (hd : hdDecode s.infl.dt maxBits ⟨inHand v (n + w) s.infl, s.bus⟩ = (.found k n, ⟨inHand v (n + w) s.infl, s.bus⟩)) :
    inflMicro p .none ⟨inHand v (n + w) s.infl, s.bus⟩ =
      finish n false ⟨inHand v (n + w) s.infl, s.bus⟩ (distAct k (inHand v (n + w) s.infl)) := by
  have hdt : (inHand v (n + w) s.infl).dt = s.infl.dt := rfl
  simp only [inflMicro, inHand_stage, hs, distMicro, hdt, hd]

/-- A code-length symbol's extra value is taken within its width (R146). -/
theorem exec_of_clsymInstr (hi : clsymInstr k x = some i) (hx : x < 2 ^ clXb k) : exec i s = clElement k x i s := by
  unfold clsymInstr at hi
  split_ifs at hi with hlen h16 h17 h18 <;> cases hi
  · have h0 : x = 0 := by
      rw [clXb, if_neg (by omega), if_neg (by omega), if_neg (by omega)] at hx
      omega
    have hk : (BitVec.ofNat 4 k).toNat = k := Nat.mod_eq_of_lt hlen
    subst h0
    exact congrArg (clElement · 0 _ s) hk
  · subst h16
    exact congrArg (clElement 16 · _ s) (Nat.mod_eq_of_lt hx)
  · subst h17
    exact congrArg (clElement 17 · _ s) (Nat.mod_eq_of_lt hx)
  · subst h18
    exact congrArg (clElement 18 · _ s) (Nat.mod_eq_of_lt hx)

/-- A symbol's action goes on, with the extra value left in hand. -/
theorem Runs.symbol {r : Result} {act : Infl → Act} (hb : Blind act) (ha : act s.infl = .good e) (hvx : v / 2 ^ n = x)
    (hm : inflMicro s.params .none ⟨inHand v (n + w) s.infl, s.bus⟩ =
      finish n false ⟨inHand v (n + w) s.infl, s.bus⟩ (act (inHand v (n + w) s.infl)))
    (hr : Runs s ⟨inHand x w e, s.bus⟩ r) : Runs s ⟨inHand v (n + w) s.infl, s.bus⟩ r := by
  refine .step (.inl (hm.trans (finish_good hb ha))) ?_
  rwa [hvx, Nat.add_sub_cancel_left]

/-- The same for a symbol without extra bits, after which the reader is empty. -/
theorem Runs.bareSymbol {r : Result} {act : Infl → Act} (hw : w = 0) (hx : x < 2 ^ w) (hb : Blind act) (ha : act s.infl = .good e)
    (hh : e.hold = 0) (hc : e.cnt = 0) (hvx : v / 2 ^ n = x)
    (hm : inflMicro s.params .none ⟨inHand v (n + w) s.infl, s.bus⟩ =
      finish n false ⟨inHand v (n + w) s.infl, s.bus⟩ (act (inHand v (n + w) s.infl)))
    (hr : Runs s ⟨e, s.bus⟩ r) : Runs s ⟨inHand v (n + w) s.infl, s.bus⟩ r := by
  refine .symbol hb ha hvx hm ?_
  subst hw
  rwa [Nat.lt_one_iff.1 hx, inHand_empty hh hc]

/-- A symbol's action raises. -/
theorem Runs.badSymbol {r : Result} {act : Infl → Act} (hb : Blind act) (ha : act s.infl = .bad y e)
    (hm : inflMicro s.params .none ⟨inHand v (n + w) s.infl, s.bus⟩ =
      finish n false ⟨inHand v (n + w) s.infl, s.bus⟩ (act (inHand v (n + w) s.infl)))
    (hr : r = .next { s with infl := inflRaise y (inHand 0 0 e) }) : Runs s ⟨inHand v (n + w) s.infl, s.bus⟩ r :=
  .raise (hm.trans (finish_bad hb ha)) hr

/-- Stage `LENEXT` with just the extra value in hand (R494). -/
theorem inflMicro_lenext (p : Params) (hx : x < 2 ^ w) (hw : w = lenXb.getD e.lsym 0) (hs : e.stage = .lenext) (hh : e.hold = 0)
    (hc : e.cnt = 0) : inflMicro p .none ⟨inHand x w e, s.bus⟩ =
      .complete ⟨{ e with length := lenBase.getD e.lsym 0 + x, stage := .dist }, s.bus⟩ := by
  have hl : (inHand x w e).lsym = e.lsym := rfl
  simp only [inflMicro, inHand_stage, hs, hl, ← hw]
  refine (reading_inHand hx _).trans ((finish_good (blind_lenextAct x) rfl).trans ?_)
  rw [Nat.div_eq_of_lt hx, Nat.sub_self, inHand_empty (by exact hh) (by exact hc)]

/-- Stage `LIT` puts the byte out where there is room, as the literal does (R493). -/
theorem lit_runs {r : Result} (hs : e.stage = .lit) (hr : r = .next (afterLit { s with infl := e })) : Runs s ⟨e, s.bus⟩ r := by
  rw [hr, afterLit]
  split_ifs with ha
  · exact .done rfl
  · refine .step (c1 := litByte ⟨e, s.bus⟩) (.inl ?_) (.done rfl)
    simp only [inflMicro, hs]
    exact if_neg ha

/-- Stage `DISTEXT` with just the extra value in hand (R496). -/
theorem inflMicro_distext (p : Params) (hx : x < 2 ^ w) (hw : w = distXb.getD e.dsym 0) (hs : e.stage = .distext) :
    inflMicro p .none ⟨inHand x w e, s.bus⟩ = finish w false ⟨inHand x w e, s.bus⟩ (distextAct x (inHand x w e)) := by
  have hl : (inHand x w e).dsym = e.dsym := rfl
  simp only [inflMicro, inHand_stage, hs, hl, ← hw]
  exact reading_inHand hx _

/-- Stage `DYN_LENS` with a code and its extra value in hand does the symbol's action (R489). -/
theorem inflMicro_clsym (p : Params) (hr : elementReady .clsym s.infl = true) (hw : w = clXb k) (hx : x < 2 ^ w) (hvx : v / 2 ^ n = x)
    (hd : hdDecode s.infl.clt maxClBits ⟨inHand v (n + w) s.infl, s.bus⟩ = (.found k n, ⟨inHand v (n + w) s.infl, s.bus⟩)) :
    inflMicro p .none ⟨inHand v (n + w) s.infl, s.bus⟩ =
      finish (n + w) false ⟨inHand v (n + w) s.infl, s.bus⟩ (clsymAct k x (inHand v (n + w) s.infl)) := by
  have hclt : (inHand v (n + w) s.infl).clt = s.infl.clt := rfl
  have hp : brPeek2 n w (inHand v (n + w) s.infl) = x := (congrArg (· % 2 ^ w) hvx).trans (Nat.mod_eq_of_lt hx)
  simp only [inflMicro, inHand_stage, stage_of_clsym hr, dynLensMicro, hclt, hd, ← hw]
  refine (if_pos (lens_room hr)).trans ((needing_enough (Nat.le_refl (n + w)) _).trans ?_)
  rw [hp]

section
variable (hh : s.infl.hold = 0) (hc : s.infl.cnt = 0)
include hh hc

theorem llsym_runs (hi : llsymInstr k x = some i) (hw : w = if k < 257 then 0 else lenXb.getD (k - 257) 0) (hx : x < 2 ^ w)
    (hr : elementReady .llsym s.infl = true) (hcode : (tableLens .ll s.infl).getD k 0 ≠ 0) (hvx : v / 2 ^ n = x)
    (hd : hdDecode s.infl.ll maxBits ⟨inHand v (n + w) s.infl, s.bus⟩ = (.found k n, ⟨inHand v (n + w) s.infl, s.bus⟩)) :
    Runs s ⟨inHand v (n + w) s.infl, s.bus⟩ (exec i s) := by
  have hs := stage_of_llsym hr
  have hm := inflMicro_sym s.params hs hd
  unfold llsymInstr at hi
  split_ifs at hi with h256 heob h286 h287
  · obtain ⟨b, rfl⟩ : ∃ b : Byte, k = b.toNat := ⟨BitVec.ofNat 8 k, (Nat.mod_eq_of_lt h256).symm⟩
    cases hi
    rw [if_pos (by omega)] at hw
    rw [BitVec.ofNat_toNat, BitVec.setWidth_eq]
    refine .bareSymbol hw hx (blind_symAct _) (symAct_lit b s.infl) hh hc hvx hm (lit_runs rfl ?_)
    exact symbolElement_good (t := .ll) hr hcode (symAct_lit b s.infl)
  · subst heob
    cases hi
    exact .bareSymbol hw hx (blind_symAct _) (symAct_eob s.infl) hh hc hvx hm
      (.done (symbolElement_good (t := .ll) hr hcode (symAct_eob s.infl)))
  · subst h286
    cases hi
    refine .badSymbol (blind_symAct _) (symAct_reserved false s.infl) hm ?_
    rw [inHand_empty hh hc]
    exact symbolElement_bad (t := .ll) hr hcode (symAct_reserved false s.infl)
  · subst h287
    cases hi
    refine .badSymbol (blind_symAct _) (symAct_reserved true s.infl) hm ?_
    rw [inHand_empty hh hc]
    exact symbolElement_bad (t := .ll) hr hcode (symAct_reserved true s.infl)
  · obtain ⟨hk, hk', he⟩ := exec_of_lenInstr hi s
    rw [if_neg (Nat.not_lt.2 hk)] at hw
    rw [he, ← hw, Nat.mod_eq_of_lt hx]
    refine .symbol (blind_symAct k) (symAct_len hk hk' s.infl) hvx hm
      (.step (.inl (inflMicro_lenext s.params hx hw rfl hh hc)) (.done ?_))
    refine symbolElement_good (t := .ll) hr hcode ?_
    rw [symAct_len hk hk']
    rfl

theorem dsym_runs (hi : dsymInstr k x = some i) (hw : w = distXb.getD k 0) (hx : x < 2 ^ w)
    (hr : elementReady .dsym s.infl = true) (hcode : (tableLens .dt s.infl).getD k 0 ≠ 0) (hvx : v / 2 ^ n = x)
    (hd : hdDecode s.infl.dt maxBits ⟨inHand v (n + w) s.infl, s.bus⟩ = (.found k n, ⟨inHand v (n + w) s.infl, s.bus⟩)) :
    Runs s ⟨inHand v (n + w) s.infl, s.bus⟩ (exec i s) := by
  have hm := inflMicro_dist s.params (stage_of_dsym hr) hd
  unfold dsymInstr at hi
  split_ifs at hi with h30 h31
  · subst h30
    cases hi
    refine .badSymbol (blind_distAct _) (distAct_reserved false s.infl) hm ?_
    rw [inHand_empty hh hc]
    exact symbolElement_bad (t := .dt) hr hcode (distAct_reserved false s.infl)
  · subst h31
    cases hi
    refine .badSymbol (blind_distAct _) (distAct_reserved true s.infl) hm ?_
    rw [inHand_empty hh hc]
    exact symbolElement_bad (t := .dt) hr hcode (distAct_reserved true s.infl)
  · obtain ⟨hk, he⟩ := exec_of_distInstr hi s
    rw [he, ← hw, Nat.mod_eq_of_lt hx]
    refine .symbol (blind_distAct k) (distAct_eq hk s.infl) hvx hm ?_
    have hstep := inflMicro_distext (s := s) (e := { s.infl with dsym := k, stage := .distext }) s.params hx hw rfl
    rcases Nat.lt_or_ge (whave s.infl) (distBase.getD k 0 + x) with hfar | hnear
    · refine .raise (hstep.trans (finish_bad (blind_distextAct x) (if_pos hfar))) ?_
      refine (symbolElement_bad (t := .dt) hr hcode (distanceAct_bad hk hfar)).trans ?_
      exact congrArg (fun e => Host.Outcome.next { s with infl := inflRaise .invalidDistance e })
        (inHand_empty (i := { s.infl with dsym := k, stage := .distext }) hh hc).symm
    · refine .step (.inl (hstep.trans (finish_good (blind_distextAct x) (if_neg (Nat.not_lt.2 hnear))))) ?_
      rw [Nat.div_eq_of_lt hx, Nat.sub_self, inHand_empty (by exact hh) (by exact hc)]
      exact matchRun_runs rfl rfl ((symbolElement_good (t := .dt) hr hcode (distanceAct_good hk hnear)).trans
        (congrArg Host.Outcome.next (afterDist_mat rfl s)))

theorem clsym_runs (hi : clsymInstr k x = some i) (hw : w = clXb k) (hx : x < 2 ^ w) (hv : v < 2 ^ (n + w))
    (hr : elementReady .clsym s.infl = true) (hcode : (tableLens .clt s.infl).getD k 0 ≠ 0) (hvx : v / 2 ^ n = x)
    (hd : hdDecode s.infl.clt maxClBits ⟨inHand v (n + w) s.infl, s.bus⟩ = (.found k n, ⟨inHand v (n + w) s.infl, s.bus⟩)) :
    Runs s ⟨inHand v (n + w) s.infl, s.bus⟩ (exec i s) := by
  rw [exec_of_clsymInstr hi (hw ▸ hx), clElement, symbolElement_ready hr hcode]
  have hm := inflMicro_clsym s.params hr hw hx hvx hd
  refine Agrees.runs ?_
  rw [hm]
  exact .finish (blind_clsymAct k x) hh hc hv

end

/-- A coded element does what the micro-steps do with the bits of its code and its extra bits in hand (R489, R492 to R497). -/
theorem coded_runs {fmt : Fmt} {tb : TableId} (hi : codedElement fmt k x = some (i, tb, w)) (hx : x < 2 ^ w)
    (hr : elementReady fmt s.infl = true) (hh : s.infl.hold = 0) (hc : s.infl.cnt = 0)
    (hl : ∀ l ∈ tableLens tb s.infl, l ≤ tableMax tb)
    (hk : kraft (tableMax tb) (tableLens tb s.infl) ≤ 2 ^ tableMax tb) (hpos : 0 < (tableLens tb s.infl).getD k 0) :
    Runs s ⟨holding (codeBits (tableLens tb s.infl) (tableMax tb) k ++ bitsOf w x) s.infl, s.bus⟩ (exec i s) := by
  obtain ⟨v, hv, hvx, hhold⟩ := code_in_hand hl hk hpos hx
  obtain ⟨hhand, hd⟩ := hhold s.infl s.bus
  rw [hhand]
  unfold codedElement at hi
  split at hi
  case h_4 => cases hi
  all_goals
    obtain ⟨j, hj, hi⟩ := Option.map_eq_some_iff.1 hi
    cases hi
  · exact llsym_runs hh hc hj rfl hx hr hpos.ne' hvx hd
  · exact dsym_runs hh hc hj rfl hx hr hpos.ne' hvx hd
  · exact clsym_runs hh hc hj rfl hx hv hr hpos.ne' hvx hd

end

end Sys2Proof.Machine
end

section
/-! PROOFS. The elements that do not stand where they are read (R149, log 5): the stage takes their bytes as the whole input of a
`WRITE none`. And the raw byte (R485), which is read past the bit reader. -/

namespace Sys2Proof.Machine

/-! ## A raw byte (R485) -/

theorem stage_of_raw {i : Infl} (h : elementReady .raw i = true) : i.stage = .storedCopy ∧ i.remaining ≠ 0 := by
  obtain ⟨-, -, hr⟩ := elementReady_iff.1 h
  simp only [readsFmt, Bool.and_eq_true, beq_iff_eq, decide_eq_true_eq] at hr
  exact ⟨hr.1, Nat.ne_of_gt hr.2⟩

theorem ne_topAddr {a : Word} (h : a.toNat + 1 < 2 ^ 32) : a ≠ topAddr := by
  rintro rfl
  exact absurd h (by decide)

section
variable {s : State} {b : Byte} (h : elementReady .raw s.infl = true)
include h

theorem inflMicro_raw (p : Params) : inflMicro p .none ⟨s.infl, s.bus⟩ =
    if s.infl.regs.availIn = 0 ∨ s.infl.regs.availOut = 0 then .suspend ⟨s.infl, s.bus⟩
    else .complete (storedByte (inByteVal s.infl.regs s.bus)
      ⟨{ s.infl with regs := inByteRegs s.infl.regs s.bus }, inByteBus s.infl.regs s.bus⟩) := by
  obtain ⟨hs, hrem⟩ := stage_of_raw h
  have hm : inflMicro p .none ⟨s.infl, s.bus⟩ = storedCopyMicro ⟨s.infl, s.bus⟩ := by rw [inflMicro, hs]
  exact hm.trans (if_neg hrem)

/-- Without output space the stage waits for it (R485). -/
theorem inflMicro_raw_waits (p : Params) (ha : s.infl.regs.availOut = 0) :
    inflMicro p .none ⟨s.infl, s.bus⟩ = .suspend ⟨s.infl, s.bus⟩ := (inflMicro_raw h p).trans (if_pos (.inr ha))

/-- With the byte next in `IN` the stage takes it from there and puts it out (R485). -/
theorem inflMicro_raw_copies (p : Params) (ha : s.infl.regs.availOut ≠ 0) (hi : s.infl.regs.availIn ≠ 0)
    (hn : s.infl.regs.nextIn.toNat + 1 < 2 ^ 32) (hb : memRead s.bus.inMem s.infl.regs.nextIn.toNat = b) :
    inflMicro p .none ⟨s.infl, s.bus⟩ = .complete (storedByte b ⟨{ s.infl with regs := { s.infl.regs with
      nextIn := s.infl.regs.nextIn + 1, availIn := s.infl.regs.availIn - 1, totalIn := s.infl.regs.totalIn + 1 } }, s.bus⟩) := by
  have hcur : cursorNext s.bus.freeCtr s.infl.regs.nextIn = s.infl.regs.nextIn + 1 := if_neg (ne_topAddr hn)
  have htick : tickFree s.infl.regs.nextIn s.bus = s.bus := if_neg (ne_topAddr hn)
  rw [inflMicro_raw h, if_neg (not_or.2 ⟨hi, ha⟩), inByteVal, hb, inByteRegs, inByteBus, hcur, htick]

end

/-! ## Elements out of place (log 5) -/

theorem take_leBytes {n m : Nat} (h : n ≤ m) (a : Nat) : (leBytes m a).take n = leBytes n a := by
  induction n generalizing m a with
  | zero => rfl
  | succ n ih =>
    obtain ⟨m, rfl⟩ : ∃ m', m = m' + 1 := Nat.exists_eq_succ_of_ne_zero (by omega)
    rw [leBytes, leBytes, List.take_succ_cons, ih (Nat.le_of_succ_le_succ h)]

theorem leNat_take_leBytes {n m : Nat} (h : n ≤ m) (a : Nat) : leNat ((leBytes m a).take n) = a % 256 ^ n := by
  rw [take_leBytes h, leNat_leBytes]

section
variable {i : Instr} {k x : Nat} {s : State}

theorem symbolElement_of_llsymInstr (h : llsymInstr k x = some i) (s : State) :
    ∃ act after, exec i s = symbolElement .llsym .ll k i s act after := by
  unfold llsymInstr at h
  split_ifs at h with h256 heob h286 h287
  · obtain ⟨b, rfl⟩ : ∃ b : Byte, k = b.toNat := ⟨BitVec.ofNat 8 k, (Nat.mod_eq_of_lt h256).symm⟩
    cases h
    rw [BitVec.ofNat_toNat, BitVec.setWidth_eq]
    exact ⟨_, _, rfl⟩
  · subst heob
    cases h
    exact ⟨_, _, rfl⟩
  · subst h286
    cases h
    exact ⟨_, _, rfl⟩
  · subst h287
    cases h
    exact ⟨_, _, rfl⟩
  · obtain ⟨-, -, he⟩ := exec_of_lenInstr h s
    exact ⟨_, _, he⟩

theorem symbolElement_of_dsymInstr (h : dsymInstr k x = some i) (s : State) :
    ∃ act after, exec i s = symbolElement .dsym .dt k i s act after := by
  unfold dsymInstr at h
  split_ifs at h with h30 h31
  · subst h30
    cases h
    exact ⟨_, _, rfl⟩
  · subst h31
    cases h
    exact ⟨_, _, rfl⟩
  · obtain ⟨-, he⟩ := exec_of_distInstr h s
    exact ⟨_, _, he⟩

theorem symbolElement_of_clsymInstr (h : clsymInstr k x = some i) (s : State) :
    ∃ act after, exec i s = symbolElement .clsym .clt k i s act after := by
  unfold clsymInstr at h
  split_ifs at h with hlen h16 h17 h18
  · obtain ⟨v, rfl⟩ : ∃ v : BitVec 4, k = v.toNat := ⟨BitVec.ofNat 4 k, (Nat.mod_eq_of_lt hlen).symm⟩
    cases h
    rw [BitVec.ofNat_toNat, BitVec.setWidth_eq]
    exact ⟨_, _, rfl⟩
  · subst h16
    cases h
    exact ⟨_, _, rfl⟩
  · subst h17
    cases h
    exact ⟨_, _, rfl⟩
  · subst h18
    cases h
    exact ⟨_, _, rfl⟩

/-- A coded element is a symbol of its table, by the number its bytes begin with (R142, R144, R146). -/
theorem exec_of_symbolOf {fmt : Fmt} {t : TableId} (h : i.port = .element fmt)
    (hk : symbolOf fmt (encode i) = some (t, k)) (s : State) :
    ∃ act after, exec i s = symbolElement fmt t k i s act after := by
  unfold symbolOf at hk
  split at hk
  case h_4 => cases hk
  · obtain ⟨n, y, he, hi, hn, hy⟩ := exists_llsymInstr h
    have hnum : leNat ((encode i).take 2) % 512 = n := by
      rw [he, llsymBytes, leNat_take_leBytes (by decide)]
      omega
    cases hk
    rw [hnum]
    exact symbolElement_of_llsymInstr hi s
  · obtain ⟨n, y, he, hi, hn, hy⟩ := exists_dsymInstr h
    have hnum : leNat ((encode i).take 1) % 32 = n := by
      rw [he, dsymBytes, leNat_take_leBytes (by decide)]
      omega
    cases hk
    rw [hnum]
    exact symbolElement_of_dsymInstr hi s
  · obtain ⟨n, y, he, hi, hn, hy⟩ := exists_clsymInstr h
    have hnum : leNat ((encode i).take 1) % 32 = n := by
      rw [he, clsymBytes, leNat_take_leBytes (by decide)]
      omega
    cases hk
    rw [hnum]
    exact symbolElement_of_clsymInstr hi s

/-- An element of an uncoded format that is not read gives its bytes to the stage. -/
theorem exec_of_unread {fmt : Fmt} {bs : List Byte} (he : elementOf fmt bs = some i) (hk : symbolOf fmt (encode i) = none)
    (hr : ¬elementReady fmt s.infl = true) : exec i s = streamBytes (encode i) s := by
  cases fmt
  case llsym => cases hk
  case dsym => cases hk
  case clsym => cases hk
  case blkhdr =>
    cases he
    unfold blkhdrInstr
    split <;> exact if_neg hr
  case pseudo =>
    have hp : pseudoInstr bs = some i := he
    unfold pseudoInstr at hp
    split_ifs at hp <;> cases hp <;> exact if_neg hr
  all_goals
    cases he
    exact if_neg hr

/-- An element that cannot be run as it is gives its bytes to the stage. -/
theorem exec_of_not_canRun {fmt : Fmt} (h : i.port = .element fmt)
    (hc : canRun fmt (encode i) s.infl = false) : exec i s = streamBytes (encode i) s := by
  unfold canRun at hc
  split at hc
  case h_1 hk =>
    obtain ⟨act, after, he⟩ := exec_of_symbolOf h hk s
    exact he.trans (if_neg (by simp [hc]))
  case h_2 hk =>
    exact exec_of_unread (elementOf_encode h []) hk (by simp [hc])

end

/-- Bytes taken by the stage are the whole input of a `WRITE none`. -/
theorem streamBytes_eq (bytes : List Byte) (s : State) :
    streamBytes bytes s = onNext (restoreInput s) (exec .inflWriteNone (withInput bytes s)) := by
  show _ = onNext (restoreInput s) (inflWrite .none (withInput bytes s))
  obtain ⟨t, ht⟩ := inflWrite_next .none (withInput bytes s)
  rw [streamBytes, ht]
  rfl

/-! ## The entry checks of a `WRITE` (R462) -/

section
variable {f : Flush} {s : State}

theorem inflWrite_unconfigured (h : s.infl.configured = false) : inflWrite f s = .next (inflReturn .streamError s) := if_pos h

theorem inflWrite_sticky (hc : s.infl.configured = true) (h : s.infl.sticky ≠ .ok) :
    inflWrite f s = .next (inflReturn s.infl.sticky s) := by
  simp only [inflWrite, hc, if_pos h, Bool.true_eq_false, if_false]

theorem inflWrite_done (hc : s.infl.configured = true) (hs : s.infl.sticky = .ok) (hr : regionOk s.infl.regs = true)
    (h : s.infl.stage = .done) : inflWrite f s = .next (inflReturn .endOfStream s) := by
  simp [inflWrite, hc, hs, hr, h]

end

/-- A command that only returns a code leaves nothing else of the bytes it was given. -/
theorem streamBytes_of_return {bytes : List Byte} {s : State} {e : Status}
    (h : inflWrite .none (withInput bytes s) = .next (inflReturn e (withInput bytes s))) :
    streamBytes bytes s = .next { s with infl := { s.infl with ec := e } } := by
  rw [streamBytes, h]
  rfl

theorem regionOk_withInput {s : State} (h : regionOk s.infl.regs = true) (bytes : List Byte) :
    regionOk (withInput bytes s).infl.regs = true := by
  have ha : (BitVec.ofNat 32 bytes.length).toNat < 2 ^ 32 := BitVec.isLt _
  rw [regionOk, decide_eq_true_eq] at h ⊢
  exact ⟨(Nat.zero_add _).trans_le ha.le, h.2⟩

end Sys2Proof.Machine

open Sys2Proof Sys2Proof.Machine

/-- Settles O27: the micro-step's action does not look at the reader, and the coded stages find the symbol and its extra value in
the bits in hand; elsewhere the bytes are the input of a `WRITE none`. -/
theorem elementsAreMicroSteps : Obligations.ElementsAreMicroSteps := by
  refine ⟨fun i s fmt n h hn hr hh hc => fixed_agrees h hn hr hh hc,
    fun fmt k x i tb w s hi hx hr hh hc hl hk hpos => coded_runs hi hx hr hh hc hl hk hpos,
    fun b s h => ⟨_, if_pos h, fun ha => ⟨if_pos ha, inflMicro_raw_waits h _ ha⟩, fun ha hi hn hb => ?_⟩,
    fun i s fmt h hc => ?_⟩
  · rw [if_neg ha, inflMicro_raw_copies h _ ha hi hn hb]
    exact ⟨rfl, rfl⟩
  · rw [exec_of_not_canRun h hc]
    exact ⟨streamBytes_eq _ _, fun hu => streamBytes_of_return (inflWrite_unconfigured hu),
      fun hg hs => streamBytes_of_return (inflWrite_sticky hg hs),
      fun hg hs hd hreg => streamBytes_of_return (inflWrite_done hg hs (regionOk_withInput hreg _) hd)⟩

end

section
/-! PROOFS. The bit writer as a stream of bits (R201 to R205): a field goes on top of the bits in hand, and what leaves as whole
bytes leaves in the same order. -/

namespace Sys2Proof.Machine

/-! ## Numbers as streams of bits (R90) -/

theorem pow_256 (m : Nat) : 256 ^ m = 2 ^ (8 * m) := (Nat.pow_mul 2 8 m).symm

theorem add_mul_two_pow_lt {b c v n : Nat} (hb : b < 2 ^ c) (hv : v < 2 ^ n) : b + v * 2 ^ c < 2 ^ (c + n) := calc
  b + v * 2 ^ c < (v + 1) * 2 ^ c := by rw [Nat.succ_mul]; omega
  _ ≤ 2 ^ n * 2 ^ c := Nat.mul_le_mul_right _ hv
  _ = 2 ^ (c + n) := by rw [← Nat.pow_add, Nat.add_comm]

/-- A bit string on top of a number that fits below it. -/
theorem bitsOf_add_mul {c b : Nat} (hb : b < 2 ^ c) (n v : Nat) : bitsOf (c + n) (b + v * 2 ^ c) = bitsOf c b ++ bitsOf n v := by
  rw [bitsOf_append, ← bitsOf_mod c, Nat.add_mul_mod_self_right, Nat.mod_eq_of_lt hb, Nat.add_mul_div_right _ _ (Nat.two_pow_pos c),
    Nat.div_eq_of_lt hb, Nat.zero_add]

theorem bitsOf_zero_right (n : Nat) : bitsOf n 0 = List.replicate n false := by
  simp [bitsOf, List.map_const']

/-- Past its highest bit a number has zero bits. -/
theorem bitsOf_add_zeros {c b : Nat} (hb : b < 2 ^ c) (n : Nat) : bitsOf (c + n) b = bitsOf c b ++ List.replicate n false := by
  rw [← bitsOf_zero_right, ← bitsOf_add_mul hb, Nat.zero_mul, Nat.add_zero]

/-- Bytes are the number they spell, bit by bit. -/
theorem streamBits_eq_bitsOf (bs : List Byte) : streamBits bs = bitsOf (8 * bs.length) (leNat bs) := by
  induction bs with
  | nil => rfl
  | cons b bs ih =>
    rw [streamBits_cons, ih, leNat_cons, List.length_cons, Nat.mul_succ, Nat.add_comm _ 8, Nat.mul_comm 256]
    exact (bitsOf_add_mul b.isLt _ _).symm

theorem streamBits_leBytes (m a : Nat) : streamBits (leBytes m a) = bitsOf (8 * m) a := by
  rw [streamBits_eq_bitsOf, Laws.leBytes_length, leNat_leBytes, pow_256, bitsOf_mod]

@[simp] theorem streamBits_length (bs : List Byte) : (streamBits bs).length = 8 * bs.length := by
  rw [streamBits_eq_bitsOf, bitsOf_length]

/-- `rev` turns the bits round (R13). -/
theorem bitsOf_revBits (n c : Nat) : bitsOf n (revBits n c) = (bitsOf n c).reverse := by
  induction n generalizing c with
  | zero => rfl
  | succ n ih =>
    rw [revBits, Nat.add_comm (c % 2 * _), bitsOf_add_mul (revBits_lt n _), ih, bitsOf_succ n c, List.reverse_cons]
    simp [bitsOf, Nat.testBit_zero]

/-! ## What the writer appends (R203 to R205) -/

section
variable {d : Defl}

theorem writtenBits_bwPut (hb : d.bitBuf < 2 ^ d.bitCnt) (v n : Nat) :
    writtenBits (bwPut v n d) = writtenBits d ++ bitsOf n v := by
  rw [writtenBits, bwPut_pending, bwPut_bitCnt, bwPut_bitBuf, streamBits_append, streamBits_leBytes, List.append_assoc,
    ← bitsOf_append, Nat.div_add_mod, bitsOf_add_mul hb, ← List.append_assoc, writtenBits]

theorem writtenBits_bwPutcode (hb : d.bitBuf < 2 ^ d.bitCnt) (c n : Nat) :
    writtenBits (bwPutcode c n d) = writtenBits d ++ (bitsOf n c).reverse := by
  rw [bwPutcode, writtenBits_bwPut hb, bitsOf_revBits]

theorem bwAlign_bitCnt (d : Defl) : (bwAlign d).bitCnt = 0 := by
  unfold bwAlign
  split_ifs with h
  · rfl
  · exact Nat.eq_zero_of_not_pos h

theorem writtenBits_bwAlign (h : d.BitsOk) :
    writtenBits (bwAlign d) = writtenBits d ++ List.replicate ((8 - d.bitCnt) % 8) false := by
  obtain ⟨hc, hb⟩ := h
  unfold bwAlign
  split_ifs with hpos
  · have hbyte : bitsOf 8 (d.bitBuf % 256) = bitsOf d.bitCnt d.bitBuf ++ List.replicate (8 - d.bitCnt) false := by
      rw [← bitsOf_add_zeros hb, Nat.add_sub_cancel' (by omega)]
      exact bitsOf_mod 8 _
    simp [writtenBits, hbyte, Nat.mod_eq_of_lt (show 8 - d.bitCnt < 8 by omega)]
  · simp [Nat.eq_zero_of_not_pos hpos]

/-- Between two operations the partial byte is what does not fill a byte (R201). -/
theorem writtenBits_length_mod (h : d.bitCnt ≤ 7) : (writtenBits d).length % 8 = d.bitCnt := by
  simp only [writtenBits, List.length_append, streamBits_length, bitsOf_length]
  omega

/-- At a byte boundary everything written is in the queue. -/
theorem writtenBits_aligned (h : d.bitCnt = 0) : writtenBits d = streamBits d.pending := by
  rw [writtenBits, h, bitsOf_zero, List.append_nil]

end

end Sys2Proof.Machine

open Sys2Proof Sys2Proof.Machine

/-- Settles O30: each operation appends its bits and keeps the accumulator within its count. -/
theorem bitWriterAppends : Obligations.BitWriterAppends := by
  intro s hc hb
  have hok : s.defl.BitsOk := ⟨hc, hb⟩
  refine ⟨fun v n hn hv => ⟨_, if_pos ⟨hn, hv⟩, ?_, writtenBits_bwPut hb _ _⟩,
    fun c n h1 hn hv => ⟨_, if_pos ⟨h1, hn, hv⟩, ?_, writtenBits_bwPutcode hb _ _⟩,
    _, rfl, ?_, bwAlign_bitCnt _, writtenBits_bwAlign hok⟩
  · obtain ⟨h7, hlt⟩ := hok.bwPut hv
    exact ⟨h7, hlt, rfl⟩
  · obtain ⟨h7, hlt⟩ := hok.bwPutcode c.toNat n
    exact ⟨h7, hlt, rfl⟩
  · obtain ⟨h7, hlt⟩ := hok.bwAlign
    refine ⟨h7, hlt, ?_⟩
    rw [← onlyBits_bwAlign s.defl]

end

section
/-! PROOFS. `BW.TAKE` (R206): the queue leaves through the one `out_byte` of both engines (R15), so that what a run of emitted bytes
does to the registers and to `OUT` is what the taken bytes do. -/

namespace Sys2Proof.Machine

/-- Bytes emitted one after another. -/
def emitAll (bs : List Byte) (c : InflCtx) : InflCtx := bs.foldl (fun d v => inflEmit v d) c

theorem emitted_emitAll {c : InflCtx} (ho : c.bus.outMem.wf) (hw : c.e.win.wf) (bs : List Byte)
    (hr : c.e.regs.nextOut.toNat + bs.length ≤ 2 ^ 32) : Emitted c bs (emitAll bs c) := by
  induction bs using List.reverseRecOn with
  | nil => exact .nil ho hw
  | append_singleton bs v ih =>
    rw [List.length_append] at hr
    rw [emitAll, List.foldl_append]
    exact (ih (by omega)).snoc v hr

/-- How many queued bytes `BW.TAKE` puts out: what is queued, as far as there is space. -/
def takeCount (q : List Byte) (r : StreamRegs) : Nat := min q.length r.availOut.toNat

/-- What is taken of a queue moves the registers and fills `OUT` as if `INFL` emitted it; the rest stays queued. -/
theorem bwTakeLoop_emits (q : List Byte) {c : DeflCtx} {e : InflCtx} (hr : e.e.regs = c.d.regs) (hb : e.bus = c.bus) :
    (bwTakeLoop q c).d.pending = q.drop (takeCount q c.d.regs) ∧
      (bwTakeLoop q c).d.regs = (emitAll (q.take (takeCount q c.d.regs)) e).e.regs ∧
      (bwTakeLoop q c).bus = (emitAll (q.take (takeCount q c.d.regs)) e).bus := by
  induction q generalizing c e with
  | nil => exact ⟨List.drop_nil.symm, by rw [List.take_nil]; exact hr.symm, by rw [List.take_nil]; exact hb.symm⟩
  | cons v q ih =>
    rw [bwTakeLoop]
    split_ifs with h0
    · rw [takeCount, h0]
      exact ⟨rfl, hr.symm, hb.symm⟩
    · have hk : takeCount (v :: q) c.d.regs = takeCount q (outByteRegs c.d.regs c.bus) + 1 := by
        have := toNat_sub_one h0
        have := toNat_pos_of_ne h0
        simp only [takeCount, outByteRegs_availOut, List.length_cons]
        omega
      rw [hk]
      exact ih (c := ⟨{ c.d with regs := outByteRegs c.d.regs c.bus }, outByteBus c.d.regs c.bus v⟩) (e := inflEmit v e)
        (by rw [inflEmit_e_regs, hr, hb]) (by rw [inflEmit_e_bus, hr, hb])

/-- `INFL` with the output parameters and the memories of `DEFL`, as if it were to emit what `DEFL` takes. -/
def emitter (c : DeflCtx) : InflCtx := ⟨{ Infl.reset with regs := c.d.regs }, c.bus⟩

theorem length_take_takeCount (q : List Byte) (r : StreamRegs) : (q.take (takeCount q r)).length = takeCount q r :=
  List.length_take_of_le (Nat.min_le_left _ _)

/-- `BW.TAKE` within `OUT`: the first bytes of the queue are emitted, the rest stays queued. -/
theorem bwTake_emits {c : DeflCtx} (ho : c.bus.outMem.wf)
    (hr : c.d.regs.nextOut.toNat + takeCount c.d.pending c.d.regs ≤ 2 ^ 32) :
    (bwTake c).d.pending = c.d.pending.drop (takeCount c.d.pending c.d.regs) ∧
      bytesAt (bwTake c).bus.outMem c.d.regs.nextOut.toNat (takeCount c.d.pending c.d.regs) =
        c.d.pending.take (takeCount c.d.pending c.d.regs) ∧
      sameOutside c.d.regs.nextOut.toNat (takeCount c.d.pending c.d.regs) c.bus.outMem (bwTake c).bus.outMem ∧
      (bwTake c).bus.inMem = c.bus.inMem ∧ regsMoved c.d.regs (bwTake c).d.regs ∧ consumed c.d.regs (bwTake c).d.regs = 0 ∧
      produced c.d.regs (bwTake c).d.regs = takeCount c.d.pending c.d.regs := by
  obtain ⟨hp, hregs, hbus⟩ := bwTakeLoop_emits c.d.pending (c := c) (e := emitter c) rfl rfl
  have hlen := length_take_takeCount c.d.pending c.d.regs
  have hrun := emitted_emitAll (c := emitter c) ho Memory.wf_nil (c.d.pending.take (takeCount c.d.pending c.d.regs))
    (hlen.symm ▸ hr)
  obtain ⟨hmoved, hcons, hprod⟩ := hrun.moved (hlen.trans_le (Nat.min_le_right _ _))
  have hout := hrun.out
  have hside := hrun.outside
  rw [hlen] at hout hside hprod
  rw [bwTake, hregs, hbus]
  exact ⟨hp, hout, hside, hrun.inMem, hmoved, hcons, hprod⟩

end Sys2Proof.Machine

open Sys2Proof Sys2Proof.Machine

/-- Settles O31: the bytes taken are a run of emitted bytes. -/
theorem bitWriterTakes : Obligations.BitWriterTakes := by
  intro s ho k a hr
  obtain ⟨hp, hout, hside, hin, hmoved, hcons, hprod⟩ := bwTake_emits (c := ⟨s.defl, s.bus⟩) ho hr
  obtain ⟨hframe, -⟩ := bwTake_frame ⟨s.defl, s.bus⟩
  refine ⟨_, rfl, hp, hout, hside, hin, hmoved, hcons, hprod, ?_⟩
  show { s with defl := (bwTake ⟨s.defl, s.bus⟩).d, bus := _, result := .nothing } = _
  rw [hframe]
  rfl

end

section
/-! PROOFS. The bit reader (R210 to R218): what a number of fetched bytes does to the engine, how many `BR.NEED` fetches, and what
peeking and dropping do to the bits in hand. -/

namespace Sys2Proof.Machine

/-! ## Fetched bytes (R213) -/

/-- The next `k` bytes of the input. -/
abbrev nextBytes (c : InflCtx) (k : Nat) : List Byte := bytesAt c.bus.inMem c.e.regs.nextIn.toNat k

/-- From `c` to `d` the reader fetched `k` bytes. -/
structure ReadIn (c : InflCtx) (k : Nat) (d : InflCtx) : Prop where
  frame : onlyReader c.e d.e
  hold : d.e.hold = c.e.hold + leNat (nextBytes c k) * 2 ^ c.e.cnt
  cnt : d.e.cnt = c.e.cnt + 8 * k
  hcrc : d.e.hcrc = if headerCrcStage c.e.stage then crc32 c.e.hcrc (nextBytes c k) else c.e.hcrc
  availIn : d.e.regs.availIn = c.e.regs.availIn - BitVec.ofNat 32 k
  totalIn : d.e.regs.totalIn = c.e.regs.totalIn + BitVec.ofNat 64 k
  nextIn : c.e.regs.nextIn.toNat + k < 2 ^ 32 → d.e.regs.nextIn.toNat = c.e.regs.nextIn.toNat + k
  out : d.e.regs.nextOut = c.e.regs.nextOut ∧ d.e.regs.availOut = c.e.regs.availOut ∧ d.e.regs.totalOut = c.e.regs.totalOut
  inMem : d.bus.inMem = c.bus.inMem
  outMem : d.bus.outMem = c.bus.outMem

theorem ReadIn.zero (c : InflCtx) : ReadIn c 0 c where
  frame := rfl
  hold := by simp
  cnt := rfl
  hcrc := (ite_self _).symm
  availIn := by simp
  totalIn := by simp
  nextIn _ := rfl
  out := ⟨rfl, rfl, rfl⟩
  inMem := rfl
  outMem := rfl

/-- One byte more, on top of those before. -/
theorem ReadIn.snoc {c d : InflCtx} {k : Nat} (h : ReadIn c k d) (hr : c.e.regs.nextIn.toNat + (k + 1) ≤ 2 ^ 32) :
    ReadIn c (k + 1) (brFetch d) := by
  have ha : d.e.regs.nextIn.toNat = c.e.regs.nextIn.toNat + k := h.nextIn (by omega)
  have hbs : nextBytes c (k + 1) = nextBytes c k ++ [inByteVal d.e.regs d.bus] := by
    rw [inByteVal, h.inMem, ha]
    exact bytesAt_add _ _ k 1
  have hstage : d.e.stage = c.e.stage := by rw [h.frame]
  constructor
  case frame => exact h.frame.trans rfl
  case hold =>
    rw [brFetch_e_hold, h.hold, h.cnt, hbs, leNat_append, bytesAt_length, Nat.pow_add, Nat.pow_mul, leNat_cons, leNat_nil]
    ring
  case cnt => rw [brFetch_e_cnt, h.cnt, Nat.mul_succ, Nat.add_assoc]
  case hcrc =>
    rw [brFetch_e_hcrc, h.hcrc, hstage, hbs, crc32, crc32, List.foldl_append]
    split_ifs <;> rfl
  case availIn => rw [brFetch_e_regs, inByteRegs_availIn, h.availIn, BitVec.ofNat_add, BitVec.sub_sub]; rfl
  case totalIn => rw [brFetch_e_regs, inByteRegs_totalIn, h.totalIn, BitVec.ofNat_add, BitVec.add_assoc]; rfl
  case nextIn =>
    intro hlt
    rw [brFetch_e_regs, inByteRegs_nextIn, cursorNext_toNat _ (by omega), ha, Nat.add_assoc]
  case out => exact h.out
  case inMem => rw [brFetch_e_bus, inByteBus_inMem, h.inMem]
  case outMem => rw [brFetch_e_bus, inByteBus_outMem, h.outMem]

theorem readIn_iterate {c : InflCtx} {k : Nat} (hr : c.e.regs.nextIn.toNat + k ≤ 2 ^ 32) : ReadIn c k (brFetch^[k] c) := by
  induction k with
  | zero => exact .zero c
  | succ k ih =>
    rw [Function.iterate_succ_apply']
    exact (ih (by omega)).snoc hr

theorem ReadIn.availIn_toNat {c d : InflCtx} {k : Nat} (h : ReadIn c k d) (hk : k ≤ c.e.regs.availIn.toNat) :
    d.e.regs.availIn.toNat = c.e.regs.availIn.toNat - k := by
  have ha := c.e.regs.availIn.isLt
  rw [h.availIn, BitVec.toNat_sub_of_le] <;> simp [BitVec.le_def] <;> omega

/-- The stream parameters moved by what was fetched (R375, R24). -/
theorem ReadIn.moved {c d : InflCtx} {k : Nat} (h : ReadIn c k d) (hk : k ≤ c.e.regs.availIn.toNat) :
    regsMoved c.e.regs d.e.regs ∧ consumed c.e.regs d.e.regs = k ∧ produced c.e.regs d.e.regs = 0 := by
  obtain ⟨hno, hao, hto⟩ := h.out
  have hin := h.availIn_toNat hk
  have hc : consumed c.e.regs d.e.regs = k := by rw [consumed]; omega
  have hp : produced c.e.regs d.e.regs = 0 := by rw [produced, hao, Nat.sub_self]
  refine ⟨⟨by omega, by rw [hao], ?_, ?_, ?_, ?_⟩, hc, hp⟩
  · rw [hc, h.totalIn]
  · rw [hp, hto]; simp
  · rw [hc]
    exact h.nextIn
  · intro _
    rw [hp, hno, Nat.add_zero]

/-! ## How many bytes `BR.NEED` fetches (R213) -/

/-- The fewest bytes that make `n` bits, or all there are. -/
def needCount (n : Nat) (i : Infl) : Nat := min ((n - i.cnt + 7) / 8) i.regs.availIn.toNat

theorem brNeedLoop_eq_iterate {m n : Nat} {c : InflCtx} (hm : (n - c.e.cnt + 7) / 8 ≤ m) :
    brNeedLoop m n c = (decide (n ≤ c.e.cnt + 8 * needCount n c.e), brFetch^[needCount n c.e] c) := by
  induction m generalizing c with
  | zero =>
    have hk : needCount n c.e = 0 := by rw [needCount]; omega
    rw [hk]
    rfl
  | succ m ih =>
    rw [brNeedLoop]
    split_ifs with hn h0
    · have hk : needCount n c.e = 0 := by rw [needCount]; omega
      rw [hk, decide_eq_true (by omega)]
      rfl
    · have hk : needCount n c.e = 0 := by rw [needCount, h0]; exact Nat.min_zero _
      rw [hk, decide_eq_false (by omega)]
      rfl
    · have hk : needCount n c.e = needCount n (brFetch c).e + 1 := by
        have := toNat_sub_one h0
        have := toNat_pos_of_ne h0
        simp only [needCount, brFetch_e_cnt, brFetch_e_regs, inByteRegs_availIn]
        omega
      rw [ih (by rw [brFetch_e_cnt]; omega), hk, Function.iterate_succ_apply, brFetch_e_cnt, Nat.mul_succ, Nat.add_right_comm,
        Nat.add_assoc]

theorem brNeed_eq_iterate (n : Nat) (c : InflCtx) :
    brNeed n c = (decide (n ≤ c.e.cnt + 8 * needCount n c.e), brFetch^[needCount n c.e] c) :=
  brNeedLoop_eq_iterate (by omega)

/-- `BR.NEED` within `IN`. -/
theorem readIn_brNeed {n : Nat} {c : InflCtx} (hr : c.e.regs.nextIn.toNat + needCount n c.e ≤ 2 ^ 32) :
    ReadIn c (needCount n c.e) (brNeed n c).2 := by
  rw [brNeed_eq_iterate]
  exact readIn_iterate hr

/-! ## Taking bits (R215, R216, R218) -/

/-- The bits in hand are those that peeking yields, then those that dropping them leaves. -/
theorem heldBits_eq_append {n : Nat} {i : Infl} (h : n ≤ i.cnt) : heldBits i = bitsOf n i.hold ++ heldBits (brDrop n i) := by
  rw [heldBits, heldBits, brDrop_cnt, brDrop_hold, ← bitsOf_append, Nat.add_sub_cancel' h]

theorem heldBits_brDrop {n : Nat} {i : Infl} (h : n ≤ i.cnt) : heldBits (brDrop n i) = (heldBits i).drop n := by
  rw [heldBits_eq_append h, List.drop_left' (bitsOf_length _ _)]

theorem brAlign_cnt_mod (i : Infl) : (brAlign i).cnt % 8 = 0 := by
  rw [brAlign, brDrop_cnt]
  omega

end Sys2Proof.Machine

open Sys2Proof Sys2Proof.Machine

/-- Settles O32: `BR.NEED` is that many fetches, one on top of the other. -/
theorem bitReaderNeeds : Obligations.BitReaderNeeds := by
  intro n s hn a k hr
  have hread : ReadIn ⟨s.infl, s.bus⟩ k (brNeed n ⟨s.infl, s.bus⟩).2 := readIn_brNeed hr
  obtain ⟨hmoved, hcons, hprod⟩ := hread.moved (Nat.min_le_right _ _)
  refine ⟨_, if_pos hn, ?_, hmoved, hcons, hprod, hread.inMem, hread.outMem, ?_⟩
  · show (if (brNeed n ⟨s.infl, s.bus⟩).1 then Yield.nothing else .suspended) = _
    rw [brNeed_eq_iterate]
    exact if_congr decide_eq_true_iff rfl rfl
  · show { s with infl := (brNeed n ⟨s.infl, s.bus⟩).2.e, bus := _, result := _ } = _
    rw [hread.frame, hread.hold, hread.cnt, hread.hcrc]
    rfl

/-- Settles O33: peeking and dropping are `hold` modulo and divided by a power of two. -/
theorem bitReaderTakes : Obligations.BitReaderTakes := by
  intro s
  refine ⟨fun k n h => if_pos h, fun n h => ⟨_, if_pos h, heldBits_brDrop h, rfl⟩, fun n hn => ⟨_, if_pos hn, ?_⟩,
    _, rfl, brAlign_cnt_mod _, heldBits_brDrop (Nat.mod_le _ _), rfl⟩
  refine (if_pos hn).trans ?_
  cases (brNeed n ⟨s.infl, s.bus⟩).1 with
  | true => rfl
  | false => rfl

end

section
/-! PROOFS. The round trip of bit I/O (R220): a sequence of fields and alignments is a stream of bits that depends on where it
begins in a byte; the writer appends that stream, and a reader that stands before it takes it, operation by operation. -/

namespace Sys2Proof.Machine

/-! ## A sequence of operations as bits -/

/-- The bits of an operation that begins `p` bits into the stream. -/
def BitOp.bits (p : Nat) : BitOp → List Bool
  | .field v n => bitsOf n v.toNat
  | .align => List.replicate ((8 - p % 8) % 8) false

/-- The bits of operations one after another, the first of which begins `p` bits into the stream. -/
def opsBits : Nat → List BitOp → List Bool
  | _, [] => []
  | p, o :: ops => o.bits p ++ opsBits (p + (o.bits p).length) ops

theorem opsBits_append (p : Nat) (xs ys : List BitOp) :
    opsBits p (xs ++ ys) = opsBits p xs ++ opsBits (p + (opsBits p xs).length) ys := by
  induction xs generalizing p with
  | nil => rfl
  | cons o xs ih => simp only [List.cons_append, opsBits, ih, List.append_assoc, List.length_append, Nat.add_assoc]

/-- A sequence that ends with an alignment ends at a byte boundary. -/
theorem opsBits_align_mod (p : Nat) (ops : List BitOp) : (p + (opsBits p (ops ++ [.align])).length) % 8 = 0 := by
  rw [opsBits_append, List.length_append]
  simp only [opsBits, BitOp.bits, List.append_nil, List.length_replicate]
  omega

theorem runInstrs_cons {i : Instr} {is : List Instr} {s t u : State} {ys : List Yield} (h : exec i s = .next t)
    (hr : runInstrs is t = some (u, ys)) : runInstrs (i :: is) s = some (u, t.result :: ys) := by
  simp only [runInstrs, h, hr, Option.map_some]

/-! ## The writer -/

theorem exec_write {o : BitOp} (ho : o.ok) {s : State} (h : s.defl.BitsOk) :
    ∃ t, exec o.write s = .next t ∧ t.defl.BitsOk ∧
      writtenBits t.defl = writtenBits s.defl ++ o.bits (writtenBits s.defl).length := by
  cases o with
  | field v n => exact ⟨_, if_pos ho, h.bwPut ho.2, writtenBits_bwPut h.2 _ _⟩
  | align =>
    refine ⟨_, rfl, h.bwAlign, (writtenBits_bwAlign h).trans ?_⟩
    rw [BitOp.bits, writtenBits_length_mod h.1]

theorem runInstrs_write {ops : List BitOp} (ho : ∀ o ∈ ops, o.ok) {s : State} (h : s.defl.BitsOk) :
    ∃ t ys, runInstrs (ops.map BitOp.write) s = some (t, ys) ∧ t.defl.BitsOk ∧
      writtenBits t.defl = writtenBits s.defl ++ opsBits (writtenBits s.defl).length ops := by
  induction ops generalizing s with
  | nil => exact ⟨s, [], rfl, h, (List.append_nil _).symm⟩
  | cons o ops ih =>
    obtain ⟨hhead, htail⟩ := List.forall_mem_cons.1 ho
    obtain ⟨t, ht, hok, hbits⟩ := exec_write hhead h
    obtain ⟨u, ys, hrun, huok, hubits⟩ := ih htail hok
    refine ⟨u, _, runInstrs_cons ht hrun, huok, ?_⟩
    rw [hubits, hbits, opsBits, List.length_append, List.append_assoc]

/-! ## The reader -/

/-- `bits` is all that the reader has left, in hand and in its input, and it stands `p` bits into the stream. -/
structure Unread (p : Nat) (c : InflCtx) (bits : List Bool) : Prop where
  fits : c.e.hold < 2 ^ c.e.cnt
  room : c.e.regs.nextIn.toNat + c.e.regs.availIn.toNat ≤ 2 ^ 32
  place : (p + c.e.cnt) % 8 = 0
  bits_eq : heldBits c.e ++ streamBits (nextBytes c c.e.regs.availIn.toNat) = bits

section
variable {p : Nat} {c : InflCtx} {bits : List Bool}

theorem Unread.of_empty (hc : c.e.cnt = 0) (hh : c.e.hold = 0) (hr : c.e.regs.nextIn.toNat + c.e.regs.availIn.toNat ≤ 2 ^ 32) :
    Unread 0 c (streamBits (nextBytes c c.e.regs.availIn.toNat)) where
  fits := by rw [hh, hc]; decide
  room := hr
  place := by rw [hc]
  bits_eq := by rw [heldBits, hc, bitsOf_zero, List.nil_append]

/-- Fetched bytes stay in the stream: they move from the input into the hand. -/
theorem Unread.readIn (h : Unread p c bits) {k : Nat} (hk : k ≤ c.e.regs.availIn.toNat) {d : InflCtx} (hr : ReadIn c k d) :
    Unread p d bits := by
  have hroom := h.room
  have hlen : (nextBytes c k).length = k := bytesAt_length _ _ _
  have havail := hr.availIn_toNat hk
  have hheld : heldBits d.e = heldBits c.e ++ streamBits (nextBytes c k) := by
    rw [heldBits, hr.hold, hr.cnt, bitsOf_add_mul h.fits, streamBits_eq_bitsOf, hlen, heldBits]
  have hrest : nextBytes c c.e.regs.availIn.toNat = nextBytes c k ++ nextBytes d d.e.regs.availIn.toNat := by
    rw [havail, ← Nat.add_sub_cancel' hk, nextBytes, bytesAt_add, Nat.add_sub_cancel_left, nextBytes, nextBytes, hr.inMem]
    rcases Nat.lt_or_ge k c.e.regs.availIn.toNat with hlt | hge
    · rw [hr.nextIn (by omega)]
    · rw [Nat.sub_eq_zero_of_le hge, bytesAt_zero, bytesAt_zero]
  refine ⟨?_, ?_, ?_, ?_⟩
  · rw [hr.hold, hr.cnt]
    refine add_mul_two_pow_lt h.fits ?_
    have hlt := leNat_lt (nextBytes c k)
    rwa [hlen, pow_256] at hlt
  · have := hr.nextIn
    have := d.e.regs.nextIn.isLt
    omega
  · have := h.place
    rw [hr.cnt]
    omega
  · rw [hheld, List.append_assoc, ← streamBits_append, ← hrest, h.bits_eq]

/-- `BR.NEED` of no more bits than are left does not suspend. -/
theorem Unread.brNeed (h : Unread p c bits) {n : Nat} (hn : n ≤ bits.length) :
    (brNeed n c).1 = true ∧ n ≤ (brNeed n c).2.e.cnt ∧ Unread p (brNeed n c).2 bits := by
  have hroom := h.room
  have hk : needCount n c.e ≤ c.e.regs.availIn.toNat := Nat.min_le_right _ _
  have hr : ReadIn c (needCount n c.e) (Machine.brNeed n c).2 := readIn_brNeed (by omega)
  have henough : n ≤ c.e.cnt + 8 * needCount n c.e := by
    rw [← h.bits_eq, List.length_append, heldBits, bitsOf_length, streamBits_length, bytesAt_length] at hn
    rw [needCount]
    omega
  exact ⟨by rw [brNeed_eq_iterate]; exact decide_eq_true henough, hr.cnt ▸ henough, h.readIn hk hr⟩

/-- Bits in front of what is left are what peeking yields, and dropping them leaves the rest. -/
theorem Unread.split {n v : Nat} (h : Unread p c (bitsOf n v ++ bits)) (hn : n ≤ c.e.cnt) (hv : v < 2 ^ n) :
    brPeek n c.e = v ∧ Unread (p + n) { c with e := brDrop n c.e } bits := by
  have heq := h.bits_eq
  rw [heldBits_eq_append hn, List.append_assoc] at heq
  obtain ⟨hpeek, hrest⟩ := List.append_inj heq (by simp)
  refine ⟨?_, ?_, h.room, ?_, hrest⟩
  · rw [brPeek, ← bitsNum_bitsOf, hpeek, bitsNum_bitsOf, Nat.mod_eq_of_lt hv]
  · refine Nat.div_lt_of_lt_mul ?_
    rw [brDrop_cnt, ← Nat.pow_add, Nat.add_sub_cancel' hn]
    exact h.fits
  · have := h.place
    rw [brDrop_cnt]
    omega

/-- The padding of an alignment is the partial byte in hand. -/
theorem Unread.padding (h : Unread p c bits) : (8 - p % 8) % 8 = c.e.cnt % 8 := by
  have := h.place
  omega

end

theorem exec_read {o : BitOp} (ho : o.ok) {r : State} {p : Nat} {bits : List Bool}
    (h : Unread p ⟨r.infl, r.bus⟩ (o.bits p ++ bits)) :
    ∃ t, exec o.read r = .next t ∧ t.result = o.yielded ∧ Unread (p + (o.bits p).length) ⟨t.infl, t.bus⟩ bits := by
  cases o with
  | field v n =>
    obtain ⟨hn, hv⟩ := ho
    obtain ⟨henough, hcnt, hread⟩ := h.brNeed (n := n) (by simp [BitOp.bits])
    obtain ⟨hpeek, hrest⟩ := hread.split hcnt hv
    refine ⟨_, (if_pos hn).trans (if_pos henough), congrArg Yield.value hpeek, ?_⟩
    rw [BitOp.bits, bitsOf_length]
    exact hrest
  | align =>
    have hzeros : BitOp.bits p .align = bitsOf (r.infl.cnt % 8) 0 := by rw [BitOp.bits, h.padding, bitsOf_zero_right]
    rw [hzeros] at h ⊢
    obtain ⟨-, hrest⟩ := h.split (Nat.mod_le _ _) (Nat.two_pow_pos _)
    refine ⟨_, rfl, rfl, ?_⟩
    rw [bitsOf_length]
    exact hrest

theorem runInstrs_read {ops : List BitOp} (ho : ∀ o ∈ ops, o.ok) {r : State} {p : Nat} {bits : List Bool}
    (h : Unread p ⟨r.infl, r.bus⟩ (opsBits p ops ++ bits)) :
    ∃ r', runInstrs (ops.map BitOp.read) r = some (r', ops.map BitOp.yielded) := by
  induction ops generalizing r p with
  | nil => exact ⟨r, rfl⟩
  | cons o ops ih =>
    obtain ⟨hhead, htail⟩ := List.forall_mem_cons.1 ho
    rw [opsBits, List.append_assoc] at h
    obtain ⟨t, ht, hyield, hrest⟩ := exec_read hhead h
    obtain ⟨u, hu⟩ := ih htail hrest
    exact ⟨u, (runInstrs_cons ht hu).trans (by rw [hyield]; rfl)⟩

end Sys2Proof.Machine

open Sys2Proof Sys2Proof.Machine

/-- Settles O34: the bytes that came out are the bits of the sequence, and a reader before them takes them one by one. -/
theorem bitRoundTrip : Obligations.BitRoundTrip := by
  intro ops s ho hc hb hp
  have hempty : writtenBits s.defl = [] := by rw [writtenBits, hp, hc]; rfl
  have hok : ∀ o ∈ ops ++ [.align], BitOp.ok o := List.forall_mem_append.2 ⟨ho, List.forall_mem_singleton.2 trivial⟩
  obtain ⟨t, ys, hrun, htok, hbits⟩ := runInstrs_write hok (s := s) (by rw [Defl.BitsOk, hc, hb]; decide)
  have hcnt : t.defl.bitCnt = 0 := by
    have := opsBits_align_mod 0 ops
    rw [← writtenBits_length_mod htok.1, hbits, hempty]
    simpa using this
  rw [writtenBits_aligned hcnt, hempty, List.nil_append, opsBits_append] at hbits
  refine ⟨t, ys, by rwa [List.map_append] at hrun, fun r h0 hh hroom ha hbytes => ?_⟩
  have hr := Unread.of_empty (c := ⟨r.infl, r.bus⟩) h0 hh hroom
  rw [nextBytes, ha, hbytes, hbits] at hr
  exact runInstrs_read ho hr

end

section
/-! PROOFS. Which instructions stop (log 23): a unit operation with an operand outside its stated range, and no stream element
(log 5). -/

namespace Sys2Proof.Machine

theorem inRange_fault {c : Prop} {_ : Decidable c} (h : ¬c) (r : Result) : inRange c r = .fault .operandRange := if_neg h

/-- No length may pass the limit of a code (R340, R442). -/
theorem not_lens_le {lens : Lens} {max l : Nat} (hl : l ∈ lens) (h : max < l) : ¬∀ l ∈ lens, l ≤ max := fun hall =>
  Nat.not_le.2 h (hall l hl)

/-- With no byte ahead and nothing deferred no rule of the tokeniser applies (R302 to R306). -/
theorem not_canLzStep {d : Defl} (hp : dataEnd d ≤ d.pos) (hd : d.deferred.valid = false) : ¬canLzStep d = true := by
  simp [canLzStep, hd, hp]

theorem execStoredRaw_next (b : Byte) (s : State) : ∃ t, execStoredRaw b s = .next t := by
  unfold execStoredRaw
  split_ifs
  · exact ⟨_, rfl⟩
  · exact ⟨_, rfl⟩
  · exact (streamBytes_next _ s).imp fun _ h => h.1

theorem execStolen_next (len nlen : BitVec 16) (s : State) : ∃ t, execStolen len nlen s = .next t := element_next _ _ _ _

theorem execSyncMarker_next (s : State) : ∃ t, execSyncMarker s = .next t := element_next _ _ _ _

theorem execPartialMarker_next (s : State) : ∃ t, execPartialMarker s = .next t := element_next _ _ _ _

theorem execEmptyFinal_next (s : State) : ∃ t, execEmptyFinal s = .next t := element_next _ _ _ _

theorem lenElement_next (k x : Nat) (i : Instr) (s : State) : ∃ t, lenElement k x i s = .next t :=
  symbolElement_next _ _ _ _ _ _ _

theorem distElement_next (k x : Nat) (i : Instr) (s : State) : ∃ t, distElement k x i s = .next t :=
  symbolElement_next _ _ _ _ _ _ _

/-- Every stream element answers a next state: where it is not taken as itself, the stage takes its bytes (log 5). -/
theorem exec_element_next {i : Instr} {fmt : Fmt} (h : i.port = .element fmt) (s : State) : ∃ t, exec i s = .next t := by
  cases i with
  | storedRaw b => exact execStoredRaw_next b s
  | blkhdrStored _ | blkhdrFixed _ | blkhdrDynamic _ | blkhdrReserved _ | dynhdr _ _ _ | cllen _ | zhdr _ _
  | zdictid _ | ztrl _ | gzMagic _ _ | gzCmflg _ _ | gzMtime _ | gzXflos _ _ | gzXlen _ | gzExtra _ | gzName _
  | gzComment _ | gzHcrc _ | gzCrc32 _ | gzIsize _ => exact element_next _ _ _ _
  | stolen len nlen => exact execStolen_next len nlen s
  | syncMarker => exact execSyncMarker_next s
  | partialMarker => exact execPartialMarker_next s
  | emptyFinal => exact execEmptyFinal_next s
  | clsymLen _ | clsymRep16 _ | clsymZero17 _ | clsymZero18 _ | lit _ | eob | llsymReserved _ | dsymReserved _ =>
    exact symbolElement_next _ _ _ _ _ _ _
  | len257 | len258 | len259 | len260 | len261 | len262 | len263 | len264 | len265 _ | len266 _ | len267 _ | len268 _
  | len269 _ | len270 _ | len271 _ | len272 _ | len273 _ | len274 _ | len275 _ | len276 _ | len277 _ | len278 _ | len279 _
  | len280 _ | len281 _ | len282 _ | len283 _ | len284 _ | len285 => exact lenElement_next _ _ _ s
  | dist0 | dist1 | dist2 | dist3 | dist4 _ | dist5 _ | dist6 _ | dist7 _ | dist8 _ | dist9 _ | dist10 _ | dist11 _
  | dist12 _ | dist13 _ | dist14 _ | dist15 _ | dist16 _ | dist17 _ | dist18 _ | dist19 _ | dist20 _ | dist21 _ | dist22 _
  | dist23 _ | dist24 _ | dist25 _ | dist26 _ | dist27 _ | dist28 _ | dist29 _ => exact distElement_next _ _ _ s
  | _ => nomatch h

end Sys2Proof.Machine

open Sys2Proof Sys2Proof.Machine

/-- Settles O35: an operand out of range fails its guard; an element out of its place is bytes of a `WRITE`. -/
theorem namedFaults : Obligations.NamedFaults := by
  refine ⟨fun s => ⟨fun _ _ h => inRange_fault h _, fun _ _ h => inRange_fault h _, fun n h => ?_, fun _ _ h => ?_, fun _ h => ?_,
    fun _ _ h => ?_, fun _ _ _ hl h => ?_, fun hp hd => ?_⟩, fun _ s _ h => exec_element_next h s⟩
  · exact ⟨inRange_fault (Nat.not_le.2 h) _, inRange_fault (Nat.not_le.2 h) _⟩
  · exact inRange_fault (Nat.not_le.2 h) _
  · exact inRange_fault (Nat.not_le.2 h) _
  · exact inRange_fault (Nat.not_le.2 h) _
  · exact ⟨inRange_fault (not_lens_le hl h) _, fun _ => inRange_fault (not_lens_le hl h) _⟩
  · exact inRange_fault (not_canLzStep hp hd) _

end

section
/-! PROOFS. The updates of `CKS` (R241, R242): the loop is a fold of the step over the run, with the cursor moved past it. -/

namespace Sys2Proof.Machine

/-! ## The cursor and the run under it -/

theorem bytesAt_succ (m : Memory) (a n : Nat) : bytesAt m a (n + 1) = memRead m a :: bytesAt m (a + 1) n := by
  rw [Nat.add_comm, bytesAt_add]
  rfl

/-- Past one byte of a run the cursor stands at the rest of it; what it is behind the whole run does not count (log 8). -/
theorem cursorNext_run {a : Word} {n : Nat} (ctr : Nat) (m : Memory) (h : a.toNat + (n + 1) ≤ 2 ^ 32) :
    (cursorNext ctr a).toNat + n ≤ 2 ^ 32 ∧ bytesAt m (cursorNext ctr a).toNat n = bytesAt m (a.toNat + 1) n := by
  cases n with
  | zero => exact ⟨(cursorNext ctr a).isLt.le, rfl⟩
  | succ n =>
    rw [cursorNext_toNat ctr (by omega)]
    exact ⟨by omega, rfl⟩

/-! ## The loop -/

/-- `CKS` with its cursor set. -/
def cksAt (a n : Word) (c : Cks) : Cks := { c with nextIn := a, availIn := n }

/-- A step of a checksum neither reads nor moves the cursor. -/
def OffCursor (step : Cks → Byte → Cks) : Prop := ∀ a n c b, step (cksAt a n c) b = cksAt a n (step c b)

theorem OffCursor.foldl {step : Cks → Byte → Cks} (h : OffCursor step) (a n : Word) (c : Cks) (bs : List Byte) :
    bs.foldl step (cksAt a n c) = cksAt a n (bs.foldl step c) :=
  List.foldl_hom (cksAt a n) (h a n)

theorem cksLoop_succ {step : Cks → Byte → Cks} (hs : OffCursor step) (n : Nat) (c : Cks) (b : Bus) :
    cksLoop step (n + 1) (c, b) =
      cksLoop step n (cksAt (cursorNext b.freeCtr c.nextIn) (c.availIn - 1) (step c (memRead b.inMem c.nextIn.toNat)),
        tickFree c.nextIn b) :=
  congrArg (fun d => cksLoop step n (d, tickFree c.nextIn b)) (hs _ _ _ _)

/-- The loop over a run folds the step over its bytes and moves the cursor past it (R241, R242). -/
theorem cksLoop_eq_foldl {step : Cks → Byte → Cks} (hs : OffCursor step) {n : Nat} {c : Cks} {b : Bus}
    (hr : c.nextIn.toNat + n ≤ 2 ^ 32) :
    ∃ a, (cksLoop step n (c, b)).1 =
        cksAt a (c.availIn - BitVec.ofNat 32 n) ((bytesAt b.inMem c.nextIn.toNat n).foldl step c) ∧
      (c.nextIn.toNat + n < 2 ^ 32 → a = c.nextIn + BitVec.ofNat 32 n) := by
  induction n generalizing c b with
  | zero => exact ⟨c.nextIn, by simp [cksLoop, cksAt], fun _ => by simp⟩
  | succ n ih =>
    obtain ⟨hrest, hbytes⟩ := cursorNext_run b.freeCtr b.inMem hr
    obtain ⟨a, hloop, ha⟩ := ih
      (c := cksAt (cursorNext b.freeCtr c.nextIn) (c.availIn - 1) (step c (memRead b.inMem c.nextIn.toNat)))
      (b := tickFree c.nextIn b) hrest
    refine ⟨a, ?_, fun hlt => ?_⟩
    · rw [cksLoop_succ hs, hloop, hs.foldl, tickFree_inMem, bytesAt_succ, List.foldl_cons, BitVec.ofNat_add, BitVec.add_comm,
        ← BitVec.sub_sub, ← hbytes]
      rfl
    · have hone := cursorNext_toNat b.freeCtr (a := c.nextIn) (by omega)
      refine (ha (by rw [cksAt, hone]; omega)).trans (BitVec.eq_of_toNat_eq ?_)
      simp only [cksAt, BitVec.toNat_add, hone, BitVec.toNat_ofNat]
      omega

/-! ## An update -/

theorem cksUpdate_past {step : Cks → Byte → Cks} {s : State} (h : ¬s.cks.nextIn.toNat + s.cks.availIn.toNat ≤ 2 ^ 32) :
    cksUpdate step s = .next (cksReturn .streamError s) :=
  if_pos (Nat.lt_of_not_le h)

theorem cksUpdate_fits {step : Cks → Byte → Cks} (hs : OffCursor step) {s : State}
    (h : s.cks.nextIn.toNat + s.cks.availIn.toNat ≤ 2 ^ 32) :
    ∃ a b, cksUpdate step s = .next { s with
        cks := { cksAt a 0 ((bytesAt s.bus.inMem s.cks.nextIn.toNat s.cks.availIn.toNat).foldl step s.cks) with ec := .ok }
        bus := b } ∧
      (s.cks.nextIn.toNat + s.cks.availIn.toNat < 2 ^ 32 → a = s.cks.nextIn + s.cks.availIn) ∧
      b.inMem = s.bus.inMem ∧ b.outMem = s.bus.outMem := by
  obtain ⟨a, hloop, ha⟩ := cksLoop_eq_foldl hs (b := s.bus) h
  rw [BitVec.ofNat_toNat, BitVec.setWidth_eq] at hloop ha
  rw [BitVec.sub_self] at hloop
  refine ⟨a, (cksLoop step s.cks.availIn.toNat (s.cks, s.bus)).2, (if_neg (Nat.not_lt.2 h)).trans ?_, ha,
    cksLoop_memory step _ (s.cks, s.bus)⟩
  rw [BitVec.ofNat_eq_ofNat, ← hloop]

/-! ## The two sums -/

/-- One byte into the Adler-32 of the port (R241). -/
def Cks.addAdler (c : Cks) (b : Byte) : Cks := { c with adler := adlerStep c.adler b }

/-- One byte into the CRC-32 of the port (R242). -/
def Cks.addCrc (c : Cks) (b : Byte) : Cks := { c with crc := crcStep c.crc b }

theorem exec_cksAdlerUpdate (s : State) : exec .cksAdlerUpdate s = cksUpdate Cks.addAdler s := rfl

theorem exec_cksCrcUpdate (s : State) : exec .cksCrcUpdate s = cksUpdate Cks.addCrc s := rfl

theorem foldl_addAdler (bs : List Byte) (c : Cks) :
    bs.foldl Cks.addAdler c = { c with adler := bs.foldl adlerStep c.adler } :=
  List.foldl_hom (fun v => { c with adler := v }) fun _ _ => rfl

theorem foldl_addCrc (bs : List Byte) (c : Cks) : bs.foldl Cks.addCrc c = { c with crc := bs.foldl crcStep c.crc } :=
  List.foldl_hom (fun v => { c with crc := v }) fun _ _ => rfl

end Sys2Proof.Machine

open Sys2Proof Sys2Proof.Machine

/-- Settles O28: past the region check an update folds its step over the run. -/
theorem cksUpdates : Obligations.CksUpdates := by
  refine fun s => ⟨fun hpast => ⟨cksUpdate_past hpast, cksUpdate_past hpast⟩, fun hfits => ⟨?_, ?_⟩⟩
  · obtain ⟨a, b, hu, ha, hin, hout⟩ := cksUpdate_fits (step := Cks.addAdler) (fun _ _ _ _ => rfl) hfits
    rw [foldl_addAdler] at hu
    exact ⟨_, hu, rfl, rfl, rfl, rfl, rfl, ha, hin, hout⟩
  · obtain ⟨a, b, hu, ha, hin, hout⟩ := cksUpdate_fits (step := Cks.addCrc) (fun _ _ _ _ => rfl) hfits
    rw [foldl_addCrc] at hu
    exact ⟨_, hu, rfl, rfl, rfl, rfl, rfl, ha, hin, hout⟩

end

section
/-! PROOFS. The two checksums (R232, R237): the CRC table step as eight conditional shifts of the register, and Adler-32 in
closed form. -/

namespace Sys2Proof.Machine

/-! ## The conditional shift (R238) -/

/-- One conditional shift of those that make a table entry (R238). -/
def crcHalf (c : Word) : Word := if c.getLsbD 0 then (c >>> 1) ^^^ 0xEDB88320 else c >>> 1

@[simp] theorem crcShift_zero (c : Word) : crcShift 0 c = c := rfl

@[simp] theorem crcShift_succ (k : Nat) (c : Word) : crcShift (k + 1) c = crcShift k (crcHalf c) := rfl

theorem crcHalf_eq_div (c : Word) : crcHalf c = if c % 2 = 1 then (c / 2) ^^^ 0xEDB88320 else c / 2 := by
  have hbit : c.getLsbD 0 = true ↔ c % 2 = 1 := by
    rw [BitVec.getLsbD, Nat.testBit_zero, decide_eq_true_iff, ← BitVec.toNat_inj]
    rfl
  have hdiv : c >>> 1 = c / 2 := BitVec.eq_of_toNat_eq (by simp [Nat.shiftRight_eq_div_pow])
  simp only [crcHalf, hbit, hdiv]

theorem crcShift_eq_iterate (k : Nat) (c : Word) : crcShift k c = crcHalf^[k] c := by
  induction k generalizing c with
  | zero => rfl
  | succ k ih => rw [crcShift_succ, ih, Function.iterate_succ_apply]

theorem crcShift_eq_foldl (k : Nat) (c : Word) : crcShift k c =
    (List.range k).foldl (fun x _ => if x % 2 = 1 then (x / 2) ^^^ 0xEDB88320 else x / 2) c := by
  simp only [← crcHalf_eq_div, List.foldl_const, List.length_range, crcShift_eq_iterate]

/-! ## The table step is eight conditional shifts of the register (R237) -/

theorem crcHalf_xor (x y : Word) : crcHalf (x ^^^ y) = crcHalf x ^^^ crcHalf y := by
  unfold crcHalf
  rw [BitVec.getLsbD_xor, BitVec.ushiftRight_xor_distrib]
  cases x.getLsbD 0 <;> cases y.getLsbD 0
  · rfl
  · exact BitVec.xor_assoc _ _ _
  · show (x >>> 1 ^^^ y >>> 1) ^^^ 0xEDB88320 = (x >>> 1 ^^^ 0xEDB88320) ^^^ y >>> 1
    ac_rfl
  · calc x >>> 1 ^^^ y >>> 1
        = (x >>> 1 ^^^ y >>> 1) ^^^ ((0xEDB88320 : Word) ^^^ 0xEDB88320) := (BitVec.xor_zero ..).symm
      _ = (x >>> 1 ^^^ 0xEDB88320) ^^^ (y >>> 1 ^^^ 0xEDB88320) := by ac_rfl

theorem crcShift_xor (k : Nat) (x y : Word) : crcShift k (x ^^^ y) = crcShift k x ^^^ crcShift k y := by
  induction k generalizing x y with
  | zero => rfl
  | succ k ih => rw [crcShift_succ, crcHalf_xor, ih, crcShift_succ, crcShift_succ]

/-- Zeros below are shifted out and change nothing. -/
theorem crcShift_of_low_zero {k : Nat} {x : Word} (h : ∀ i < k, x.getLsbD i = false) : crcShift k x = x >>> k := by
  induction k generalizing x with
  | zero => simp
  | succ k ih =>
    have hhalf : crcHalf x = x >>> 1 := if_neg (by rw [h 0 k.succ_pos]; decide)
    rw [crcShift_succ, hhalf, ih fun i hi => by rw [BitVec.getLsbD_ushiftRight]; exact h _ (by omega),
      ← BitVec.shiftRight_add, Nat.add_comm]

/-- The low bits choose what is mixed in; the high bits only move down. -/
theorem crcShift_split (k : Nat) (c : Word) :
    crcShift k c = crcShift k (BitVec.ofNat 32 (c.toNat % 2 ^ k)) ^^^ (c >>> k) := by
  have hlow : ∀ i < k, (BitVec.ofNat 32 (c.toNat % 2 ^ k) ^^^ c).getLsbD i = false := by
    intro i hi
    rcases Nat.lt_or_ge i 32 with h32 | h32
    · rw [BitVec.getLsbD_xor, BitVec.getLsbD_ofNat, Nat.testBit_mod_two_pow, BitVec.testBit_toNat, decide_eq_true hi,
        decide_eq_true h32, Bool.true_and, Bool.true_and, Bool.xor_self]
    · exact BitVec.getLsbD_of_ge _ _ h32
  have hgone : BitVec.ofNat 32 (c.toNat % 2 ^ k) >>> k = 0#32 := by
    refine BitVec.eq_of_toNat_eq ?_
    have := Nat.mod_lt c.toNat (Nat.two_pow_pos k)
    rw [BitVec.toNat_ushiftRight, BitVec.toNat_ofNat, Nat.shiftRight_eq_div_pow]
    exact Nat.div_eq_of_lt ((Nat.mod_le _ _).trans_lt this)
  calc crcShift k c
      = crcShift k (BitVec.ofNat 32 (c.toNat % 2 ^ k) ^^^ (BitVec.ofNat 32 (c.toNat % 2 ^ k) ^^^ c)) := by
        rw [← BitVec.xor_assoc, BitVec.xor_self, BitVec.zero_xor]
    _ = crcShift k (BitVec.ofNat 32 (c.toNat % 2 ^ k)) ^^^ (c >>> k) := by
        rw [crcShift_xor, crcShift_of_low_zero hlow, BitVec.ushiftRight_xor_distrib, hgone, BitVec.zero_xor]

/-- R237 with R238: the byte xored in, then eight conditional shifts, with the register complemented before and after. -/
theorem crcStep_eq_crcShift (c : Word) (b : Byte) :
    crcStep c b = crcShift 8 ((c ^^^ 0xFFFFFFFF) ^^^ b.zeroExtend 32) ^^^ 0xFFFFFFFF := by
  have hindex : ((c ^^^ 0xFFFFFFFF) ^^^ b.zeroExtend 32).toNat = (c ^^^ 0xFFFFFFFF).toNat ^^^ b.toNat := by
    rw [BitVec.toNat_xor, BitVec.toNat_setWidth, Nat.mod_eq_of_lt (b.isLt.trans (by decide))]
  have hbyte : b.zeroExtend 32 >>> 8 = 0#32 := by
    refine BitVec.eq_of_toNat_eq ?_
    rw [BitVec.toNat_ushiftRight, BitVec.toNat_setWidth, Nat.mod_eq_of_lt (b.isLt.trans (by decide)),
      Nat.shiftRight_eq_div_pow]
    exact Nat.div_eq_of_lt b.isLt
  rw [crcShift_split 8, hindex, BitVec.ushiftRight_xor_distrib, hbyte, BitVec.xor_zero]
  rfl

/-! ## Adler-32 (R232, R233) -/

/-- The low half of a checksum: the running sum of the bytes. -/
def adlerLow (a : Word) : Nat := a.toNat % 65536

/-- The high half of a checksum: the running sum of the low halves. -/
def adlerHigh (a : Word) : Nat := a.toNat / 65536

theorem adlerStep_toNat (a : Word) (b : Byte) : (adlerStep a b).toNat =
    (adlerHigh a + (adlerLow a + b.toNat) % 65521) % 65521 * 65536 + (adlerLow a + b.toNat) % 65521 := by
  refine Nat.mod_eq_of_lt (b := 2 ^ 32) ?_
  simp only [adlerBase]
  omega

theorem adlerLow_adlerStep (a : Word) (b : Byte) : adlerLow (adlerStep a b) = (adlerLow a + b.toNat) % 65521 := by
  rw [adlerLow, adlerStep_toNat]
  omega

theorem adlerHigh_adlerStep (a : Word) (b : Byte) :
    adlerHigh (adlerStep a b) = (adlerHigh a + adlerLow (adlerStep a b)) % 65521 := by
  rw [adlerLow_adlerStep, adlerHigh, adlerStep_toNat]
  omega

/-- Both halves are reduced. -/
def AdlerReduced (a : Word) : Prop := adlerLow a < 65521 ∧ adlerHigh a < 65521

theorem adlerReduced_adlerStep (a : Word) (b : Byte) : AdlerReduced (adlerStep a b) := by
  rw [AdlerReduced, adlerHigh_adlerStep, adlerLow_adlerStep]
  exact ⟨Nat.mod_lt _ (by decide), Nat.mod_lt _ (by decide)⟩

theorem adlerReduced_adler32 {a : Word} (h : AdlerReduced a) (bs : List Byte) : AdlerReduced (adler32 a bs) := by
  induction bs generalizing a with
  | nil => exact h
  | cons b bs ih => exact ih (adlerReduced_adlerStep a b)

/-- The bytes of a run weighed by how many low halves they count in. -/
abbrev adlerWeight (bs : List Byte) : Nat := (bs.mapIdx fun k b => (bs.length - k) * b.toNat).sum

theorem adlerWeight_cons (b : Byte) (bs : List Byte) :
    adlerWeight (b :: bs) = (bs.length + 1) * b.toNat + adlerWeight bs := by
  simp [adlerWeight, List.mapIdx_cons]

theorem adlerLow_adler32 (a : Word) (bs : List Byte) :
    adlerLow (adler32 a bs) ≡ adlerLow a + (bs.map BitVec.toNat).sum [MOD 65521] := by
  induction bs generalizing a with
  | nil => rfl
  | cons b bs ih =>
    calc adlerLow (adler32 (adlerStep a b) bs)
        ≡ adlerLow (adlerStep a b) + (bs.map BitVec.toNat).sum [MOD 65521] := ih _
      _ ≡ adlerLow a + b.toNat + (bs.map BitVec.toNat).sum [MOD 65521] := by
        rw [adlerLow_adlerStep]
        exact (Nat.mod_modEq _ _).add_right _
      _ = adlerLow a + ((b :: bs).map BitVec.toNat).sum := by rw [List.map_cons, List.sum_cons, Nat.add_assoc]

theorem adlerHigh_adler32 (a : Word) (bs : List Byte) :
    adlerHigh (adler32 a bs) ≡ adlerHigh a + bs.length * adlerLow a + adlerWeight bs [MOD 65521] := by
  induction bs generalizing a with
  | nil => simp [adler32, adlerWeight, Nat.ModEq.refl]
  | cons b bs ih =>
    have hlow : adlerLow (adlerStep a b) ≡ adlerLow a + b.toNat [MOD 65521] := by
      rw [adlerLow_adlerStep]
      exact Nat.mod_modEq _ _
    have hhigh : adlerHigh (adlerStep a b) ≡ adlerHigh a + (adlerLow a + b.toNat) [MOD 65521] := by
      rw [adlerHigh_adlerStep]
      exact (Nat.mod_modEq _ _).trans (hlow.add_left _)
    calc adlerHigh (adler32 (adlerStep a b) bs)
        ≡ adlerHigh (adlerStep a b) + bs.length * adlerLow (adlerStep a b) + adlerWeight bs [MOD 65521] := ih _
      _ ≡ adlerHigh a + (adlerLow a + b.toNat) + bs.length * (adlerLow a + b.toNat) + adlerWeight bs [MOD 65521] := by
        gcongr
      _ = adlerHigh a + (b :: bs).length * adlerLow a + adlerWeight (b :: bs) := by
        rw [adlerWeight_cons, List.length_cons]
        ring

/-- From the seed 1 the halves are the two sums reduced (R233). -/
theorem adler32_one_eq_sums (bs : List Byte) :
    adlerLow (adler32 1 bs) = (1 + (bs.map BitVec.toNat).sum) % 65521 ∧
      adlerHigh (adler32 1 bs) = (bs.length + adlerWeight bs) % 65521 := by
  obtain ⟨hlow, hhigh⟩ := adlerReduced_adler32 (a := 1) ⟨by decide, by decide⟩ bs
  refine ⟨(Nat.mod_eq_of_modEq (adlerLow_adler32 1 bs).symm hlow).symm, (Nat.mod_eq_of_modEq ?_ hhigh).symm⟩
  simpa [adlerLow, adlerHigh] using (adlerHigh_adler32 1 bs).symm

end Sys2Proof.Machine

open Sys2Proof Sys2Proof.Machine

/-- Settles O29: the conditional shifts are linear, so the table takes the low byte apart; the halves of Adler-32 add up along
the run. -/
theorem checksums : Obligations.Checksums := by
  refine ⟨⟨fun a b s => ?_, fun c b s => ?_, crcShift_eq_foldl 8, by decide, by decide, by decide, by decide⟩,
    adler32_one_eq_sums, fun a xs ys => ⟨List.foldl_append.symm, List.foldl_append.symm⟩, fun a b s => ⟨rfl, rfl, rfl⟩⟩
  · exact congrArg (fun n => Host.Outcome.next { s with result := .value n }) (adlerStep_toNat a b)
  · exact congrArg (fun w : Word => Host.Outcome.next { s with result := .value w.toNat }) (crcStep_eq_crcShift c b)

end

section
/-! PROOFS. The encode side of the header codec (R255 to R265): the bytes of the three operations, and that the decode-side
checks (R269, R272) accept the two headers. -/

namespace Sys2Proof.Machine

/-! ## What the three operations do to the state -/

/-- A state after an operation that puts bytes behind those pending and yields nothing. -/
def withPending (bs : List Byte) (s : State) : State :=
  { s with defl := { s.defl with pending := s.defl.pending ++ bs }, result := .nothing }

theorem exec_hdrZenc (s : State) : exec .hdrZenc s = .next (withPending [BitVec.ofNat 8 (zencCmf s.defl.wbits),
    BitVec.ofNat 8 (zencFlg s.defl.wbits (flevel s.defl.strategy s.defl.level))] s) := rfl

theorem exec_hdrGzenc (s : State) : exec .hdrGzenc s =
    .next (withPending (gzHeader s.params.gzHdr s.defl.strategy s.defl.level) s) := rfl

theorem exec_hdrTrailer (s : State) : exec .hdrTrailer s =
    .next (withPending (trailerBytes s.defl.wrap s.defl.check s.defl.isize) s) := rfl

/-! ## The zlib header (R255, R256) -/

theorem flevel_le (strategy : Strategy) (level : Nat) : flevel strategy level ≤ 3 := by
  unfold flevel
  split_ifs <;> decide

theorem zencCmf_lt {wbits : Nat} (h : wbits ≤ 15) : zencCmf wbits < 256 := by
  unfold zencCmf
  omega

theorem zencCmf_method (wbits : Nat) : zencCmf wbits % 16 = 8 := by
  unfold zencCmf
  omega

theorem zencCmf_window {wbits : Nat} (h : 8 ≤ wbits) : zencCmf wbits / 16 + 8 = wbits := by
  unfold zencCmf
  omega

theorem zencFlg_lt {fl : Nat} (wbits : Nat) (h : fl ≤ 3) : zencFlg wbits fl < 256 := by
  unfold zencFlg
  omega

/-- `FLEVEL` stands above five check bits and the dictionary bit. -/
theorem zencFlg_dictBit (wbits fl : Nat) : zencFlg wbits fl / 32 % 2 = 0 := by
  have hcheck : 31 - (zencCmf wbits * 256 + fl * 64) % 31 < 32 := by omega
  unfold zencFlg
  generalize 31 - _ = check at hcheck ⊢
  omega

/-- The check bits complete a multiple of 31. -/
theorem zencCmf_zencFlg_mod (wbits fl : Nat) : (zencCmf wbits * 256 + zencFlg wbits fl) % 31 = 0 := by
  unfold zencFlg
  omega

theorem zhdrCheck_eq_none {cmf flg : Byte} {w : Nat} (hsum : (cmf.toNat * 256 + flg.toNat) % 31 = 0)
    (hmethod : cmf.toNat % 16 = 8) (hwindow : cmf.toNat / 16 + 8 ≤ w) : zhdrCheck cmf flg w = none := by
  rw [zhdrCheck, if_neg (not_not_intro hsum), if_neg (not_not_intro hmethod), if_neg (Nat.not_lt.2 hwindow)]

/-! ## The gzip header (R260, R262) -/

/-- Five flags of weight 1 to 16: the three reserved bits stay 0. -/
theorem gzFlg_lt (g : GzHdr) : gzFlg g < 32 := by
  unfold gzFlg
  linarith only [Bool.toNat_le g.text, Bool.toNat_le g.hcrc, Bool.toNat_le g.extra.isSome, Bool.toNat_le g.name.isSome,
    Bool.toNat_le g.comment.isSome]

theorem gzFlg_eq_ite (g : GzHdr) : gzFlg g =
    (if g.text then 1 else 0) + (if g.hcrc then 2 else 0) + (if g.extra.isSome then 4 else 0) +
      (if g.name.isSome then 8 else 0) + (if g.comment.isSome then 16 else 0) := by
  have h (w : Nat) (b : Bool) : (if b then w else 0) = w * b.toNat := by cases b <;> simp
  simp only [h, gzFlg, Nat.one_mul]

theorem gzCmflgCheck_gzFlg (g : GzHdr) : gzCmflgCheck 8 (BitVec.ofNat 8 (gzFlg g)) = none := by
  have hflg : (BitVec.ofNat 8 (gzFlg g)).toNat / 32 = 0 := by
    have := gzFlg_lt g
    rw [BitVec.toNat_ofNat]
    omega
  rw [gzCmflgCheck, if_neg (not_not_intro rfl), if_neg (not_not_intro hflg)]

theorem leBytes_mod (m a : Nat) : leBytes m (a % 256 ^ m) = leBytes m a := by
  have hlen : m = (leBytes m a).length := (Laws.leBytes_length m a).symm
  calc leBytes m (a % 256 ^ m)
      = leBytes m (leNat (leBytes m a)) := by rw [leNat_leBytes]
    _ = (leBytes m a).take m := leBytes_leNat hlen.le
    _ = leBytes m a := List.take_of_length_le hlen.ge

theorem gzHeader_eq (g : GzHdr) (strategy : Strategy) (level : Nat) : gzHeader g strategy level =
    gzFixed g strategy level ++ if g.hcrc then leBytes 2 (crc32 0 (gzFixed g strategy level)).toNat else [] := by
  have hcrc : leBytes 2 ((crc32 0 (gzFixed g strategy level)).toNat % 65536) = _ := leBytes_mod 2 _
  rw [gzHeader, hcrc]
  split_ifs
  · rfl
  · exact (List.append_nil _).symm

/-- The ten bytes every header has. -/
def gzTen (g : GzHdr) (strategy : Strategy) (level : Nat) : List Byte :=
  [0x1F, 0x8B, 8, BitVec.ofNat 8 (gzFlg g)] ++ leBytes 4 g.mtime.toNat ++ [g.xfl.getD (xflOf strategy level), g.os]

/-- The optional fields that are present. -/
def gzOptional (g : GzHdr) : List Byte :=
  (g.extra.elim [] fun x => leBytes 2 x.length ++ x) ++ (g.name.elim [] fun x => x ++ [0]) ++
    (g.comment.elim [] fun x => x ++ [0])

theorem gzTen_length (g : GzHdr) (strategy : Strategy) (level : Nat) : (gzTen g strategy level).length = 10 := rfl

theorem gzFixed_eq (g : GzHdr) (strategy : Strategy) (level : Nat) :
    gzFixed g strategy level = gzTen g strategy level ++ gzOptional g := by
  rw [gzFixed, gzOptional, ← List.append_assoc, ← List.append_assoc]
  refine congrArg₂ _ (congrArg₂ _ (congrArg (gzTen g strategy level ++ ·) ?_) ?_) ?_
  · cases g.extra <;> rfl
  · cases g.name <;> rfl
  · cases g.comment <;> rfl

/-! ## The trailer (R265) -/

theorem leBytes_four (a : Nat) : leBytes 4 a =
    [BitVec.ofNat 8 (a / 256 ^ 0), BitVec.ofNat 8 (a / 256 ^ 1), BitVec.ofNat 8 (a / 256 ^ 2), BitVec.ofNat 8 (a / 256 ^ 3)] := by
  simp only [leBytes, Nat.div_div_eq_div_mul, Nat.pow_zero, Nat.div_one, Nat.reduceMul, Nat.reducePow]

theorem trailerBytes_zlib (check isize : Word) : trailerBytes .zlib check isize =
    [BitVec.ofNat 8 (check.toNat / 256 ^ 3), BitVec.ofNat 8 (check.toNat / 256 ^ 2), BitVec.ofNat 8 (check.toNat / 256 ^ 1),
      BitVec.ofNat 8 (check.toNat / 256 ^ 0)] := by
  rw [trailerBytes, beBytes, leBytes_four]
  rfl

theorem trailerBytes_gzip (check isize : Word) : trailerBytes .gzip check isize =
    [BitVec.ofNat 8 (check.toNat / 256 ^ 0), BitVec.ofNat 8 (check.toNat / 256 ^ 1), BitVec.ofNat 8 (check.toNat / 256 ^ 2),
      BitVec.ofNat 8 (check.toNat / 256 ^ 3), BitVec.ofNat 8 (isize.toNat / 256 ^ 0), BitVec.ofNat 8 (isize.toNat / 256 ^ 1),
      BitVec.ofNat 8 (isize.toNat / 256 ^ 2), BitVec.ofNat 8 (isize.toNat / 256 ^ 3)] := by
  rw [trailerBytes, leBytes_four, leBytes_four]
  rfl

end Sys2Proof.Machine

open Sys2Proof Sys2Proof.Machine

/-- Settles O36: the two bytes are `CMF` and `FLG` as the rule sums them, and each test of the decode side is read off them. -/
theorem zlibHeader : Obligations.ZlibHeader := by
  intro s hlo hhi d fl
  have hcmf : (BitVec.ofNat 8 (zencCmf d.wbits)).toNat = zencCmf d.wbits := Nat.mod_eq_of_lt (zencCmf_lt hhi)
  have hflg : (BitVec.ofNat 8 (zencFlg d.wbits fl)).toNat = zencFlg d.wbits fl :=
    Nat.mod_eq_of_lt (zencFlg_lt _ (flevel_le _ _))
  have hsum := zencCmf_zencFlg_mod d.wbits fl
  have hdict := zencFlg_dictBit d.wbits fl
  have hmethod := zencCmf_method d.wbits
  have hwindow := zencCmf_window (Nat.le_of_succ_le hlo)
  rw [← hflg] at hsum hdict
  rw [← hcmf] at hsum hmethod hwindow
  refine ⟨_, _, exec_hdrZenc s, hcmf, ?_, hsum, ?_, fun w hw => zhdrCheck_eq_none hsum hmethod (hwindow.trans_le hw)⟩
  · rw [hcmf]
    exact hflg
  · exact Bool.eq_false_iff.2 fun hbit => Nat.zero_ne_one (hdict.symm.trans ((getLsbD_iff _ 5).1 hbit))

/-- Settles O37: the header is ten fixed bytes, then what is optional, then the CRC16 of both. -/
theorem gzipHeader : Obligations.GzipHeader := by
  intro s
  simp only [← gzFlg_eq_ite]
  refine ⟨gzFixed s.params.gzHdr s.defl.strategy s.defl.level, ?_, ?_, ?_, gzCmflgCheck_gzFlg _⟩
  · rw [exec_hdrGzenc, withPending, gzHeader_eq, ← List.append_assoc]
  · rw [gzFixed_eq]
    exact List.take_left' (gzTen_length ..)
  · rw [gzFixed_eq]
    exact List.drop_left' (gzTen_length ..)

/-- Settles O38: by the container, each word as the list of its bytes. -/
theorem trailer : Obligations.Trailer := by
  refine fun s => (exec_hdrTrailer s).trans (congrArg (fun bs => Host.Outcome.next (withPending bs s)) ?_)
  cases s.defl.wrap with
  | none => rfl
  | zlib => exact trailerBytes_zlib ..
  | gzip => exact trailerBytes_gzip ..

end

section
/-! PROOFS. The hash chains (R293, R294, R307): insertion as so many rounds, what `head` and the links hold after them, and that
nothing matches where the chains have been forgotten. -/

namespace Sys2Proof.Machine

variable {d e : Defl}

/-! ## One round of `LZ.INSERT` -/

/-- An entry that is written is read back whatever the form of the table: only writing an empty one asks for the canonical
form. -/
theorem sparseGet_sparseSet_some {α : Type} [DecidableEq α] (m : List (Nat × Option α)) (i : Nat) (v : α) :
    sparseGet none (sparseSet none m i (some v)) i = some v := by
  have hcons : ∀ m' : List (Nat × Option α), sparseGet none (sparseCons none i (some v) m') i = some v := fun _ => if_pos rfl
  induction m with
  | nil => exact hcons _
  | cons x m ih =>
    obtain ⟨k, w⟩ := x
    rw [sparseSet]
    split_ifs with hlt heq
    · exact hcons _
    · exact hcons _
    · exact (if_neg heq).trans ih

theorem hash_of_onlyChains (h : onlyChains d e) (q : Nat) : hash e q = hash d q := by
  rw [h]
  rfl

theorem headAt_insertOne (d : Defl) (h : Nat) :
    headAt (insertOne d) h = if h = hash d d.nextIns then some d.nextIns else headAt d h := by
  split_ifs with hh
  · subst hh
    exact sparseGet_sparseSet_some d.head _ _
  · exact sparseGet_sparseSet_other _ _ hh

theorem prevAt_insertOne_self (hw : sparseWf none d.prev) :
    prevAt (insertOne d) d.nextIns = headAt d (hash d d.nextIns) := sparseGet_sparseSet_self _ hw _ _

theorem prevAt_insertOne_other {q : Nat} (h : q % wsize d.wbits ≠ d.nextIns % wsize d.wbits) :
    prevAt (insertOne d) q = prevAt d q := sparseGet_sparseSet_other _ _ h

/-! ## So many rounds -/

theorem onlyChains_iterate_insertOne (k : Nat) (d : Defl) : onlyChains d (insertOne^[k] d) := by
  induction k generalizing d with
  | zero => rfl
  | succ k ih =>
    have hone : onlyChains d (insertOne d) := rfl
    exact hone.trans (ih _)

theorem iterate_insertOne_prev_wf (k : Nat) (hw : sparseWf none d.prev) : sparseWf none (insertOne^[k] d).prev := by
  induction k generalizing d with
  | zero => exact hw
  | succ k ih => exact ih (sparseSet_wf _ hw _ _)

@[simp] theorem iterate_insertOne_nextIns (k : Nat) (d : Defl) : (insertOne^[k] d).nextIns = d.nextIns + k := by
  induction k generalizing d with
  | zero => rfl
  | succ k ih => rw [Function.iterate_succ_apply, ih, insertOne_nextIns, Nat.add_right_comm, Nat.add_assoc]

@[simp] theorem hash_iterate_insertOne (k : Nat) (d : Defl) (q : Nat) : hash (insertOne^[k] d) q = hash d q :=
  hash_of_onlyChains (onlyChains_iterate_insertOne k d) q

theorem headAt_iterate_succ (k : Nat) (d : Defl) (h : Nat) : headAt (insertOne^[k + 1] d) h =
    if h = hash d (d.nextIns + k) then some (d.nextIns + k) else headAt (insertOne^[k] d) h := by
  rw [Function.iterate_succ_apply', headAt_insertOne, iterate_insertOne_nextIns, hash_iterate_insertOne]

/-- The latest inserted position of a hash heads its chain. -/
theorem headAt_iterate_of_latest {j k : Nat} (hj : j < k)
    (hl : ∀ i, j < i → i < k → hash d (d.nextIns + i) ≠ hash d (d.nextIns + j)) :
    headAt (insertOne^[k] d) (hash d (d.nextIns + j)) = some (d.nextIns + j) := by
  induction k with
  | zero => exact absurd hj (Nat.not_lt_zero j)
  | succ k ih =>
    rw [headAt_iterate_succ]
    rcases Nat.lt_succ_iff_lt_or_eq.1 hj with hlt | rfl
    · rw [if_neg (hl k hlt k.lt_succ_self).symm]
      exact ih hlt fun i hji hik => hl i hji (hik.trans k.lt_succ_self)
    · rw [if_pos rfl]

/-- The chain of a hash no inserted position has keeps its head. -/
theorem headAt_iterate_of_absent {h k : Nat} (ha : ∀ i < k, hash d (d.nextIns + i) ≠ h) :
    headAt (insertOne^[k] d) h = headAt d h := by
  induction k with
  | zero => rfl
  | succ k ih =>
    rw [headAt_iterate_succ, if_neg (ha k k.lt_succ_self).symm]
    exact ih fun i hi => ha i (hi.trans k.lt_succ_self)

/-- The link of an inserted position, until it is overwritten, is what headed its chain when it was inserted. -/
theorem prevAt_iterate {j k : Nat} (hw : sparseWf none d.prev) (hj : j < k) (hk : k ≤ j + wsize d.wbits) :
    prevAt (insertOne^[k] d) (d.nextIns + j) = headAt (insertOne^[j] d) (hash d (d.nextIns + j)) := by
  induction k with
  | zero => exact absurd hj (Nat.not_lt_zero j)
  | succ k ih =>
    have hbits : (insertOne^[k] d).wbits = d.wbits := by rw [onlyChains_iterate_insertOne k d]
    rw [Function.iterate_succ_apply']
    rcases Nat.lt_succ_iff_lt_or_eq.1 hj with hlt | rfl
    · rw [prevAt_insertOne_other, ih hlt (Nat.le_of_succ_le hk)]
      rw [iterate_insertOne_nextIns, hbits]
      exact mod_ne_of_lt (by omega) (by omega)
    · have hself := prevAt_insertOne_self (iterate_insertOne_prev_wf j hw)
      rwa [iterate_insertOne_nextIns, hash_iterate_insertOne] at hself

/-! ## `LZ.INSERT` and `LZ.CLEAR` -/

/-- The rounds of `LZ.INSERT p`: as many as there are positions from the cursor to `p` with three bytes behind them. -/
theorem lzInsertLoop_eq_iterate (k p : Nat) (d : Defl) :
    lzInsertLoop k p d = insertOne^[min k (min (p + 1) (dataEnd d - 2) - d.nextIns)] d := by
  induction k generalizing d with
  | zero => rw [Nat.zero_min]; rfl
  | succ k ih =>
    rw [lzInsertLoop]
    split_ifs with hgo
    · have hrounds : min (k + 1) (min (p + 1) (dataEnd d - 2) - d.nextIns) =
          min k (min (p + 1) (dataEnd d - 2) - (d.nextIns + 1)) + 1 := by omega
      rw [ih, hrounds, Function.iterate_succ_apply]
      rfl
    · have hstop : min (p + 1) (dataEnd d - 2) - d.nextIns = 0 := by omega
      rw [hstop, Nat.min_zero]
      rfl

/-- The positions `LZ.INSERT p` inserts. -/
def insertRounds (p : Nat) (d : Defl) : Nat := min (p + 1) (dataEnd d - 2) - d.nextIns

theorem lzInsert_eq_iterate (p : Nat) (d : Defl) : lzInsert p d = insertOne^[insertRounds p d] d := by
  rw [lzInsert, lzInsertLoop_eq_iterate, insertRounds]
  congr 1
  omega

theorem add_insertRounds (p : Nat) (d : Defl) :
    d.nextIns + insertRounds p d = max d.nextIns (min (p + 1) (dataEnd d - 2)) := by
  unfold insertRounds
  omega

theorem lzInsert_nextIns (p : Nat) (d : Defl) :
    (lzInsert p d).nextIns = max d.nextIns (min (p + 1) (dataEnd d - 2)) := by
  rw [lzInsert_eq_iterate, iterate_insertOne_nextIns, add_insertRounds]

/-- Past a cleared history there is no distance to match at (R291, R307). -/
theorem not_validMatch_of_histBase (h : d.pos ≤ d.histBase) (len dist : Nat) : ¬validMatch d d.pos len dist := by
  rintro ⟨-, -, hone, hfloor, -⟩
  omega

end Sys2Proof.Machine

open Sys2Proof Sys2Proof.Machine

/-- Settles O39: the rounds of `LZ.INSERT` each put one position at the head of its chain and link it to what headed it before. -/
theorem lzTables : Obligations.LzTables := by
  refine ⟨fun p s => ?_, fun s => ⟨_, rfl, rfl, fun _ => rfl, not_validMatch_of_histBase le_rfl⟩⟩
  intro d e
  have he : d.nextIns + insertRounds p d = e := add_insertRounds p d
  have hnext : (insertOne^[insertRounds p d] d).nextIns = e := (iterate_insertOne_nextIns _ d).trans he
  refine ⟨{ s with defl := insertOne^[insertRounds p d] d, result := .nothing }, ?_, hnext, fun q hlo hhi hlatest => ?_,
    fun h habsent => ?_, fun hw q hlo hhi hkept => ?_, ?_⟩
  · exact congrArg (fun x => Host.Outcome.next { s with defl := x, result := .nothing }) (lzInsert_eq_iterate p d)
  · obtain ⟨j, rfl⟩ := Nat.exists_eq_add_of_le hlo
    exact headAt_iterate_of_latest (by omega) fun i hji hik => hlatest _ (by omega) (by omega)
  · exact headAt_iterate_of_absent fun i hi => habsent _ (by omega) (by omega)
  · obtain ⟨j, rfl⟩ := Nat.exists_eq_add_of_le hlo
    have hlink : prevAt (insertOne^[insertRounds p d] d) (d.nextIns + j) = headAt (insertOne^[j] d) (hash d (d.nextIns + j)) :=
      prevAt_iterate hw (by omega) (by simp only [wsize]; omega)
    refine ⟨fun r hr hrq hsame hlast => ?_, fun habsent => ?_⟩
    · obtain ⟨i, rfl⟩ := Nat.exists_eq_add_of_le hr
      rw [← hsame] at hlink
      exact hlink.trans
        (headAt_iterate_of_latest (by omega) fun u hiu huj => hsame ▸ hlast _ (by omega) (by omega))
    · exact hlink.trans (headAt_iterate_of_absent fun i hi => habsent _ (by omega) (by omega))
  · have hframe : insertOne^[insertRounds p d] d = { d with
        nextIns := e
        head := (insertOne^[insertRounds p d] d).head
        prev := (insertOne^[insertRounds p d] d).prev } := by
      rw [← hnext]
      exact onlyChains_iterate_insertOne _ d
    exact congrArg (fun x => { s with defl := x, result := .nothing }) hframe

end

section
/-! PROOFS. What `LZ.FIND` yields (R296 to R299): every candidate and every run gives a valid match (R291), the search never takes
less than it has, and so it takes what the nearest candidate offers. -/

namespace Sys2Proof.Machine

variable {d : Defl} {p : Nat}

/-! ## Comparing -/

/-- Where they are counted as agreeing, two lists agree (R296). -/
theorem getElem?_eq_of_lt_commonPrefix {m i : Nat} {xs ys : List Byte} (h : i < commonPrefix m xs ys) : xs[i]? = ys[i]? := by
  induction m generalizing xs ys i with
  | zero => exact absurd h (Nat.not_lt_zero i)
  | succ m ih =>
    match xs, ys with
    | [], _ | _ :: _, [] => exact absurd h (Nat.not_lt_zero i)
    | x :: xs, y :: ys =>
      rw [commonPrefix] at h
      split_ifs at h with hxy
      · cases i with
        | zero => exact congrArg some hxy
        | succ i => simpa using ih (Nat.succ_lt_succ_iff.1 h)
      · exact absurd h (Nat.not_lt_zero i)

theorem mlen_le (d : Defl) (c p m : Nat) : mlen d c p m ≤ m := commonPrefix_le _ _ _

theorem data_eq_of_lt_mlen {c m i : Nat} (h : i < mlen d c p m) : d.data[c + i]? = d.data[p + i]? := by
  rw [← List.getElem?_drop, ← List.getElem?_drop]
  exact getElem?_eq_of_lt_commonPrefix h

/-- A run holds its byte throughout (R299). -/
theorem getElem?_eq_of_lt_runLen {b : Byte} {m i : Nat} {xs : List Byte} (h : i < runLen b m xs) : xs[i]? = some b := by
  induction m generalizing xs i with
  | zero => exact absurd h (Nat.not_lt_zero i)
  | succ m ih =>
    match xs with
    | [] => exact absurd h (Nat.not_lt_zero i)
    | x :: xs =>
      rw [runLen] at h
      split_ifs at h with hx
      · cases i with
        | zero => exact congrArg some hx
        | succ i => simpa using ih (Nat.succ_lt_succ_iff.1 h)
      · exact absurd h (Nat.not_lt_zero i)

/-! ## Every match found is valid (R291) -/

/-- What a search holds for position `p` is no match yet or a valid one. -/
def foundValid (d : Defl) (p : Nat) (m : Nat × Nat) : Prop := 3 ≤ m.1 → validMatch d p m.1 m.2

theorem foundValid_of_short {m : Nat × Nat} (h : m.1 < 3) : foundValid d p m := fun h3 => absurd h3 h.not_ge

/-- Every chain entry lies before `p`. -/
def entriesBelow (d : Defl) (p : Nat) : Prop :=
  (∀ h q, headAt d h = some q → q < p) ∧ ∀ k q, prevAt d k = some q → q < p

/-- A candidate in reach gives a valid match (R296, R297). -/
theorem candidate_foundValid {cand : Nat} (hp : 3 ≤ dataEnd d - p) (hc : cand < p)
    (hreach : ¬(wsize d.wbits < p - cand ∨ cand < d.histBase)) :
    foundValid d p (mlen d cand p (min maxMatch (dataEnd d - p)), p - cand) := by
  intro h3
  have hle := mlen_le d cand p (min maxMatch (dataEnd d - p))
  have hback : p - (p - cand) = cand := by omega
  simp only [maxMatch] at hle h3 ⊢
  refine ⟨h3, by omega, by omega, by omega, by omega, by omega, fun i hi => ?_⟩
  rw [hback]
  exact (data_eq_of_lt_mlen hi).symm

theorem findLoop_foundValid {nice n : Nat} {cand : Option Nat} {best : Nat × Nat} (hp : 3 ≤ dataEnd d - p)
    (hd : entriesBelow d p) (hc : ∀ q, cand = some q → q < p) (hb : foundValid d p best) :
    foundValid d p (findLoop d p (min maxMatch (dataEnd d - p)) nice n cand best) := by
  induction n generalizing cand best with
  | zero => exact hb
  | succ n ih =>
    match cand with
    | none => exact hb
    | some q =>
      have hfound := candidate_foundValid hp (hc q rfl)
      simp only [findLoop]
      split_ifs with hstop
      · exact hb
      · exact hfound hstop
      · exact ih (hd.2 q) (hfound hstop)
      · exact ih (hd.2 q) hb

theorem keepMatch_eq (strategy : Strategy) (m : Nat × Nat) :
    keepMatch strategy m = (0, 0) ∨ (keepMatch strategy m = m ∧ 3 ≤ m.1) := by
  unfold keepMatch
  split_ifs with hshort
  · exact .inl rfl
  · exact .inl rfl
  · exact .inl rfl
  · exact .inr ⟨rfl, Nat.not_lt.1 hshort⟩

/-- What `LZ.FIND` answers at `p`: `(0, 0)` or a valid match. -/
def noneOrValid (d : Defl) (p : Nat) (m : Nat × Nat) : Prop := m = (0, 0) ∨ validMatch d p m.1 m.2

theorem keepMatch_noneOrValid {m : Nat × Nat} (strategy : Strategy) (h : foundValid d p m) :
    noneOrValid d p (keepMatch strategy m) := by
  rcases keepMatch_eq strategy m with hnone | ⟨hsame, h3⟩
  · exact .inl hnone
  · rw [hsame]
    exact .inr (h h3)

theorem findChain_noneOrValid {chain nice : Nat} (hd : entriesBelow d p) : noneOrValid d p (findChain d p chain nice) := by
  unfold findChain
  split_ifs with hp
  · exact .inl rfl
  · exact keepMatch_noneOrValid _ (findLoop_foundValid (Nat.not_lt.1 hp) hd (hd.1 _) (foundValid_of_short (by decide)))

/-- A byte of the source (R38). -/
theorem getElem?_eq_getD {q : Nat} (h : q < dataEnd d) : d.data[q]? = some (d.data.getD q 0) := by
  rw [List.getD_eq_getElem?_getD, List.getElem?_eq_getElem h]
  rfl

/-- A run of the byte before `p` is a match at distance 1 (R299). -/
theorem run_validMatch {l : Nat} (hbase : d.histBase < p) (h3 : 3 ≤ l) (hmax : l ≤ min maxMatch (dataEnd d - p))
    (hrun : ∀ i < l, (d.data.drop p)[i]? = some (d.data.getD (p - 1) 0)) : validMatch d p l 1 := by
  simp only [maxMatch] at hmax
  simp only [List.getElem?_drop] at hrun
  have hlast : d.data[p - 1]? = some (d.data.getD (p - 1) 0) := getElem?_eq_getD (by omega)
  refine ⟨h3, by omega, le_rfl, by omega, Nat.one_le_two_pow, by omega, fun i hi => (hrun i hi).trans ?_⟩
  cases i with
  | zero => exact hlast.symm
  | succ i =>
    rw [show p - 1 + (i + 1) = p + i by omega]
    exact (hrun i (Nat.lt_of_succ_lt hi)).symm

theorem findRle_noneOrValid : noneOrValid d p (findRle d p) := by
  simp only [findRle]
  split_ifs with hp h3
  · exact .inl rfl
  · obtain ⟨-, hbase⟩ := not_or.1 hp
    exact .inr (run_validMatch (Nat.not_le.1 hbase) h3 (runLen_le ..) fun _ => getElem?_eq_of_lt_runLen)
  · exact .inl rfl

theorem lzFind_noneOrValid {pr : Params} {chain : Nat} (hd : entriesBelow d p) : noneOrValid d p (lzFind pr p chain d) := by
  unfold lzFind
  split_ifs
  · exact findRle_noneOrValid
  · exact findChain_noneOrValid hd

/-! ## The nearest candidate (R297) -/

/-- The search keeps what it has or finds something longer. -/
theorem findLoop_eq_or_longer (d : Defl) (p maxlen nice n : Nat) (cand : Option Nat) (best : Nat × Nat) :
    findLoop d p maxlen nice n cand best = best ∨ best.1 < (findLoop d p maxlen nice n cand best).1 := by
  induction n generalizing cand best with
  | zero => exact .inl rfl
  | succ n ih =>
    match cand with
    | none => exact .inl rfl
    | some q =>
      simp only [findLoop]
      split_ifs with hstop hlonger hnice
      · exact .inl rfl
      · exact .inr hlonger
      · right
        rcases ih (prevAt d q) (mlen d q p maxlen, p - q) with heq | hlt
        · rwa [heq]
        · exact hlonger.trans hlt
      · exact ih _ _

/-- The first candidate, in reach and long enough, is what the search ends with unless it finds something longer. -/
theorem findLoop_first {maxlen nice n q : Nat} {best : Nat × Nat} (hreach : ¬(wsize d.wbits < p - q ∨ q < d.histBase))
    (hlonger : best.1 < mlen d q p maxlen) :
    findLoop d p maxlen nice (n + 1) (some q) best = (mlen d q p maxlen, p - q) ∨
      mlen d q p maxlen < (findLoop d p maxlen nice (n + 1) (some q) best).1 := by
  simp only [findLoop, if_neg hreach, if_pos hlonger]
  split_ifs
  · exact .inl rfl
  · exact findLoop_eq_or_longer ..

/-- The drop rules let four bytes and more through, where the strategy is normal (R298). -/
theorem keepMatch_normal {m : Nat × Nat} (h : 4 ≤ m.1) : keepMatch .normal m = m := by
  rw [keepMatch, if_neg (by omega), if_neg (by omega), if_neg (fun hf => nomatch hf.1)]

theorem lzFind_normal (pr : Params) (chain : Nat) (hs : d.strategy = .normal) (hp : 3 ≤ dataEnd d - p) :
    lzFind pr p chain d = keepMatch .normal (findLoop d p (min maxMatch (dataEnd d - p)) (levelRow pr d.level).nice chain
      (headAt d (hash d p)) (2, 0)) := by
  rw [lzFind, findChain, hs, if_neg nofun, if_neg (Nat.not_lt.2 hp)]

/-- Under the normal strategy `LZ.FIND` answers what the nearest candidate offers, or something longer. -/
theorem lzFind_nearest {pr : Params} {chain q : Nat} (hs : d.strategy = .normal) (hp : 3 ≤ dataEnd d - p)
    (hhead : headAt d (hash d p) = some q) (hreach : ¬(wsize d.wbits < p - q ∨ q < d.histBase)) (hchain : 0 < chain)
    (h4 : 4 ≤ mlen d q p (min maxMatch (dataEnd d - p))) :
    lzFind pr p chain d = (mlen d q p (min maxMatch (dataEnd d - p)), p - q) ∨
      mlen d q p (min maxMatch (dataEnd d - p)) < (lzFind pr p chain d).1 := by
  obtain ⟨n, rfl⟩ := Nat.exists_eq_add_one_of_ne_zero hchain.ne'
  rw [lzFind_normal pr _ hs hp, hhead]
  rcases findLoop_first (nice := (levelRow pr d.level).nice) (n := n) (best := (2, 0)) hreach
    (Nat.lt_of_succ_lt h4) with heq | hlt
  · rw [heq, keepMatch_normal h4]
    exact .inl rfl
  · rw [keepMatch_normal (h4.trans hlt.le)]
    exact .inr hlt

end Sys2Proof.Machine

open Sys2Proof Sys2Proof.Machine

/-- Settles O40: the search keeps a valid match or none from candidate to candidate, and the first candidate is only given up
for a longer one. -/
theorem lzFindResult : Obligations.LzFindResult := by
  refine ⟨fun p chain s _ hhead hprev => ⟨_, _, rfl, ?_⟩, ?_⟩
  · exact (lzFind_noneOrValid ⟨hhead, hprev⟩).imp Prod.ext_iff.1 id
  · intro p chain q s len dist hnormal hp hhead _ hwindow hbase hchain h4 hexec
    have hreach : ¬(wsize s.defl.wbits < p - q ∨ q < s.defl.histBase) := by simp only [wsize]; omega
    have hfound : lzFind s.params p chain s.defl = (len, dist) := by
      injection hexec with hstate
      injection congrArg State.result hstate with hlen hdist
      exact Prod.ext hlen hdist
    rcases lzFind_nearest (pr := s.params) hnormal (by omega) hhead hreach hchain h4 with hnear | hlonger
    · obtain ⟨hlen, hdist⟩ := Prod.ext_iff.1 (hfound.symm.trans hnear)
      exact ⟨hlen.ge, fun _ => hdist⟩
    · rw [hfound] at hlonger
      exact ⟨hlonger.le, fun heq => absurd heq hlonger.ne'⟩

end

section
/-! PROOFS. One step of the tokeniser (R300 to R306): what each mode does, and that the tokens of the open block and the deferred
match stay valid (R290, R291) while every chain entry has been inserted (R293). -/

namespace Sys2Proof.Machine

variable {pr : Params} {d e : Defl}

/-! ## The mode of a step (R301) -/

theorem stepMode_literal (h : d.level = 0 ∨ d.strategy = .huffman) : stepMode pr d = .literal := by
  unfold stepMode
  rcases h with hl | hs
  · rw [if_pos hl]
  · rw [if_pos hs, ite_self]

theorem stepMode_of_chains (hl : d.level ≠ 0) (hs : d.strategy ≠ .huffman) : stepMode pr d =
    if d.strategy = .rle ∨ (levelRow pr d.level).mode = .greedy then .greedy else .lazy := by
  rw [stepMode, if_neg hl, if_neg hs, ite_or]

theorem stepMode_greedy (hl : d.level ≠ 0)
    (h : d.strategy = .rle ∨ (d.strategy ≠ .huffman ∧ (levelRow pr d.level).mode = .greedy)) : stepMode pr d = .greedy := by
  have hs : d.strategy ≠ .huffman := by
    rcases h with hr | ⟨hs, -⟩
    · simp [hr]
    · exact hs
  rw [stepMode_of_chains hl hs, if_pos (h.imp_right And.right)]

theorem stepMode_lazy (hl : d.level ≠ 0) (hs : d.strategy ≠ .huffman) (hr : d.strategy ≠ .rle)
    (hg : (levelRow pr d.level).mode ≠ .greedy) : stepMode pr d = .lazy := by
  rw [stepMode_of_chains hl hs, if_neg (not_or.2 ⟨hr, hg⟩)]

/-! ## What a step does in each mode -/

/-- `e` with a token put out behind those of `d`, and the next position set (R300). -/
def emitted (d e : Defl) (t : Token) (pos : Nat) : Defl :=
  { e with syms := d.syms ++ [t], emitPos := d.emitPos + tokenLen t, pos := pos }

theorem emitToken_eq_emitted (h : onlyChains d e) (t : Token) (pos : Nat) :
    { emitToken t e with pos := pos } = emitted d e t pos := by
  have hsyms : e.syms = d.syms := by rw [h]
  have hemit : e.emitPos = d.emitPos := by rw [h]
  rw [emitToken, emitted, hsyms, hemit]

theorem emitLit_eq_emitted (h : onlyChains d e) (q pos : Nat) :
    { emitLit q e with pos := pos } = emitted d e (.lit (d.data.getD q 0)) pos := by
  have hdata : e.data = d.data := by rw [h]
  rw [emitLit, hdata, emitToken_eq_emitted h]

/-- The chains after the insertions of a step at `pos` (R303 to R305). -/
def afterInserts (d : Defl) : Defl := lzInsert d.pos (lzInsertBelow d.pos d)

theorem onlyChains_afterInserts (d : Defl) : onlyChains d (afterInserts d) := onlyChains_insertBoth d.pos d

/-- The search of a step at `pos` with nothing deferred (R303, R304). -/
def stepFind (pr : Params) (d : Defl) : Nat × Nat :=
  lzFind pr d.pos (levelRow pr d.level).chain (lzInsertBelow d.pos d)

theorem lzStep_literal (hlt : d.pos < dataEnd d) (hm : stepMode pr d = .literal) :
    lzStep pr d = emitted d d (.lit (d.data.getD d.pos 0)) (d.pos + 1) := by
  rw [lzStep, if_pos hlt, hm]
  rfl

theorem lzStep_greedy (hlt : d.pos < dataEnd d) (hm : stepMode pr d = .greedy) :
    lzStep pr d = if 3 ≤ (stepFind pr d).1
      then emitted d (afterInserts d) (.mat (stepFind pr d).1 (stepFind pr d).2) (d.pos + (stepFind pr d).1)
      else emitted d (afterInserts d) (.lit (d.data.getD d.pos 0)) (d.pos + 1) := by
  have hc := onlyChains_afterInserts d
  rw [lzStep, if_pos hlt, hm, ← emitLit_eq_emitted hc, ← emitToken_eq_emitted hc]
  rfl

theorem lzStep_lazyFresh (hlt : d.pos < dataEnd d) (hm : stepMode pr d = .lazy) (hd : d.deferred.valid = false) :
    lzStep pr d = if 3 ≤ (stepFind pr d).1
      then { afterInserts d with deferred := ⟨true, (stepFind pr d).1, (stepFind pr d).2⟩, pos := d.pos + 1 }
      else emitted d (afterInserts d) (.lit (d.data.getD d.pos 0)) (d.pos + 1) := by
  rw [lzStep, if_pos hlt, hm, hd, ← emitLit_eq_emitted (onlyChains_afterInserts d)]
  rfl

/-- The search of a step at `pos` with a match deferred (R305). -/
def deferredFind (pr : Params) (d : Defl) : Nat × Nat := lazySearch pr d.pos d.deferred.len (lzInsertBelow d.pos d)

theorem deferredFind_eq (pr : Params) (d : Defl) : deferredFind pr d =
    if (levelRow pr d.level).lazy ≤ d.deferred.len then (0, 0)
    else lzFind pr d.pos
      (if (levelRow pr d.level).good ≤ d.deferred.len then (levelRow pr d.level).chain / 4 else (levelRow pr d.level).chain)
      (lzInsertBelow d.pos d) := by
  have hlevel : (lzInsertBelow d.pos d).level = d.level := by rw [onlyChains_lzInsertBelow d.pos d]
  rw [deferredFind, lazySearch, hlevel]

theorem lzStep_lazyDeferred (hlt : d.pos < dataEnd d) (hm : stepMode pr d = .lazy) (hd : d.deferred.valid = true) :
    lzStep pr d = if d.deferred.len < (deferredFind pr d).1
      then { emitted d (afterInserts d) (.lit (d.data.getD (d.pos - 1) 0)) (d.pos + 1) with
        deferred := ⟨true, (deferredFind pr d).1, (deferredFind pr d).2⟩ }
      else { emitted d (afterInserts d) (.mat d.deferred.len d.deferred.dist) (d.pos - 1 + d.deferred.len) with
        deferred := { d.deferred with valid := false } } := by
  have hc := onlyChains_afterInserts d
  rw [lzStep, if_pos hlt, hm, if_pos hd, ← emitLit_eq_emitted hc, ← emitToken_eq_emitted hc]
  rfl

theorem lzStep_atEnd (hend : dataEnd d ≤ d.pos) (hd : d.deferred.valid = true) :
    lzStep pr d = { emitted d d (.mat d.deferred.len d.deferred.dist) (d.pos - 1 + d.deferred.len) with
      deferred := { d.deferred with valid := false } } := by
  rw [lzStep, if_neg (Nat.not_lt.2 hend), if_pos hd]
  rfl

theorem deferred_of_canLzStep (h : canLzStep d = true) (hend : dataEnd d ≤ d.pos) : d.deferred.valid = true := by
  by_contra hd
  exact not_canLzStep hend (Bool.eq_false_iff.2 hd) h

/-! ## Chain entries have been inserted (R293, R294) -/

/-- Every chain entry is an inserted position, and the insertion cursor is not past `q`. -/
def insertedTo (d : Defl) (q : Nat) : Prop := d.nextIns ≤ q ∧ entriesBelow d d.nextIns

theorem insertedTo.mono {q r : Nat} (h : insertedTo d q) (hqr : q ≤ r) : insertedTo d r := ⟨h.1.trans hqr, h.2⟩

theorem insertedTo.entriesBelow {q : Nat} (h : insertedTo d q) : entriesBelow d q :=
  ⟨fun k r hr => (h.2.1 k r hr).trans_le h.1, fun k r hr => (h.2.2 k r hr).trans_le h.1⟩

theorem prevAt_insertOne (hw : sparseWf none d.prev) (k : Nat) : prevAt (insertOne d) k =
    if k % wsize d.wbits = d.nextIns % wsize d.wbits then headAt d (hash d d.nextIns) else prevAt d k := by
  split_ifs with hk
  · rw [← prevAt_insertOne_self hw]
    exact congrArg (sparseGet none (insertOne d).prev) hk
  · exact prevAt_insertOne_other hk

theorem insertOne_entriesBelow (hw : sparseWf none d.prev) (h : entriesBelow d d.nextIns) :
    entriesBelow (insertOne d) (insertOne d).nextIns := by
  obtain ⟨hhead, hprev⟩ := h
  refine ⟨fun k q hq => ?_, fun k q hq => ?_⟩
  · rw [headAt_insertOne] at hq
    split_ifs at hq with hk
    · obtain rfl := Option.some.inj hq
      exact Nat.lt_succ_self _
    · exact (hhead k q hq).trans (Nat.lt_succ_self _)
  · rw [prevAt_insertOne hw] at hq
    split_ifs at hq with hk
    · exact (hhead _ q hq).trans (Nat.lt_succ_self _)
    · exact (hprev k q hq).trans (Nat.lt_succ_self _)

theorem iterate_insertOne_entriesBelow (k : Nat) (hw : sparseWf none d.prev) (h : entriesBelow d d.nextIns) :
    entriesBelow (insertOne^[k] d) (insertOne^[k] d).nextIns := by
  induction k with
  | zero => exact h
  | succ k ih =>
    rw [Function.iterate_succ_apply']
    exact insertOne_entriesBelow (iterate_insertOne_prev_wf k hw) ih

theorem insertedTo.lzInsert {p : Nat} (hw : sparseWf none d.prev) (h : insertedTo d (p + 1)) :
    insertedTo (lzInsert p d) (p + 1) := by
  obtain ⟨hcursor, hentries⟩ := h
  refine ⟨?_, ?_⟩
  · rw [lzInsert_nextIns]
    omega
  · rw [lzInsert_eq_iterate]
    exact iterate_insertOne_entriesBelow _ hw hentries

theorem insertedTo.lzInsertBelow {p : Nat} (hw : sparseWf none d.prev) (h : insertedTo d p) :
    insertedTo (lzInsertBelow p d) p := by
  cases p with
  | zero => exact h
  | succ p => exact h.lzInsert hw

theorem lzInsert_prev_wf (p : Nat) (hw : sparseWf none d.prev) : sparseWf none (lzInsert p d).prev := by
  rw [lzInsert_eq_iterate]
  exact iterate_insertOne_prev_wf _ hw

theorem lzInsertBelow_prev_wf (p : Nat) (hw : sparseWf none d.prev) : sparseWf none (lzInsertBelow p d).prev := by
  cases p with
  | zero => exact hw
  | succ p => exact lzInsert_prev_wf p hw

theorem insertedTo_afterInserts (hw : sparseWf none d.prev) (h : insertedTo d d.pos) :
    insertedTo (afterInserts d) (d.pos + 1) :=
  ((h.lzInsertBelow hw).mono (Nat.le_succ _)).lzInsert (lzInsertBelow_prev_wf _ hw)

/-! ## Valid tokens and matches (R290, R291) -/

theorem validMatch_of_onlyTokens (h : onlyTokens d e) (p len dist : Nat) :
    validMatch e p len dist ↔ validMatch d p len dist := by
  rw [h]
  rfl

theorem noneOrValid_of_onlyTokens (h : onlyTokens d e) {p : Nat} {m : Nat × Nat} (hm : noneOrValid e p m) (h3 : 3 ≤ m.1) :
    validMatch d p m.1 m.2 := by
  rcases hm with rfl | hv
  · exact absurd h3 (by decide)
  · exact (validMatch_of_onlyTokens h ..).1 hv

theorem validTokens_of_onlyTokens (h : onlyTokens d e) {p : Nat} {ts : List Token} (ht : validTokens d p ts) :
    validTokens e p ts := by
  induction ts generalizing p with
  | nil => trivial
  | cons t ts ih =>
    cases t with
    | lit b =>
      have hdata : e.data = d.data := by rw [h]
      exact ⟨hdata ▸ ht.1, ih ht.2⟩
    | mat len dist => exact ⟨(validMatch_of_onlyTokens h ..).2 ht.1, ih ht.2⟩

theorem validTokens_append {p : Nat} {xs ys : List Token} (hx : validTokens d p xs)
    (hy : validTokens d (p + (xs.map tokenLen).sum) ys) : validTokens d p (xs ++ ys) := by
  induction xs generalizing p with
  | nil => exact hy
  | cons t xs ih =>
    rw [List.map_cons, List.sum_cons, ← Nat.add_assoc] at hy
    cases t with
    | lit b => exact ⟨hx.1, ih hx.2 hy⟩
    | mat len dist => exact ⟨hx.1, ih hx.2 hy⟩

theorem validTokens_lit {q : Nat} (h : q < dataEnd d) : validTokens d q [.lit (d.data.getD q 0)] :=
  ⟨getElem?_eq_getD h, trivial⟩

theorem validTokens_mat {p len dist : Nat} (h : validMatch d p len dist) : validTokens d p [.mat len dist] := ⟨h, trivial⟩

/-- What a step has to show: the tokens it puts out and the match it defers are valid for the data. -/
theorem MatcherOk.of_onlyTokens (h : MatcherOk d) (hcur : d.blockStart + (d.syms.map tokenLen).sum = d.emitPos)
    (he : onlyTokens d e) (hi : insertedTo e e.pos) (ts : List Token) (hsyms : e.syms = d.syms ++ ts)
    (hts : validTokens d d.emitPos ts)
    (hf : e.deferred.valid = true → validMatch d (e.pos - 1) e.deferred.len e.deferred.dist) : MatcherOk e := by
  obtain ⟨-, hbase, htoks, -⟩ := h
  have hstart : e.blockStart = d.blockStart := by rw [he]
  have hhist : e.histBase = d.histBase := by rw [he]
  refine ⟨hi, by rwa [hhist, hstart], ?_, fun hv => (validMatch_of_onlyTokens he ..).2 (hf hv)⟩
  rw [hsyms, hstart]
  exact validTokens_of_onlyTokens he (validTokens_append htoks (hcur ▸ hts))

/-! ## A step keeps the matcher's promises -/

theorem Defl.Core.emitPos_of_fresh (hcore : d.Core pr) (hd : d.deferred.valid = false) : d.emitPos = d.pos := by
  obtain ⟨-, hpos, -, -⟩ := hcore.cursor
  rwa [hd] at hpos

theorem Defl.Core.emitPos_of_deferred (hcore : d.Core pr) (hd : d.deferred.valid = true) : d.emitPos + 1 = d.pos := by
  obtain ⟨-, hpos, -, -⟩ := hcore.cursor
  rwa [hd] at hpos

/-- A match found at `pos`, once everything below is inserted, is valid (R297). -/
theorem validMatch_of_stepFind (hi : insertedTo (lzInsertBelow d.pos d) d.pos) (h3 : 3 ≤ (stepFind pr d).1) :
    validMatch d d.pos (stepFind pr d).1 (stepFind pr d).2 :=
  noneOrValid_of_onlyTokens (onlyChains_lzInsertBelow d.pos d).onlyTokens (lzFind_noneOrValid hi.entriesBelow) h3

theorem validMatch_of_deferredFind (hi : insertedTo (lzInsertBelow d.pos d) d.pos) (h3 : 3 ≤ (deferredFind pr d).1) :
    validMatch d d.pos (deferredFind pr d).1 (deferredFind pr d).2 := by
  refine noneOrValid_of_onlyTokens (onlyChains_lzInsertBelow d.pos d).onlyTokens ?_ h3
  rw [deferredFind_eq]
  split_ifs
  · exact .inl rfl
  · exact lzFind_noneOrValid hi.entriesBelow
  · exact lzFind_noneOrValid hi.entriesBelow

section
variable (h : MatcherOk d) (hcore : d.Core pr)
include h hcore

/-- With nothing deferred a token put out stands for the data at `pos`. -/
theorem MatcherOk.emitFresh {t : Token} {q : Nat} (hd : d.deferred.valid = false) (hc : onlyChains d e)
    (hi : insertedTo e q) (ht : validTokens d d.pos [t]) : MatcherOk (emitted d e t q) := by
  obtain ⟨hsum, -, -, -⟩ := hcore.cursor
  have he : onlyTokens d (emitted d e t q) := hc.onlyTokens.trans rfl
  have hsame : e.deferred = d.deferred := by rw [hc]
  have hnone : (emitted d e t q).deferred.valid = false := (congrArg Deferred.valid hsame).trans hd
  rw [← hcore.emitPos_of_fresh hd] at ht
  exact h.of_onlyTokens hsum he hi [t] rfl ht fun hv => nomatch hnone.symm.trans hv

/-- The deferred match put out stands for the data before `pos`. -/
theorem MatcherOk.emitDeferred (hd : d.deferred.valid = true) (hc : onlyChains d e) (hi : insertedTo e (d.pos + 1)) :
    MatcherOk { emitted d e (.mat d.deferred.len d.deferred.dist) (d.pos - 1 + d.deferred.len) with
      deferred := { d.deferred with valid := false } } := by
  obtain ⟨hsum, -, -, -⟩ := hcore.cursor
  have hemit := hcore.emitPos_of_deferred hd
  have ⟨_, _, _, hdeferred⟩ := h
  have hvalid := hdeferred hd
  have ⟨h3, _⟩ := hvalid
  have hprev : d.pos - 1 = d.emitPos := by omega
  have hnext : d.pos + 1 ≤ d.emitPos + d.deferred.len := by omega
  rw [hprev] at hvalid ⊢
  exact h.of_onlyTokens hsum (hc.onlyTokens.trans rfl) (hi.mono hnext) _ rfl (validTokens_mat hvalid) nofun

theorem MatcherOk.step_literal (hlt : d.pos < dataEnd d) (hm : stepMode pr d = .literal) : MatcherOk (lzStep pr d) := by
  have hi : insertedTo d d.pos := h.1
  rw [lzStep_literal hlt hm]
  exact h.emitFresh hcore (hcore.not_deferred hm nofun) rfl (hi.mono (Nat.le_succ _)) (validTokens_lit hlt)

theorem MatcherOk.step_greedy (hlt : d.pos < dataEnd d) (hm : stepMode pr d = .greedy) : MatcherOk (lzStep pr d) := by
  have hd := hcore.not_deferred hm nofun
  have hc := onlyChains_afterInserts d
  have hafter := insertedTo_afterInserts hcore.prev h.1
  rw [lzStep_greedy hlt hm]
  split_ifs with h3
  · have hvalid := validMatch_of_stepFind (insertedTo.lzInsertBelow hcore.prev h.1) h3
    exact h.emitFresh hcore hd hc (hafter.mono (by omega)) (validTokens_mat hvalid)
  · exact h.emitFresh hcore hd hc hafter (validTokens_lit hlt)

theorem MatcherOk.step_lazyFresh (hlt : d.pos < dataEnd d) (hm : stepMode pr d = .lazy) (hd : d.deferred.valid = false) :
    MatcherOk (lzStep pr d) := by
  have hc := onlyChains_afterInserts d
  have hafter := insertedTo_afterInserts hcore.prev h.1
  rw [lzStep_lazyFresh hlt hm hd]
  split_ifs with h3
  · obtain ⟨hsum, -, -, -⟩ := hcore.cursor
    have hvalid := validMatch_of_stepFind (insertedTo.lzInsertBelow hcore.prev h.1) h3
    have hsyms : (afterInserts d).syms = d.syms ++ [] := by rw [hc, List.append_nil]
    exact h.of_onlyTokens hsum (hc.onlyTokens.trans rfl) hafter [] hsyms trivial fun _ => hvalid
  · exact h.emitFresh hcore hd hc hafter (validTokens_lit hlt)

theorem MatcherOk.step_lazyDeferred (hlt : d.pos < dataEnd d) (hd : d.deferred.valid = true) :
    MatcherOk (lzStep pr d) := by
  have hc := onlyChains_afterInserts d
  have hafter := insertedTo_afterInserts hcore.prev h.1
  rw [lzStep_lazyDeferred hlt (hcore.mode hd) hd]
  split_ifs with hlonger
  · obtain ⟨hsum, -, -, hrange⟩ := hcore.cursor
    have hprev : d.pos - 1 = d.emitPos := by rw [← hcore.emitPos_of_deferred hd, Nat.add_sub_cancel]
    have hvalid := validMatch_of_deferredFind (insertedTo.lzInsertBelow hcore.prev h.1) ((hrange hd).1.trans hlonger.le)
    rw [hprev]
    exact h.of_onlyTokens hsum (hc.onlyTokens.trans rfl) hafter _ rfl (validTokens_lit (by omega)) fun _ => hvalid
  · exact h.emitDeferred hcore hd hc hafter

theorem MatcherOk.step_atEnd (hend : dataEnd d ≤ d.pos) (hd : d.deferred.valid = true) : MatcherOk (lzStep pr d) := by
  have hi : insertedTo d d.pos := h.1
  rw [lzStep_atEnd hend hd]
  exact h.emitDeferred hcore hd rfl (hi.mono (Nat.le_succ _))

/-- A step keeps the matcher's promises, in whatever mode (R301). -/
theorem MatcherOk.step (hcan : canLzStep d = true) : MatcherOk (lzStep pr d) := by
  by_cases hlt : d.pos < dataEnd d
  · cases hm : stepMode pr d with
    | literal => exact h.step_literal hcore hlt hm
    | greedy => exact h.step_greedy hcore hlt hm
    | lazy =>
      cases hd : d.deferred.valid with
      | false => exact h.step_lazyFresh hcore hlt hm hd
      | true => exact h.step_lazyDeferred hcore hlt hd
  · have hend := Nat.not_lt.1 hlt
    exact h.step_atEnd hcore hend (deferred_of_canLzStep hcan hend)

end

end Sys2Proof.Machine

open Sys2Proof Sys2Proof.Machine

/-- Settles O41: by the mode of the step. -/
theorem lzStepResult : Obligations.LzStepResult := by
  intro s hcan d p row byteAt before find after emits
  refine ⟨{ s with defl := lzStep s.params d, result := .nothing }, if_pos hcan, rfl, fun hlt hm => ?_, fun hlt hl hm => ?_,
    fun hlt hl hs hr hg hd => ?_, fun hlt hl hs hr hg hd => ?_, fun hend => ?_⟩
  · exact lzStep_literal hlt (stepMode_literal hm)
  · exact lzStep_greedy hlt (stepMode_greedy hl hm)
  · exact lzStep_lazyFresh hlt (stepMode_lazy hl hs hr hg) hd
  · have hstep := lzStep_lazyDeferred hlt (stepMode_lazy hl hs hr hg) hd
    rw [deferredFind_eq] at hstep
    exact hstep
  · exact lzStep_atEnd hend (deferred_of_canLzStep hcan hend)

/-- Settles O42: whatever the mode, the tokens a step puts out and the match it defers come from the data or from a search among
inserted positions. -/
theorem lzStepKeepsTokensValid : Obligations.LzStepKeepsTokensValid := by
  intro s t hinv hok hstep
  obtain ⟨hdefl, -, -, -, hmode⟩ := hinv
  have hsound := Defl.sound_iff.2 ⟨hdefl, hmode⟩
  by_cases hcan : canLzStep s.defl = true
  · obtain rfl := Host.Outcome.next.inj ((if_pos hcan).symm.trans hstep)
    exact hok.step hsound.toCore hcan
  · exact nomatch (inRange_fault hcan _).symm.trans hstep

end

section
/-! PROOFS. Canonical codes as `HB.CANON` yields them (R340): a symbol without a code holds 0. -/

namespace Sys2Proof.Machine

theorem canonLoop_zero {next : List Nat} {lens : Lens} {j : Nat} (hj : lens.getD j 0 = 0) :
    (canonLoop next lens).getD j 0 = 0 := by
  induction lens generalizing next j with
  | nil => rfl
  | cons l ls ih =>
    rw [canonLoop]
    cases j with
    | zero =>
      rw [List.getD_cons_zero] at hj
      rw [if_pos hj, List.getD_cons_zero]
    | succ j =>
      rw [List.getD_cons_succ] at hj
      split_ifs <;> exact ih hj

/-- A symbol of length 0 holds 0 (log 21). -/
theorem hbCanon_zero {lens : Lens} {j : Nat} (hj : lens.getD j 0 = 0) (max : Nat) : (hbCanon lens max).getD j 0 = 0 :=
  canonLoop_zero hj

end Sys2Proof.Machine

open Sys2Proof Sys2Proof.Machine

/-- Settles O44: from the order of the codes by length and then by symbol. -/
theorem hbCanonPrefixFree : Obligations.HbCanonPrefixFree := by
  intro lens max s hl
  refine ⟨hbCanon lens max, if_pos hl, hbCanon_length lens max, fun k hk => hbCanon_zero hk max, ?_⟩
  intro hk i j _ _ hne hi hle
  refine ⟨hbCanon_fits hl hk hi, hbCanon_prefix_ne hl hi hle hne, fun h => hbCanon_lt hl hi ?_⟩
  rcases Nat.lt_or_eq_of_le hle with hlt | he
  · exact .inl hlt
  · exact .inr ⟨he, h.resolve_left (he ▸ Nat.lt_irrefl _)⟩

end

section
/-! PROOFS. `HB.BUILD` yields complete code lengths (R333 to R338): the merge makes a full tree, clamping it oversubscribes the code
by no more than the leaves it lifts, each round of the rebalancing takes one of these back, and the lengths go to the symbols in
the order of their frequencies. -/

namespace Sys2Proof.Machine

/-! ## Used symbols (R334) -/

theorem usedCount_cons (x : Nat) (f : List Nat) : usedCount (x :: f) = usedCount f + if x = 0 then 0 else 1 := by
  unfold usedCount
  rw [List.filter_cons]
  obtain rfl | h := Nat.eq_zero_or_pos x
  · simp
  · simp [h, Nat.ne_of_gt h]

theorem usedCount_forceOne {f : List Nat} (h : usedCount f < f.length) : usedCount (forceOne f) = usedCount f + 1 := by
  induction f with
  | nil => exact absurd h (Nat.not_lt_zero _)
  | cons x f ih =>
    rw [usedCount_cons, List.length_cons] at h
    rw [forceOne]
    split_ifs at h ⊢ with hx
    · rw [usedCount_cons, usedCount_cons, if_neg Nat.one_ne_zero, if_pos hx]
    · rw [usedCount_cons, usedCount_cons, if_neg hx, ih (by omega)]

theorem forceTwo_eq {f : List Nat} (h : 2 ≤ usedCount f) : forceTwo f = f := by
  simp only [forceTwo, if_neg (Nat.not_lt.2 h)]

theorem two_le_usedCount_forceTwo {f : List Nat} (h : 2 ≤ f.length) : 2 ≤ usedCount (forceTwo f) := by
  by_cases h2 : 2 ≤ usedCount f
  · rwa [forceTwo_eq h2]
  · have h1 := usedCount_forceOne (f := f) (by omega)
    simp only [forceTwo, if_pos (Nat.not_le.1 h2)]
    split_ifs with hone
    · rw [usedCount_forceOne (by rw [forceOne_length]; omega)]
      omega
    · exact Nat.not_lt.1 hone

theorem forceOne_pos {f : List Nat} {i : Nat} (h : 0 < f.getD i 0) : 0 < (forceOne f).getD i 0 := by
  induction f generalizing i with
  | nil => exact h
  | cons x f ih =>
    rw [forceOne]
    cases i with
    | zero =>
      rw [List.getD_cons_zero] at h
      rwa [if_neg (Nat.ne_of_gt h)]
    | succ i =>
      rw [List.getD_cons_succ] at h
      split_ifs
      · exact h
      · exact ih h

theorem forceTwo_pos {f : List Nat} {i : Nat} (h : 0 < f.getD i 0) : 0 < (forceTwo f).getD i 0 := by
  simp only [forceTwo]
  split_ifs
  · exact forceOne_pos (forceOne_pos h)
  · exact forceOne_pos h
  · exact h

/-! ## The merge makes a full tree (R335) -/

/-- The share of the code space that leaves of these depths have. -/
def share (depths : List Nat) : ℚ := (depths.map fun d => (1 / 2 : ℚ) ^ d).sum

@[simp] theorem share_cons (d : Nat) (ds : List Nat) : share (d :: ds) = (1 / 2) ^ d + share ds := rfl

theorem share_append (xs ys : List Nat) : share (xs ++ ys) = share xs + share ys := by
  simp [share]

/-- Under a parent every leaf has half its share. -/
theorem share_map_succ (ds : List Nat) : share (ds.map (· + 1)) = share ds / 2 := by
  induction ds with
  | nil => simp [share]
  | cons d ds ih =>
    rw [List.map_cons, share_cons, share_cons, ih, pow_succ]
    ring

theorem share_pos {ds : List Nat} (h : ds ≠ []) : 0 < share ds :=
  List.sum_pos _ (fun x hx => by
    obtain ⟨d, -, rfl⟩ := List.mem_map.1 hx
    positivity) (by simpa using h)

/-- In a full tree of two leaves or more no leaf is the root. -/
theorem depth_pos_of_share {ds : List Nat} (hs : share ds = 1) (hl : 2 ≤ ds.length) : ∀ d ∈ ds, 0 < d := by
  intro d hd
  by_contra h0
  obtain rfl := Nat.eq_zero_of_not_pos h0
  obtain ⟨xs, ys, rfl⟩ := List.append_of_mem hd
  have hne : xs ++ ys ≠ [] := fun h => by
    have := congrArg List.length h
    simp only [List.length_append, List.length_cons, List.length_nil] at hl this
    omega
  have hpos := share_pos hne
  rw [share_append] at hs hpos
  rw [share_cons, pow_zero] at hs
  linarith

theorem insertNode_perm (a : HNode) (nodes : List HNode) : (insertNode a nodes).Perm (a :: nodes) := by
  induction nodes with
  | nil => exact .refl _
  | cons b nodes ih =>
    rw [insertNode]
    split_ifs
    · exact .refl _
    · exact (ih.cons b).trans (.swap a b nodes)

/-- How many leaves a list of nodes has. -/
def leafCount (nodes : List HNode) : Nat := (nodes.map fun a => a.depths.length).sum

theorem leafCount_cons (a : HNode) (nodes : List HNode) : leafCount (a :: nodes) = a.depths.length + leafCount nodes := rfl

theorem leafCount_perm {xs ys : List HNode} (h : xs.Perm ys) : leafCount xs = leafCount ys := (h.map _).sum_eq

/-- Merging full trees makes one full tree of all their leaves. -/
theorem mergeLoop_full {k id : Nat} {nodes : List HNode} (hne : nodes ≠ []) (hk : nodes.length ≤ k + 1)
    (hfull : ∀ a ∈ nodes, share a.depths = 1) :
    share (mergeLoop k id nodes) = 1 ∧ (mergeLoop k id nodes).length = leafCount nodes := by
  induction k generalizing id nodes with
  | zero =>
    obtain ⟨a, rfl⟩ := List.length_eq_one_iff.1 (Nat.le_antisymm hk (List.length_pos_iff.2 hne))
    exact ⟨hfull a List.mem_cons_self, rfl⟩
  | succ k ih =>
    match nodes with
    | [] => exact absurd rfl hne
    | [a] => exact ⟨hfull a List.mem_cons_self, rfl⟩
    | a :: b :: rest =>
      obtain ⟨ha, hb, hrest⟩ : share a.depths = 1 ∧ share b.depths = 1 ∧ ∀ c ∈ rest, share c.depths = 1 := by simpa using hfull
      have hperm := insertNode_perm ⟨a.weight + b.weight, id, (a.depths ++ b.depths).map (· + 1)⟩ rest
      obtain ⟨hs, hl⟩ := ih (id := id + 1) (List.ne_nil_of_length_eq_add_one hperm.length_eq)
        (by rw [hperm.length_eq]; exact Nat.le_of_succ_le_succ hk) fun c hc => by
          obtain rfl | hc := List.mem_cons.1 (hperm.mem_iff.1 hc)
          · rw [share_map_succ, share_append, ha, hb]
            norm_num
          · exact hrest c hc
      refine ⟨hs, hl.trans ?_⟩
      rw [leafCount_perm hperm, leafCount_cons, leafCount_cons, leafCount_cons, List.length_map, List.length_append,
        Nat.add_assoc]

theorem leavesFrom_leaf (i : Nat) (f : List Nat) : ∀ a ∈ leavesFrom i f, a.depths = [0] := by
  induction f generalizing i with
  | nil => exact fun _ h => nomatch h
  | cons x f ih =>
    rw [leavesFrom]
    split_ifs
    · exact ih _
    · intro a ha
      obtain rfl | ha := List.mem_cons.1 ((insertNode_perm _ _).mem_iff.1 ha)
      · rfl
      · exact ih _ a ha

theorem leavesFrom_length (i : Nat) (f : List Nat) : (leavesFrom i f).length = usedCount f := by
  induction f generalizing i with
  | nil => rfl
  | cons x f ih =>
    rw [leavesFrom, usedCount_cons]
    split_ifs
    · exact ih _
    · rw [(insertNode_perm _ _).length_eq, List.length_cons, ih]

/-- The merge puts every used symbol at a leaf of one full tree. -/
theorem leafDepths_full {f : List Nat} (h : 0 < usedCount f) :
    share (leafDepths f) = 1 ∧ (leafDepths f).length = usedCount f := by
  have hlen := leavesFrom_length 0 f
  have hleaf := leavesFrom_leaf 0 f
  obtain ⟨hs, hl⟩ := mergeLoop_full (k := usedCount f) (id := f.length) (nodes := leavesFrom 0 f)
    (List.length_pos_iff.1 (hlen ▸ h)) (by omega) fun a ha => by simp [hleaf a ha, share]
  refine ⟨hs, hl.trans ?_⟩
  rw [leafCount, List.map_congr_left fun a ha => congrArg List.length (hleaf a ha)]
  simp [hlen]

/-! ## Counts of lengths and the lengths they stand for (R336, R338) -/

theorem mem_handOut {b l : Nat} {bl : List Nat} : l ∈ handOut b bl ↔ b ≤ l ∧ 0 < l ∧ 0 < bl.getD (l - b) 0 := by
  induction bl generalizing b with
  | nil => simp [handOut]
  | cons x bl ih =>
    have hhead : l ∈ (if b = 0 then [] else List.replicate x b) ↔ 0 < b ∧ l = b ∧ 0 < x := by
      split_ifs with hb
      · simp [hb]
      · rw [List.mem_replicate]
        omega
    rw [handOut, List.mem_append, hhead, ih]
    obtain hlt | rfl | hgt := Nat.lt_trichotomy l b
    · omega
    · rw [Nat.sub_self, List.getD_cons_zero]
      omega
    · rw [show l - b = l - (b + 1) + 1 by omega, List.getD_cons_succ]
      omega

theorem handOut_sorted (b : Nat) (bl : List Nat) : (handOut b bl).Pairwise (· ≤ ·) := by
  induction bl generalizing b with
  | nil => exact .nil
  | cons x bl ih =>
    rw [handOut, List.pairwise_append]
    refine ⟨?_, ih _, fun l hl k hk => ?_⟩
    · split_ifs
      · exact .nil
      · exact List.pairwise_replicate.2 (.inr le_rfl)
    · have hk := (mem_handOut.1 hk).1
      split_ifs at hl
      · exact nomatch hl
      · have := List.eq_of_mem_replicate hl
        omega

/-- One more in the count of a length is one more of that length. -/
theorem handOut_bump {b i : Nat} {bl : List Nat} (hi : i < bl.length) (h0 : 0 < b + i) :
    (handOut b (bump i bl)).Perm ((b + i) :: handOut b bl) := by
  induction bl generalizing b i with
  | nil => exact absurd hi (Nat.not_lt_zero i)
  | cons x bl ih =>
    cases i with
    | zero =>
      have hb : b ≠ 0 := Nat.ne_of_gt h0
      simp only [bump, List.set_cons_zero, List.getD_cons_zero, handOut, if_neg hb, List.replicate_succ]
      exact .refl _
    | succ i =>
      have hrest := ih (b := b + 1) (Nat.lt_of_succ_lt_succ hi) (by omega)
      rw [show b + 1 + i = b + (i + 1) by omega] at hrest
      exact (hrest.append_left _).trans List.perm_middle

theorem handOut_zeros (n : Nat) : handOut 0 (List.replicate n 0) = [] := by
  rw [List.eq_nil_iff_forall_not_mem]
  intro l hl
  obtain ⟨-, -, h⟩ := mem_handOut.1 hl
  exact absurd (getD_le (n := 0) (fun x hx => (List.eq_of_mem_replicate hx).le) (l - 0)) (Nat.not_le.2 h)

theorem kraft_cons (max l : Nat) (ls : Lens) : kraft max (l :: ls) = (if l = 0 then 0 else 2 ^ (max - l)) + kraft max ls := rfl

theorem kraft_cons_pos {l : Nat} (h : 0 < l) (max : Nat) (ls : Lens) : kraft max (l :: ls) = 2 ^ (max - l) + kraft max ls := by
  rw [kraft_cons, if_neg (Nat.ne_of_gt h)]

theorem kraft_perm {xs ys : Lens} (h : xs.Perm ys) (max : Nat) : kraft max xs = kraft max ys := (h.map _).sum_eq

/-- The sum of R336 is the Kraft sum of the lengths. -/
theorem kraftCountsFrom_eq (max b : Nat) (bl : List Nat) : kraftCountsFrom max b bl = kraft max (handOut b bl) := by
  induction bl generalizing b with
  | nil => rfl
  | cons x bl ih =>
    rw [kraftCountsFrom, handOut, kraft_append, ih]
    split_ifs with hb
    · rfl
    · rw [kraft_replicate, if_neg hb]

theorem kraftCounts_eq (max : Nat) (bl : List Nat) : kraftCounts max bl = kraft max (handOut 0 bl) := kraftCountsFrom_eq _ _ _

/-! ## Clamping (R336) -/

/-- The counts are those of the clamped depths. -/
theorem handOut_clampCounts {max : Nat} {depths : List Nat} (hmax : 0 < max) (hpos : ∀ d ∈ depths, 0 < d) :
    (handOut 0 (clampCounts max depths)).Perm (depths.map (min · max)) := by
  have hfold : ∀ acc : List Nat, acc.length = max + 1 →
      (handOut 0 (depths.foldl (fun bl d => bump (min d max) bl) acc)).Perm (depths.map (min · max) ++ handOut 0 acc) := by
    induction depths with
    | nil => exact fun _ _ => .refl _
    | cons d depths ih =>
      obtain ⟨hd, hrest⟩ := List.forall_mem_cons.1 hpos
      intro acc hacc
      have hone := handOut_bump (b := 0) (i := min d max) (bl := acc) (by omega) (by omega)
      rw [Nat.zero_add] at hone
      exact ((ih hrest _ ((bump_length _ _).trans hacc)).trans (hone.append_left _)).trans List.perm_middle
  have h := hfold (List.replicate (max + 1) 0) List.length_replicate
  rwa [handOut_zeros, List.append_nil] at h

/-- Clamping gives a leaf no less than its share of the code space, and only a leaf lifted to the limit more: at most one code. -/
theorem clamp_share {max d : Nat} :
    2 ^ max * (1 / 2 : ℚ) ^ d ≤ 2 ^ (max - min d max) ∧
      (2 : ℚ) ^ (max - min d max) ≤ 2 ^ max * (1 / 2) ^ d + if min d max = max then 1 else 0 := by
  obtain hd | hd := Nat.lt_or_ge d max
  · have heq : (2 : ℚ) ^ (max - d) = 2 ^ max * (1 / 2) ^ d := by
      rw [pow_sub₀ _ two_ne_zero hd.le, one_div, inv_pow]
    rw [Nat.min_eq_left hd.le, if_neg (Nat.ne_of_lt hd), heq, add_zero]
    exact ⟨le_rfl, le_rfl⟩
  · have hle : (2 : ℚ) ^ max * (1 / 2) ^ d ≤ 1 := by
      rw [one_div, inv_pow, ← div_eq_mul_inv, div_le_one (by positivity)]
      exact pow_le_pow_right₀ one_le_two hd
    have hpos : (0 : ℚ) ≤ 2 ^ max * (1 / 2) ^ d := by positivity
    rw [Nat.min_eq_right hd, Nat.sub_self, pow_zero, if_pos rfl]
    exact ⟨hle, by linarith⟩

/-- So the clamped depths oversubscribe the code by at most the number of leaves at the limit. -/
theorem kraft_clamped {max : Nat} {depths : List Nat} (hmax : 0 < max) (hpos : ∀ d ∈ depths, 0 < d) :
    2 ^ max * share depths ≤ kraft max (depths.map (min · max)) ∧
      (kraft max (depths.map (min · max)) : ℚ) ≤ 2 ^ max * share depths + (depths.map (min · max)).count max := by
  induction depths with
  | nil => simp [share, kraft]
  | cons d depths ih =>
    obtain ⟨hd, hrest⟩ := List.forall_mem_cons.1 hpos
    obtain ⟨hlow, hhigh⟩ := ih hrest
    obtain ⟨hlow1, hhigh1⟩ := clamp_share (max := max) (d := d)
    rw [List.map_cons, kraft_cons_pos (by omega), share_cons, List.count_cons, mul_add]
    simp only [beq_iff_eq]
    push_cast
    exact ⟨by linarith, by linarith⟩

/-! ## Rebalancing (R337) -/

theorem bump_dent {i : Nat} {bl : List Nat} (h : 0 < bl.getD i 0) : bump i (dent i bl) = bl := by
  have hi := getD_pos_lt h
  have hset : (dent i bl).getD i 0 = bl.getD i 0 - 1 := by simp [dent, List.getD_eq_getElem?_getD, hi]
  rw [bump, hset, Nat.sub_add_cancel h, dent, List.set_set, List.getD_eq_getElem _ _ hi, List.set_getElem_self]

theorem getD_dent_ne {i j : Nat} (h : i ≠ j) (bl : List Nat) : (dent i bl).getD j 0 = bl.getD j 0 := by
  simp [dent, List.getD_eq_getElem?_getD, List.getElem?_set_ne h]

/-- A round moves a leaf of length `b` and one at the limit down below it. -/
theorem handOut_rebalanceRound {max b : Nat} {bl : List Nat} (hlen : bl.length = max + 1) (h0 : 0 < b) (hlt : b < max)
    (hb : 0 < bl.getD b 0) (hm : 0 < bl.getD max 0) :
    (b :: max :: handOut 0 (rebalanceRound max b bl)).Perm ((b + 1) :: (b + 1) :: handOut 0 bl) := by
  have hdent : (dent b bl).length = max + 1 := (dent_length _ _).trans hlen
  have hlong : (bump (b + 1) (dent b bl)).length = max + 1 := (bump_length _ _).trans hdent
  have hmax : 0 < (bump (b + 1) (bump (b + 1) (dent b bl))).getD max 0 := by
    rw [getD_bump _ _ _ (by omega), getD_bump _ _ _ (by omega), getD_dent_ne (Nat.ne_of_lt hlt)]
    omega
  have hlift : (handOut 0 (bump (b + 1) (bump (b + 1) (dent b bl)))).Perm (max :: handOut 0 (rebalanceRound max b bl)) := by
    have h := handOut_bump (b := 0) (i := max) (bl := rebalanceRound max b bl) (by simp [rebalanceRound, hlen]) (by omega)
    rwa [rebalanceRound, bump_dent hmax, Nat.zero_add] at h
  have hdown1 := handOut_bump (b := 0) (i := b + 1) (bl := bump (b + 1) (dent b bl)) (by omega) (by omega)
  have hdown2 := handOut_bump (b := 0) (i := b + 1) (bl := dent b bl) (by omega) (by omega)
  have hfrom := handOut_bump (b := 0) (i := b) (bl := dent b bl) (by omega) (by omega)
  rw [bump_dent hb] at hfrom
  rw [Nat.zero_add] at hdown1 hdown2 hfrom
  have htwo := hlift.symm.trans (hdown1.trans (hdown2.cons _))
  have hmove : (b :: (b + 1) :: (b + 1) :: handOut 0 (dent b bl)).Perm ((b + 1) :: (b + 1) :: b :: handOut 0 (dent b bl)) :=
    (List.Perm.swap _ _ _).trans ((List.Perm.swap _ _ _).cons _)
  exact ((htwo.cons b).trans hmove).trans ((hfrom.symm.cons _).cons _)

theorem deepest_pos {bl : List Nat} {n : Nat} (h : deepest bl n ≠ 0) : deepest bl n ≤ n ∧ 0 < bl.getD (deepest bl n) 0 := by
  induction n with
  | zero => exact absurd rfl h
  | succ n ih =>
    rw [deepest] at h ⊢
    split_ifs at h ⊢ with hn
    · exact ⟨le_rfl, hn⟩
    · obtain ⟨hle, hpos⟩ := ih h
      exact ⟨hle.trans (Nat.le_succ n), hpos⟩

theorem deepest_zero {bl : List Nat} {n : Nat} (h : deepest bl n = 0) {i : Nat} (h0 : 0 < i) (hi : i ≤ n) :
    bl.getD i 0 = 0 := by
  induction n with
  | zero => omega
  | succ n ih =>
    rw [deepest] at h
    split_ifs at h with hn
    obtain hi | rfl := Nat.lt_or_eq_of_le hi
    · exact ih h (Nat.le_of_lt_succ hi)
    · exact Nat.eq_zero_of_not_pos hn

/-- Codes at the limit do not oversubscribe the code when there is room for so many. -/
theorem kraft_le_length {max : Nat} {lens : Lens} (h : ∀ l ∈ lens, max ≤ l) : kraft max lens ≤ lens.length := by
  induction lens with
  | nil => exact le_rfl
  | cons l lens ih =>
    obtain ⟨hl, hrest⟩ := List.forall_mem_cons.1 h
    have := ih hrest
    rw [kraft_cons, Nat.sub_eq_zero_of_le hl, Nat.pow_zero, List.length_cons]
    split_ifs <;> omega

section
variable {max k : Nat} {bl : List Nat}

/-- R337: while the code is oversubscribed there is a leaf to move down. -/
theorem deepest_ne_zero (hfit : (handOut 0 bl).length ≤ 2 ^ max) (hk : kraft max (handOut 0 bl) = 2 ^ max + (k + 1)) :
    deepest bl (max - 1) ≠ 0 := by
  intro h
  have hall : ∀ l ∈ handOut 0 bl, max ≤ l := fun l hl => by
    obtain ⟨-, h0, hpos⟩ := mem_handOut.1 hl
    by_contra hlt
    exact absurd (deepest_zero h h0 (by omega)) (Nat.ne_of_gt hpos)
  have := kraft_le_length hall
  omega

/-- R337: the rebalancing is never stuck, and ends with a complete code. -/
theorem rebalance_complete (hlen : bl.length = max + 1) (hfit : (handOut 0 bl).length ≤ 2 ^ max)
    (hk : kraft max (handOut 0 bl) = 2 ^ max + k) (hdeep : k ≤ (handOut 0 bl).count max) :
    ∃ bl', rebalance max k bl = some bl' ∧ kraft max (handOut 0 bl') = 2 ^ max ∧
      (handOut 0 bl').length = (handOut 0 bl).length := by
  induction k generalizing bl with
  | zero => exact ⟨bl, rfl, hk, rfl⟩
  | succ k ih =>
    have hne := deepest_ne_zero hfit hk
    obtain ⟨hle, hb⟩ := deepest_pos hne
    have hm : 0 < bl.getD max 0 := (mem_handOut.1 (List.count_pos_iff.1 (Nat.lt_of_lt_of_le (Nat.succ_pos k) hdeep))).2.2
    simp only [rebalance, if_neg (not_or.2 ⟨hne, Nat.ne_of_gt hm⟩)]
    generalize deepest bl (max - 1) = b at *
    have hround := handOut_rebalanceRound hlen (Nat.pos_of_ne_zero hne) (by omega) hb hm
    have hlength := hround.length_eq
    have hkraft := kraft_perm hround max
    have hcount := hround.count_eq max
    rw [kraft_cons_pos (Nat.pos_of_ne_zero hne), kraft_cons_pos (by omega), kraft_cons_pos (by omega), kraft_cons_pos (by omega),
      hk, Nat.sub_self, show max - b = max - (b + 1) + 1 by omega, Nat.pow_succ] at hkraft
    rw [List.count_cons_of_ne (show b ≠ max by omega), List.count_cons_self, List.count_cons, List.count_cons] at hcount
    simp only [List.length_cons] at hlength
    obtain ⟨bl', hsome, hfull, hsame⟩ := ih (bl := rebalanceRound max b bl) (by simp [rebalanceRound, hlen]) (by omega) (by omega)
      (by omega)
    exact ⟨bl', hsome, hfull, hsame.trans (by omega)⟩

end

/-- The lengths `HB.BUILD` hands out are those of a complete code with one code for each used symbol, in rising order. -/
structure CompleteOrder (m max : Nat) (ls : Lens) : Prop where
  length_eq : ls.length = m
  kraft_eq : kraft max ls = 2 ^ max
  pos : ∀ l ∈ ls, 0 < l
  sorted : ls.Pairwise (· ≤ ·)

theorem builtLens_complete {f : List Nat} {max : Nat} (h2 : 2 ≤ usedCount f) (hmax : f.length ≤ 2 ^ max) :
    CompleteOrder (usedCount f) max (builtLens f max) := by
  obtain ⟨hshare, hlen⟩ := leafDepths_full (f := f) (by omega)
  have hpos := depth_pos_of_share hshare (hlen ▸ h2)
  have hused := usedCount_le f
  have hm0 : 0 < max := Nat.pos_of_ne_zero fun h0 => by
    rw [h0, Nat.pow_zero] at hmax
    omega
  have hcounts := handOut_clampCounts hm0 hpos
  obtain ⟨hlow, hhigh⟩ := kraft_clamped hm0 hpos
  rw [hshare, mul_one] at hlow hhigh
  rw [← kraft_perm hcounts, ← hcounts.count_eq] at hhigh
  rw [← kraft_perm hcounts] at hlow
  norm_cast at hlow hhigh
  have hlength : (handOut 0 (clampCounts max (leafDepths f))).length = usedCount f := by
    rw [hcounts.length_eq, List.length_map, hlen]
  obtain ⟨bl', hsome, hfull, hsame⟩ := rebalance_complete (k := kraftCounts max (clampCounts max (leafDepths f)) - 2 ^ max)
    (clampCounts_length max (leafDepths f)) (by omega) (by rw [kraftCounts_eq]; omega) (by rw [kraftCounts_eq]; omega)
  have hbuilt : builtLens f max = handOut 0 bl' := by simp only [builtLens, hsome]
  rw [hbuilt]
  exact ⟨hsame.trans hlength, hfull, fun l hl => (mem_handOut.1 hl).2.1, handOut_sorted 0 bl'⟩

/-! ## The order of the symbols (R338) -/

/-- `s` stands before `t` in the order of R338. -/
def freqBefore (s t : Nat × Nat) : Prop := t.2 < s.2 ∨ (t.2 = s.2 ∧ s.1 < t.1)

theorem freqBefore_of_not {s t : Nat × Nat} (hlt : s.1 < t.1) (h : ¬freqBefore s t) : freqBefore t s := by
  unfold freqBefore at *
  omega

theorem freqBefore.trans {s t u : Nat × Nat} (h : freqBefore s t) (k : freqBefore t u) : freqBefore s u := by
  unfold freqBefore at *
  omega

theorem freqBefore.asymm {s t : Nat × Nat} (h : freqBefore s t) : ¬freqBefore t s := by
  unfold freqBefore at *
  omega

theorem insertByFreq_perm (s : Nat × Nat) (ts : List (Nat × Nat)) : (insertByFreq s ts).Perm (s :: ts) := by
  induction ts with
  | nil => exact .refl _
  | cons t ts ih =>
    rw [insertByFreq]
    split_ifs
    · exact .refl _
    · exact (ih.cons t).trans (.swap s t ts)

theorem insertByFreq_sorted {s : Nat × Nat} {ts : List (Nat × Nat)} (hs : ∀ t ∈ ts, s.1 < t.1) (h : ts.Pairwise freqBefore) :
    (insertByFreq s ts).Pairwise freqBefore := by
  induction ts with
  | nil => exact List.pairwise_singleton _ _
  | cons t ts ih =>
    obtain ⟨hst, hsts⟩ := List.forall_mem_cons.1 hs
    obtain ⟨ht, hts⟩ := List.pairwise_cons.1 h
    rw [insertByFreq]
    split_ifs with hbefore
    · refine List.pairwise_cons.2 ⟨List.forall_mem_cons.2 ⟨hbefore, fun u hu => ?_⟩, h⟩
      exact freqBefore.trans hbefore (ht u hu)
    · refine List.pairwise_cons.2 ⟨fun u hu => ?_, ih hsts hts⟩
      obtain rfl | hu := List.mem_cons.1 ((insertByFreq_perm s ts).mem_iff.1 hu)
      · exact freqBefore_of_not hst hbefore
      · exact ht u hu

theorem mem_orderFrom {i : Nat} {f : List Nat} {s : Nat × Nat} :
    s ∈ orderFrom i f ↔ i ≤ s.1 ∧ 0 < s.2 ∧ f.getD (s.1 - i) 0 = s.2 := by
  induction f generalizing i with
  | nil =>
    simp only [orderFrom, List.not_mem_nil, List.getD_nil, false_iff]
    omega
  | cons x f ih =>
    have hmem : s ∈ orderFrom i (x :: f) ↔ (s = (i, x) ∧ 0 < x) ∨ s ∈ orderFrom (i + 1) f := by
      rw [orderFrom]
      split_ifs with hx
      · simp [hx]
      · rw [(insertByFreq_perm _ _).mem_iff, List.mem_cons, and_iff_left (Nat.pos_of_ne_zero hx)]
    rw [hmem, ih, Prod.ext_iff]
    obtain hlt | heq | hgt := Nat.lt_trichotomy s.1 i
    · omega
    · rw [heq, Nat.sub_self, List.getD_cons_zero]
      omega
    · rw [show s.1 - i = s.1 - (i + 1) + 1 by omega, List.getD_cons_succ]
      omega

theorem orderFrom_sorted (i : Nat) (f : List Nat) : (orderFrom i f).Pairwise freqBefore := by
  induction f generalizing i with
  | nil => exact .nil
  | cons x f ih =>
    rw [orderFrom]
    split_ifs
    · exact ih _
    · exact insertByFreq_sorted (fun t ht => (mem_orderFrom.1 ht).1) (ih _)

theorem orderFrom_length (i : Nat) (f : List Nat) : (orderFrom i f).length = usedCount f := by
  induction f generalizing i with
  | nil => rfl
  | cons x f ih =>
    rw [orderFrom, usedCount_cons]
    split_ifs
    · exact ih _
    · rw [(insertByFreq_perm _ _).length_eq, List.length_cons, ih]

/-- There is a length for each place of the order. -/
theorem CompleteOrder.length_orderFrom {f : List Nat} {max : Nat} {ls : Lens} (h : CompleteOrder (usedCount f) max ls) :
    ls.length = (orderFrom 0 f).length := h.length_eq.trans (orderFrom_length 0 f).symm

/-- Every used symbol stands in the order once. -/
theorem orderFrom_nodup (f : List Nat) : ((orderFrom 0 f).map Prod.fst).Nodup := by
  have hnodup : (orderFrom 0 f).Nodup := (orderFrom_sorted 0 f).imp fun h he => by
    subst he
    exact h.asymm h
  refine hnodup.map_on fun s hs t ht h => Prod.ext h ?_
  obtain ⟨-, -, hs⟩ := mem_orderFrom.1 hs
  obtain ⟨-, -, ht⟩ := mem_orderFrom.1 ht
  rw [← hs, ← ht, h]

/-! ## Giving lengths to the symbols (R338) -/

theorem kraft_set {i : Nat} {lens : Lens} (hi : i < lens.length) (h0 : lens.getD i 0 = 0) (max l : Nat) :
    kraft max (lens.set i l) = kraft max lens + if l = 0 then 0 else 2 ^ (max - l) := by
  induction lens generalizing i with
  | nil => exact absurd hi (Nat.not_lt_zero i)
  | cons x lens ih =>
    cases i with
    | zero =>
      rw [List.getD_cons_zero] at h0
      rw [List.set_cons_zero, kraft_cons, kraft_cons, if_pos h0]
      omega
    | succ i =>
      rw [List.set_cons_succ, kraft_cons, kraft_cons, ih (Nat.lt_of_succ_lt_succ hi) h0, Nat.add_assoc]

@[simp] theorem assignLens_length (order : List (Nat × Nat)) (ls acc : List Nat) :
    (assignLens order ls acc).length = acc.length := by
  induction order generalizing ls acc with
  | nil => rfl
  | cons s order ih =>
    cases ls with
    | nil => rfl
    | cons l ls => exact (ih _ _).trans List.length_set

theorem assignLens_getD_of_not_mem {order : List (Nat × Nat)} {i : Nat} (h : i ∉ order.map Prod.fst) (ls acc : List Nat) :
    (assignLens order ls acc).getD i 0 = acc.getD i 0 := by
  induction order generalizing ls acc with
  | nil => rfl
  | cons s order ih =>
    cases ls with
    | nil => rfl
    | cons l ls =>
      rw [List.map_cons, List.mem_cons, not_or] at h
      rw [assignLens, ih h.2, List.getD_eq_getElem?_getD, List.getElem?_set_ne (Ne.symm h.1), ← List.getD_eq_getElem?_getD]

section
variable {order : List (Nat × Nat)} {ls acc : List Nat} (hnodup : (order.map Prod.fst).Nodup)
  (hlen : ls.length = order.length) (hrange : ∀ s ∈ order, s.1 < acc.length)
include hnodup hlen hrange

/-- The symbol at a place of the order gets the length at that place. -/
theorem assignLens_getD {k : Nat} (hk : k < order.length) :
    (assignLens order ls acc).getD order[k].1 0 = ls.getD k 0 := by
  induction order generalizing ls acc k with
  | nil => exact absurd hk (Nat.not_lt_zero k)
  | cons s order ih =>
    obtain ⟨l, ls, rfl⟩ : ∃ l ls', ls = l :: ls' := List.exists_cons_of_length_eq_add_one hlen
    obtain ⟨hs, hnodup⟩ := List.nodup_cons.1 hnodup
    obtain ⟨hrs, hrange⟩ := List.forall_mem_cons.1 hrange
    rw [assignLens]
    cases k with
    | zero =>
      rw [List.getElem_cons_zero, assignLens_getD_of_not_mem hs]
      simp [List.getD_eq_getElem?_getD, hrs]
    | succ k =>
      rw [List.getElem_cons_succ, List.getD_cons_succ]
      exact ih hnodup (Nat.succ.inj hlen) (by simpa using hrange) (Nat.lt_of_succ_lt_succ hk)

/-- Symbols without a length before it have the lengths' Kraft sum after it. -/
theorem kraft_assignLens (hzero : ∀ s ∈ order, acc.getD s.1 0 = 0) (max : Nat) :
    kraft max (assignLens order ls acc) = kraft max acc + kraft max ls := by
  induction order generalizing ls acc with
  | nil =>
    obtain rfl := List.eq_nil_of_length_eq_zero hlen
    rfl
  | cons s order ih =>
    obtain ⟨l, ls, rfl⟩ : ∃ l ls', ls = l :: ls' := List.exists_cons_of_length_eq_add_one hlen
    obtain ⟨hs, hnodup⟩ := List.nodup_cons.1 hnodup
    obtain ⟨hrs, hrange⟩ := List.forall_mem_cons.1 hrange
    obtain ⟨hzs, hzero⟩ := List.forall_mem_cons.1 hzero
    have hkeep : ∀ t ∈ order, (acc.set s.1 l).getD t.1 0 = 0 := fun t ht => by
      have hne : s.1 ≠ t.1 := fun h => hs (h ▸ List.mem_map_of_mem ht)
      rw [List.getD_eq_getElem?_getD, List.getElem?_set_ne hne, ← List.getD_eq_getElem?_getD]
      exact hzero t ht
    rw [assignLens, ih hnodup (Nat.succ.inj hlen) (by simpa using hrange) hkeep, kraft_set hrs hzs, kraft_cons, Nat.add_assoc]

end

/-! ## `HB.BUILD` (R333) -/

section
variable {freq : List Nat} {max : Nat}

theorem hbBuild_eq (h : 2 ≤ freq.length) :
    hbBuild freq max =
      assignLens (orderFrom 0 (forceTwo freq)) (builtLens (forceTwo freq) max) (List.replicate freq.length 0) := by
  simp only [hbBuild, if_neg (Nat.not_lt.2 h), forceTwo_length]

theorem hbBuild_length (freq : List Nat) (max : Nat) : (hbBuild freq max).length = freq.length := by
  by_cases h : 2 ≤ freq.length
  · rw [hbBuild_eq h, assignLens_length, List.length_replicate]
  · simp [hbBuild, Nat.not_le.1 h]

theorem lt_of_mem_orderFrom {f : List Nat} {s : Nat × Nat} (h : s ∈ orderFrom 0 f) : s.1 < f.length := by
  obtain ⟨-, hpos, hget⟩ := mem_orderFrom.1 h
  exact getD_pos_lt (hget.symm ▸ hpos)

theorem getD_zeros (n i : Nat) : (List.replicate n 0).getD i 0 = 0 :=
  Nat.le_zero.1 (getD_le (fun _ hx => (List.eq_of_mem_replicate hx).le) i)

/-- A used symbol gets the length at its place in the order. -/
theorem hbBuild_getD (h2 : 2 ≤ freq.length) (hmax : freq.length ≤ 2 ^ max) {k : Nat}
    (hk : k < (orderFrom 0 (forceTwo freq)).length) :
    (hbBuild freq max).getD (orderFrom 0 (forceTwo freq))[k].1 0 = (builtLens (forceTwo freq) max).getD k 0 := by
  have hcomplete := builtLens_complete (two_le_usedCount_forceTwo h2) ((forceTwo_length freq).trans_le hmax)
  rw [hbBuild_eq h2]
  exact assignLens_getD (orderFrom_nodup _) hcomplete.length_orderFrom
    (fun s hs => by simpa using lt_of_mem_orderFrom hs) hk

/-- A symbol with a positive frequency has a place in the order. -/
theorem exists_place {f : List Nat} {i : Nat} (h : 0 < f.getD i 0) :
    ∃ k, ∃ hk : k < (orderFrom 0 f).length, (orderFrom 0 f)[k] = (i, f.getD i 0) :=
  List.getElem_of_mem (mem_orderFrom.2 ⟨Nat.zero_le i, h, rfl⟩)

/-- R333, R356: the lengths are transmittable. -/
theorem hbBuild_transmittable (h2 : 2 ≤ freq.length) (hmax : freq.length ≤ 2 ^ max) :
    transmittable freq (hbBuild freq max) max := by
  have hcomplete := builtLens_complete (two_le_usedCount_forceTwo h2) ((forceTwo_length freq).trans_le hmax)
  have hlen := hcomplete.length_orderFrom
  refine ⟨hbBuild_length freq max, ⟨hbBuild_le hmax, ?_⟩, fun s hs => ?_⟩
  · rw [hbBuild_eq h2, kraft_assignLens (orderFrom_nodup _) hlen (fun s hs => by simpa using lt_of_mem_orderFrom hs)
      (fun s _ => getD_zeros _ _), hcomplete.kraft_eq, kraft_replicate, if_pos rfl, Nat.mul_zero, Nat.zero_add]
  · obtain ⟨k, hk, hplace⟩ := exists_place (forceTwo_pos hs)
    have hget := hbBuild_getD h2 hmax hk
    rw [hplace] at hget
    rw [hget, List.getD_eq_getElem _ _ (hlen ▸ hk)]
    exact hcomplete.pos _ (List.getElem_mem _)

/-- R338: the lengths rise along the order of the symbols. -/
theorem hbBuild_mono (hused : 2 ≤ usedCount freq) (hmax : freq.length ≤ 2 ^ max) {i j : Nat} (hi : 0 < freq.getD i 0)
    (hj : 0 < freq.getD j 0) (h : freqBefore (i, freq.getD i 0) (j, freq.getD j 0)) :
    (hbBuild freq max).getD i 0 ≤ (hbBuild freq max).getD j 0 := by
  have h2 : 2 ≤ freq.length := hused.trans (usedCount_le freq)
  have hcomplete := builtLens_complete hused hmax
  have hplaces := fun {k} => hbBuild_getD (k := k) h2 hmax
  rw [forceTwo_eq hused] at hplaces
  have hlen := hcomplete.length_orderFrom
  obtain ⟨k, hk, hki⟩ := exists_place hi
  obtain ⟨m, hm, hmj⟩ := exists_place hj
  have hkm : k < m := by
    by_contra hmk
    obtain hlt | rfl := Nat.lt_or_eq_of_le (Nat.not_lt.1 hmk)
    · have := List.pairwise_iff_getElem.1 (orderFrom_sorted 0 freq) m k hm hk hlt
      rw [hki, hmj] at this
      exact this.asymm h
    · rw [← hki, ← hmj] at h
      exact h.asymm h
  have hleft := hplaces hk
  have hright := hplaces hm
  rw [hki, List.getD_eq_getElem (builtLens freq max) 0 (hlen ▸ hk)] at hleft
  rw [hmj, List.getD_eq_getElem (builtLens freq max) 0 (hlen ▸ hm)] at hright
  rw [hleft, hright]
  exact List.pairwise_iff_getElem.1 hcomplete.sorted k m _ _ hkm

end

/-- A complete code is accepted in strict mode (R443, R444). -/
theorem hdBuild_of_complete {lens : Lens} {max : Nat} (h : completeLens lens max) (p : Params) (kind : CodeKind) :
    hdBuild p lens max kind = .ok lens := by
  obtain ⟨-, hk⟩ := h
  rw [hdBuild, if_neg (Nat.not_lt.2 hk.le), if_neg fun hlt => Nat.ne_of_lt hlt.1 hk]

theorem exec_hdBuild_of_complete {lens : Lens} {max : Nat} (h : completeLens lens max) (kind : CodeKind) (s : State) :
    exec (.hdBuild lens max kind) s = .next { s with result := .numbers lens } := by
  refine (if_pos h.1).trans ?_
  rw [hdBuild_of_complete h]
  rfl

end Sys2Proof.Machine

open Sys2Proof Sys2Proof.Machine

/-- Settles O43: the merge is a full tree, the rebalancing is never stuck, and the lengths rise along the order of the symbols. -/
theorem hbBuildLengths : Obligations.HbBuildLengths := by
  refine ⟨fun freq max s hmax => ⟨hbBuild freq max, if_pos hmax, hbBuild_length freq max, hbBuild_le hmax, fun h2 => ?_⟩, ?_⟩
  · have htrans := hbBuild_transmittable h2 hmax
    have ⟨_, hcomplete, _⟩ := htrans
    exact ⟨htrans, fun kind => exec_hdBuild_of_complete hcomplete kind s⟩
  · intro freq max s lens i j hexec hused _ _ hj hbefore
    have hmax : freq.length ≤ 2 ^ max := by
      by_contra h
      exact nomatch (inRange_fault h _).symm.trans hexec
    obtain rfl : hbBuild freq max = lens := by
      have := Host.Outcome.next.inj ((if_pos hmax).symm.trans hexec)
      exact Yield.numbers.inj (congrArg State.result this)
    obtain rfl | hne := eq_or_ne i j
    · exact le_rfl
    · exact hbBuild_mono hused hmax (by omega) hj (hbefore.imp_right fun h => ⟨h.1.symm, by omega⟩)

end

section
/-! PROOFS. The bits of a planned block (R352, R354): a run of writes appends the bits of each, so that a block appends the bits of
its header and those of its symbols. -/

namespace Sys2Proof.Machine

/-! ## Runs of writes -/

/-- `e` is a sound writer that has been given `bits` after all that `d` has (R201). -/
structure Appended (d : Defl) (bits : List Bool) (e : Defl) : Prop where
  ok : e.BitsOk
  written : writtenBits e = writtenBits d ++ bits

section
variable {d e : Defl} {bits : List Bool}

theorem Appended.refl (h : d.BitsOk) : Appended d [] d := ⟨h, (List.append_nil _).symm⟩

theorem Appended.bwPut (h : Appended d bits e) {v n : Nat} (hv : v < 2 ^ n) :
    Appended d (bits ++ bitsOf n v) (bwPut v n e) :=
  ⟨h.ok.bwPut hv, by rw [writtenBits_bwPut h.ok.2, h.written, List.append_assoc]⟩

/-- The code of a symbol is written highest bit first (R204). -/
theorem Appended.bwPutcode (h : Appended d bits e) (lens : Lens) (max k : Nat) :
    Appended d (bits ++ codeBits lens max k) (bwPutcode ((hbCanon lens max).getD k 0) (lens.getD k 0) e) :=
  ⟨h.ok.bwPutcode _ _, by rw [writtenBits_bwPutcode h.ok.2, h.written, List.append_assoc, codeBits]⟩

theorem Appended.bwAlign (h : Appended d bits e) :
    Appended d (bits ++ List.replicate ((8 - e.bitCnt) % 8) false) (bwAlign e) :=
  ⟨h.ok.bwAlign, by rw [writtenBits_bwAlign h.ok, h.written, List.append_assoc]⟩

theorem Appended.foldl {α : Type} {f : α → List Bool} {g : Defl → α → Defl} {l : List α} (h : Appended d bits e)
    (hg : ∀ x ∈ l, ∀ {c : Defl} {bs : List Bool}, Appended d bs c → Appended d (bs ++ f x) (g c x)) :
    Appended d (bits ++ l.flatMap f) (l.foldl g e) := by
  induction l generalizing bits e with
  | nil => simpa using h
  | cons x l ih =>
    obtain ⟨hx, hl⟩ := List.forall_mem_cons.1 hg
    rw [List.flatMap_cons, ← List.append_assoc]
    exact ih (hx h) hl

/-! ## The header (R352) -/

theorem Appended.emitTrees {b : Blk} (hb : b.Inv) (h : Appended d bits e) :
    Appended d (bits ++ treeBits b) (emitTrees b e) := by
  obtain ⟨hlit, hdist, hclen, hcl, hrl, -⟩ := hb
  have hcounts := ((h.bwPut (v := b.hlit - 257) (n := 5) (by omega)).bwPut (v := b.hdist - 1) (n := 5) (by omega)).bwPut
    (v := b.hclen - 4) (n := 4) (by omega)
  have hlens := hcounts.foldl (l := clOrder.take b.hclen) (f := fun s => bitsOf 3 (b.clLens.getD s 0))
    (g := fun d s => Machine.bwPut (b.clLens.getD s 0) 3 d) fun s _ _ _ hc => hc.bwPut (Nat.lt_succ_of_le (getD_le hcl s))
  have hpairs := hlens.foldl (l := b.rl) (f := fun q => codeBits b.clLens 7 q.1 ++ bitsOf (clXb q.1) q.2)
    (g := emitPair (hbCanon b.clLens 7) b.clLens) fun q hq _ _ hc => by
      rw [← List.append_assoc]
      exact (hc.bwPutcode b.clLens 7 q.1).bwPut (hrl q hq)
  simpa only [treeBits, Machine.emitTrees, List.append_assoc] using hpairs

theorem Appended.emitStoredLen {n : Nat} (hn : n ≤ storedMax) (h : Appended d bits e) :
    Appended d (bits ++ (List.replicate ((8 - e.bitCnt) % 8) false ++ bitsOf 16 n ++ bitsOf 16 (65535 - n)))
      (emitStoredLen n e) := by
  have hn' : n ≤ 65535 := hn
  simpa only [Machine.emitStoredLen, List.append_assoc] using
    (h.bwAlign.bwPut (v := n) (n := 16) (by omega)).bwPut (v := 65535 - n) (n := 16) (by omega)

/-- The bits of a header behind its first three, for a writer that holds `p` bits before them (R352). -/
def headerRest (p : Nat) (b : Blk) : List Bool :=
  match b.typ with
  | .stored => List.replicate ((8 - (p + 3) % 8) % 8) false ++ bitsOf 16 b.raw.length ++ bitsOf 16 (65535 - b.raw.length)
  | .fixed => []
  | .dynamic => treeBits b

theorem appended_hbEmitHeader {b : Blk} (hb : b.Inv) (h : d.BitsOk) :
    Appended d ([b.final] ++ bitsOf 2 (blockTypeNum b.typ) ++ headerRest d.bitCnt b) (hbEmitHeader b d) := by
  have hfinal : bitsOf 1 b.final.toNat = [b.final] := by cases b.final <;> rfl
  have htyp : blockTypeNum b.typ < 2 ^ 2 := by cases b.typ <;> decide
  have h1 := ((Appended.refl h).bwPut (v := b.final.toNat) (n := 1) (Bool.toNat_lt _)).bwPut htyp
  have hcnt : (Machine.bwPut (blockTypeNum b.typ) 2 (Machine.bwPut b.final.toNat 1 d)).bitCnt = (d.bitCnt + 3) % 8 := by
    rw [bwPut_bitCnt, bwPut_bitCnt]
    omega
  rw [hfinal, List.nil_append] at h1
  simp only [hbEmitHeader, headerRest]
  cases ht : b.typ with
  | stored =>
    obtain ⟨-, -, -, -, -, -, hraw⟩ := hb
    rw [ht] at h1 hcnt
    have := h1.emitStoredLen (hraw ht)
    rwa [hcnt] at this
  | fixed =>
    rw [ht] at h1
    simpa using h1
  | dynamic =>
    rw [ht] at h1
    exact h1.emitTrees hb

/-! ## The symbols (R354) -/

theorem Appended.emitSymbol (ll dl : Lens) (h : Appended d bits e) {t : Token} (ht : tokenOk t = true) :
    Appended d (bits ++ tokenBits ll dl t) (emitSymbol (hbCanon ll 15) ll (hbCanon dl 15) dl e t) := by
  cases t with
  | lit b => exact h.bwPutcode ll 15 b.toNat
  | mat len dist =>
    obtain ⟨-, hlen, hdist⟩ := of_decide_eq_true ht
    simpa only [tokenBits, Machine.emitSymbol, List.append_assoc] using
      (((h.bwPutcode ll 15 (257 + lsymOf len)).bwPut (lenXb_fits hlen)).bwPutcode dl 15 (dsymOf dist)).bwPut (distXb_fits hdist)

theorem appended_emitCoded {toks : List Token} (ht : ∀ t ∈ toks, tokenOk t = true) (ll dl : Lens) (h : d.BitsOk) :
    Appended d (blockBits ll dl toks) (emitCoded toks ll dl d) :=
  ((Appended.refl h).foldl fun _ hx _ _ hc => hc.emitSymbol ll dl (ht _ hx)).bwPutcode ll 15 256

/-- The bits of a block's symbols (R354). -/
def symbolBits (b : Blk) : List Bool :=
  match b.typ with
  | .stored => streamBits b.raw
  | .fixed => blockBits fixLl fixD b.toks
  | .dynamic => blockBits b.llLens b.dLens b.toks

theorem appended_hbEmitSymbols {b : Blk} (hb : b.Inv) (h : d.BitsOk) : Appended d (symbolBits b) (hbEmitSymbols b d) := by
  obtain ⟨-, -, -, -, -, htoks, -⟩ := hb
  simp only [hbEmitSymbols, symbolBits]
  cases b.typ with
  | stored => exact (Appended.refl h).foldl fun x _ _ _ hc => hc.bwPut x.isLt
  | fixed => exact appended_emitCoded htoks _ _ h
  | dynamic => exact appended_emitCoded htoks _ _ h

end

/-- What is only the writer's changes only the writer in the state. -/
theorem setDefl_of_onlyBits {s : State} {e : Defl} (h : onlyBits s.defl e) (y : Yield) :
    { s with defl := e, result := y } = { s with
      defl := { s.defl with pending := e.pending, bitBuf := e.bitBuf, bitCnt := e.bitCnt }
      result := y } := by
  rw [← h]

end Sys2Proof.Machine

open Sys2Proof Sys2Proof.Machine

/-- Settles O48: the header and the symbols are runs of writes. -/
theorem hbEmitBits : Obligations.HbEmitBits := by
  intro s hc hb hblk b keeps
  have hok : s.defl.BitsOk := ⟨hc, hb⟩
  have hhead := appended_hbEmitHeader hblk hok
  have hsyms := appended_hbEmitSymbols hblk hok
  refine ⟨⟨_, rfl, ⟨hhead.ok.1, hhead.ok.2, setDefl_of_onlyBits (onlyBits_hbEmitHeader b s.defl) _⟩, ?_⟩,
    ⟨_, rfl, ⟨hsyms.ok.1, hsyms.ok.2, setDefl_of_onlyBits (onlyBits_hbEmitSymbols b s.defl) _⟩, hsyms.written⟩⟩
  have := hhead.written
  rw [← List.append_assoc, ← List.append_assoc] at this
  exact this

end

section
/-! PROOFS. What a block costs (R347): every write appends as many bits as it is wide, and counting each token's bits is weighing
the frequencies of the symbols by their lengths. -/

namespace Sys2Proof.Machine

/-! ## How many bits the writer appends (R203) -/

/-- How many bits the writer has been given and not yet put out. -/
def writtenCount (d : Defl) : Nat := (writtenBits d).length

theorem writtenCount_eq (d : Defl) : writtenCount d = 8 * d.pending.length + d.bitCnt := by
  simp [writtenCount, writtenBits]

@[simp] theorem writtenCount_bwPut (v n : Nat) (d : Defl) : writtenCount (bwPut v n d) = writtenCount d + n := by
  simp only [writtenCount_eq, bwPut_pending, bwPut_bitCnt, List.length_append, Laws.leBytes_length]
  omega

@[simp] theorem writtenCount_bwPutcode (c n : Nat) (d : Defl) : writtenCount (bwPutcode c n d) = writtenCount d + n :=
  writtenCount_bwPut _ _ _

theorem writtenCount_foldl {α : Type} {f : α → Nat} {g : Defl → α → Defl} (l : List α)
    (hg : ∀ x d, writtenCount (g d x) = writtenCount d + f x) (d : Defl) :
    writtenCount (l.foldl g d) = writtenCount d + (l.map f).sum := by
  induction l generalizing d with
  | nil => rfl
  | cons x l ih => rw [List.foldl_cons, ih, hg, List.map_cons, List.sum_cons, Nat.add_assoc]

theorem writtenCount_emitTrees {b : Blk} (h : b.hclen ≤ 19) (d : Defl) :
    writtenCount (emitTrees b d) = writtenCount d + (14 + 3 * b.hclen + rlBits b.clLens b.rl) := by
  have hlen : (clOrder.take b.hclen).length = b.hclen := List.length_take_of_le h
  rw [emitTrees,
    writtenCount_foldl (f := fun q => b.clLens.getD q.1 0 + clXb q.1) b.rl fun q d => by simp [emitPair, Nat.add_assoc],
    writtenCount_foldl (f := fun _ => 3) _ fun s d => writtenCount_bwPut _ _ d, List.map_const', hlen, List.sum_replicate, rlBits]
  simp only [writtenCount_bwPut, smul_eq_mul]
  omega

theorem writtenCount_hbEmitHeader_fixed {b : Blk} (h : b.typ = .fixed) (d : Defl) :
    writtenCount (hbEmitHeader b d) = writtenCount d + 3 := by
  simp [hbEmitHeader, h, Nat.add_assoc]

theorem writtenCount_hbEmitHeader_dynamic {b : Blk} (h : b.typ = .dynamic) (hc : b.hclen ≤ 19) (d : Defl) :
    writtenCount (hbEmitHeader b d) = writtenCount d + 3 + (14 + 3 * b.hclen + rlBits b.clLens b.rl) := by
  simp [hbEmitHeader, h, writtenCount_emitTrees hc, Nat.add_assoc]

/-- How many bits a token has under two vectors of code lengths (R354). -/
def tokenCost (ll dl : Lens) : Token → Nat
  | .lit b => ll.getD b.toNat 0
  | .mat len dist => ll.getD (257 + lsymOf len) 0 + dl.getD (dsymOf dist) 0 + tokenXb (.mat len dist)

theorem writtenCount_emitSymbol (lc ll dc dl : List Nat) (t : Token) (d : Defl) :
    writtenCount (emitSymbol lc ll dc dl d t) = writtenCount d + tokenCost ll dl t := by
  cases t with
  | lit b => exact writtenCount_bwPutcode _ _ _
  | mat len dist =>
    simp only [emitSymbol, writtenCount_bwPut, writtenCount_bwPutcode, tokenCost, tokenXb]
    omega

theorem writtenCount_emitCoded (toks : List Token) (ll dl : Lens) (d : Defl) :
    writtenCount (emitCoded toks ll dl d) = writtenCount d + (toks.map (tokenCost ll dl)).sum + ll.getD 256 0 := by
  rw [emitCoded, writtenCount_bwPutcode, writtenCount_foldl toks fun t d => writtenCount_emitSymbol _ _ _ _ t d]

/-! ## Weighing frequencies (R347) -/

/-- One more occurrence of a symbol weighs its length more. -/
theorem dot_bump {f : List Nat} {i : Nat} (h : i < f.length) (l : List Nat) : dot (bump i f) l = dot f l + l.getD i 0 := by
  induction f generalizing i l with
  | nil => exact absurd h (Nat.not_lt_zero i)
  | cons x f ih =>
    cases l with
    | nil => cases i <;> rfl
    | cons y l =>
      cases i with
      | zero =>
        simp only [bump, List.getD_cons_zero, List.set_cons_zero, dot]
        ring
      | succ i =>
        have := ih (Nat.lt_of_succ_lt_succ h) l
        simp only [bump, List.getD_cons_succ, List.set_cons_succ, dot] at this ⊢
        omega

theorem dot_zeros (n : Nat) (l : List Nat) : dot (List.replicate n 0) l = 0 := by
  induction n generalizing l with
  | zero => cases l <;> rfl
  | succ n ih =>
    cases l with
    | nil => rfl
    | cons y l => rw [List.replicate_succ, dot, ih, Nat.zero_mul]

theorem dot_replicate {f : List Nat} {n : Nat} (h : f.length ≤ n) (c : Nat) : dot f (List.replicate n c) = c * f.sum := by
  induction f generalizing n with
  | nil => rfl
  | cons x f ih =>
    obtain ⟨m, rfl⟩ : ∃ m, n = m + 1 := Nat.exists_eq_succ_of_ne_zero (Nat.ne_zero_of_lt h)
    rw [List.replicate_succ, dot, ih (Nat.le_of_succ_le_succ h), List.sum_cons]
    ring

/-! ## The frequencies of a token list (R331) -/

theorem lsymOf_le (len : Nat) : lsymOf len ≤ 28 := by
  unfold lsymOf
  split_ifs
  · exact Nat.le_refl 28
  · exact Nat.le_of_lt (largestLe_lt (by decide))

theorem dsymOf_lt (dist : Nat) : dsymOf dist < 30 := largestLe_lt (by decide)

@[simp] theorem llCount_length (toks : List Token) (f : List Nat) : (llCount toks f).length = f.length := by
  induction toks generalizing f with
  | nil => rfl
  | cons t toks ih => cases t <;> exact (ih _).trans (bump_length _ _)

@[simp] theorem dCount_length (toks : List Token) (f : List Nat) : (dCount toks f).length = f.length := by
  induction toks generalizing f with
  | nil => rfl
  | cons t toks ih =>
    cases t with
    | lit b => exact ih f
    | mat len dist => exact (ih _).trans (bump_length _ _)

@[simp] theorem llFreq_length (toks : List Token) : (llFreq toks).length = 286 :=
  List.length_set.trans ((llCount_length _ _).trans List.length_replicate)

@[simp] theorem dFreq_length (toks : List Token) : (dFreq toks).length = 30 := (dCount_length _ _).trans List.length_replicate

theorem getD_bump_ne {i j : Nat} (h : i ≠ j) (f : List Nat) : (bump i f).getD j 0 = f.getD j 0 := by
  simp [bump, List.getD_eq_getElem?_getD, List.getElem?_set_ne h]

/-- No token counts as an end of block. -/
theorem llCount_eob (toks : List Token) (f : List Nat) : (llCount toks f).getD 256 0 = f.getD 256 0 := by
  induction toks generalizing f with
  | nil => rfl
  | cons t toks ih =>
    cases t with
    | lit b => exact (ih _).trans (getD_bump_ne (Nat.ne_of_lt b.isLt) f)
    | mat len dist => exact (ih _).trans (getD_bump_ne (by omega) f)

/-- The counts weigh what the tokens cost, without their extra bits. -/
theorem sum_tokenCost (toks : List Token) (ll dl : Lens) {f g : List Nat} (hf : f.length = 286) (hg : g.length = 30) :
    dot f ll + dot g dl + (toks.map (tokenCost ll dl)).sum = dot (llCount toks f) ll + dot (dCount toks g) dl + xbits toks := by
  induction toks generalizing f g with
  | nil => rfl
  | cons t toks ih =>
    cases t with
    | lit b =>
      have hb : b.toNat < f.length := by have := b.isLt; omega
      have hrest := ih ((bump_length _ _).trans hf) hg (f := bump b.toNat f)
      rw [dot_bump hb] at hrest
      simp only [xbits, List.map_cons, List.sum_cons, llCount, dCount, tokenCost, tokenXb] at hrest ⊢
      omega
    | mat len dist =>
      have hl : 257 + lsymOf len < f.length := by have := lsymOf_le len; omega
      have hd : dsymOf dist < g.length := by have := dsymOf_lt dist; omega
      have hrest := ih ((bump_length _ _).trans hf) ((bump_length _ _).trans hg)
        (f := bump (257 + lsymOf len) f) (g := bump (dsymOf dist) g)
      rw [dot_bump hl, dot_bump hd] at hrest
      simp only [xbits, List.map_cons, List.sum_cons, llCount, dCount, tokenCost] at hrest ⊢
      omega

theorem dot_llFreq (toks : List Token) (ll : Lens) :
    dot (llFreq toks) ll = dot (llCount toks (List.replicate 286 0)) ll + ll.getD 256 0 := by
  have hone : llFreq toks = bump 256 (llCount toks (List.replicate 286 0)) := by
    rw [llFreq, bump, llCount_eob]
    rfl
  rw [hone, dot_bump]
  rw [llCount_length, List.length_replicate]
  decide

/-- What the symbols of a block cost, its end of block among them (R347). -/
theorem writtenCount_emitCoded_freq (toks : List Token) (ll dl : Lens) (d : Defl) :
    writtenCount (emitCoded toks ll dl d) =
      writtenCount d + (dot (llFreq toks) ll + dot (dFreq toks) dl + xbits toks) := by
  have h := sum_tokenCost toks ll dl (f := List.replicate 286 0) (g := List.replicate 30 0)
    List.length_replicate List.length_replicate
  rw [dot_zeros, dot_zeros] at h
  rw [writtenCount_emitCoded, dot_llFreq, dFreq]
  omega

/-! ## The two costs (R347) -/

/-- The bits of a block of Huffman type behind the first three are those planned for it. -/
theorem writtenCount_block {p b : Blk} {final : Bool} {typ : BlockType} {toks : List Token} (hb : b = { p with final, typ, toks })
    (hc : p.hclen ≤ 19) (htyp : typ ≠ .stored) (d : Defl) :
    writtenCount (hbEmitSymbols b (hbEmitHeader b d)) =
      writtenCount d + 3 + if typ = .fixed then fixBits toks else dynBits p toks := by
  have ht : b.typ = typ := by rw [hb]
  have htoks : b.toks = toks := by rw [hb]
  cases typ with
  | stored => exact absurd rfl htyp
  | fixed =>
    rw [hbEmitSymbols, ht, htoks]
    rw [if_pos rfl]
    simp only [writtenCount_emitCoded_freq, writtenCount_hbEmitHeader_fixed ht]
    rw [fixBits, fixD, dot_replicate ((dFreq_length toks).trans_le (by decide))]
  | dynamic =>
    have hhead := writtenCount_hbEmitHeader_dynamic (b := b) ht (by rw [hb]; exact hc) d
    rw [hbEmitSymbols, ht, htoks]
    rw [if_neg nofun]
    simp only [writtenCount_emitCoded_freq, hhead]
    rw [dynBits, hb]
    simp only
    omega

/-- `HB.PLAN` fills the code description only (R348). -/
theorem hbPlan_frame (toks : List Token) (b : Blk) :
    hbPlan toks b = { b with
      llLens := (hbPlan toks b).llLens, dLens := (hbPlan toks b).dLens, hlit := (hbPlan toks b).hlit
      hdist := (hbPlan toks b).hdist, rl := (hbPlan toks b).rl, clLens := (hbPlan toks b).clLens
      hclen := (hbPlan toks b).hclen } := by
  simp only [hbPlan]

/-- The state `HB.PLAN` leaves (R348). -/
def planned (toks : List Token) (s : State) : State :=
  { s with
    defl := { s.defl with blk := hbPlan toks s.defl.blk }
    result := .costs (dynBits (hbPlan toks s.defl.blk) toks) (fixBits toks) }

theorem exec_hbPlan (toks : List Token) (s : State) : exec (.hbPlan toks) s = .next (planned toks s) := rfl

theorem hbEmitHeader_blk (b : Blk) (d : Defl) : (hbEmitHeader b d).blk = d.blk := by rw [onlyBits_hbEmitHeader b d]

/-- The two emit operations one after the other write one block. -/
theorem exec_emitBlock (s : State) :
    ∃ t u, exec .hbEmitHeader s = .next t ∧ exec .hbEmitSymbols t = .next u ∧
      u.defl = hbEmitSymbols s.defl.blk (hbEmitHeader s.defl.blk s.defl) :=
  ⟨_, _, rfl, rfl, congrArg (fun b => hbEmitSymbols b (hbEmitHeader s.defl.blk s.defl)) (hbEmitHeader_blk _ _)⟩

end Sys2Proof.Machine

open Sys2Proof Sys2Proof.Machine

/-- Settles O46: both costs weigh the block's frequencies by the lengths its bits are written with. -/
theorem hbPlanCosts : Obligations.HbPlanCosts := by
  intro toks s
  refine ⟨planned toks s, _, _, exec_hbPlan toks s, rfl, ?_, fun final typ u htyp hblk => ?_⟩
  · exact congrArg (fun b => { s with defl := { s.defl with blk := b }, result := (planned toks s).result })
      (hbPlan_frame toks s.defl.blk)
  · obtain ⟨-, -, hclen⟩ := hbPlan_widths toks s.defl.blk
    obtain ⟨v, w, hv, hw, hdefl⟩ := exec_emitBlock u
    refine ⟨v, w, hv, hw, ?_⟩
    rw [hdefl]
    exact writtenCount_block hblk hclen htyp u.defl

end

section
/-! PROOFS. The plan of a block (R342, R345, R348): the three vectors are built for the block's frequencies, the counts cut off zeros
only, and the run-length pairs expand to what was kept. -/

namespace Sys2Proof.Machine

/-! ## Trimming (R342) -/

section
variable {lens : Lens} {low n : Nat}

theorem le_trimTo (lens : Lens) (low n : Nat) : low ≤ trimTo lens low n := by
  induction n with
  | zero => exact le_rfl
  | succ n ih =>
    rw [trimTo]
    split_ifs
    · exact le_rfl
    · exact ih
    · omega

theorem getD_of_trimTo_le {k : Nat} (h : trimTo lens low n ≤ k) (hk : k < n) : lens.getD k 0 = 0 := by
  induction n with
  | zero => exact absurd hk (Nat.not_lt_zero k)
  | succ n ih =>
    rw [trimTo] at h
    split_ifs at h with hlow hzero
    · omega
    · obtain hlt | rfl := Nat.lt_or_eq_of_le (Nat.le_of_lt_succ hk)
      · exact ih h hlt
      · exact hzero
    · omega

theorem getD_trimTo_pred (h : low < trimTo lens low n) : lens.getD (trimTo lens low n - 1) 0 ≠ 0 := by
  induction n with
  | zero => exact absurd h (Nat.lt_irrefl low)
  | succ n ih =>
    rw [trimTo] at h ⊢
    split_ifs at h ⊢ with hlow hzero
    · exact absurd h (Nat.lt_irrefl low)
    · exact ih h
    · exact hzero

theorem mem_drop_trimTo (hlen : lens.length ≤ n) : ∀ l ∈ lens.drop (trimTo lens low n), l = 0 := by
  intro l hl
  obtain ⟨i, hi, rfl⟩ := List.mem_drop_iff_getElem.1 hl
  exact (List.getD_eq_getElem lens 0 (by omega)).symm.trans (getD_of_trimTo_le (Nat.le_add_right _ _) (by omega))

end

/-! ## The run-length pairs (R344) -/

/-- Pairs made of one sequence expand to it behind whatever stands before. -/
theorem expandLens_hbRle_append (acc : Lens) {lens : Lens} (h : ∀ l ∈ lens, l < 16) :
    expandLens acc (hbRle lens) = acc ++ lens := by
  cases lens with
  | nil => rw [hbRle, expandLens, List.append_nil]
  | cons l ls =>
    obtain ⟨hl, hls⟩ := List.forall_mem_cons.1 h
    rw [hbRle, expandLens_rleFrom acc hl Nat.one_pos hls, List.replicate_one, List.append_assoc, List.singleton_append]

/-! ## The planned fields (R348) -/

theorem llFreq_eob (toks : List Token) : (llFreq toks).getD 256 0 = 1 := by
  have hlen : 256 < (llCount toks (List.replicate 286 0)).length := by
    rw [llCount_length, List.length_replicate]
    decide
  rw [llFreq, List.getD_eq_getElem?_getD, List.getElem?_set_self hlen, Option.getD_some]

section
variable (toks : List Token) (b : Blk)

theorem hbPlan_llLens : (hbPlan toks b).llLens = hbBuild (llFreq toks) 15 := by simp only [hbPlan]

theorem hbPlan_dLens : (hbPlan toks b).dLens = hbBuild (dFreq toks) 15 := by simp only [hbPlan]

theorem hbPlan_hlit : (hbPlan toks b).hlit = trimTo (hbPlan toks b).llLens 257 286 := by simp only [hbPlan]

theorem hbPlan_hdist : (hbPlan toks b).hdist = trimTo (hbPlan toks b).dLens 1 30 := by simp only [hbPlan]

theorem hbPlan_rl : (hbPlan toks b).rl =
    hbRle ((hbPlan toks b).llLens.take (hbPlan toks b).hlit) ++ hbRle ((hbPlan toks b).dLens.take (hbPlan toks b).hdist) := by
  simp only [hbPlan]

theorem hbPlan_clLens : (hbPlan toks b).clLens = hbBuild (clFreq (hbPlan toks b).rl) 7 := by simp only [hbPlan]

theorem hbPlan_hclen : (hbPlan toks b).hclen = trimTo (clOrder.map fun s => (hbPlan toks b).clLens.getD s 0) 4 19 := by
  simp only [hbPlan, hclenOf]

theorem transmittable_llLens : transmittable (llFreq toks) (hbPlan toks b).llLens 15 := by
  rw [hbPlan_llLens]
  exact hbBuild_transmittable (by rw [llFreq_length]; decide) (by rw [llFreq_length]; decide)

theorem transmittable_dLens : transmittable (dFreq toks) (hbPlan toks b).dLens 15 := by
  rw [hbPlan_dLens]
  exact hbBuild_transmittable (by rw [dFreq_length]; decide) (by rw [dFreq_length]; decide)

theorem transmittable_clLens : transmittable (clFreq (hbPlan toks b).rl) (hbPlan toks b).clLens 7 := by
  rw [hbPlan_clLens]
  exact hbBuild_transmittable (by rw [clFreq_length]; decide) (by rw [clFreq_length]; decide)

/-- The pairs expand to the two trimmed vectors. -/
theorem expandLens_hbPlan_rl : expandLens [] (hbPlan toks b).rl =
    (hbPlan toks b).llLens.take (hbPlan toks b).hlit ++ (hbPlan toks b).dLens.take (hbPlan toks b).hdist := by
  obtain ⟨-, ⟨hll, -⟩, -⟩ := transmittable_llLens toks b
  obtain ⟨-, ⟨hd, -⟩, -⟩ := transmittable_dLens toks b
  rw [hbPlan_rl, expandLens_append, expandLens_hbRle fun l hl => Nat.lt_succ_of_le (hll l (List.mem_of_mem_take hl)),
    expandLens_hbRle_append _ fun l hl => Nat.lt_succ_of_le (hd l (List.mem_of_mem_take hl))]

/-- Trimming cuts off zeros only. -/
theorem hbPlan_dropped :
    ∀ l ∈ (hbPlan toks b).llLens.drop (hbPlan toks b).hlit ++ (hbPlan toks b).dLens.drop (hbPlan toks b).hdist, l = 0 := by
  obtain ⟨hll, -⟩ := transmittable_llLens toks b
  obtain ⟨hd, -⟩ := transmittable_dLens toks b
  rw [hbPlan_hlit, hbPlan_hdist]
  exact List.forall_mem_append.2
    ⟨mem_drop_trimTo (hll.trans (llFreq_length toks)).le, mem_drop_trimTo (hd.trans (dFreq_length toks)).le⟩

theorem getD_map_clOrder (lens : Lens) {k : Nat} (hk : k < 19) :
    (clOrder.map fun s => lens.getD s 0).getD k 0 = lens.getD (clOrder.getD k 0) 0 := by
  have hlt : k < clOrder.length := hk
  rw [List.getD_eq_getElem _ _ (by rwa [List.length_map]), List.getElem_map, List.getD_eq_getElem clOrder 0 hlt]

/-- Past `hclen` there are zeros only. -/
theorem hbPlan_clLens_past {k : Nat} (h : (hbPlan toks b).hclen ≤ k) (hk : k < 19) :
    (hbPlan toks b).clLens.getD (clOrder.getD k 0) 0 = 0 := by
  rw [hbPlan_hclen] at h
  rw [← getD_map_clOrder _ hk]
  exact getD_of_trimTo_le h hk

/-- The last of `hclen` lengths is not 0, unless these are the four that are always sent. -/
theorem hbPlan_clLens_last (h : 4 < (hbPlan toks b).hclen) :
    (hbPlan toks b).clLens.getD (clOrder.getD ((hbPlan toks b).hclen - 1) 0) 0 ≠ 0 := by
  obtain ⟨-, -, hle⟩ := hbPlan_widths toks b
  rw [← getD_map_clOrder _ (by omega)]
  rw [hbPlan_hclen] at h ⊢
  exact getD_trimTo_pred h

end

end Sys2Proof.Machine

open Sys2Proof Sys2Proof.Machine

/-- Settles O47: from what `HB.BUILD` yields and what trimming leaves. -/
theorem hbPlanTransmittable : Obligations.HbPlanTransmittable := by
  intro toks s t _ hexec
  obtain rfl : planned toks s = t := Host.Outcome.next.inj ((exec_hbPlan toks s).symm.trans hexec)
  intro b
  have hb : b = hbPlan toks s.defl.blk := rfl
  rw [hb]
  obtain ⟨hlit, hdist, hclen⟩ := hbPlan_widths toks s.defl.blk
  have hll := transmittable_llLens toks s.defl.blk
  have ⟨_, _, hused⟩ := hll
  have heob := hused 256 (by rw [llFreq_eob]; decide)
  refine ⟨hll, transmittable_dLens _ _, transmittable_clLens _ _, heob, ?_, hlit, ?_, hdist, ?_, hclen,
    expandLens_hbPlan_rl _ _, hbPlan_dropped _ _, fun _ => hbPlan_clLens_past _ _, fun h => ?_, fun h => ?_,
    hbPlan_clLens_last _ _⟩
  · exact hbPlan_hlit toks _ ▸ le_trimTo _ _ _
  · exact hbPlan_hdist toks _ ▸ le_trimTo _ _ _
  · exact hbPlan_hclen toks _ ▸ le_trimTo _ _ _
  · rw [hbPlan_hlit] at h ⊢
    exact getD_trimTo_pred h
  · rw [hbPlan_hdist] at h ⊢
    exact getD_trimTo_pred h

end

section
/-! PROOFS. The commands of `DEFL` before any work is done: what `RESET` leaves (R378), and the entry checks of a `WRITE` in their
order (R380). -/

namespace Sys2Proof.Machine

/-! ## The legality test of `RESET` (R378) -/

theorem strategyOf_isSome (n : Nat) : (strategyOf n).isSome = true ↔ n ≤ 4 := by
  match n with
  | 0 | 1 | 2 | 3 | 4 => simp [strategyOf]
  | n + 5 => simp [strategyOf]

theorem wrapOf_isSome (n : Nat) : (wrapOf n).isSome = true ↔ n ≤ 2 := by
  match n with
  | 0 | 1 | 2 => simp [wrapOf]
  | n + 3 => simp [wrapOf]

/-- The test is that of R378, field by field. -/
theorem deflLegal_iff (c : Word) : deflLegal c = true ↔
    (field 0 4 c.toNat ≤ 9 ∨ field 0 4 c.toNat = 15) ∧ 9 ≤ field 4 4 c.toNat ∧ 1 ≤ field 8 4 c.toNat ∧
      field 8 4 c.toNat ≤ 9 ∧ field 12 3 c.toNat ≤ 4 ∧ field 16 2 c.toNat ≤ 2 ∧ field 15 1 c.toNat = 0 ∧
      field 18 14 c.toNat = 0 := by
  unfold deflLegal cfgReserved
  simp only [Bool.and_eq_true, decide_eq_true_eq, strategyOf_isSome, wrapOf_isSome, Nat.add_eq_zero_iff]
  unfold cfgLevel cfgWindowBits cfgMemLevel cfgStrategy cfgWrap
  tauto

theorem deflReset_legal {d : Defl} (h : deflLegal d.config = true) : deflReset d = deflStart d.config d.regs := if_pos h

theorem deflReset_refused {d : Defl} (h : ¬deflLegal d.config = true) :
    deflReset d = { d with configured := false, sticky := .ok, ec := .streamError } := if_neg h

theorem exec_deflReset (s : State) : exec .deflReset s = .next { s with defl := deflReset s.defl } := rfl

/-- A second `RESET` finds the configuration and the stream parameters the first one found. -/
theorem deflReset_deflReset (d : Defl) : deflReset (deflReset d) = deflReset d := by
  by_cases h : deflLegal d.config = true
  · rw [deflReset_legal h]
    exact deflReset_legal (d := deflStart d.config d.regs) h
  · rw [deflReset_refused h]
    exact deflReset_refused (d := { d with configured := false, sticky := .ok, ec := .streamError }) h

/-! ## The entry checks of a `WRITE` (R380) -/

theorem exec_deflWriteInstr (f : Flush) (s : State) : exec (deflWriteInstr f) s = deflWrite f s := by
  cases f <;> rfl

section
variable {f : Flush} {s : State}

theorem deflWrite_unconfigured (h : s.defl.configured = false) : deflWrite f s = .next (deflReturn .streamError s) := by
  simp [deflWrite, h]

theorem deflWrite_sticky (hc : s.defl.configured = true) (h : s.defl.sticky ≠ .ok) :
    deflWrite f s = .next (deflReturn s.defl.sticky s) := by
  simp [deflWrite, hc, h]

theorem deflWrite_region (hc : s.defl.configured = true) (hs : s.defl.sticky = .ok) (h : regionOk s.defl.regs = false) :
    deflWrite f s = .next (deflReturn .streamError s) := by
  simp [deflWrite, hc, hs, h]

/-- Past the first three checks. -/
abbrev Defl.ready (d : Defl) : Prop := d.configured = true ∧ d.sticky = .ok ∧ regionOk d.regs = true

theorem availIn_toNat_pos {a : Word} : 0 < a.toNat ↔ a ≠ 0 := by
  rw [Nat.pos_iff_ne_zero, ne_eq, ne_eq, ← BitVec.toNat_inj]
  rfl

/-- What is left of a `WRITE` past the first three checks. -/
theorem deflWrite_ready (hr : s.defl.ready) : deflWrite f s =
    if s.defl.stage = .done then
      if s.defl.regs.availIn ≠ 0 then .next { s with defl := deflRaise .streamError s.defl }
      else .next (deflReturn .endOfStream s)
    else if s.defl.finishing then
      if s.defl.regs.availIn ≠ 0 then .next { s with defl := deflRaise .streamError s.defl } else deflRun .finish s
    else deflRun f s := by
  obtain ⟨hc, hs, ho⟩ := hr
  unfold deflWrite
  rw [if_neg (by simp [hc]), if_neg (not_not.2 hs), if_neg (by simp [ho])]
  simp only [availIn_toNat_pos]

theorem deflWrite_done (hr : s.defl.ready) (h : s.defl.stage = .done) : deflWrite f s =
    if s.defl.regs.availIn ≠ 0 then .next { s with defl := deflRaise .streamError s.defl }
    else .next (deflReturn .endOfStream s) := (deflWrite_ready hr).trans (if_pos h)

theorem deflWrite_finishing (hr : s.defl.ready) (h : s.defl.stage ≠ .done) (hf : s.defl.finishing = true) : deflWrite f s =
    if s.defl.regs.availIn ≠ 0 then .next { s with defl := deflRaise .streamError s.defl } else deflRun .finish s :=
  (deflWrite_ready hr).trans ((if_neg h).trans (if_pos hf))

theorem deflWrite_runs (hr : s.defl.ready) (h : s.defl.stage ≠ .done) (hf : s.defl.finishing = false) :
    deflWrite f s = deflRun f s := (deflWrite_ready hr).trans ((if_neg h).trans (if_neg (by simp [hf])))

end

theorem regionOk_iff (r : StreamRegs) : regionOk r = true ↔
    r.nextIn.toNat + r.availIn.toNat ≤ 2 ^ 32 ∧ r.nextOut.toNat + r.availOut.toNat ≤ 2 ^ 32 := by simp [regionOk]

end Sys2Proof.Machine

open Sys2Proof Sys2Proof.Machine

/-- Settles O12: a legal `CONFIG` puts the values of R70 in, whatever stood there, and the test sees only `CONFIG`. -/
theorem deflResetResult : Obligations.DeflResetResult := by
  intro s c legal
  have hl : deflLegal s.defl.config = true ↔ legal := deflLegal_iff _
  refine ⟨fun h => ?_, fun h => ?_, fun t ht => ?_⟩
  · rw [exec_deflReset, deflReset_refused (mt hl.1 h)]
  · have ⟨_, _, _, _, hstrategy, hwrap, _⟩ := h
    obtain ⟨strategy, hst⟩ := Option.isSome_iff_exists.1 ((strategyOf_isSome _).2 hstrategy)
    obtain ⟨wrap, hwr⟩ := Option.isSome_iff_exists.1 ((wrapOf_isSome _).2 hwrap)
    refine ⟨_, exec_deflReset s, rfl, ?_⟩
    rw [deflReset_legal (hl.2 h)]
    refine ⟨rfl, rfl, rfl, rfl, rfl, rfl, rfl, rfl, ?_, ?_, rfl, rfl, rfl, rfl, rfl, rfl, rfl, rfl, rfl, rfl, rfl,
      fun _ => rfl, rfl, rfl, rfl, rfl, rfl, rfl⟩
    · exact hst.trans (congrArg some (by rw [deflStart, cfgStrategy, hst]; rfl))
    · exact hwr.trans (congrArg some (by rw [deflStart, cfgWrap, hwr]; rfl))
  · obtain rfl := Host.Outcome.next.inj ((exec_deflReset s).symm.trans ht)
    rw [exec_deflReset]
    exact congrArg Host.Outcome.next (congrArg (fun d => { s with defl := d }) (deflReset_deflReset s.defl))

/-- Settles O17: one lemma for each check, in their order. -/
theorem deflWriteEntryChecks : Obligations.DeflWriteEntryChecks := by
  intro f s d w region
  have hr : regionOk d.regs = true ↔ region := regionOk_iff _
  rw [show w = deflWrite f s from exec_deflWriteInstr f s]
  refine ⟨fun hc => deflWrite_unconfigured hc, fun hc hs => deflWrite_sticky hc hs,
    fun hc hs ho => deflWrite_region hc hs (by simpa [← hr] using ho), fun hc hs ho hd => ?_, fun hc hs ho hd hf => ?_,
    fun hc hs ho hd hf => deflWrite_runs ⟨hc, hs, hr.2 ho⟩ hd hf⟩
  · rw [deflWrite_done ⟨hc, hs, hr.2 ho⟩ hd]
    split_ifs <;> rfl
  · rw [deflWrite_finishing ⟨hc, hs, hr.2 ho⟩ hd hf]
    exact ⟨fun ha => if_pos ha, fun ha => if_neg (not_not.2 ha)⟩

end

section
/-! PROOFS. The type of a closed block (R398): what every chooser keeps to, and that the default takes a cheapest type. -/

namespace Sys2Proof.Machine

/-- A type R398 lets a block have, at a level other than 0. -/
def allowed (st : BlockStats) : BlockType → Prop
  | .stored => st.storedOk = true
  | .fixed => True
  | .dynamic => st.strategy ≠ .fixed

/-- The byte cost of R398. -/
def costOf (st : BlockStats) : BlockType → Nat
  | .stored => st.span + 4
  | .fixed => costBytes st.plan.fixBits
  | .dynamic => costBytes st.plan.dynBits

/-- The cost of the best Huffman type (R398). -/
def bestCoded (st : BlockStats) : Nat :=
  if st.strategy = .fixed then costOf st .fixed else min (costOf st .fixed) (costOf st .dynamic)

section
variable {st : BlockStats}

theorem chooseByCost_eq (h : st.level ≠ 0) : chooseByCost st =
    if st.storedOk = true ∧ costOf st .stored ≤ bestCoded st then .stored
    else if st.strategy = .fixed ∨ costOf st .fixed ≤ costOf st .dynamic then .fixed
    else .dynamic := if_neg h

theorem chooseByCost_stored (h : st.level ≠ 0) :
    chooseByCost st = .stored ↔ st.storedOk = true ∧ costOf st .stored ≤ bestCoded st := by
  rw [chooseByCost_eq h]
  split_ifs with hs <;> simp [hs]

theorem chooseByCost_dynamic (h : st.level ≠ 0) :
    chooseByCost st = .dynamic ↔ ¬(st.storedOk = true ∧ costOf st .stored ≤ bestCoded st) ∧ st.strategy ≠ .fixed ∧
      costOf st .dynamic < costOf st .fixed := by
  rw [chooseByCost_eq h]
  split_ifs with hs hf
  · simp [hs]
  · simp only [false_iff, not_and, not_lt]
    exact fun _ hn => hf.resolve_left hn
  · simpa [hs] using hf

theorem chooseByCost_allowed (h : st.level ≠ 0) : allowed st (chooseByCost st) := by
  cases hc : chooseByCost st with
  | stored => exact ((chooseByCost_stored h).1 hc).1
  | fixed => exact trivial
  | dynamic => exact ((chooseByCost_dynamic h).1 hc).2.1

theorem bestCoded_le {t : BlockType} (ht : t ≠ .stored) (ha : allowed st t) : bestCoded st ≤ costOf st t := by
  unfold bestCoded
  cases t with
  | stored => exact absurd rfl ht
  | fixed => split_ifs <;> simp
  | dynamic => simp [show st.strategy ≠ .fixed from ha]

/-- The default never takes a type that costs more than another allowed one. -/
theorem chooseByCost_least (h : st.level ≠ 0) {t : BlockType} (ha : allowed st t) :
    costOf st (chooseByCost st) ≤ costOf st t := by
  have hcoded : costOf st (chooseByCost st) ≤ bestCoded st := by
    rw [chooseByCost_eq h]
    split_ifs with hs hf
    · exact hs.2
    · unfold bestCoded
      split_ifs with hfix
      · exact le_rfl
      · exact le_min le_rfl (hf.resolve_left hfix)
    · obtain ⟨hfix, hlt⟩ := not_or.1 hf
      unfold bestCoded
      rw [if_neg hfix]
      exact le_min (by omega) le_rfl
  cases t with
  | stored =>
    by_cases hs : st.storedOk = true ∧ costOf st .stored ≤ bestCoded st
    · exact ((chooseByCost_stored h).2 hs ▸ le_rfl)
    · have hlt : ¬costOf st .stored ≤ bestCoded st := fun hle => hs ⟨ha, hle⟩
      omega
  | fixed => exact hcoded.trans (bestCoded_le (by simp) ha)
  | dynamic => exact hcoded.trans (bestCoded_le (by simp) ha)

theorem chooseBlock_level_zero (ch : Chooser) (h : st.level = 0) : chooseBlock ch st = .stored := by
  cases ch with
  | byCost => exact if_pos h
  | other => exact if_pos h

theorem clampChoice_allowed (h : st.level ≠ 0) (want : BlockType) : allowed st (clampChoice st want) := by
  unfold clampChoice
  rw [if_neg h]
  cases want with
  | stored =>
    by_cases hs : st.storedOk = true
    · simp [hs, allowed]
    · simp [hs, allowed]
  | fixed => exact trivial
  | dynamic =>
    by_cases hs : st.strategy = .fixed
    · simp [hs, allowed]
    · simp [hs, allowed]

/-- Whatever the chooser, the type is one the rule allows. -/
theorem chooseBlock_allowed (ch : Chooser) (h : st.level ≠ 0) : allowed st (chooseBlock ch st) := by
  cases ch with
  | byCost => exact chooseByCost_allowed h
  | other => exact clampChoice_allowed h _

end

/-- What `choose_block` looks at when the open block is closed. -/
def openStats (d : Defl) : BlockStats := blockStats d (hbPlan d.syms d.blk)

theorem closeBlock_typ (pr : Params) (final : Bool) (d : Defl) :
    (closeBlock pr final d).blk.typ = chooseBlock pr.chooser (openStats d) := rfl

theorem closeBlock_final (pr : Params) (final : Bool) (d : Defl) : (closeBlock pr final d).blk.final = final := rfl

theorem closeBlock_toks (pr : Params) (final : Bool) (d : Defl) : (closeBlock pr final d).blk.toks = d.syms := rfl

theorem dynBits_closeBlock (pr : Params) (final : Bool) (d : Defl) (toks : List Token) :
    dynBits (closeBlock pr final d).blk toks = dynBits (hbPlan d.syms d.blk) toks := by
  simp only [dynBits, closeBlock]

theorem chooseBlock_byCost (st : BlockStats) : chooseBlock .byCost st = chooseByCost st := rfl

theorem openStats_dynCost (d : Defl) :
    costOf (openStats d) .dynamic = (3 + dynBits (hbPlan d.syms d.blk) d.syms + 7) / 8 := rfl

theorem openStats_storedOk (d : Defl) : (openStats d).storedOk = true ↔
    d.pos - d.blockStart ≤ 2 ^ d.wbits ∧ d.emitPos - d.blockStart ≤ 65535 := decide_eq_true_iff

/-- At level 0 no match is deferred, so that what has been tokenised is what has been emitted. -/
theorem storedOk_of_level_zero {d : Defl} {pr : Params} (h : d.Sound pr) (h0 : d.level = 0) :
    d.pos - d.blockStart ≤ 2 ^ d.wbits ∧ d.emitPos - d.blockStart ≤ 65535 := by
  have hd := h.toCore.not_deferred (stepMode_of_level_zero h0) (by simp)
  have hpos := h.toCore.emitPos_of_fresh hd
  have hspan := h.span h0
  simp only [blockSpan, wsize, storedMax, le_min_iff] at hspan
  omega

end Sys2Proof.Machine

open Sys2Proof Sys2Proof.Machine

/-- Settles O20: the clamp keeps every chooser to the rule, and the default compares the costs. -/
theorem chooseBlock : Obligations.ChooseBlock := by
  intro s final d b span fix dyn cost may
  have hmay : ∀ t, may t ↔ allowed (openStats d) t := by
    intro t
    cases t with
    | stored => exact (openStats_storedOk d).symm
    | fixed => exact Iff.rfl
    | dynamic => exact Iff.rfl
  have hdyn : dyn = costOf (openStats d) .dynamic :=
    (congrArg (fun n => (3 + n + 7) / 8) (dynBits_closeBlock _ _ _ _)).trans (openStats_dynCost d).symm
  have hcost : ∀ t, cost t = costOf (openStats d) t := by
    intro t
    cases t with
    | stored => rfl
    | fixed => rfl
    | dynamic => exact hdyn
  have hbest : bestCoded (openStats d) = if d.strategy = .fixed then fix else min fix dyn := by
    rw [hdyn]
    rfl
  have htyp : b.typ = Machine.chooseBlock s.params.chooser (openStats d) := closeBlock_typ _ _ _
  rw [htyp]
  refine ⟨fun h0 => chooseBlock_level_zero (st := openStats d) _ h0,
    fun h0 => (hmay _).2 (chooseBlock_allowed (st := openStats d) _ h0), fun hch h0 t ht => ?_,
    fun hch h0 => ⟨?_, ?_⟩, fun hi h0 => ?_,
    closeBlock_final _ _ _, closeBlock_toks _ _ _⟩
  · rw [hcost, hcost, hch]
    exact chooseByCost_least (st := openStats d) h0 ((hmay t).1 ht)
  · rw [hch, chooseBlock_byCost, chooseByCost_stored (st := openStats d) h0, hbest, hmay .stored]
    exact Iff.rfl
  · rw [hch, chooseBlock_byCost, chooseByCost_dynamic (st := openStats d) h0, hbest, hmay .stored, hdyn]
    constructor
    · rintro ⟨hs, hn, hlt⟩
      exact ⟨by rwa [if_neg (show ¬d.strategy = .fixed from hn)] at hs, hn, hlt⟩
    · rintro ⟨hs, hn, hlt⟩
      exact ⟨by rwa [if_neg (show d.strategy ≠ .fixed from hn)], hn, hlt⟩
  · exact storedOk_of_level_zero (Defl.sound_iff.2 ⟨hi.1, hi.2.2.2.2⟩) h0

end

section
/-! PROOFS. What a `WRITE` of `DEFL` moves (R375, R388, R24): bytes of `IN` to the end of the source, and bytes of the queue to
`OUT`, each with the stream parameters; every part of the work loop moves a run of each, and runs add up. -/

namespace Sys2Proof.Machine

/-! ## Moving a run of input and a run of output -/

/-- From `c` to `e`, `k` bytes of `IN` became the end of the source and the bytes `out` were stored in `OUT`. -/
structure Moved (c : DeflCtx) (k : Nat) (out : List Byte) (e : DeflCtx) : Prop where
  data : e.d.data = c.d.data ++ bytesAt c.bus.inMem c.d.regs.nextIn.toNat k
  availIn : e.d.regs.availIn.toNat + k = c.d.regs.availIn.toNat
  totalIn : e.d.regs.totalIn = c.d.regs.totalIn + BitVec.ofNat 64 k
  nextIn : c.d.regs.nextIn.toNat + k < 2 ^ 32 → e.d.regs.nextIn.toNat = c.d.regs.nextIn.toNat + k
  inMem : e.bus.inMem = c.bus.inMem
  availOut : e.d.regs.availOut.toNat + out.length = c.d.regs.availOut.toNat
  totalOut : e.d.regs.totalOut = c.d.regs.totalOut + BitVec.ofNat 64 out.length
  nextOut : c.d.regs.nextOut.toNat + out.length < 2 ^ 32 →
    e.d.regs.nextOut.toNat = c.d.regs.nextOut.toNat + out.length
  outWf : e.bus.outMem.wf
  stored : bytesAt e.bus.outMem c.d.regs.nextOut.toNat out.length = out
  outside : sameOutside c.d.regs.nextOut.toNat out.length c.bus.outMem e.bus.outMem

section
variable {c e g : DeflCtx} {k m : Nat} {xs ys : List Byte}

/-- Nothing moved where the parameters, the source and the spaces stayed. -/
theorem Moved.of_same (ho : c.bus.outMem.wf) (hr : e.d.regs = c.d.regs) (hd : e.d.data = c.d.data) (hb : e.bus = c.bus) :
    Moved c 0 [] e where
  data := by simp [hd]
  availIn := by rw [hr, Nat.add_zero]
  totalIn := by simp [hr]
  nextIn _ := by rw [hr, Nat.add_zero]
  inMem := by rw [hb]
  availOut := by rw [hr]; rfl
  totalOut := by simp [hr]
  nextOut _ := by rw [hr]; rfl
  outWf := hb ▸ ho
  stored := rfl
  outside _ _ := by rw [hb]

theorem Moved.refl (ho : c.bus.outMem.wf) : Moved c 0 [] c := .of_same ho rfl rfl rfl

/-- Where no input is left, the cursor need not be followed. -/
theorem Moved.nextIn_or (h : Moved c k xs e) (hc : regionOk c.d.regs = true) :
    e.d.regs.nextIn.toNat = c.d.regs.nextIn.toNat + k ∨ e.d.regs.availIn.toNat = 0 := by
  have hin := ((regionOk_iff _).1 hc).1
  have := h.availIn
  by_cases hlt : c.d.regs.nextIn.toNat + k < 2 ^ 32
  · exact .inl (h.nextIn hlt)
  · exact .inr (by omega)

theorem Moved.nextOut_or (h : Moved c k xs e) (hc : regionOk c.d.regs = true) :
    e.d.regs.nextOut.toNat = c.d.regs.nextOut.toNat + xs.length ∨ e.d.regs.availOut.toNat = 0 := by
  have hout := ((regionOk_iff _).1 hc).2
  have := h.availOut
  by_cases hlt : c.d.regs.nextOut.toNat + xs.length < 2 ^ 32
  · exact .inl (h.nextOut hlt)
  · exact .inr (by omega)

/-- The regions stay within their spaces. -/
theorem Moved.regionOk (h : Moved c k xs e) (hc : regionOk c.d.regs = true) : regionOk e.d.regs = true := by
  obtain ⟨hin, hout⟩ := (regionOk_iff _).1 hc
  have := h.availIn
  have := h.availOut
  have := e.d.regs.nextIn.isLt
  have := e.d.regs.nextOut.isLt
  refine (regionOk_iff _).2 ⟨?_, ?_⟩
  · rcases h.nextIn_or hc with hn | hz <;> omega
  · rcases h.nextOut_or hc with hn | hz <;> omega

/-- Runs add up. -/
theorem Moved.trans (h : Moved c k xs e) (h' : Moved e m ys g) (hc : Machine.regionOk c.d.regs = true) :
    Moved c (k + m) (xs ++ ys) g := by
  have hin := h.availIn
  have hin' := h'.availIn
  have hout := h.availOut
  have hout' := h'.availOut
  have hnext : m = 0 ∨ e.d.regs.nextIn.toNat = c.d.regs.nextIn.toNat + k := by
    rcases h.nextIn_or hc with hn | hz
    · exact .inr hn
    · exact .inl (by omega)
  have hnext' : ys = [] ∨ e.d.regs.nextOut.toNat = c.d.regs.nextOut.toNat + xs.length := by
    rcases h.nextOut_or hc with hn | hz
    · exact .inr hn
    · exact .inl (List.eq_nil_of_length_eq_zero (by omega))
  constructor
  case data =>
    rw [h'.data, h.data, h.inMem, List.append_assoc, bytesAt_add]
    rcases hnext with rfl | hn
    · rfl
    · rw [hn]
  case availIn => omega
  case totalIn => rw [h'.totalIn, h.totalIn, BitVec.ofNat_add, BitVec.add_assoc]
  case nextIn =>
    intro hlt
    rw [h'.nextIn (by rw [h.nextIn (by omega)]; omega), h.nextIn (by omega), Nat.add_assoc]
  case inMem => rw [h'.inMem, h.inMem]
  case availOut => rw [List.length_append]; omega
  case totalOut => rw [h'.totalOut, h.totalOut, List.length_append, BitVec.ofNat_add, BitVec.add_assoc]
  case nextOut =>
    intro hlt
    rw [List.length_append] at hlt ⊢
    rw [h'.nextOut (by rw [h.nextOut (by omega)]; omega), h.nextOut (by omega), Nat.add_assoc]
  case outWf => exact h'.outWf
  case stored =>
    rcases hnext' with rfl | hn
    · rw [List.append_nil, bytesAt_congr fun j _ => h'.outside _ (by simp; omega)]
      exact h.stored
    · rw [List.length_append, bytesAt_add, ← hn, h'.stored, bytesAt_congr fun j hj => h'.outside _ (by omega), h.stored]
  case outside =>
    intro x hx
    rw [List.length_append] at hx
    rcases hnext' with rfl | hn
    · rw [h'.outside x (by simp; omega), h.outside x (by simpa using hx)]
    · rw [h'.outside x (by omega), h.outside x (by omega)]

/-- What was consumed and produced, as R375 counts it. -/
theorem Moved.counts (h : Moved c k xs e) : consumed c.d.regs e.d.regs = k ∧ produced c.d.regs e.d.regs = xs.length := by
  have := h.availIn
  have := h.availOut
  unfold consumed produced
  omega

theorem Moved.regsMoved (h : Moved c k xs e) : regsMoved c.d.regs e.d.regs := by
  obtain ⟨hk, hx⟩ := h.counts
  have hin := h.availIn
  have hout := h.availOut
  refine ⟨by omega, by omega, ?_, ?_, ?_, ?_⟩
  · rw [hk, h.totalIn]
  · rw [hx, h.totalOut]
  · rw [hk]; exact h.nextIn
  · rw [hx]; exact h.nextOut

/-- The bytes written are those the registers and `OUT` tell of. -/
theorem Moved.writtenBytes (h : Moved c k xs e) : writtenBytes c.d.regs e.d.regs e.bus.outMem = xs := by
  rw [Machine.writtenBytes, h.counts.2, h.stored]

/-- A later change of the engine that keeps the parameters and the source. -/
theorem Moved.congr (h : Moved c k xs e) {d : Defl} (hr : d.regs = e.d.regs) (hd : d.data = e.d.data) :
    Moved c k xs ⟨d, e.bus⟩ where
  data := by rw [hd]; exact h.data
  availIn := by rw [hr]; exact h.availIn
  totalIn := by rw [hr]; exact h.totalIn
  nextIn hlt := by rw [hr]; exact h.nextIn hlt
  inMem := h.inMem
  availOut := by rw [hr]; exact h.availOut
  totalOut := by rw [hr]; exact h.totalOut
  nextOut hlt := by rw [hr]; exact h.nextOut hlt
  outWf := h.outWf
  stored := h.stored
  outside := h.outside

end

/-! ## Accepting input (R388) -/

section
variable {c : DeflCtx}

theorem moved_acceptByte (ho : c.bus.outMem.wf) (h : c.d.regs.availIn ≠ 0) : Moved c 1 [] (acceptByte c) where
  data := by simp [inByteVal, bytesAt]
  availIn := by
    have := toNat_sub_one h
    have := toNat_pos_of_ne h
    simp only [acceptByte_d_regs, inByteRegs_availIn]
    omega
  totalIn := by simp
  nextIn hlt := by
    rw [acceptByte_d_regs, inByteRegs_nextIn]
    exact cursorNext_toNat _ hlt
  inMem := by simp
  availOut := by simp
  totalOut := by simp
  nextOut _ := by simp
  outWf := by simpa using ho
  stored := rfl
  outside _ _ := by simp

theorem moved_acceptLoop {k : Nat} (ho : c.bus.outMem.wf) (hr : regionOk c.d.regs = true)
    (h : k ≤ c.d.regs.availIn.toNat) : Moved c k [] (acceptLoop k c) := by
  induction k generalizing c with
  | zero => exact .refl ho
  | succ k ih =>
    have hb := moved_acceptByte ho (availIn_toNat_pos.1 (by omega : 0 < c.d.regs.availIn.toNat))
    have := hb.availIn
    have hrest := ih hb.outWf (hb.regionOk hr) (by omega)
    have hsum := hb.trans hrest hr
    rwa [Nat.add_comm] at hsum

theorem acceptCount_le (d : Defl) : acceptCount d ≤ d.regs.availIn.toNat := Nat.min_le_left _ _

theorem moved_accept (ho : c.bus.outMem.wf) (hr : regionOk c.d.regs = true) :
    Moved c (acceptCount c.d) [] (accept c) := by
  have h := moved_acceptLoop ho hr (acceptCount_le c.d)
  unfold accept
  simp only
  split_ifs
  · exact h.congr rfl rfl
  · exact h

/-! ## Putting out the queue (R206) -/

theorem takeCount_le (q : List Byte) (r : StreamRegs) : takeCount q r ≤ r.availOut.toNat := Nat.min_le_right _ _

theorem bwTake_outWf (ho : c.bus.outMem.wf) (hr : regionOk c.d.regs = true) : (bwTake c).bus.outMem.wf := by
  obtain ⟨-, -, hbus⟩ := bwTakeLoop_emits c.d.pending (c := c) (e := emitter c) rfl rfl
  have hle := takeCount_le c.d.pending c.d.regs
  have hlen := length_take_takeCount c.d.pending c.d.regs
  obtain ⟨-, hregion⟩ := (regionOk_iff _).1 hr
  have hrun := emitted_emitAll (c := emitter c) ho Memory.wf_nil (c.d.pending.take (takeCount c.d.pending c.d.regs))
    (hlen.symm ▸ (by rw [show (emitter c).e.regs = c.d.regs from rfl]; omega))
  rw [bwTake, hbus]
  exact hrun.outWf

theorem moved_bwTake (ho : c.bus.outMem.wf) (hr : regionOk c.d.regs = true) :
    Moved c 0 (c.d.pending.take (takeCount c.d.pending c.d.regs)) (bwTake c) := by
  have hle := takeCount_le c.d.pending c.d.regs
  have hlen := length_take_takeCount c.d.pending c.d.regs
  obtain ⟨-, hregion⟩ := (regionOk_iff _).1 hr
  obtain ⟨hf, hnext, havail, htotal, hin⟩ := bwTake_frame c
  obtain ⟨-, hout, hside, -, ⟨-, hao, -, hto, -, hno⟩, -, hprod⟩ := bwTake_emits ho (by omega)
  have hcount := hprod
  rw [produced] at hcount
  rw [hprod] at hto hno
  exact {
    data := by rw [hf]; simp
    availIn := by rw [havail, Nat.add_zero]
    totalIn := by simp [htotal]
    nextIn := fun _ => by rw [hnext, Nat.add_zero]
    inMem := hin
    availOut := by omega
    totalOut := by rw [hlen]; exact hto
    nextOut := by rw [hlen]; exact hno
    outWf := bwTake_outWf ho hr
    stored := by rw [hlen]; exact hout
    outside := by rw [hlen]; exact hside }

end

end Sys2Proof.Machine
end

section
/-! PROOFS. The work loop of `DEFL` (R382): the pieces of work it selects from, how it can stop, and what a `WRITE` leaves. -/

namespace Sys2Proof.Machine

/-! ## The pieces of work (R382 to R391) -/

/-- The engine after the header of the planned block (R384). -/
def headerDone (d : Defl) : Defl := { hbEmitHeader d.blk d with phase := .blkSymbols }

/-- The engine after the symbols of the planned block (R383). -/
def symbolsDone (d : Defl) : Defl :=
  { hbEmitSymbols d.blk d with phase := if d.blk.final then .trailer else .collect }

/-- The engine after the padding and the trailer (R385). -/
def trailerDone (d : Defl) : Defl := { hdrTrailer (bwAlign d) with stage := .flushPending, phase := .collect }

/-- What tokenising makes of the engine after input was accepted (R388, R389). -/
def tokenised (pr : Params) (f : Flush) (c : DeflCtx) : Bool × Defl :=
  tokenise pr f (tokeniseFuel (accept c).d) (accept c).d

theorem headerDone_frame (d : Defl) : headerDone d = { d with
    pending := (headerDone d).pending, bitBuf := (headerDone d).bitBuf, bitCnt := (headerDone d).bitCnt
    phase := .blkSymbols } := by
  have h := onlyBits_hbEmitHeader d.blk d
  unfold onlyBits at h
  unfold headerDone
  rw [h]

theorem symbolsDone_frame (d : Defl) : symbolsDone d = { d with
    pending := (symbolsDone d).pending, bitBuf := (symbolsDone d).bitBuf, bitCnt := (symbolsDone d).bitCnt
    phase := if d.blk.final then .trailer else .collect } := by
  have h := onlyBits_hbEmitSymbols d.blk d
  unfold onlyBits at h
  unfold symbolsDone
  rw [h]

theorem trailerDone_frame (d : Defl) : trailerDone d = { d with
    pending := (trailerDone d).pending, bitBuf := (trailerDone d).bitBuf, bitCnt := (trailerDone d).bitCnt
    stage := .flushPending, phase := .collect } := by
  have h := (onlyBits_bwAlign d).trans (onlyBits_hdrTrailer (bwAlign d))
  unfold onlyBits at h
  unfold trailerDone
  rw [h]

/-- Accepting input moves the input parameters, the source, its checksum and `sat` (R388). -/
theorem accept_frame_d (c : DeflCtx) : (accept c).d = { c.d with
    regs := (accept c).d.regs, data := (accept c).d.data, check := (accept c).d.check, isize := (accept c).d.isize
    sat := if 0 < acceptCount c.d then 0 else c.d.sat } := by
  obtain ⟨h, -⟩ := acceptLoop_frame (acceptCount c.d) c
  simp only [accept]
  split_ifs
  · rw [h]
  · exact h

theorem onlyTokens_tokenised (pr : Params) (f : Flush) (c : DeflCtx) : onlyTokens (accept c).d (tokenised pr f c).2 :=
  onlyTokens_tokenise _ _ _ _

section
variable {pr : Params} {f : Flush} {c : DeflCtx}

/-- The cases of deciding (R391). -/
theorem decideCollect_cases {motive : DeflRound → Prop}
    (more : c.d.regs.availIn ≠ 0 → motive (c.cont false c.d))
    (idle : c.d.regs.availIn = 0 → f = .none → motive (c.halt false c.d))
    (last : c.d.regs.availIn = 0 → f = .finish → motive (c.cont false { closeBlock pr true c.d with finishing := true }))
    (mark : c.d.regs.availIn = 0 → f = .part → flushRank f ≤ c.d.sat → dataHeld c.d = true →
      motive (c.cont false (writeMarker .part c.d)))
    (still : c.d.regs.availIn = 0 → f ≠ .none → f ≠ .finish → flushRank f ≤ c.d.sat → ¬(f = .part ∧ dataHeld c.d = true) →
      motive (c.halt false c.d))
    (close : c.d.regs.availIn = 0 → f ≠ .none → f ≠ .finish → c.d.sat < flushRank f → c.d.syms ≠ [] →
      motive (c.cont false (closeBlock pr false c.d)))
    (complete : c.d.regs.availIn = 0 → f ≠ .none → f ≠ .finish → c.d.sat < flushRank f → c.d.syms = [] →
      motive (c.cont false (completeFlush f c.d))) : motive (decideCollect pr f c) := by
  by_cases ha : c.d.regs.availIn = 0
  · have h0 : ¬0 < c.d.regs.availIn.toNat := mt availIn_toNat_pos.1 (not_not.2 ha)
    simp only [decideCollect, if_neg h0]
    split_ifs with h1 h2 h3 h4 h5
    · exact idle ha h1
    · exact last ha h2
    · obtain ⟨rfl, hd⟩ := h4
      exact mark ha rfl h3 hd
    · exact still ha h1 h2 h3 h4
    · exact close ha h1 h2 (by omega) h5
    · exact complete ha h1 h2 (by omega) (not_not.1 h5)
  · simp only [decideCollect, if_pos (availIn_toNat_pos.2 ha)]
    exact more ha

theorem collect_full (h : (tokenised pr f c).1 = true) :
    collect pr f c = (accept c).cont false (closeBlock pr false (tokenised pr f c).2) := if_pos h

theorem collect_open (h : (tokenised pr f c).1 = false) :
    collect pr f c = decideCollect pr f ⟨(tokenised pr f c).2, (accept c).bus⟩ := if_neg (Bool.eq_false_iff.1 h)

theorem deflWork_ended (hs : c.d.stage = .flushPending) (hf : c.d.finishing = true) :
    deflWork pr f c = c.halt false { c.d with stage := .done } := by
  simp only [deflWork, if_pos hs, hf, if_true]

theorem deflWork_flushed (hs : c.d.stage = .flushPending) (hf : c.d.finishing = false) :
    deflWork pr f c = c.cont false { c.d with stage := .body } := by
  simp only [deflWork, if_pos hs, hf, Bool.false_eq_true, if_false]

theorem deflWork_blkHeader (hs : c.d.stage ≠ .flushPending) (hp : c.d.phase = .blkHeader) :
    deflWork pr f c = c.cont (f == .trees) (headerDone c.d) := by
  simp only [deflWork, if_neg hs, hp, headerDone]

theorem deflWork_blkSymbols (hs : c.d.stage ≠ .flushPending) (hp : c.d.phase = .blkSymbols) :
    deflWork pr f c = c.cont false (symbolsDone c.d) := by
  simp only [deflWork, if_neg hs, hp, symbolsDone]

theorem deflWork_trailer (hs : c.d.stage ≠ .flushPending) (hp : c.d.phase = .trailer) :
    deflWork pr f c = c.cont false (trailerDone c.d) := by
  simp only [deflWork, if_neg hs, hp, trailerDone]

theorem deflWork_collect (hs : c.d.stage ≠ .flushPending) (hp : c.d.phase = .collect) :
    deflWork pr f c = collect pr f c := by
  simp only [deflWork, if_neg hs, hp]

/-- The cases of a piece of work (R382). -/
theorem deflWork_cases {motive : DeflRound → Prop}
    (ended : c.d.stage = .flushPending → c.d.finishing = true → motive (c.halt false { c.d with stage := .done }))
    (flushed : c.d.stage = .flushPending → c.d.finishing = false → motive (c.cont false { c.d with stage := .body }))
    (header : c.d.stage ≠ .flushPending → c.d.phase = .blkHeader → motive (c.cont (f == .trees) (headerDone c.d)))
    (symbols : c.d.stage ≠ .flushPending → c.d.phase = .blkSymbols → motive (c.cont false (symbolsDone c.d)))
    (trailer : c.d.stage ≠ .flushPending → c.d.phase = .trailer → motive (c.cont false (trailerDone c.d)))
    (full : c.d.stage ≠ .flushPending → c.d.phase = .collect → (tokenised pr f c).1 = true →
      motive ((accept c).cont false (closeBlock pr false (tokenised pr f c).2)))
    (decide : c.d.stage ≠ .flushPending → c.d.phase = .collect → (tokenised pr f c).1 = false →
      motive (decideCollect pr f ⟨(tokenised pr f c).2, (accept c).bus⟩)) : motive (deflWork pr f c) := by
  by_cases hs : c.d.stage = .flushPending
  · cases hf : c.d.finishing with
    | true => exact deflWork_ended hs hf ▸ ended hs hf
    | false => exact deflWork_flushed hs hf ▸ flushed hs hf
  · cases hp : c.d.phase with
    | blkHeader => exact deflWork_blkHeader hs hp ▸ header hs hp
    | blkSymbols => exact deflWork_blkSymbols hs hp ▸ symbols hs hp
    | trailer => exact deflWork_trailer hs hp ▸ trailer hs hp
    | collect =>
      rw [deflWork_collect hs hp]
      cases ht : (tokenised pr f c).1 with
      | true => exact collect_full ht ▸ full hs hp ht
      | false => exact collect_open ht ▸ decide hs hp ht

/-! ## Work takes input and puts nothing out -/

/-- Deciding reads no input and puts nothing out. -/
theorem moved_decideCollect (ho : c.bus.outMem.wf) : Moved c 0 [] (decideCollect pr f c).c := by
  refine decideCollect_cases (motive := fun r => Moved c 0 [] r.c) ?_ ?_ ?_ ?_ ?_ ?_ ?_
  · exact fun _ => .refl ho
  · exact fun _ _ => .refl ho
  · exact fun _ _ => .of_same ho rfl rfl rfl
  · exact fun _ _ _ _ => .of_same ho (by rw [DeflCtx.cont, writeMarker_frame]) (by rw [DeflCtx.cont, writeMarker_frame]) rfl
  · exact fun _ _ _ _ _ => .refl ho
  · exact fun _ _ _ _ _ => .of_same ho rfl rfl rfl
  · exact fun _ _ _ _ _ =>
      .of_same ho (by rw [DeflCtx.cont, completeFlush_frame]) (by rw [DeflCtx.cont, completeFlush_frame]) rfl

theorem moved_tokenised (pr : Params) (f : Flush) (ho : c.bus.outMem.wf) (hr : regionOk c.d.regs = true) :
    Moved c (acceptCount c.d) [] ⟨(tokenised pr f c).2, (accept c).bus⟩ := by
  have ht := onlyTokens_tokenised pr f c
  exact (moved_accept ho hr).congr (by rw [ht]) (by rw [ht])

/-- Whatever the work, it takes some bytes of input and puts none out. -/
theorem moved_deflWork (ho : c.bus.outMem.wf) (hr : regionOk c.d.regs = true) :
    ∃ k, Moved c k [] (deflWork pr f c).c := by
  have hm := moved_tokenised pr f ho hr
  refine deflWork_cases (motive := fun r => ∃ k, Moved c k [] r.c) ?_ ?_ ?_ ?_ ?_ ?_ ?_
  · exact fun _ _ => ⟨0, .of_same ho rfl rfl rfl⟩
  · exact fun _ _ => ⟨0, .of_same ho rfl rfl rfl⟩
  · exact fun _ _ => ⟨0, .of_same ho (by rw [DeflCtx.cont, headerDone_frame]) (by rw [DeflCtx.cont, headerDone_frame]) rfl⟩
  · exact fun _ _ => ⟨0, .of_same ho (by rw [DeflCtx.cont, symbolsDone_frame]) (by rw [DeflCtx.cont, symbolsDone_frame]) rfl⟩
  · exact fun _ _ => ⟨0, .of_same ho (by rw [DeflCtx.cont, trailerDone_frame]) (by rw [DeflCtx.cont, trailerDone_frame]) rfl⟩
  · exact fun _ _ _ => ⟨_, hm.congr rfl rfl⟩
  · exact fun _ _ _ => ⟨_, hm.trans (moved_decideCollect hm.outWf) hr⟩

/-! ## How the loop stops (R382) -/

/-- What is left in the queue is left for want of space. -/
theorem availOut_of_bwTakeLoop {q : List Byte} (h : (bwTakeLoop q c).d.pending ≠ []) :
    (bwTakeLoop q c).d.regs.availOut = 0 := by
  induction q generalizing c with
  | nil => exact absurd rfl h
  | cons v q ih =>
    rw [bwTakeLoop] at h ⊢
    split_ifs at h ⊢ with h0
    · exact h0
    · exact ih h

theorem availOut_of_pending (h : (bwTake c).d.pending ≠ []) : (bwTake c).d.regs.availOut = 0 := availOut_of_bwTakeLoop h

/-- The three ways the loop stops: no more space, a tree boundary, or work that says stop. -/
inductive DeflStop (pr : Params) (f : Flush) (P : Bool → DeflCtx → Prop) : Bool × DeflCtx → Prop
  | space (trees : Bool) (c : DeflCtx) (h : P trees c) (hp : c.d.pending ≠ []) (ha : c.d.regs.availOut = 0) :
      DeflStop pr f P (trees, c)
  | boundary (c : DeflCtx) (h : P true c) (hp : c.d.pending = []) : DeflStop pr f P (true, c)
  | work (c : DeflCtx) (h : P false c) (hp : c.d.pending = []) (hw : (deflWork pr f c).stopped = true) :
      DeflStop pr f P ((deflWork pr f c).trees, (deflWork pr f c).c)

theorem deflRound_space {trees : Bool} (h : (bwTake c).d.pending ≠ []) :
    deflRound pr f trees c = (bwTake c).halt trees (bwTake c).d := if_pos h

theorem deflRound_boundary (h : (bwTake c).d.pending = []) :
    deflRound pr f true c = (bwTake c).halt true (bwTake c).d := (if_neg (not_not.2 h)).trans (if_pos rfl)

theorem deflRound_work (h : (bwTake c).d.pending = []) :
    deflRound pr f false c = deflWork pr f (bwTake c) := (if_neg (not_not.2 h)).trans (if_neg Bool.false_ne_true)

theorem deflLoop_stops {n : Nat} {trees : Bool} (h : (deflRound pr f trees c).stopped = true) :
    deflLoop pr f (n + 1) trees c = some ((deflRound pr f trees c).trees, (deflRound pr f trees c).c) := if_pos h

theorem deflLoop_goes_on {n : Nat} {trees : Bool} (h : (deflRound pr f trees c).stopped = false) :
    deflLoop pr f (n + 1) trees c = deflLoop pr f n (deflRound pr f trees c).trees (deflRound pr f trees c).c :=
  if_neg (Bool.eq_false_iff.1 h)

/-- What putting out the queue keeps, and work keeps that goes on, holds where the loop stops. -/
theorem deflLoop_rule {P : Bool → DeflCtx → Prop} (htake : ∀ trees c, P trees c → P trees (bwTake c))
    (hwork : ∀ c, P false c → c.d.pending = [] → (deflWork pr f c).stopped = false →
      P (deflWork pr f c).trees (deflWork pr f c).c)
    {n : Nat} {trees : Bool} {r : Bool × DeflCtx} (h : P trees c) (hl : deflLoop pr f n trees c = some r) :
    DeflStop pr f P r := by
  induction n generalizing trees c with
  | zero => cases hl
  | succ n ih =>
    have ht := htake _ _ h
    by_cases hp : (bwTake c).d.pending = []
    · cases trees with
      | true =>
        rw [deflLoop_stops (deflRound_boundary hp ▸ rfl), deflRound_boundary hp] at hl
        cases hl
        exact .boundary _ ht hp
      | false =>
        cases hs : (deflWork pr f (bwTake c)).stopped with
        | true =>
          rw [deflLoop_stops (deflRound_work hp ▸ hs), deflRound_work hp] at hl
          cases hl
          exact .work _ ht hp hs
        | false =>
          rw [deflLoop_goes_on (deflRound_work hp ▸ hs), deflRound_work hp] at hl
          exact ih (hwork _ ht hp hs) hl
    · rw [deflLoop_stops (deflRound_space hp ▸ rfl), deflRound_space hp] at hl
      cases hl
      exact .space _ _ ht hp (availOut_of_pending hp)

end

/-! ## A `WRITE` (R380, R381) -/

/-- The mode a call works in: once the final block is planned, every call works as `finish` (R380). -/
def effective (f : Flush) (d : Defl) : Flush := if d.finishing then .finish else f

theorem effective_of_finishing {f : Flush} {d : Defl} (h : d.finishing = true) : effective f d = .finish := if_pos h

theorem effective_of_not_finishing {f : Flush} {d : Defl} (h : d.finishing = false) : effective f d = f :=
  if_neg (by simp [h])

/-- What a call that works starts the loop from. -/
def atStart (s : State) : DeflCtx := ⟨deflInit s.params s.defl, s.bus⟩

/-- What a `WRITE` leaves: the engine as it was but for the code and the recorded error, or what the loop left. -/
inductive Wrote (f : Flush) (s t : State) : Prop
  | refused (e x : Status) (he : e = .streamError ∨ (e = s.defl.sticky ∧ e ≠ .ok)) (hx : x = s.defl.sticky ∨ x = .streamError)
      (ht : t = { s with defl := { s.defl with ec := e, sticky := x } }) : Wrote f s t
  | ended (hd : s.defl.stage = .done) (ht : t = deflReturn .endOfStream s) : Wrote f s t
  | ran (r : Bool × DeflCtx) (hr : s.defl.ready) (hd : s.defl.stage ≠ .done)
      (hi : s.defl.finishing = true → s.defl.regs.availIn = 0)
      (hl : deflLoop s.params (effective f s.defl) (deflFuel (atStart s).d) false (atStart s) = some r)
      (ht : t = { s with defl := { r.2.d with ec := deflCode s.defl.regs r.1 r.2.d }, bus := r.2.bus }) : Wrote f s t

section
variable {f g : Flush} {s t : State}

theorem deflRun_next (h : deflRun f s = .next t) : ∃ r : Bool × DeflCtx,
    deflLoop s.params f (deflFuel (atStart s).d) false (atStart s) = some r ∧
      t = { s with defl := { r.2.d with ec := deflCode s.defl.regs r.1 r.2.d }, bus := r.2.bus } := by
  simp only [deflRun] at h
  split at h
  · cases h
  · rename_i trees c hl
    exact ⟨(trees, c), hl, (Host.Outcome.next.inj h).symm⟩

theorem wrote (h : exec (deflWriteInstr f) s = .next t) : Wrote f s t := by
  rw [exec_deflWriteInstr] at h
  by_cases hc : s.defl.configured = false
  · rw [deflWrite_unconfigured hc] at h
    exact .refused .streamError s.defl.sticky (.inl rfl) (.inl rfl) (Host.Outcome.next.inj h).symm
  have hc := Bool.of_not_eq_false hc
  by_cases hs : s.defl.sticky = .ok
  case neg =>
    rw [deflWrite_sticky hc hs] at h
    exact .refused s.defl.sticky s.defl.sticky (.inr ⟨rfl, hs⟩) (.inl rfl) (Host.Outcome.next.inj h).symm
  by_cases hr : regionOk s.defl.regs = false
  · rw [deflWrite_region hc hs hr] at h
    exact .refused .streamError s.defl.sticky (.inl rfl) (.inl rfl) (Host.Outcome.next.inj h).symm
  have hr : s.defl.ready := ⟨hc, hs, Bool.of_not_eq_false hr⟩
  by_cases hd : s.defl.stage = .done
  · rw [deflWrite_done hr hd] at h
    split_ifs at h
    · exact .refused .streamError .streamError (.inl rfl) (.inr rfl) (Host.Outcome.next.inj h).symm
    · exact .ended hd (Host.Outcome.next.inj h).symm
  cases hf : s.defl.finishing with
  | true =>
    rw [deflWrite_finishing hr hd hf] at h
    split_ifs at h with ha
    · exact .refused .streamError .streamError (.inl rfl) (.inr rfl) (Host.Outcome.next.inj h).symm
    · obtain ⟨r, hl, ht⟩ := deflRun_next h
      exact .ran r hr hd (fun _ => not_not.1 ha) ((effective_of_finishing hf).symm ▸ hl) ht
  | false =>
    rw [deflWrite_runs hr hd hf] at h
    obtain ⟨r, hl, ht⟩ := deflRun_next h
    exact .ran r hr hd (fun h => absurd (hf.symm.trans h) nofun) ((effective_of_not_finishing hf).symm ▸ hl) ht

theorem ready_of_deflAccepts (h : deflAccepts s.defl) : s.defl.ready := ⟨h.1, h.2.1, h.2.2.1⟩

/-- A call that passes the entry checks does its work. -/
theorem wrote_of_accepts (ha : deflAccepts s.defl) (h : exec (deflWriteInstr f) s = .next t) :
    (s.defl.stage = .done ∧ t = deflReturn .endOfStream s) ∨
      s.defl.stage ≠ .done ∧ ∃ r : Bool × DeflCtx,
        deflLoop s.params (effective f s.defl) (deflFuel (atStart s).d) false (atStart s) = some r ∧
          t = { s with defl := { r.2.d with ec := deflCode s.defl.regs r.1 r.2.d }, bus := r.2.bus } := by
  obtain ⟨hc, hs, hr, hi⟩ := ha
  rw [exec_deflWriteInstr] at h
  by_cases hd : s.defl.stage = .done
  · rw [deflWrite_done ⟨hc, hs, hr⟩ hd, if_neg (not_not.2 (hi (.inl hd)))] at h
    exact .inl ⟨hd, (Host.Outcome.next.inj h).symm⟩
  · refine .inr ⟨hd, ?_⟩
    cases hf : s.defl.finishing with
    | true =>
      rw [deflWrite_finishing ⟨hc, hs, hr⟩ hd hf, if_neg (not_not.2 (hi (.inr hf)))] at h
      exact (effective_of_finishing (f := f) hf).symm ▸ deflRun_next h
    | false =>
      rw [deflWrite_runs ⟨hc, hs, hr⟩ hd hf] at h
      exact (effective_of_not_finishing (f := f) hf).symm ▸ deflRun_next h

end

end Sys2Proof.Machine
end

section
/-! PROOFS. What a `WRITE` that passes the entry checks moves, and the code it returns (R375, R386, R388, R414). -/

namespace Sys2Proof.Machine

section
variable {pr : Params} {f : Flush} {c : DeflCtx} {s t : State}

/-! ## The loop moves a run of input and a run of output -/

theorem moved_deflLoop {n : Nat} {trees : Bool} {r : Bool × DeflCtx} (ho : c.bus.outMem.wf) (hr : regionOk c.d.regs = true)
    (hl : deflLoop pr f n trees c = some r) : ∃ k xs, Moved c k xs r.2 := by
  have htake : ∀ (trees : Bool) (e : DeflCtx), (∃ k xs, Moved c k xs e) → ∃ k xs, Moved c k xs (bwTake e) :=
    fun _ _ ⟨_, _, h⟩ => ⟨_, _, h.trans (moved_bwTake h.outWf (h.regionOk hr)) hr⟩
  have hwork : ∀ e : DeflCtx, (∃ k xs, Moved c k xs e) → ∃ k xs, Moved c k xs (deflWork pr f e).c := by
    rintro e ⟨k, xs, h⟩
    obtain ⟨m, hw⟩ := moved_deflWork (pr := pr) (f := f) h.outWf (h.regionOk hr)
    exact ⟨_, _, h.trans hw hr⟩
  rcases deflLoop_rule (P := fun _ e => ∃ k xs, Moved c k xs e) htake (fun e h _ _ => hwork e h) ⟨0, [], .refl ho⟩ hl with
    ⟨_, e, h, _, _⟩ | ⟨e, h, _⟩ | ⟨e, h, _, _⟩
  · exact h
  · exact h
  · exact hwork e h

/-- The bytes of the container's header (R381, R256, R262). -/
def containerHeader (pr : Params) (d : Defl) : List Byte :=
  match d.wrap with
  | .none => []
  | .zlib => [BitVec.ofNat 8 (zencCmf d.wbits), BitVec.ofNat 8 (zencFlg d.wbits (flevel d.strategy d.level))]
  | .gzip => gzHeader pr.gzHdr d.strategy d.level

theorem deflInit_of_init {d : Defl} (hs : d.stage = .init) : deflInit pr d = { d with
    pending := d.pending ++ containerHeader pr d, stage := .body, phase := .collect } := by
  have h : (match d.wrap with | .none => d | .zlib => hdrZenc d | .gzip => hdrGzenc pr d) =
      { d with pending := d.pending ++ containerHeader pr d } := by
    unfold containerHeader
    split
    · rw [List.append_nil]
    · rfl
    · rfl
  unfold deflInit
  rw [if_pos hs]
  exact congrArg (fun e : Defl => { e with stage := .body, phase := .collect }) h

theorem deflInit_of_started {d : Defl} (hs : d.stage ≠ .init) : deflInit pr d = d := if_neg hs

theorem deflInit_frame (pr : Params) (d : Defl) : deflInit pr d = { d with
    pending := (deflInit pr d).pending, stage := (deflInit pr d).stage, phase := (deflInit pr d).phase } := by
  by_cases hs : d.stage = .init
  · rw [deflInit_of_init hs]
  · rw [deflInit_of_started hs]

/-- What a call moves, counted from the state it finds. -/
theorem moved_of_run {r : Bool × DeflCtx} (ho : s.bus.outMem.wf) (hr : regionOk s.defl.regs = true)
    (hl : deflLoop s.params f (deflFuel (atStart s).d) false (atStart s) = some r) :
    ∃ k xs, Moved ⟨s.defl, s.bus⟩ k xs r.2 := by
  have hf := deflInit_frame s.params s.defl
  have hstart : Moved ⟨s.defl, s.bus⟩ 0 [] (atStart s) := .of_same ho (by rw [atStart, hf]) (by rw [atStart, hf]) rfl
  obtain ⟨k, xs, hm⟩ := moved_deflLoop hstart.outWf (hstart.regionOk hr) hl
  exact ⟨_, _, hstart.trans hm hr⟩

theorem moved_of_wrote (ho : s.bus.outMem.wf) (h : Wrote f s t) : ∃ k xs, Moved ⟨s.defl, s.bus⟩ k xs ⟨t.defl, t.bus⟩ := by
  cases h with
  | refused e x he hx ht => exact ht ▸ ⟨0, [], .of_same ho rfl rfl rfl⟩
  | ended hd ht => exact ht ▸ ⟨0, [], .of_same ho rfl rfl rfl⟩
  | ran r hr hd hi hl ht =>
    obtain ⟨k, xs, hm⟩ := moved_of_run ho hr.2.2 hl
    exact ht ▸ ⟨k, xs, hm.congr rfl rfl⟩

/-! ## Every call answers (R414) -/

theorem deflWrite_next (f : Flush) (h : s.defl.loopOk) : ∃ t, exec (deflWriteInstr f) s = .next t := by
  rw [exec_deflWriteInstr]
  unfold deflWrite
  simp only
  split_ifs
  · exact ⟨_, rfl⟩
  · exact ⟨_, rfl⟩
  · exact ⟨_, rfl⟩
  · exact ⟨_, rfl⟩
  · exact ⟨_, rfl⟩
  · exact ⟨_, rfl⟩
  · exact deflRun_ne_fault _ _ h
  · exact deflRun_ne_fault _ _ h

/-- A call leaves everything but `DEFL` and the memories. -/
theorem Wrote.frame (h : Wrote f s t) : t = { s with defl := t.defl, bus := t.bus } := by
  cases h with
  | refused e x he hx ht => rw [ht]
  | ended hd ht => rw [ht]; rfl
  | ran r hr hd hi hl ht => rw [ht]

/-! ## The return code (R386) -/

/-- Only a `WRITE trees` stops at a tree boundary. -/
theorem deflWork_trees (h : (deflWork pr f c).trees = true) : f = .trees := by
  revert h
  refine deflWork_cases (motive := fun r => r.trees = true → f = .trees) ?_ ?_ ?_ ?_ ?_ ?_ ?_
  · exact fun _ _ h => absurd h nofun
  · exact fun _ _ h => absurd h nofun
  · exact fun _ _ h => beq_iff_eq.1 h
  · exact fun _ _ h => absurd h nofun
  · exact fun _ _ h => absurd h nofun
  · exact fun _ _ _ h => absurd h nofun
  · intro _ _ _
    exact decideCollect_cases (motive := fun r => r.trees = true → f = .trees) (fun _ => nofun) (fun _ _ => nofun)
      (fun _ _ => nofun) (fun _ _ _ _ => nofun) (fun _ _ _ _ _ => nofun) (fun _ _ _ _ _ => nofun) fun _ _ _ _ _ => nofun

theorem deflLoop_trees {n : Nat} {r : Bool × DeflCtx} (hl : deflLoop pr f n false c = some r) (h : r.1 = true) :
    f = .trees := by
  rcases deflLoop_rule (P := fun trees _ => trees = true → f = .trees) (fun _ _ h => h) (fun _ _ _ _ => deflWork_trees)
    Bool.false_ne_true.elim hl
    with ⟨trees, e, hp, _, _⟩ | ⟨e, hp, _⟩ | ⟨e, _, _, _⟩
  · exact hp h
  · exact hp h
  · exact deflWork_trees h

/-- A total tells whether a run was empty. -/
theorem total_moved {a : DWord} {k : Nat} (hk : k < 2 ^ 64) : a + BitVec.ofNat 64 k = a ↔ k = 0 := by
  constructor
  · intro h
    have hz : BitVec.ofNat 64 k = 0 := by simpa using h
    have := congrArg BitVec.toNat hz
    rwa [BitVec.toNat_ofNat, Nat.mod_eq_of_lt hk] at this
  · rintro rfl
    simp

theorem Moved.totals {e : DeflCtx} {k : Nat} {xs : List Byte} (h : Moved c k xs e) :
    (e.d.regs.totalIn = c.d.regs.totalIn ↔ k = 0) ∧ (e.d.regs.totalOut = c.d.regs.totalOut ↔ xs.length = 0) := by
  have := h.availIn
  have := h.availOut
  have := c.d.regs.availIn.isLt
  have := c.d.regs.availOut.isLt
  rw [h.totalIn, h.totalOut]
  exact ⟨total_moved (by omega), total_moved (by omega)⟩

end

theorem State.Inv.sound {s : State} (h : s.Inv) : s.defl.Sound s.params := Defl.sound_iff.2 ⟨h.1, h.2.2.2.2⟩

theorem State.Inv.busInv {s : State} (h : s.Inv) : s.bus.Inv := h.2.2.2.1

end Sys2Proof.Machine

open Sys2Proof Sys2Proof.Machine

/-- Settles O18: every part of the loop moves a run of input and a run of output, and the loop ends. -/
theorem deflWriteCompletes : Obligations.DeflWriteCompletes := by
  intro f s hi _
  obtain ⟨t, ht⟩ := deflWrite_next f hi.1.loopOk
  obtain ⟨k, xs, hm⟩ := moved_of_wrote hi.busInv.2 (wrote ht)
  refine ⟨t, ht, (wrote ht).frame, hm.regsMoved, ?_, hm.inMem, ?_⟩
  · rw [hm.data, hm.counts.1]
  · rw [hm.counts.2]
    exact hm.outside

/-- Settles O19: the totals tell what moved, and only a `WRITE trees` stops at a boundary. -/
theorem deflWriteCodes : Obligations.DeflWriteCodes := by
  intro f s t hi ha ht
  rcases wrote_of_accepts ha ht with ⟨hd, rfl⟩ | ⟨hd, r, hl, rfl⟩
  · exact ⟨fun _ => rfl, fun h => absurd hd h, fun h => absurd hd h⟩
  · obtain ⟨k, xs, hm⟩ := moved_of_run hi.busInv.2 ha.2.2.1 hl
    obtain ⟨hk, hx⟩ := hm.counts
    obtain ⟨hin, hout⟩ := hm.totals
    refine ⟨fun h => if_pos h, fun h hmoved => (if_neg h).trans (if_pos ?_), fun h hc hp => ?_⟩
    · rw [hk, hx] at hmoved
      exact hmoved.elim (fun h => .inl (mt hin.1 h)) fun h => .inr (.inl (mt hout.1 h))
    · rw [hk] at hc
      rw [hx] at hp
      have hcode : deflCode s.defl.regs r.1 r.2.d = if r.1 = true then .ok else .needBuffers := by
        have hin' := hin.2 hc
        have hout' := hout.2 hp
        simp [deflCode, show r.2.d.stage ≠ .done from h, show r.2.d.regs.totalIn = s.defl.regs.totalIn from hin',
          show r.2.d.regs.totalOut = s.defl.regs.totalOut from hout']
      by_cases htrees : r.1 = true
      case neg => exact .inl (hcode.trans (if_neg htrees))
      case pos =>
        have hf := deflLoop_trees hl htrees
        unfold effective at hf
        split_ifs at hf with hfin
        exact .inr ⟨hcode.trans (if_pos htrees), hf, Bool.eq_false_iff.2 hfin⟩

end

section
/-! PROOFS. The end of a stream (R402, R411): when work stops, that `finishing` is kept, and the run of a `WRITE finish` with nothing
left but the final block. -/

namespace Sys2Proof.Machine

section
variable {pr : Params} {f : Flush} {c : DeflCtx}

/-! ## When work stops -/

/-- Work stops at the end of the stream, or when tokenising has stopped for want of input and the flush mode has nothing to do. -/
theorem deflWork_stopped (h : (deflWork pr f c).stopped = true) :
    (c.d.stage = .flushPending ∧ c.d.finishing = true ∧ deflWork pr f c = c.halt false { c.d with stage := .done }) ∨
      (c.d.stage ≠ .flushPending ∧ c.d.phase = .collect ∧ (tokenised pr f c).1 = false ∧
        (tokenised pr f c).2.regs.availIn = 0 ∧ f ≠ .finish ∧
        (f = .none ∨ flushRank f ≤ (tokenised pr f c).2.sat ∧ ¬(f = .part ∧ dataHeld (tokenised pr f c).2 = true)) ∧
        deflWork pr f c = (accept c).halt false (tokenised pr f c).2) := by
  by_cases hs : c.d.stage = .flushPending
  · cases hf : c.d.finishing with
    | true => exact .inl ⟨hs, rfl, deflWork_ended hs hf⟩
    | false =>
      rw [deflWork_flushed hs hf] at h
      cases h
  · right
    have hp : c.d.phase = .collect := by
      cases hp : c.d.phase with
      | collect => rfl
      | blkHeader => rw [deflWork_blkHeader hs hp] at h; cases h
      | blkSymbols => rw [deflWork_blkSymbols hs hp] at h; cases h
      | trailer => rw [deflWork_trailer hs hp] at h; cases h
    rw [deflWork_collect hs hp] at h ⊢
    cases ht : (tokenised pr f c).1 with
    | true =>
      rw [collect_full ht] at h
      cases h
    | false =>
      rw [collect_open ht] at h ⊢
      refine ⟨hs, hp, rfl, ?_⟩
      revert h
      refine decideCollect_cases (c := ⟨(tokenised pr f c).2, (accept c).bus⟩) (motive := fun r => r.stopped = true → _ ∧ _ ∧ _ ∧
        r = (accept c).halt false (tokenised pr f c).2) ?_ ?_ ?_ ?_ ?_ ?_ ?_
      · exact fun _ h => absurd h nofun
      · rintro ha rfl -
        exact ⟨ha, nofun, .inl rfl, rfl⟩
      · exact fun _ _ h => absurd h nofun
      · exact fun _ _ _ _ h => absurd h nofun
      · exact fun ha hn hf hk hm _ => ⟨ha, hf, .inr ⟨hk, hm⟩, rfl⟩
      · exact fun _ _ _ _ _ h => absurd h nofun
      · exact fun _ _ _ _ _ h => absurd h nofun

/-! ## `finishing` is kept (R402) -/

theorem finishing_of_onlyBits {d e : Defl} (h : onlyBits d e) : e.finishing = d.finishing := by rw [h]

theorem finishing_of_onlyTokens {d e : Defl} (h : onlyTokens d e) : e.finishing = d.finishing := by rw [h]

theorem bwTake_finishing (c : DeflCtx) : (bwTake c).d.finishing = c.d.finishing := by rw [(bwTake_frame c).1]

theorem tokenised_finishing (pr : Params) (f : Flush) (c : DeflCtx) : (tokenised pr f c).2.finishing = c.d.finishing := by
  rw [onlyTokens_tokenised pr f c, accept_frame_d]

theorem deflWork_finishing (h : c.d.finishing = true) : (deflWork pr f c).c.d.finishing = true := by
  refine deflWork_cases (motive := fun r => r.c.d.finishing = true) ?_ ?_ ?_ ?_ ?_ ?_ ?_
  · exact fun _ _ => h
  · exact fun _ _ => h
  · exact fun _ _ => by rw [DeflCtx.cont, headerDone_frame]; exact h
  · exact fun _ _ => by rw [DeflCtx.cont, symbolsDone_frame]; exact h
  · exact fun _ _ => by rw [DeflCtx.cont, trailerDone_frame]; exact h
  · exact fun _ _ _ => (tokenised_finishing pr f c).trans h
  · intro _ _ _
    have ht := (tokenised_finishing pr f c).trans h
    refine decideCollect_cases (motive := fun r => r.c.d.finishing = true) ?_ ?_ ?_ ?_ ?_ ?_ ?_
    · exact fun _ => ht
    · exact fun _ _ => ht
    · exact fun _ _ => rfl
    · exact fun _ _ _ _ => by rw [DeflCtx.cont, writeMarker_frame]; exact ht
    · exact fun _ _ _ _ _ => ht
    · exact fun _ _ _ _ _ => ht
    · exact fun _ _ _ _ _ => by rw [DeflCtx.cont, completeFlush_frame]; exact ht

theorem deflLoop_finishing {n : Nat} {trees : Bool} {r : Bool × DeflCtx} (h : c.d.finishing = true)
    (hl : deflLoop pr f n trees c = some r) : r.2.d.finishing = true := by
  rcases deflLoop_rule (P := fun _ e => e.d.finishing = true) (fun _ e he => (bwTake_finishing e).trans he)
    (fun e he _ _ => deflWork_finishing he) h hl with ⟨_, e, he, _, _⟩ | ⟨e, he, _⟩ | ⟨e, he, _, _⟩
  · exact he
  · exact he
  · exact deflWork_finishing he

theorem wrote_finishing {s t : State} (h : Wrote f s t) (hs : s.defl.finishing = true) : t.defl.finishing = true := by
  cases h with
  | refused e x he hx ht => exact ht ▸ hs
  | ended hd ht => exact ht ▸ hs
  | ran r hr hd hi hl ht =>
    have hstart : (atStart s).d.finishing = true := by rw [atStart, deflInit_frame]; exact hs
    exact ht ▸ deflLoop_finishing hstart hl

/-- What is answered keeps `finishing`. -/
def KeepsFinishing (s : State) (r : Result) : Prop :=
  ∀ t, r = .next t → s.defl.finishing = true → t.defl.finishing = true

theorem KeepsFinishing.yielding {s t : State} (y : Yield) (h : t.defl.finishing = s.defl.finishing) :
    KeepsFinishing s (yielding y t) := by
  intro u hu hs
  cases hu
  exact h.trans hs

theorem KeepsFinishing.inRange {s : State} {p : Prop} {_ : Decidable p} {r : Result} (h : KeepsFinishing s r) :
    KeepsFinishing s (inRange p r) := by
  intro t ht
  unfold Machine.inRange at ht
  split_ifs at ht
  exact h t ht

/-- `finishing` is cleared by `RESET` only (R402). -/
theorem exec_keepsFinishing {i : Instr} {s : State} (hi : i ≠ .deflReset) : KeepsFinishing s (exec i s) := by
  by_cases he : engineOf i = .defl
  case neg =>
    intro t ht hs
    rw [(enginesAreIndependent.1 i s t ht).1 he]
    exact hs
  cases i with
  | deflReset => exact absurd rfl hi
  | deflWriteNone => exact fun t ht => wrote_finishing (wrote (f := .none) ht)
  | deflWriteBlock => exact fun t ht => wrote_finishing (wrote (f := .block) ht)
  | deflWritePartial => exact fun t ht => wrote_finishing (wrote (f := .part) ht)
  | deflWriteSync => exact fun t ht => wrote_finishing (wrote (f := .sync) ht)
  | deflWriteFull => exact fun t ht => wrote_finishing (wrote (f := .full) ht)
  | deflWriteFinish => exact fun t ht => wrote_finishing (wrote (f := .finish) ht)
  | deflWriteTrees => exact fun t ht => wrote_finishing (wrote (f := .trees) ht)
  | bwPut _ _ | bwPutcode _ _ => exact .inRange (.yielding _ rfl)
  | hdrZenc | hdrGzenc | hdrTrailer | lzFind _ _ | lzClear | hbPlan _ => exact .yielding _ rfl
  | bwAlign => exact .yielding _ (finishing_of_onlyBits (onlyBits_bwAlign s.defl))
  | bwTake => exact .yielding _ (bwTake_finishing ⟨s.defl, s.bus⟩)
  | lzInsert p => exact .yielding _ (finishing_of_onlyTokens (onlyChains_lzInsert p s.defl).onlyTokens)
  | lzStep => exact .inRange (.yielding _ (finishing_of_onlyTokens (onlyTokens_lzStep s.params s.defl)))
  | hbEmitHeader => exact .yielding _ (finishing_of_onlyBits (onlyBits_hbEmitHeader s.defl.blk s.defl))
  | hbEmitSymbols => exact .yielding _ (finishing_of_onlyBits (onlyBits_hbEmitSymbols s.defl.blk s.defl))
  | _ => cases he

/-! ## `finish` ends the stream where there is space (R376) -/

theorem deflLoop_finish_ends {n : Nat} {r : Bool × DeflCtx} (hl : deflLoop pr .finish n false c = some r)
    (ha : r.2.d.regs.availOut ≠ 0) : r.2.d.stage = .done := by
  have hstop := deflLoop_rule (P := fun trees _ => trees = true → Flush.finish = .trees) (fun _ _ h => h)
    (fun _ _ _ _ => deflWork_trees) Bool.false_ne_true.elim hl
  rcases hstop with ⟨_, e, _, _, h0⟩ | ⟨e, h, _⟩ | ⟨e, _, _, hw⟩
  · exact absurd h0 ha
  · exact absurd (h rfl) nofun
  · rcases deflWork_stopped hw with ⟨-, -, he⟩ | ⟨-, -, -, -, hf, -⟩
    · rw [he]; rfl
    · exact absurd rfl hf

end

end Sys2Proof.Machine
end

section
/-! PROOFS. The final block with nothing left to put in it (R402, R411): what a run of the work loop has put out, as bits, and the
pieces of work of a `WRITE finish` one after another. -/

namespace Sys2Proof.Machine

/-! ## What a run has put out, as bits -/

/-- Since `c`, the bytes put out and the bits in hand are these bits. -/
def Emits (c : DeflCtx) (bits : List Bool) (e : DeflCtx) : Prop :=
  ∃ k xs, Moved c k xs e ∧ streamBits xs ++ writtenBits e.d = bits

section
variable {c e : DeflCtx} {bits : List Bool} {d : Defl}

theorem Emits.refl (ho : c.bus.outMem.wf) : Emits c (writtenBits c.d) c := ⟨0, [], .refl ho, rfl⟩

theorem bwTake_pending (c : DeflCtx) : (bwTake c).d.pending = c.d.pending.drop (takeCount c.d.pending c.d.regs) :=
  (bwTakeLoop_emits c.d.pending (c := c) (e := emitter c) rfl rfl).1

/-- Putting out the queue moves bits out of the engine. -/
theorem writtenBits_bwTake (c : DeflCtx) :
    streamBits (c.d.pending.take (takeCount c.d.pending c.d.regs)) ++ writtenBits (bwTake c).d = writtenBits c.d := by
  unfold writtenBits
  rw [bwTake_pending, ← List.append_assoc, ← streamBits_append, List.take_append_drop, (bwTake_frame c).1]

theorem Emits.take (hr : regionOk c.d.regs = true) (h : Emits c bits e) : Emits c bits (bwTake e) := by
  obtain ⟨k, xs, hm, hb⟩ := h
  refine ⟨_, _, hm.trans (moved_bwTake hm.outWf (hm.regionOk hr)) hr, ?_⟩
  rw [streamBits_append, List.append_assoc, writtenBits_bwTake, hb]

/-- Bits written on top. -/
theorem Emits.append (h : Emits c bits e) {more : List Bool} (hr : d.regs = e.d.regs) (hd : d.data = e.d.data)
    (hw : writtenBits d = writtenBits e.d ++ more) : Emits c (bits ++ more) ⟨d, e.bus⟩ := by
  obtain ⟨k, xs, hm, hb⟩ := h
  exact ⟨k, xs, hm.congr hr hd, by rw [hw, ← List.append_assoc, hb]⟩

theorem Emits.congr (h : Emits c bits e) (hr : d.regs = e.d.regs) (hd : d.data = e.d.data)
    (hw : writtenBits d = writtenBits e.d) : Emits c bits ⟨d, e.bus⟩ := by
  simpa using h.append (more := []) hr hd (by simpa using hw)

/-- With nothing in hand, the bits are those of the bytes put out. -/
theorem Emits.all (h : Emits c bits e) (hp : e.d.pending = []) (hc : e.d.bitCnt = 0) :
    ∃ k xs, Moved c k xs e ∧ streamBits xs = bits := by
  obtain ⟨k, xs, hm, hb⟩ := h
  refine ⟨k, xs, hm, ?_⟩
  simpa [writtenBits, hp, hc] using hb

/-- Where all the bits have room, the queue empties. -/
theorem Emits.room (h : Emits c bits e) (hroom : bits.length ≤ 8 * c.d.regs.availOut.toNat)
    (ha : e.d.regs.availOut = 0) : e.d.pending = [] := by
  obtain ⟨k, xs, hm, hb⟩ := h
  have hlen := congrArg List.length hb
  have hout := hm.availOut
  rw [ha] at hout
  simp only [List.length_append, streamBits_length, writtenBits] at hlen
  refine List.eq_nil_of_length_eq_zero ?_
  have : (0 : Word).toNat = 0 := rfl
  omega

theorem Emits.availIn (h : Emits c bits e) (ha : c.d.regs.availIn = 0) : e.d.regs.availIn = 0 := by
  obtain ⟨k, xs, hm, -⟩ := h
  have hin := hm.availIn
  rw [ha] at hin
  have h0 : e.d.regs.availIn.toNat = 0 := by
    have : (0 : Word).toNat = 0 := rfl
    omega
  exact BitVec.eq_of_toNat_eq h0

/-- The number of bits in hand is what the bits leave beyond whole bytes. -/
theorem Emits.bitCnt (h : Emits c bits e) (hc : e.d.bitCnt ≤ 7) : e.d.bitCnt = bits.length % 8 := by
  obtain ⟨k, xs, -, hb⟩ := h
  have hmod := writtenBits_length_mod hc
  rw [← hb, List.length_append, streamBits_length]
  omega

/-! ## Nothing to take in -/

theorem accept_of_empty (h : c.d.regs.availIn = 0) : accept c = c := by
  have h0 : acceptCount c.d = 0 := by rw [acceptCount, h]; exact Nat.zero_min _
  rw [accept, h0]
  rfl

theorem tokenise_of_not_canStep {pr : Params} {f : Flush} (h : canStep f d = false) (n : Nat) :
    tokenise pr f n d = (false, d) := by
  cases n with
  | zero => rfl
  | succ n => exact if_neg (Bool.eq_false_iff.1 h)

theorem canStep_of_nothing {f : Flush} (hl : lookahead d = 0) (hd : d.deferred.valid = false) : canStep f d = false := by
  simp [canStep, hl, hd]

theorem tokenised_of_nothing {pr : Params} {f : Flush} (ha : c.d.regs.availIn = 0) (hl : lookahead c.d = 0)
    (hd : c.d.deferred.valid = false) : tokenised pr f c = (false, c.d) := by
  rw [tokenised, accept_of_empty ha]
  exact tokenise_of_not_canStep (canStep_of_nothing hl hd) _

end

/-! ## The type of an empty block under the default (R398) -/

section
variable {d : Defl}

theorem fixBits_nil : fixBits [] = 7 := by
  have h : dot (llFreq []) fixLl = 7 := by
    rw [dot_llFreq, llCount, dot_zeros]
    decide
  rw [fixBits, h]
  decide

theorem le_dynBits (b : Blk) (toks : List Token) : 14 + 3 * b.hclen ≤ dynBits b toks := by
  unfold dynBits
  omega

theorem closeBlock_empty_typ {pr : Params} (hch : pr.chooser = .byCost) (hs : d.syms = []) (final : Bool) :
    (closeBlock pr final d).blk.typ = if d.level = 0 then .stored else .fixed := by
  rw [closeBlock_typ, hch, chooseBlock_byCost]
  split_ifs with h0
  · exact if_pos h0
  · have hfix : costOf (openStats d) .fixed = 2 := by
      have : costOf (openStats d) .fixed = costBytes (fixBits d.syms) := rfl
      rw [this, hs, fixBits_nil]
      rfl
    have hdyn : 2 ≤ costOf (openStats d) .dynamic := by
      have := le_dynBits (hbPlan d.syms d.blk) d.syms
      have h4 : 4 ≤ (hbPlan d.syms d.blk).hclen := hbPlan_hclen d.syms d.blk ▸ le_trimTo _ _ _
      rw [openStats_dynCost]
      omega
    have hbest : bestCoded (openStats d) ≤ 2 := (bestCoded_le (t := .fixed) nofun trivial).trans_eq hfix
    have hstored : costOf (openStats d) .stored = (openStats d).span + 4 := rfl
    rw [chooseByCost_eq (st := openStats d) h0, if_neg (by omega), if_pos (.inr (by omega))]

end

end Sys2Proof.Machine
end

section
/-! PROOFS. The run of a `WRITE finish` that has only the final block left to write (R402, R411, R265). -/

namespace Sys2Proof.Machine

/-- `e` is `d` but for the writer, the stream parameters, and where the engine is. -/
def onlyIo (d e : Defl) : Prop := e = { d with
  regs := e.regs, pending := e.pending, bitBuf := e.bitBuf, bitCnt := e.bitCnt, stage := e.stage, phase := e.phase }

theorem onlyIo.trans {a b c : Defl} (h : onlyIo a b) (k : onlyIo b c) : onlyIo a c := by
  unfold onlyIo at *
  rw [k, h]

theorem onlyBits.onlyIo {d e : Defl} (h : onlyBits d e) : onlyIo d e := by
  unfold onlyBits at h
  unfold Machine.onlyIo
  rw [h]

theorem onlyIo_bwTake (c : DeflCtx) : onlyIo c.d (bwTake c).d := by
  unfold onlyIo
  rw [(bwTake_frame c).1]

theorem onlyIo_headerDone (d : Defl) : onlyIo d (headerDone d) := by
  unfold onlyIo
  rw [headerDone_frame]

theorem onlyIo_symbolsDone (d : Defl) : onlyIo d (symbolsDone d) := by
  unfold onlyIo
  rw [symbolsDone_frame]

theorem onlyIo_trailerDone (d : Defl) : onlyIo d (trailerDone d) := by
  unfold onlyIo
  rw [trailerDone_frame]

/-- The engine once its last block is closed (R401, R402). -/
def lastClosed (pr : Params) (d : Defl) : Defl := { closeBlock pr true d with finishing := true }

theorem lastClosed_of_onlyIo (pr : Params) {d e : Defl} (h : onlyIo d e) : onlyIo (lastClosed pr d) (lastClosed pr e) := by
  rw [h]
  rfl

/-- The bits before the padding: what was in hand, then the whole block (R352, R354). -/
def lastBlockBits (pr : Params) (d : Defl) : List Bool :=
  let b := (closeBlock pr true d).blk
  bitsOf d.bitCnt d.bitBuf ++ ([b.final] ++ bitsOf 2 (blockTypeNum b.typ) ++ headerRest d.bitCnt b) ++ symbolBits b

/-- All that is left of the stream (R385, R265). -/
def lastBits (pr : Params) (d : Defl) : List Bool :=
  lastBlockBits pr d ++ List.replicate ((8 - (lastBlockBits pr d).length % 8) % 8) false ++
    streamBits (trailerBytes d.wrap d.check d.isize)

section
variable {pr : Params} {c e : DeflCtx}

/-- Where the run from `c` stands. -/
inductive LastRun (pr : Params) (c : DeflCtx) (e : DeflCtx) : Prop
  | opened (hd : onlyIo c.d e.d) (hs : e.d.running) (hp : e.d.phase = .collect)
      (hb : e.d.bitCnt = c.d.bitCnt ∧ e.d.bitBuf = c.d.bitBuf) (hw : Emits c (bitsOf c.d.bitCnt c.d.bitBuf) e)
  | closed (hd : onlyIo (lastClosed pr c.d) e.d) (hs : e.d.stage = .body) (hp : e.d.phase = .blkHeader)
      (hb : e.d.bitCnt = c.d.bitCnt ∧ e.d.bitBuf = c.d.bitBuf) (hw : Emits c (bitsOf c.d.bitCnt c.d.bitBuf) e)
  | headed (hd : onlyIo (lastClosed pr c.d) e.d) (hs : e.d.stage = .body) (hp : e.d.phase = .blkSymbols) (hb : e.d.BitsOk)
      (hw : Emits c (bitsOf c.d.bitCnt c.d.bitBuf ++ ([(closeBlock pr true c.d).blk.final] ++
        bitsOf 2 (blockTypeNum (closeBlock pr true c.d).blk.typ) ++ headerRest c.d.bitCnt (closeBlock pr true c.d).blk)) e)
  | coded (hd : onlyIo (lastClosed pr c.d) e.d) (hs : e.d.stage = .body) (hp : e.d.phase = .trailer) (hb : e.d.BitsOk)
      (hw : Emits c (lastBlockBits pr c.d) e)
  | trailed (hd : onlyIo (lastClosed pr c.d) e.d) (hs : e.d.stage = .flushPending) (hp : e.d.phase = .collect)
      (hb : e.d.bitCnt = 0) (hw : Emits c (lastBits pr c.d) e)

theorem bwTake_fields (e : DeflCtx) : (bwTake e).d.stage = e.d.stage ∧ (bwTake e).d.phase = e.d.phase ∧
    (bwTake e).d.bitCnt = e.d.bitCnt ∧ (bwTake e).d.bitBuf = e.d.bitBuf := by
  rw [(bwTake_frame e).1]
  exact ⟨rfl, rfl, rfl, rfl⟩

theorem LastRun.take (hr : regionOk c.d.regs = true) (h : LastRun pr c e) : LastRun pr c (bwTake e) := by
  obtain ⟨hstage, hphase, hcnt, hbuf⟩ := bwTake_fields e
  have hio := onlyIo_bwTake e
  cases h with
  | opened hd hs hp hb hw =>
    exact .opened (hd.trans hio) (by rwa [Defl.running, hstage]) (hphase.trans hp) ⟨hcnt.trans hb.1, hbuf.trans hb.2⟩ (hw.take hr)
  | closed hd hs hp hb hw =>
    exact .closed (hd.trans hio) (hstage.trans hs) (hphase.trans hp) ⟨hcnt.trans hb.1, hbuf.trans hb.2⟩ (hw.take hr)
  | headed hd hs hp hb hw =>
    exact .headed (hd.trans hio) (hstage.trans hs) (hphase.trans hp) (by rwa [Defl.BitsOk, hcnt, hbuf]) (hw.take hr)
  | coded hd hs hp hb hw =>
    exact .coded (hd.trans hio) (hstage.trans hs) (hphase.trans hp) (by rwa [Defl.BitsOk, hcnt, hbuf]) (hw.take hr)
  | trailed hd hs hp hb hw => exact .trailed (hd.trans hio) (hstage.trans hs) (hphase.trans hp) (hcnt.trans hb) (hw.take hr)

/-- What the run starts from: nothing to take in, nothing deferred, an empty open block. -/
structure LastOnly (pr : Params) (c : DeflCtx) : Prop where
  sound : c.d.Sound pr
  finishing : c.d.finishing = false
  syms : c.d.syms = []
  deferred : c.d.deferred.valid = false
  pos : c.d.pos = dataEnd c.d
  availIn : c.d.regs.availIn = 0

theorem trailerDone_bitCnt (d : Defl) : (trailerDone d).bitCnt = 0 := bwAlign_bitCnt d

theorem trailerDone_pending (d : Defl) :
    (trailerDone d).pending = (bwAlign d).pending ++ trailerBytes d.wrap d.check d.isize := by
  have h : (trailerDone d).pending =
      (bwAlign d).pending ++ trailerBytes (bwAlign d).wrap (bwAlign d).check (bwAlign d).isize := rfl
  have hf := onlyBits_bwAlign d
  unfold onlyBits at hf
  rw [h, hf]

theorem writtenBits_trailer (d : Defl) (h : d.BitsOk) : writtenBits (trailerDone d) =
    writtenBits d ++ List.replicate ((8 - d.bitCnt) % 8) false ++ streamBits (trailerBytes d.wrap d.check d.isize) := by
  rw [writtenBits_aligned (trailerDone_bitCnt d), trailerDone_pending, streamBits_append,
    ← writtenBits_aligned (bwAlign_bitCnt d), writtenBits_bwAlign h]

/-- Each piece of work brings the run one place on. -/
theorem LastRun.work (ho : LastOnly pr c) (h : LastRun pr c e)
    (hgo : (deflWork pr .finish e).stopped = false) : LastRun pr c (deflWork pr .finish e).c := by
  have hfull := ho.sound.toFull
  have hblk := closeBlock_blk_inv hfull true
  cases h with
  | opened hd hs hp hb hw =>
    have hfin : e.d.finishing = false := by rw [hd]; exact ho.finishing
    rcases hs with hs | hs
    case inr =>
      rw [deflWork_flushed hs hfin]
      exact .opened (hd.trans rfl) (.inl rfl) hp hb (hw.congr rfl rfl rfl)
    have hla : lookahead e.d = 0 := by
      rw [hd]
      show dataEnd c.d - c.d.pos = 0
      rw [ho.pos, Nat.sub_self]
    have hav := hw.availIn ho.availIn
    have ht := tokenised_of_nothing (pr := pr) (f := .finish) hav hla (by rw [hd]; exact ho.deferred)
    have hclose : deflWork pr .finish e = e.cont false (lastClosed pr e.d) := by
      rw [deflWork_collect (by rw [hs]; nofun) hp, collect_open (by rw [ht]), ht, accept_of_empty hav]
      refine decideCollect_cases (c := e) (motive := fun r => r = _) ?_ ?_ ?_ ?_ ?_ ?_ ?_
      · exact fun h => absurd hav h
      · exact fun _ h => absurd h nofun
      · exact fun _ _ => rfl
      · exact fun _ h => absurd h nofun
      · exact fun _ _ h => absurd rfl h
      · exact fun _ _ h => absurd rfl h
      · exact fun _ _ h => absurd rfl h
    rw [hclose]
    exact .closed (lastClosed_of_onlyIo pr hd) hs rfl hb (hw.congr rfl rfl rfl)
  | closed hd hs hp hb hw =>
    have hbits : e.d.BitsOk := by rw [Defl.BitsOk, hb.1, hb.2]; exact ho.sound.bits
    have he : e.d.blk = (closeBlock pr true c.d).blk := by rw [hd]; rfl
    have happ := appended_hbEmitHeader (he ▸ hblk) hbits
    rw [deflWork_blkHeader (by rw [hs]; nofun) hp]
    refine .headed (hd.trans (onlyIo_headerDone e.d)) (by rw [DeflCtx.cont, headerDone_frame]; exact hs) rfl happ.ok ?_
    refine hw.append (by rw [headerDone_frame]) (by rw [headerDone_frame]) ?_
    rw [← he, ← hb.1]
    exact happ.written
  | headed hd hs hp hb hw =>
    have he : e.d.blk = (closeBlock pr true c.d).blk := by rw [hd]; rfl
    have happ := appended_hbEmitSymbols (he ▸ hblk) hb
    have hfinal : e.d.blk.final = true := by rw [he]; rfl
    rw [deflWork_blkSymbols (by rw [hs]; nofun) hp]
    refine .coded (hd.trans (onlyIo_symbolsDone e.d)) (by rw [DeflCtx.cont, symbolsDone_frame]; exact hs)
      (by rw [DeflCtx.cont, symbolsDone_frame]; exact if_pos hfinal) happ.ok ?_
    refine hw.append (by rw [symbolsDone_frame]) (by rw [symbolsDone_frame]) ?_
    rw [← he]
    exact happ.written
  | coded hd hs hp hb hw =>
    rw [deflWork_trailer (by rw [hs]; nofun) hp]
    refine .trailed (hd.trans (onlyIo_trailerDone e.d)) rfl rfl (trailerDone_bitCnt e.d) ?_
    have htr : trailerBytes e.d.wrap e.d.check e.d.isize = trailerBytes c.d.wrap c.d.check c.d.isize := by rw [hd]; rfl
    have hpad := hw.bitCnt hb.1
    have happ := hw.append (d := trailerDone e.d) (by rw [trailerDone_frame]) (by rw [trailerDone_frame])
      ((writtenBits_trailer e.d hb).trans (List.append_assoc _ _ _))
    rwa [htr, hpad, ← List.append_assoc] at happ
  | trailed hd hs hp hb hw =>
    have hfin : e.d.finishing = true := by rw [hd]; rfl
    rw [deflWork_ended hs hfin] at hgo
    cases hgo

/-- With room for all of it, the run ends the stream, having put out what was in hand, the block, the padding and the trailer. -/
theorem last_run {n : Nat} {r : Bool × DeflCtx} (ho : LastOnly pr c) (hs : c.d.running) (hp : c.d.phase = .collect)
    (hq : c.d.pending = []) (hwf : c.bus.outMem.wf) (hr : regionOk c.d.regs = true)
    (hroom : (lastBits pr c.d).length ≤ 8 * c.d.regs.availOut.toNat) (hl : deflLoop pr .finish n false c = some r) :
    ∃ k xs, Moved c k xs r.2 ∧ streamBits xs = lastBits pr c.d ∧ r.2.d.stage = .done ∧ r.2.d.finishing = true ∧
      r.2.d.blk.final = true := by
  have hstart : LastRun pr c c := .opened rfl hs hp ⟨rfl, rfl⟩ (by simpa [writtenBits, hq] using Emits.refl hwf)
  have hprefix : ∀ e, LastRun pr c e → ∃ bits, Emits c bits e ∧ bits.length ≤ (lastBits pr c.d).length := by
    intro e he
    have hmono : (lastBlockBits pr c.d).length ≤ (lastBits pr c.d).length := by
      simp [lastBits]
    cases he with
    | opened _ _ _ _ hw => exact ⟨_, hw, le_trans (by simp [lastBlockBits]) hmono⟩
    | closed _ _ _ _ hw => exact ⟨_, hw, le_trans (by simp [lastBlockBits]) hmono⟩
    | headed _ _ _ _ hw => exact ⟨_, hw, le_trans (by simp [lastBlockBits]) hmono⟩
    | coded _ _ _ _ hw => exact ⟨_, hw, hmono⟩
    | trailed _ _ _ _ hw => exact ⟨_, hw, le_rfl⟩
  rcases deflLoop_rule (pr := pr) (f := .finish) (P := fun trees e => trees = false ∧ LastRun pr c e) (fun _ _ h => ⟨h.1, h.2.take hr⟩)
    (fun e h _ hgo => ⟨Bool.eq_false_iff.2 (mt deflWork_trees nofun), h.2.work ho hgo⟩)
    ⟨rfl, hstart⟩ hl with ⟨_, e, h, hpe, ha⟩ | ⟨e, h, _⟩ | ⟨e, h, hpe, hw⟩
  · obtain ⟨bits, hb, hle⟩ := hprefix e h.2
    exact absurd (hb.room (hle.trans hroom) ha) hpe
  · exact absurd h.1 nofun
  · rcases deflWork_stopped hw with ⟨hse, hfe, he⟩ | ⟨-, -, -, -, hf, -⟩
    case inr => exact absurd rfl hf
    rw [he]
    cases h.2 with
    | opened hd _ _ _ _ =>
      rw [hd] at hfe
      exact absurd (ho.finishing.symm.trans hfe) nofun
    | closed _ hs' _ _ _ => exact absurd (hs'.symm.trans hse) nofun
    | headed _ hs' _ _ _ => exact absurd (hs'.symm.trans hse) nofun
    | coded _ hs' _ _ _ => exact absurd (hs'.symm.trans hse) nofun
    | trailed hd _ _ hb hwr =>
      obtain ⟨k, xs, hm, hx⟩ := hwr.all hpe hb
      refine ⟨k, xs, hm.congr rfl rfl, hx, rfl, hfe, ?_⟩
      show e.d.blk.final = true
      rw [hd]
      rfl

end

end Sys2Proof.Machine
end

section
/-! PROOFS. The empty final block of the default chooser (R398, R402), in a fresh stream and after data. -/

namespace Sys2Proof.Machine

/-- Bytes are determined by their bits. -/
theorem streamBits_injective : Function.Injective streamBits := by
  intro xs
  induction xs with
  | nil => exact fun ys h => (List.eq_nil_of_length_eq_zero (by simpa using congrArg List.length h.symm)).symm
  | cons x xs ih =>
    rintro (_ | ⟨y, ys⟩) h
    · simpa using congrArg List.length h
    · rw [streamBits_cons, streamBits_cons] at h
      obtain ⟨hb, hs⟩ := List.append_inj h (by simp)
      have hnum := congrArg bitsNum hb
      rw [bitsNum_bitsOf, bitsNum_bitsOf, Nat.mod_eq_of_lt x.isLt, Nat.mod_eq_of_lt y.isLt] at hnum
      rw [BitVec.eq_of_toNat_eq hnum, ih hs]

/-- The bits of the empty final block for a writer that holds `p` bits: a stored one at level 0, else a fixed one. -/
def emptyFinal (level p : Nat) : List Bool :=
  if level = 0 then
    [true, false, false] ++ List.replicate ((8 - (p + 3) % 8) % 8) false ++ bitsOf 16 0 ++ bitsOf 16 65535
  else [true, true, false] ++ List.replicate 7 false

section
variable {pr : Params} {d : Defl}

theorem blockRaw_empty (hd : d.CursorInv) (hs : d.syms = []) : blockRaw d = [] := by
  obtain ⟨hspan, -⟩ := hd
  rw [hs] at hspan
  have : blockSpan d = 0 := by
    simp at hspan
    simp [blockSpan, hspan]
  rw [blockRaw, this, List.take_zero]

theorem lastBlockBits_empty (hch : pr.chooser = .byCost) (hd : d.CursorInv) (hs : d.syms = []) :
    lastBlockBits pr d = bitsOf d.bitCnt d.bitBuf ++ emptyFinal d.level d.bitCnt := by
  have htyp := closeBlock_empty_typ hch hs true
  unfold lastBlockBits emptyFinal
  simp only [headerRest, symbolBits, htyp, closeBlock_final, closeBlock_toks, hs]
  split_ifs with h0
  · have hraw : (closeBlock pr true d).blk.raw = [] := by
      have : (closeBlock pr true d).blk.raw =
        if (closeBlock pr true d).blk.typ = .stored then blockRaw d else (hbPlan d.syms d.blk).raw := rfl
      rw [this, htyp, if_pos h0, if_pos rfl, blockRaw_empty hd hs]
    simp [hraw, blockTypeNum, bitsOf_zero_right]
  · have heob : blockBits fixLl fixD [] = List.replicate 7 false := by decide +kernel
    rw [heob]
    simp [blockTypeNum, show bitsOf 2 1 = [true, false] from rfl]

theorem emptyFinal_length_le (level : Nat) {p : Nat} : (emptyFinal level p).length ≤ 42 := by
  unfold emptyFinal
  split_ifs
  · simp
    omega
  · simp

theorem trailerBytes_length_le (w : Wrap) (check isize : Word) : (trailerBytes w check isize).length ≤ 8 := by
  cases w with
  | none => exact Nat.zero_le _
  | zlib => rw [trailerBytes_zlib]; exact Nat.le_add_right 4 4
  | gzip => rw [trailerBytes_gzip]; exact le_rfl

/-- What is left of the stream in bits: the block, the padding and the trailer. -/
theorem lastBits_empty (hch : pr.chooser = .byCost) (hd : d.CursorInv) (hs : d.syms = []) :
    lastBits pr d = bitsOf d.bitCnt d.bitBuf ++ emptyFinal d.level d.bitCnt ++
      List.replicate ((8 - (d.bitCnt + (emptyFinal d.level d.bitCnt).length) % 8) % 8) false ++
        streamBits (trailerBytes d.wrap d.check d.isize) := by
  rw [lastBits, lastBlockBits_empty hch hd hs, List.length_append, bitsOf_length]

theorem emptyFinal_padding (level p : Nat) :
    emptyFinal level p ++ List.replicate ((8 - (p + (emptyFinal level p).length) % 8) % 8) false =
      if level = 0 then
        [true, false, false] ++ List.replicate ((8 - (p + 3) % 8) % 8) false ++ bitsOf 16 0 ++ bitsOf 16 65535
      else [true, true, false] ++ List.replicate 7 false ++ List.replicate ((8 - (p + 10) % 8) % 8) false := by
  unfold emptyFinal
  split_ifs
  · have hpad : ∀ n, n = (8 - (p + 3) % 8) % 8 → (8 - (p + (3 + n + 16 + 16)) % 8) % 8 = 0 := by omega
    have hlen : ([true, false, false] ++ List.replicate ((8 - (p + 3) % 8) % 8) false ++ bitsOf 16 0 ++
        bitsOf 16 65535).length = 3 + (8 - (p + 3) % 8) % 8 + 16 + 16 := by
      simp
      omega
    rw [hlen, hpad _ rfl, List.replicate_zero, List.append_nil]
  · rfl

end

/-- A `finish` with nothing left but the final block, and room for it. -/
theorem finish_last {s : State} (hr : s.defl.ready) (hd : s.defl.stage ≠ .done) (hok : s.defl.loopOk) (hwf : s.bus.outMem.wf)
    (ho : LastOnly s.params (atStart s)) (hs : (atStart s).d.running) (hp : (atStart s).d.phase = .collect)
    (hq : (atStart s).d.pending = [])
    (hroom : (lastBits s.params (atStart s).d).length ≤ 8 * s.defl.regs.availOut.toNat) :
    ∃ u, exec .deflWriteFinish s = .next u ∧ u.defl.ec = .endOfStream ∧ u.defl.stage = .done ∧ u.defl.finishing = true ∧
      u.defl.blk.final = true ∧
      streamBits (writtenBytes s.defl.regs u.defl.regs u.bus.outMem) = lastBits s.params (atStart s).d := by
  have hframe := deflInit_frame s.params s.defl
  have hfin : s.defl.finishing = false := by
    have := ho.finishing
    rwa [atStart, hframe] at this
  have hregs : (atStart s).d.regs = s.defl.regs := by rw [atStart, hframe]
  obtain ⟨u, hu⟩ := deflWrite_next .finish hok
  refine ⟨u, hu, ?_⟩
  have hrun : deflRun .finish s = .next u := by
    rw [← hu, exec_deflWriteInstr, deflWrite_runs hr hd hfin]
  obtain ⟨r, hl, rfl⟩ := deflRun_next hrun
  obtain ⟨k, xs, hm, hx, hstage, hf, hb⟩ := last_run ho hs hp hq hwf (hregs ▸ hr.2.2) (hregs ▸ hroom) hl
  have hw := hm.writtenBytes
  rw [hregs] at hw
  exact ⟨if_pos hstage, hstage, hf, hb, (congrArg streamBits hw).trans hx⟩

/-! ## A fresh stream -/

theorem deflStart_level (c : Word) (r : StreamRegs) : (deflStart c r).level = 0 ↔ cfgLevel c = 0 := by
  show (if cfgLevel c = 15 then 6 else cfgLevel c) = 0 ↔ _
  split_ifs with h
  · simp [h]
  · rfl

theorem deflStart_raw {c : Word} (h : cfgWrap c = 0) (r : StreamRegs) : (deflStart c r).wrap = .none := by
  show (wrapOf (cfgWrap c)).getD .none = .none
  rw [h]
  rfl

theorem containerHeader_raw {pr : Params} {d : Defl} (h : d.wrap = .none) : containerHeader pr d = [] := by
  simp [containerHeader, h]

/-- The stream a fresh raw `DEFL` ends with: the empty final block, padded. -/
def emptyStream (level : Nat) : List Byte := if level = 0 then [0x01, 0x00, 0x00, 0xFF, 0xFF] else [0x03, 0x00]

theorem emptyStream_bits (level : Nat) : streamBits (emptyStream level) =
    emptyFinal level 0 ++ List.replicate ((8 - (0 + (emptyFinal level 0).length) % 8) % 8) false := by
  unfold emptyStream emptyFinal
  split_ifs <;> rfl

theorem emptyStream_length_le (level : Nat) : (emptyStream level).length ≤ 5 := by
  unfold emptyStream
  split_ifs
  · exact le_rfl
  · exact Nat.le_add_right 2 3

theorem finish_fresh {s : State} (hc : deflLegal s.defl.config = true) (hw : cfgWrap s.defl.config = 0)
    (hin : s.defl.regs.availIn = 0) (hout : 5 ≤ s.defl.regs.availOut.toNat) (hr : regionOk s.defl.regs = true)
    (hwf : s.bus.outMem.wf) (hch : s.params.chooser = .byCost) :
    ∃ u, exec .deflWriteFinish { s with defl := deflStart s.defl.config s.defl.regs } = .next u ∧ u.defl.ec = .endOfStream ∧
      u.defl.stage = .done ∧ u.defl.finishing = true ∧ u.defl.blk.final = true ∧
      streamBits (writtenBytes s.defl.regs u.defl.regs u.bus.outMem) =
        streamBits (emptyStream (deflStart s.defl.config s.defl.regs).level) := by
  have hsound : (deflStart s.defl.config s.defl.regs).Sound s.params := deflStart_sound hc _
  have hinit : deflInit s.params (deflStart s.defl.config s.defl.regs) =
      { deflStart s.defl.config s.defl.regs with pending := [], stage := .body } := by
    rw [deflInit_of_init rfl, containerHeader_raw (deflStart_raw hw _)]
    rfl
  have hbits : lastBits s.params (deflInit s.params (deflStart s.defl.config s.defl.regs)) =
      streamBits (emptyStream (deflStart s.defl.config s.defl.regs).level) := by
    rw [emptyStream_bits, lastBits_empty hch (deflInit_sound hsound).cursor (by rw [hinit]; rfl), hinit]
    have htrailer : ∀ check isize, streamBits (trailerBytes (deflStart s.defl.config s.defl.regs).wrap check isize) = [] := by
      intro check isize
      rw [deflStart_raw hw]
      rfl
    rw [htrailer]
    exact List.append_nil _
  have hlen := emptyStream_length_le (deflStart s.defl.config s.defl.regs).level
  rw [← hbits]
  refine finish_last (s := { s with defl := deflStart s.defl.config s.defl.regs }) ⟨rfl, rfl, hr⟩ nofun
    (Defl.sound_iff.1 hsound).1.loopOk hwf ?_ ?_ ?_ ?_ ?_
  · refine { sound := deflInit_sound hsound, finishing := ?_, syms := ?_, deferred := ?_, pos := ?_, availIn := ?_ }
    all_goals rw [atStart, hinit]
    · rfl
    · rfl
    · rfl
    · rfl
    · exact hin
  · exact deflInit_running nofun
  · rw [atStart, hinit]; rfl
  · rw [atStart, hinit]
  · rw [atStart, hbits, streamBits_length]
    show 8 * _ ≤ 8 * s.defl.regs.availOut.toNat
    omega

/-! ## After data -/

/-- The trailer of a container, byte by byte (R265). -/
theorem trailerBytes_eq (w : Wrap) (check isize : Word) : trailerBytes w check isize = match w with
    | .none => []
    | .zlib => [BitVec.ofNat 8 (check.toNat / 256 ^ 3), BitVec.ofNat 8 (check.toNat / 256 ^ 2),
        BitVec.ofNat 8 (check.toNat / 256 ^ 1), BitVec.ofNat 8 (check.toNat / 256 ^ 0)]
    | .gzip => [BitVec.ofNat 8 (check.toNat / 256 ^ 0), BitVec.ofNat 8 (check.toNat / 256 ^ 1),
        BitVec.ofNat 8 (check.toNat / 256 ^ 2), BitVec.ofNat 8 (check.toNat / 256 ^ 3),
        BitVec.ofNat 8 (isize.toNat / 256 ^ 0), BitVec.ofNat 8 (isize.toNat / 256 ^ 1),
        BitVec.ofNat 8 (isize.toNat / 256 ^ 2), BitVec.ofNat 8 (isize.toNat / 256 ^ 3)] := by
  cases w with
  | none => rfl
  | zlib => exact trailerBytes_zlib ..
  | gzip => exact trailerBytes_gzip ..

theorem lastBits_length_le {pr : Params} {d : Defl} (hch : pr.chooser = .byCost) (hd : d.CursorInv) (hb : d.BitsOk)
    (hs : d.syms = []) : (lastBits pr d).length ≤ 128 := by
  have hblock := emptyFinal_length_le d.level (p := d.bitCnt)
  have htrailer := trailerBytes_length_le d.wrap d.check d.isize
  have h7 := hb.1
  rw [lastBits_empty hch hd hs]
  simp only [List.length_append, bitsOf_length, List.length_replicate, streamBits_length]
  omega

end Sys2Proof.Machine

open Sys2Proof Sys2Proof.Machine

/-- Settles O21: the run of the last block, from a fresh engine and after data; and how the loop of a `finish` can stop. -/
theorem finalBlock : Obligations.FinalBlock := by
  refine ⟨?_, ?_, ?_, fun i s t ht hi => exec_keepsFinishing hi t ht⟩
  · intro s hc hw hin hout hr hwf hch
    obtain ⟨u, hu, hec, hst, hfin, hb, hbits⟩ := finish_fresh hc hw hin hout hr hwf hch
    refine ⟨_, u, exec_deflReset s, ?_, hec, hst, hfin, hb, ?_⟩
    · rwa [deflReset_legal hc]
    · rw [streamBits_injective hbits, emptyStream, if_congr (deflStart_level _ _) rfl rfl]
  · intro s hi ha hch d zeros byte hs hp hfin hsyms hdef hpos hq hin hout
    have hsound := hi.sound
    have hinit : deflInit s.params s.defl = s.defl := deflInit_of_started (by rcases hs with h | h <;> rw [h] <;> nofun)
    have hlen := lastBits_length_le (pr := s.params) hch hsound.cursor hsound.bits hsyms
    obtain ⟨u, hu, hec, hst, hf, hb, hbits⟩ := finish_last (s := s) (ready_of_deflAccepts ha)
      (by rcases hs with h | h <;> rw [h] <;> nofun) hi.1.loopOk hi.busInv.2
      (by rw [atStart, hinit]; exact ⟨hsound, hfin, hsyms, hdef, hpos, hin⟩) (by rw [atStart, hinit]; exact hs)
      (by rw [atStart, hinit]; exact hp) (by rw [atStart, hinit]; exact hq)
      (by rw [atStart, hinit]; exact hlen.trans (Nat.mul_le_mul_left 8 hout))
    refine ⟨u, hu, hec, hst, hf, hb, ?_⟩
    rw [hbits, atStart, hinit, lastBits_empty hch hsound.cursor hsyms, List.append_assoc (bitsOf _ _), emptyFinal_padding]
    exact congrArg _ (congrArg streamBits (trailerBytes_eq ..))
  · intro s t hi ha ht hroom
    rcases wrote_of_accepts (f := .finish) ha ht with ⟨hd, rfl⟩ | ⟨hd, r, hl, rfl⟩
    · exact ⟨hd, rfl⟩
    · have hf : effective .finish s.defl = .finish := ite_self _
      rw [hf] at hl
      have hst := deflLoop_finish_ends hl hroom
      exact ⟨hst, if_pos hst⟩

end

section
/-! PROOFS. What a run of `DEFL` keeps (R375, R382): a property of the engine and of the bytes written so far that every part of
the work loop keeps holds wherever a `WRITE` stops, and all along a run. -/

namespace Sys2Proof.Machine

/-- A property of the engine and of the bytes written that the work loop of a mode keeps. -/
structure LoopKeeps (pr : Params) (f : Flush) (P : Defl → List Byte → Prop) : Prop where
  take : ∀ (c : DeflCtx) (out : List Byte), P c.d out →
    P (bwTake c).d (out ++ c.d.pending.take (takeCount c.d.pending c.d.regs))
  work : ∀ (c : DeflCtx) (out : List Byte), c.Sound pr → c.d.running → c.d.pending = [] → P c.d out →
    P (deflWork pr f c).c.d out

/-- A property that the work of every mode, the host between calls, a refused call and the header of the container keep too. -/
structure RunKeeps (pr : Params) (P : Defl → List Byte → Prop) : Prop where
  loop : ∀ f, LoopKeeps pr f P
  outside : ∀ (d : Defl) (out : List Byte) (r : StreamRegs) (e x : Status), P d out →
    P { d with regs := r, ec := e, sticky := x } out
  init : ∀ (d : Defl) (out : List Byte), d.Sound pr → d.stage = .init → P d out → P (deflInit pr d) out

/-- Inside a call that started from `c` with the bytes `out` written: what holds at `e`. -/
structure InCall (pr : Params) (P : Defl → List Byte → Prop) (c : DeflCtx) (out : List Byte) (e : DeflCtx) : Prop where
  sound : e.Sound pr
  moved : ∃ k xs, Moved c k xs e ∧ P e.d (out ++ xs)

section
variable {pr : Params} {P : Defl → List Byte → Prop} {f : Flush} {c e : DeflCtx} {out : List Byte} {s t : State}

theorem bwTake_running (h : c.d.running) : (bwTake c).d.running := by
  rw [(bwTake_frame c).1]
  exact h

theorem InCall.take (hk : LoopKeeps pr f P) (hr : regionOk c.d.regs = true) (h : InCall pr P c out e) :
    InCall pr P c out (bwTake e) := by
  obtain ⟨hs, k, xs, hm, hP⟩ := h
  refine ⟨bwTake_sound hs, _, _, hm.trans (moved_bwTake hm.outWf (hm.regionOk hr)) hr, ?_⟩
  rw [← List.append_assoc]
  exact hk.take e _ hP

theorem InCall.work (hk : LoopKeeps pr f P) (hr : regionOk c.d.regs = true) (h : InCall pr P c out e) (hrun : e.d.running)
    (hp : e.d.pending = []) : InCall pr P c out (deflWork pr f e).c := by
  obtain ⟨hs, k, xs, hm, hP⟩ := h
  obtain ⟨m, hw⟩ := moved_deflWork (pr := pr) (f := f) hm.outWf (hm.regionOk hr)
  refine ⟨(deflWork_ok f hs hrun).1, _, _, hm.trans hw hr, ?_⟩
  rw [List.append_nil]
  exact hk.work e _ hs hrun hp hP

/-- How the loop stops, with the property at the last place before. -/
theorem LoopKeeps.stops (hk : LoopKeeps pr f P) {n : Nat} {r : Bool × DeflCtx} (hs : c.Sound pr) (hrun : c.d.running)
    (hr : regionOk c.d.regs = true) (hP : P c.d out) (hl : deflLoop pr f n false c = some r) :
    DeflStop pr f (fun trees e => (trees = true → f = .trees) ∧ e.d.running ∧ InCall pr P c out e) r :=
  deflLoop_rule (fun _ _ ⟨ht, hrun, h⟩ => ⟨ht, bwTake_running hrun, h.take hk hr⟩)
    (fun _ ⟨_, hrun, h⟩ hp hgo => ⟨deflWork_trees, (deflWork_ok f h.sound hrun).2 hgo, h.work hk hr hrun hp⟩)
    ⟨Bool.false_ne_true.elim, hrun, hs, 0, [], .refl hs.2.2, (List.append_nil out).symm ▸ hP⟩ hl

/-- The property where the loop has stopped. -/
theorem LoopKeeps.loop (hk : LoopKeeps pr f P) {n : Nat} {r : Bool × DeflCtx} (hs : c.Sound pr) (hrun : c.d.running)
    (hr : regionOk c.d.regs = true) (hP : P c.d out) (hl : deflLoop pr f n false c = some r) : InCall pr P c out r.2 := by
  rcases hk.stops hs hrun hr hP hl with ⟨_, e, ⟨_, _, h⟩, _, _⟩ | ⟨e, ⟨_, _, h⟩, _⟩ | ⟨e, ⟨_, hrun, h⟩, hp, _⟩
  · exact h
  · exact h
  · exact h.work hk hr hrun hp

theorem RunKeeps.start (hk : RunKeeps pr P) {d : Defl} (hs : d.Sound pr) (h : P d out) : P (deflInit pr d) out := by
  by_cases hd : d.stage = .init
  · exact hk.init d out hs hd h
  · rw [deflInit_of_started hd]
    exact h

theorem atStart_sound (hs : s.defl.Sound s.params) (hb : s.bus.Inv) : (atStart s).Sound s.params := ⟨deflInit_sound hs, hb⟩

theorem atStart_regs (s : State) : (atStart s).d.regs = s.defl.regs := by
  rw [atStart, deflInit_frame]

/-- A call keeps the property, with the bytes it wrote. -/
theorem RunKeeps.call (hk : RunKeeps s.params P) (hs : s.defl.Sound s.params) (hb : s.bus.Inv) (h : Wrote f s t)
    (hP : P s.defl out) : P t.defl (out ++ writtenBytes s.defl.regs t.defl.regs t.bus.outMem) := by
  cases h with
  | refused e x he hx ht =>
    have hm : Moved ⟨s.defl, s.bus⟩ 0 [] ⟨t.defl, t.bus⟩ := ht ▸ .of_same hb.2 rfl rfl rfl
    rw [hm.writtenBytes, List.append_nil, ht]
    exact hk.outside _ _ s.defl.regs e x hP
  | ended hd ht =>
    have hm : Moved ⟨s.defl, s.bus⟩ 0 [] ⟨t.defl, t.bus⟩ := ht ▸ .of_same hb.2 rfl rfl rfl
    rw [hm.writtenBytes, List.append_nil, ht]
    exact hk.outside _ _ s.defl.regs _ s.defl.sticky hP
  | ran r hr hd hi hl ht =>
    have hregs := atStart_regs s
    obtain ⟨-, k, xs, hm, hP'⟩ := (hk.loop _).loop (atStart_sound hs hb) (deflInit_running hd) (hregs ▸ hr.2.2) (hk.start hs hP) hl
    have hw := hm.writtenBytes
    rw [hregs] at hw
    rw [ht, hw]
    exact hk.outside _ _ r.2.d.regs _ r.2.d.sticky hP'

/-- What a run starts from, it keeps: the parameters and the invariant. -/
theorem DeflFrom.sound {a : State} (h : DeflFrom a s out) (ha : a.defl.Sound a.params) (hb : a.bus.Inv) :
    s.params = a.params ∧ s.defl.Sound s.params ∧ s.bus.Inv := by
  induction h with
  | start => exact ⟨rfl, ha, hb⟩
  | host s out r b hb' _ ih =>
    obtain ⟨hpr, hs, -⟩ := ih
    exact ⟨hpr, { hs with }, hb'⟩
  | write s t out f _ e ih =>
    obtain ⟨hpr, hs, hbus⟩ := ih
    have hframe := (wrote e).frame
    rw [exec_deflWriteInstr] at e
    have hparams : t.params = s.params := by rw [hframe]
    rw [hparams]
    exact ⟨hpr, deflWrite_answers f hs hbus t e⟩

/-- A run keeps the property. -/
theorem RunKeeps.run {a : State} (hk : RunKeeps a.params P) (ha : a.defl.Sound a.params) (hb : a.bus.Inv) {pre : List Byte}
    (hP : P a.defl pre) (h : DeflFrom a s out) : P s.defl (pre ++ out) := by
  induction h with
  | start => rwa [List.append_nil]
  | host s out r b hb' h ih => exact hk.outside _ _ r s.defl.ec s.defl.sticky ih
  | write s t out f h e ih =>
    obtain ⟨hpr, hs, hbus⟩ := h.sound ha hb
    rw [← List.append_assoc]
    exact (hpr ▸ hk).call hs hbus (wrote e) ih

/-- A run from a `RESET`. -/
theorem DeflRun.sound (h : DeflRun s out) : s.defl.Sound s.params ∧ s.bus.Inv := by
  obtain ⟨a, hl, hb, hrun⟩ := h
  have ha : (deflReset a.defl).Sound a.params := by
    rw [deflReset_legal hl]
    exact deflStart_sound hl _
  exact (hrun.sound ha hb).2

theorem DeflRun.keeps (h : DeflRun s out) (hk : RunKeeps s.params P)
    (hP : ∀ (c : Word) (r : StreamRegs), deflLegal c = true → P (deflStart c r) []) : P s.defl out := by
  obtain ⟨a, hl, hb, hrun⟩ := h
  have ha : (deflReset a.defl).Sound a.params := by
    rw [deflReset_legal hl]
    exact deflStart_sound hl _
  obtain ⟨hpr, -⟩ := hrun.sound ha hb
  exact (hpr ▸ hk).run (a := { a with defl := deflReset a.defl }) ha hb (pre := [])
    (by rw [deflReset_legal hl]; exact hP _ _ hl) hrun

end

end Sys2Proof.Machine
end

section
/-! PROOFS. A complete `sync` or `full` (R376, R403, R404): the output ends on a byte boundary, and with the marker's bytes where
the call wrote one. -/

namespace Sys2Proof.Machine

/-! ## The marker of `sync` and `full` -/

/-- The flush modes whose marker is an empty stored block. -/
def storedMark (f : Flush) : Prop := f = .sync ∨ f = .full

section
variable {pr : Params} {f : Flush} {d : Defl} {c : DeflCtx} {out : List Byte}

theorem storedMark_of_rank (h : 4 ≤ flushRank f) (hf : f ≠ .finish) : storedMark f := by
  cases f with
  | sync => exact .inl rfl
  | full => exact .inr rfl
  | finish => exact absurd rfl hf
  | none | block | part | trees => exact absurd h (by decide)

theorem storedMark.rank (h : storedMark f) : 4 ≤ flushRank f := by
  rcases h with rfl | rfl <;> decide

theorem storedMark.ne_none (h : storedMark f) : f ≠ .none := by rcases h with rfl | rfl <;> nofun

theorem storedMark.ne_finish (h : storedMark f) : f ≠ .finish := by rcases h with rfl | rfl <;> nofun

theorem storedMark.ne_trees (h : storedMark f) : f ≠ .trees := by rcases h with rfl | rfl <;> nofun

theorem storedMark.ne_part (h : storedMark f) : f ≠ .part := by rcases h with rfl | rfl <;> nofun

theorem completeFlush_bits (f : Flush) (d : Defl) : (completeFlush f d).bitCnt = (marker f d).bitCnt ∧
    (completeFlush f d).bitBuf = (marker f d).bitBuf ∧ (completeFlush f d).pending = (marker f d).pending := by
  simp only [completeFlush]
  split_ifs <;> exact ⟨rfl, rfl, rfl⟩

theorem marker_stored (h : storedMark f) (d : Defl) :
    marker f d = bwPut 0xFFFF 16 (bwPut 0 16 (bwAlign (bwPut 0 3 d))) := by
  rcases h with rfl | rfl <;> rfl

theorem marker_bitCnt (h : storedMark f) (d : Defl) : (marker f d).bitCnt = 0 := by
  rw [marker_stored h, bwPut_bitCnt, bwPut_bitCnt, bwAlign_bitCnt]

/-- The marker ends with the bytes of `LEN` and `NLEN` of an empty stored block. -/
theorem marker_pending (h : storedMark f) (hd : d.BitsOk) :
    (marker f d).pending = (bwAlign (bwPut 0 3 d)).pending ++ [0x00, 0x00, 0xFF, 0xFF] := by
  have h0 := bwAlign_bitCnt (bwPut 0 3 d)
  have hbuf : (bwAlign (bwPut 0 3 d)).bitBuf = 0 := by
    have hlt := (hd.bwPut (v := 0) (n := 3) (by decide)).bwAlign.2
    rw [h0] at hlt
    exact Nat.lt_one_iff.1 hlt
  rw [marker_stored h]
  simp only [bwPut_pending, bwPut_bitCnt, bwPut_bitBuf, h0, hbuf, List.append_assoc]
  rfl

/-! ## Nothing is left to do after it -/

/-- Nothing open, nothing deferred, nothing ahead. -/
structure Emptied (d : Defl) : Prop where
  phase : d.phase = .collect
  syms : d.syms = []
  deferred : d.deferred.valid = false
  pos : d.pos = dataEnd d

theorem Emptied.lookahead (h : Emptied d) : lookahead d = 0 := by rw [Machine.lookahead, h.pos, Nat.sub_self]

/-- Where a flush mode finds no input, tokenising goes on to the end. -/
theorem lookahead_of_stopped (hc : canStep f d = false) (hf : f ≠ .none) (ha : d.regs.availIn = 0) :
    lookahead d = 0 ∧ d.deferred.valid = false := by
  have hflush : (f != .none && decide (d.regs.availIn = 0)) = true := by simp [hf, ha]
  simp only [canStep, hflush, Bool.and_true] at hc
  split_ifs at hc with h0
  exact ⟨h0, hc⟩

theorem emptied_of_stopped (hs : d.Sound pr) (hc : canStep f d = false) (hf : f ≠ .none) (ha : d.regs.availIn = 0)
    (hp : d.phase = .collect) (hsyms : d.syms = []) : Emptied d := by
  obtain ⟨hl, hd⟩ := lookahead_of_stopped hc hf ha
  obtain ⟨-, -, hle, -⟩ := hs.cursor
  exact ⟨hp, hsyms, hd, by unfold lookahead at hl; omega⟩

theorem tokenised_canStep (hs : c.d.Sound pr) (h : (tokenised pr f c).1 = false) (hb : c.bus.Inv) :
    canStep f (tokenised pr f c).2 = false :=
  tokenise_stops pr f _ (Defl.sound_iff.1 (accept_sound ⟨hs, hb⟩).1).1.loopOk.2 (tokeniseFuel_enough _) h

theorem tokenised_sound (hs : c.d.Sound pr) (hb : c.bus.Inv) (h : (tokenised pr f c).1 = false) :
    (tokenised pr f c).2.Sound pr := (tokenise_sound f _ (accept_sound ⟨hs, hb⟩).1).2 h

theorem tokenised_sat (pr : Params) (f : Flush) (c : DeflCtx) :
    (tokenised pr f c).2.sat = if 0 < acceptCount c.d then 0 else c.d.sat := by
  rw [onlyTokens_tokenised pr f c, accept_frame_d]

theorem tokenised_phase (pr : Params) (f : Flush) (c : DeflCtx) : (tokenised pr f c).2.phase = c.d.phase := by
  rw [onlyTokens_tokenised pr f c, accept_frame_d]

theorem tokenised_blk (pr : Params) (f : Flush) (c : DeflCtx) : (tokenised pr f c).2.blk = c.d.blk := by
  rw [onlyTokens_tokenised pr f c, accept_frame_d]

theorem tokenised_bits (pr : Params) (f : Flush) (c : DeflCtx) : (tokenised pr f c).2.bitCnt = c.d.bitCnt ∧
    (tokenised pr f c).2.bitBuf = c.d.bitBuf ∧ (tokenised pr f c).2.pending = c.d.pending := by
  rw [onlyTokens_tokenised pr f c, accept_frame_d]
  exact ⟨rfl, rfl, rfl⟩

theorem accept_of_count (h : acceptCount c.d = 0) : accept c = c := by
  rw [accept, h]
  rfl

/-- With nothing taken in and nothing ahead, tokenising does nothing. -/
theorem tokenised_of_emptied (h : Emptied c.d) (hk : acceptCount c.d = 0) : tokenised pr f c = (false, c.d) := by
  rw [tokenised, accept_of_count hk]
  exact tokenise_of_not_canStep (canStep_of_nothing h.lookahead h.deferred) _

/-- Until the last block is planned: after a completed flush nothing is left to tokenise or to emit; after a `sync` or a `full`
the writer is on a byte boundary and the last block is not dynamic, so that no later flush has a marker to write; after a `full`
the history starts where it ended. -/
def Settled (d : Defl) : Prop :=
  d.finishing = false → 1 ≤ d.sat →
    Emptied d ∧ (4 ≤ d.sat → d.bitCnt = 0 ∧ d.blk.typ ≠ .dynamic) ∧ (d.sat = 5 → d.histBase = d.pos)

theorem Settled.of_zero (h : d.sat = 0) : Settled d := fun _ h1 => absurd h (Nat.one_le_iff_ne_zero.1 h1)

theorem Settled.of_finishing (h : d.finishing = true) : Settled d := fun h0 => absurd (h.symm.trans h0) nofun

theorem Emptied.congr {e : Defl} (h : Emptied d) (hp : e.phase = d.phase) (hs : e.syms = d.syms) (hd : e.deferred = d.deferred)
    (hpos : e.pos = d.pos) (hdata : e.data = d.data) : Emptied e :=
  ⟨hp.trans h.phase, hs.trans h.syms, hd ▸ h.deferred, by rw [hpos, h.pos, dataEnd, dataEnd, hdata]⟩

theorem completeFlush_histBase (d : Defl) : (completeFlush .full d).histBase = d.pos := by
  have h : (completeFlush .full d).histBase = (writeMarker .full d).pos := rfl
  rw [h, writeMarker_frame]

theorem settled_completeFlush (hs : d.Sound pr) (hc : canStep f d = false) (hf : f ≠ .none) (hfin : f ≠ .finish)
    (ha : d.regs.availIn = 0) (hp : d.phase = .collect) (hsyms : d.syms = []) : Settled (completeFlush f d) := by
  intro _ _
  have hsat : (completeFlush f d).sat = flushRank f := by rw [completeFlush_frame]
  refine ⟨?_, fun h4 => ?_, fun h5 => ?_⟩
  · refine (emptied_of_stopped hs hc hf ha hp hsyms).congr ?_ ?_ ?_ ?_ ?_ <;> rw [completeFlush_frame]
  · have hmark := storedMark_of_rank (hsat ▸ h4) hfin
    refine ⟨(completeFlush_bits f d).1.trans (marker_bitCnt hmark d), ?_⟩
    rw [completeFlush_frame]
    rcases hmark with rfl | rfl <;> nofun
  · have hfull : f = .full := by
      rw [hsat] at h5
      cases f <;> simp [flushRank] at h5 ⊢
    have hpos : (completeFlush f d).pos = d.pos := by rw [completeFlush_frame]
    rw [hpos, hfull]
    exact completeFlush_histBase d

/-- A change that keeps what the property speaks of. -/
theorem Settled.congr {e : Defl} (h : Settled d) (hf : e.finishing = d.finishing) (hsat : e.sat = d.sat) (hp : e.phase = d.phase)
    (hs : e.syms = d.syms) (hd : e.deferred = d.deferred) (hpos : e.pos = d.pos) (hdata : e.data = d.data)
    (hb : e.bitCnt = d.bitCnt) (hblk : e.blk = d.blk) (hbase : e.histBase = d.histBase) : Settled e := by
  intro hf' h1
  obtain ⟨he, h4, h5⟩ := h (hf ▸ hf') (hsat ▸ h1)
  exact ⟨he.congr hp hs hd hpos hdata, fun h => by rw [hb, hblk]; exact h4 (hsat ▸ h),
    fun h => by rw [hbase, hpos]; exact h5 (hsat ▸ h)⟩

/-- Where input is taken no flush is done; else, once one is, tokenising has nothing to do. -/
theorem Settled.tokenised (h : Settled c.d) : Settled (tokenised pr f c).2 ∧
    ((Machine.tokenised pr f c).1 = true → (Machine.tokenised pr f c).2.finishing = false → (Machine.tokenised pr f c).2.sat = 0) := by
  have hsat := tokenised_sat pr f c
  by_cases hk : 0 < acceptCount c.d
  · rw [if_pos hk] at hsat
    exact ⟨.of_zero hsat, fun _ _ => hsat⟩
  · rw [if_neg hk] at hsat
    have hall : (Machine.tokenised pr f c).2.finishing = false → 1 ≤ (Machine.tokenised pr f c).2.sat →
        Emptied c.d ∧ Machine.tokenised pr f c = (false, c.d) := fun hf h1 =>
      have he := (h ((tokenised_finishing pr f c).symm.trans hf) (hsat ▸ h1)).1
      ⟨he, tokenised_of_emptied he (by omega)⟩
    refine ⟨fun hf h1 => ?_, fun ht hf => ?_⟩
    · obtain ⟨-, ht⟩ := hall hf h1
      rw [ht] at hf h1 ⊢
      exact h hf h1
    · by_contra h0
      obtain ⟨-, htok⟩ := hall hf (Nat.one_le_iff_ne_zero.2 h0)
      rw [htok] at ht
      cases ht

/-- Work keeps it. -/
theorem settled_work (hs : c.Sound pr) (h : Settled c.d) : Settled (deflWork pr f c).c.d := by
  have hempty : c.d.phase ≠ .collect → c.d.finishing = false → ¬1 ≤ c.d.sat := fun hp hf h1 => hp (h hf h1).1.phase
  refine deflWork_cases (motive := fun r => Settled r.c.d) ?_ ?_ ?_ ?_ ?_ ?_ ?_
  · exact fun _ hf => .of_finishing hf
  · exact fun _ _ => h.congr rfl rfl rfl rfl rfl rfl rfl rfl rfl rfl
  · intro _ hp
    rw [DeflCtx.cont, headerDone_frame]
    exact fun hf h1 => absurd h1 (hempty (by rw [hp]; nofun) hf)
  · intro _ hp
    rw [DeflCtx.cont, symbolsDone_frame]
    exact fun hf h1 => absurd h1 (hempty (by rw [hp]; nofun) hf)
  · intro _ hp
    rw [DeflCtx.cont, trailerDone_frame]
    exact fun hf h1 => absurd h1 (hempty (by rw [hp]; nofun) hf)
  · intro _ _ ht hf h1
    have h0 := h.tokenised.2 ht hf
    exact absurd h1 (Nat.one_le_iff_ne_zero.not.2 (not_not.2 h0))
  · intro _ hp ht
    have hset := (h.tokenised (pr := pr) (f := f)).1
    refine decideCollect_cases (motive := fun r => Settled r.c.d) ?_ ?_ ?_ ?_ ?_ ?_ ?_
    · exact fun _ => hset
    · exact fun _ _ => hset
    · exact fun _ _ => .of_finishing rfl
    · intro _ _ _ hheld
      rw [DeflCtx.cont, writeMarker_frame]
      intro hf h1
      obtain ⟨he, h4, -⟩ := hset hf h1
      have hlow : ¬4 ≤ (Machine.tokenised pr f c).2.sat := fun hge => by simp [dataHeld, (h4 hge).2] at hheld
      exact ⟨he.congr rfl rfl rfl rfl rfl, fun hge => absurd hge hlow, fun h5 => absurd (h5.ge.trans' (by decide)) hlow⟩
    · exact fun _ _ _ _ _ => hset
    · exact fun _ _ _ _ hne hf h1 => absurd (hset hf h1).1.syms hne
    · exact fun ha hn hfin _ hsyms => settled_completeFlush (tokenised_sound hs.1 hs.2 ht) (tokenised_canStep hs.1 ht hs.2) hn hfin
        ha ((tokenised_phase pr f c).trans hp) hsyms

theorem runKeeps_settled (pr : Params) : RunKeeps pr fun d _ => Settled d where
  loop f := {
    take := fun c _ h => by
      rw [(bwTake_frame c).1]
      exact h.congr rfl rfl rfl rfl rfl rfl rfl rfl rfl rfl
    work := fun _ _ hs _ _ h => settled_work hs h }
  outside _ _ _ _ _ h := h.congr rfl rfl rfl rfl rfl rfl rfl rfl rfl rfl
  init d _ hs hd h := by
    obtain ⟨hp, -⟩ := hs.stage.1 hd
    rw [deflInit_of_init hd]
    exact h.congr rfl rfl hp.symm rfl rfl rfl rfl rfl rfl rfl

end

/-! ## A complete call -/

section
variable {f : Flush} {s t : State} {pr : Params} {P : Defl → List Byte → Prop} {c : DeflCtx} {out : List Byte}

theorem ne_ok_of_refused {e : Status} (hs : s.defl.Sound s.params) (he : e = .streamError ∨ (e = s.defl.sticky ∧ e ≠ .ok)) :
    e = .streamError := by
  rcases he with he | ⟨he, hne⟩
  · exact he
  · exact he.trans (hs.sticky.resolve_left (he ▸ hne))

/-- A complete call has worked; with a flush mode it stopped where tokenising had stopped for want of input and the mode had
nothing to do. -/
theorem complete_stops (hk : LoopKeeps s.params f P) (hs : s.defl.Sound s.params) (hb : s.bus.Inv) (hfin : s.defl.finishing = false)
    (hf : f ≠ .trees) (hP : P (atStart s).d out) (hw : Wrote f s t) (hc : completeCall t) :
    regionOk (atStart s).d.regs = true ∧ ∃ e, InCall s.params P (atStart s) out e ∧ e.d.running ∧ e.d.pending = [] ∧ e.d.phase = .collect ∧
      e.d.finishing = false ∧ (tokenised s.params f e).1 = false ∧ (tokenised s.params f e).2.regs.availIn = 0 ∧ f ≠ .finish ∧
      (f = .none ∨ flushRank f ≤ (tokenised s.params f e).2.sat ∧ ¬(f = .part ∧ dataHeld (tokenised s.params f e).2 = true)) ∧
      (deflWork s.params f e).c = ⟨(tokenised s.params f e).2, (accept e).bus⟩ ∧
      t.defl = { (tokenised s.params f e).2 with ec := t.defl.ec } ∧ t.bus = (accept e).bus := by
  obtain ⟨hec, -, hroom⟩ := hc
  cases hw with
  | refused e x he hx ht =>
    have hst := ne_ok_of_refused hs he
    rw [ht] at hec
    rcases hec with h | h <;> exact absurd (hst.symm.trans h) nofun
  | ended hd ht =>
    obtain ⟨-, -, hdone, -⟩ := hs.stage
    exact absurd ((hdone hd).2.symm.trans hfin) nofun
  | ran r hr hd hi hl ht =>
    have hregs := atStart_regs s
    rw [effective_of_not_finishing hfin] at hl
    have hrun : (atStart s).d.running := deflInit_running hd
    have hstop := hk.stops (atStart_sound hs hb) hrun (hregs ▸ hr.2.2) hP hl
    cases hstop with
    | space trees e h hp ha => exact absurd (ht ▸ ha) hroom
    | boundary e h hp => exact absurd (h.1 rfl) hf
    | work e h hp hw =>
      obtain ⟨-, hrun, hin⟩ := h
      rcases deflWork_stopped hw with ⟨-, -, he⟩ | ⟨hst, hph, hopen, ha, hnf, hcond, he⟩
      · have : t.defl.ec = .endOfStream := by rw [ht, he]; rfl
        rcases hec with h | h <;> exact absurd (this.symm.trans h) nofun
      · obtain ⟨-, -, -, hbody, -, -⟩ := hin.sound.1.stage
        have hfin' : e.d.finishing = false := by
          by_contra hne
          exact hbody (hrun.resolve_right hst) (Bool.of_not_eq_false hne) hph
        refine ⟨hregs ▸ hr.2.2, e, hin, hrun, hp, hph, hfin', hopen, ha, hnf, hcond, by rw [he]; rfl, ?_, ?_⟩
        · rw [ht, he]; rfl
        · rw [ht, he]; rfl

/-- What a complete call with a flush mode leaves. -/
theorem complete_leaves (hs : s.defl.Sound s.params) (hb : s.bus.Inv) (hfin : s.defl.finishing = false) (hn : f ≠ .none)
    (hf : f ≠ .trees) (hw : Wrote f s t) (hc : completeCall t) : t.defl.phase = .collect ∧ t.defl.finishing = false ∧
      t.defl.pending = [] ∧ flushRank f ≤ t.defl.sat ∧ ¬(f = .part ∧ dataHeld t.defl = true) := by
  have hk : LoopKeeps s.params f fun _ _ => True := ⟨fun _ _ _ => trivial, fun _ _ _ _ _ _ => trivial⟩
  obtain ⟨-, e, -, -, hp, hph, hfin', -, -, -, hcond, -, hd, -⟩ := complete_stops (out := []) hk hs hb hfin hf trivial hw hc
  obtain ⟨hsat, hheld⟩ := hcond.resolve_left hn
  rw [hd]
  exact ⟨(tokenised_phase s.params f e).trans hph, (tokenised_finishing s.params f e).trans hfin',
    (tokenised_bits s.params f e).2.2.trans hp, hsat, hheld⟩

theorem DeflRun.settled (h : DeflRun s out) : Settled s.defl :=
  h.keeps (runKeeps_settled s.params) fun _ _ _ => .of_zero rfl

theorem alignedFlush (hf : storedMark f) : AlignedFlush f := by
  intro s t out hrun hfin ht hc
  obtain ⟨hs, hb⟩ := hrun.sound
  obtain ⟨-, hfin', hp, hsat, -⟩ := complete_leaves hs hb hfin hf.ne_none hf.ne_trees (wrote ht) hc
  have hset : Settled t.defl := (runKeeps_settled s.params).call (out := out) hs hb (wrote ht) hrun.settled
  have h4 := hf.rank.trans hsat
  obtain ⟨-, hend, -⟩ := hset hfin' ((by decide : 1 ≤ 4).trans h4)
  exact ⟨(hend h4).1, hp⟩

/-! ## Where the call wrote a marker -/

/-- Inside a call with a mode whose marker is an empty stored block, from the engine `d0`, with the bytes `out` written by it. -/
inductive Marking (f : Flush) (d0 d : Defl) (out : List Byte) : Prop
  /-- The marker is still due. -/
  | due (h : d.sat < flushRank f)
  /-- None is due, and no input was taken. -/
  | fresh (h : flushRank f ≤ d0.sat) (hd : d.data = d0.data)
  /-- It is written, and nothing is left to do. -/
  | written (he : Emptied d) (ha : d.regs.availIn = 0) (hm : [0x00, 0x00, 0xFF, 0xFF] <:+ out ++ d.pending)
      (hsat : flushRank f ≤ d.sat)

section
variable {d d0 : Defl}

theorem tokenised_data (pr : Params) (f : Flush) (c : DeflCtx) (h : acceptCount c.d = 0) :
    (tokenised pr f c).2.data = c.d.data := by
  rw [onlyTokens_tokenised pr f c, accept_of_count h]

/-- Tokenising leaves the marker due where input was taken; where nothing is left to do it does nothing. -/
theorem Marking.tokenised {f : Flush} (hf : storedMark f) (h : Marking f d0 c.d out) :
    Marking f d0 (tokenised pr f c).2 out ∧ ((tokenised pr f c).1 = true → ∀ e : Defl, e.sat = (tokenised pr f c).2.sat →
      e.data = (tokenised pr f c).2.data → Marking f d0 e out) := by
  by_cases hk : 0 < acceptCount c.d
  · have hlow : (Machine.tokenised pr f c).2.sat < flushRank f := by
      rw [tokenised_sat, if_pos hk]
      exact lt_of_lt_of_le (by decide) hf.rank
    exact ⟨.due hlow, fun _ e he _ => .due (he ▸ hlow)⟩
  · have hk0 : acceptCount c.d = 0 := by omega
    cases h with
    | due h =>
      have hlow : (Machine.tokenised pr f c).2.sat < flushRank f := by rwa [tokenised_sat, if_neg hk]
      exact ⟨.due hlow, fun _ e he _ => .due (he ▸ hlow)⟩
    | fresh h hd =>
      have hdata := (tokenised_data pr f c hk0).trans hd
      exact ⟨.fresh h hdata, fun _ e _ he => .fresh h (he.trans hdata)⟩
    | written he ha hm hsat =>
      rw [tokenised_of_emptied he hk0]
      exact ⟨.written he ha hm hsat, nofun⟩

/-- A change that leaves the source, the rank reached and, once the marker is written, nothing to do. -/
theorem Marking.congr {f : Flush} {e : Defl} {out : List Byte} (h : Marking f d0 d out) (hsat : e.sat = d.sat)
    (hdata : e.data = d.data) (hrest : Emptied d → Emptied e ∧ e.regs = d.regs ∧ e.pending = d.pending) :
    Marking f d0 e out := by
  cases h with
  | due h => exact .due (hsat ▸ h)
  | fresh h hd => exact .fresh h (hdata.trans hd)
  | written he ha hm hs =>
    obtain ⟨he', hr, hp⟩ := hrest he
    exact .written he' (hr ▸ ha) (hp ▸ hm) (hsat ▸ hs)

theorem Marking.of_busy {f : Flush} {e : Defl} {out : List Byte} (h : Marking f d0 d out) (hsat : e.sat = d.sat)
    (hdata : e.data = d.data) (hbusy : ¬Emptied d) : Marking f d0 e out :=
  h.congr hsat hdata fun he => absurd he hbusy

theorem marking_work {f : Flush} (hf : storedMark f) (hs : c.Sound pr) (h : Marking f d0 c.d out) :
    Marking f d0 (deflWork pr f c).c.d out := by
  have hbusy : c.d.phase ≠ .collect → ¬Emptied c.d := fun hp he => hp he.phase
  refine deflWork_cases (motive := fun r => Marking f d0 r.c.d out) ?_ ?_ ?_ ?_ ?_ ?_ ?_
  · exact fun _ _ => h.congr rfl rfl fun he => ⟨he.congr rfl rfl rfl rfl rfl, rfl, rfl⟩
  · exact fun _ _ => h.congr rfl rfl fun he => ⟨he.congr rfl rfl rfl rfl rfl, rfl, rfl⟩
  · intro _ hp
    rw [DeflCtx.cont, headerDone_frame]
    exact h.of_busy rfl rfl (hbusy (by rw [hp]; nofun))
  · intro _ hp
    rw [DeflCtx.cont, symbolsDone_frame]
    exact h.of_busy rfl rfl (hbusy (by rw [hp]; nofun))
  · intro _ hp
    rw [DeflCtx.cont, trailerDone_frame]
    exact h.of_busy rfl rfl (hbusy (by rw [hp]; nofun))
  all_goals
    intro hst hp ht
    obtain ⟨htok, hfull⟩ := h.tokenised (pr := pr) hf
  · exact hfull ht _ rfl rfl
  · refine decideCollect_cases (motive := fun r => Marking f d0 r.c.d out) ?_ ?_ ?_ ?_ ?_ ?_ ?_
    · exact fun _ => htok
    · exact fun _ _ => htok
    · exact fun _ hfin => absurd hfin hf.ne_finish
    · exact fun _ hpart => absurd hpart hf.ne_part
    · exact fun _ _ _ _ _ => htok
    · exact fun _ _ _ hlow _ => .due hlow
    · intro ha hn hfin _ hsyms
      have hsound := tokenised_sound hs.1 hs.2 ht
      have hsat : (completeFlush f (tokenised pr f c).2).sat = flushRank f := by rw [completeFlush_frame]
      refine .written ?_ ?_ ?_ hsat.ge
      · refine (emptied_of_stopped hsound (tokenised_canStep hs.1 ht hs.2) hn ha ((tokenised_phase pr f c).trans hp) hsyms).congr
          ?_ ?_ ?_ ?_ ?_ <;> rw [DeflCtx.cont, completeFlush_frame]
      · rw [DeflCtx.cont, completeFlush_frame]
        exact ha
      · rw [DeflCtx.cont, (completeFlush_bits f _).2.2, marker_pending hf hsound.bits, ← List.append_assoc]
        exact List.suffix_append _ _

theorem loopKeeps_marking {f : Flush} (hf : storedMark f) (d0 : Defl) : LoopKeeps pr f (Marking f d0) where
  take c out h := by
    have hpend := bwTake_pending c
    rw [(bwTake_frame c).1] at hpend ⊢
    cases h with
    | due h => exact .due h
    | fresh h hd => exact .fresh h hd
    | written he ha hm hsat =>
      refine .written (he.congr rfl rfl rfl rfl rfl) ((bwTake_frame c).2.2.1.trans ha) ?_ hsat
      rw [List.append_assoc, hpend, List.take_append_drop]
      exact hm
  work _ _ hs _ _ h := marking_work hf hs h

theorem markerWritten {f : Flush} (hf : storedMark f) : MarkerWritten f := by
  intro s t hi hfin ht hc hdue
  have hs := hi.sound
  have hframe := deflInit_frame s.params s.defl
  have hw := wrote ht
  have hstart : Marking f s.defl (atStart s).d [] := by
    by_cases hlow : s.defl.sat < flushRank f
    · exact .due (by rwa [atStart, hframe])
    · exact .fresh (Nat.not_lt.1 hlow) (by rw [atStart, hframe])
  obtain ⟨hr, e, hin, hrun, hp, -, -, -, -, -, hcond, hwork, hd, hbus⟩ :=
    complete_stops (loopKeeps_marking hf s.defl) hs hi.busInv hfin hf.ne_trees hstart hw hc
  obtain ⟨hsat, -⟩ := hcond.resolve_left hf.ne_none
  obtain ⟨-, k, xs, hm, hmark⟩ := hin.work (loopKeeps_marking hf s.defl) hr hrun hp
  rw [hwork] at hm hmark
  have hm' : Moved ⟨s.defl, s.bus⟩ k xs ⟨t.defl, t.bus⟩ := by
    have hstart : Moved ⟨s.defl, s.bus⟩ 0 [] (atStart s) :=
      .of_same hi.busInv.2 (atStart_regs s) (by rw [atStart, hframe]) rfl
    have hall := (hstart.trans hm (atStart_regs s ▸ hr)).congr (d := t.defl) (by rw [hd]) (by rw [hd])
    rwa [Nat.zero_add, List.nil_append, ← hbus] at hall
  rw [hm'.counts.1] at hdue
  rw [hm'.writtenBytes]
  cases hmark with
  | due h => exact absurd hsat (Nat.not_le.2 h)
  | fresh h hdata =>
    have hk : k = 0 := by
      have hlen := congrArg List.length (hm'.data.symm.trans ((congrArg Defl.data hd).trans hdata))
      simpa [bytesAt] using hlen
    exact absurd hdue (by simp [hk, h])
  | written _ _ hm _ =>
    rwa [(tokenised_bits s.params f e).2.2, hp, List.append_nil] at hm

end

end

end Sys2Proof.Machine

open Sys2Proof Sys2Proof.Machine

/-- Settles O22: after a `sync` or a `full` nothing is left to do until there is more input, all along a run; and inside a call,
once the marker is written it ends what was written. -/
theorem syncAndFullAlign : Obligations.SyncAndFullAlign :=
  ⟨alignedFlush (.inl rfl), alignedFlush (.inr rfl), markerWritten (.inl rfl), markerWritten (.inr rfl)⟩

end

section
/-! PROOFS. Streams of blocks (R372): what a list of tokens expands to on top of what was decoded before it (R143 to R145, R495 to
R497), what a planned block codes, and the bits of one block after another. -/

namespace Sys2Proof.Machine

/-! ## Expanding tokens -/

/-- The bytes a match copies from the end of what is decoded: a match may reach into itself (R497). -/
def copyOf (y : List Byte) (len dist : Nat) : List Byte := (List.range len).map fun m => y.getD (y.length - dist + m % dist) 0

@[simp] theorem copyOf_length (y : List Byte) (len dist : Nat) : (copyOf y len dist).length = len := by simp [copyOf]

/-- After `y`, with a window of `w` bytes, the tokens decode to all of `z`. -/
inductive Expands (w : Nat) : List Byte → List Token → List Byte → Prop
  | nil (y : List Byte) : Expands w y [] y
  | lit {y z : List Byte} {ts : List Token} (b : Byte) (h : Expands w (y ++ [b]) ts z) : Expands w y (.lit b :: ts) z
  | mat {y z : List Byte} {ts : List Token} {len dist : Nat} (hlo : 3 ≤ len) (hhi : len ≤ 258) (h1 : 1 ≤ dist)
      (hy : dist ≤ y.length) (hw : dist ≤ w) (h : Expands w (y ++ copyOf y len dist) ts z) : Expands w y (.mat len dist :: ts) z

/-! ## What a block codes -/

/-- The code description of a block is the plan for its tokens (R348). -/
structure Planned (b : Blk) : Prop where
  ll : b.llLens = hbBuild (llFreq b.toks) 15
  d : b.dLens = hbBuild (dFreq b.toks) 15
  hlit : b.hlit = trimTo b.llLens 257 286
  hdist : b.hdist = trimTo b.dLens 1 30
  rl : b.rl = hbRle (b.llLens.take b.hlit) ++ hbRle (b.dLens.take b.hdist)
  cl : b.clLens = hbBuild (clFreq b.rl) 7
  hclen : b.hclen = hclenOf b.clLens

/-- After `y` the block codes the rest of `z`. -/
structure BlkOf (w : Nat) (y : List Byte) (b : Blk) (z : List Byte) : Prop where
  inv : b.Inv
  stored : b.typ = .stored → z = y ++ b.raw
  coded : b.typ ≠ .stored → Expands w y b.toks z
  planned : b.typ = .dynamic → Planned b

/-- The bits of a block that starts `p` bits into the stream (R352, R354). -/
def headerBits (p : Nat) (b : Blk) : List Bool := [b.final] ++ bitsOf 2 (blockTypeNum b.typ) ++ headerRest p b

def blkBits (p : Nat) (b : Blk) : List Bool := headerBits p b ++ symbolBits b

/-- Only the place in the byte matters. -/
theorem headerBits_mod {p q : Nat} (h : p % 8 = q % 8) (b : Blk) : headerBits p b = headerBits q b := by
  have h3 : (p + 3) % 8 = (q + 3) % 8 := by omega
  unfold headerBits headerRest
  rw [h3]

theorem blkBits_mod {p q : Nat} (h : p % 8 = q % 8) (b : Blk) : blkBits p b = blkBits q b := by
  rw [blkBits, blkBits, headerBits_mod h]

/-- Blocks that are not final, one after another: their bits, and what they code. -/
inductive Coded (w : Nat) : List Bool → List Byte → Prop
  | nil : Coded w [] []
  | snoc {bits : List Bool} {y z : List Byte} {b : Blk} (h : Coded w bits y) (hb : BlkOf w y b z) (hf : b.final = false) :
      Coded w (bits ++ blkBits bits.length b) z

/-- The same, with the last block known. -/
def CodedTo (w : Nat) (bits : List Bool) (z : List Byte) (b : Blk) : Prop :=
  (bits = [] ∧ z = []) ∨
    ∃ before y, bits = before ++ blkBits before.length b ∧ Coded w before y ∧ BlkOf w y b z ∧ b.final = false

theorem CodedTo.coded {w : Nat} {bits : List Bool} {z : List Byte} {b : Blk} (h : CodedTo w bits z b) : Coded w bits z := by
  rcases h with ⟨rfl, rfl⟩ | ⟨before, y, rfl, hc, hb, hf⟩
  · exact .nil
  · exact .snoc hc hb hf

/-! ## Tokens of the source expand to the source (R290, R291) -/

section
variable {d : Defl} {base p : Nat}

/-- The source from `base` up to `n`. -/
def srcTo (d : Defl) (base n : Nat) : List Byte := (d.data.take n).drop base

theorem srcTo_length (hn : n ≤ dataEnd d) : (srcTo d base n).length = n - base := by
  rw [srcTo, List.length_drop, List.length_take_of_le hn]

theorem srcTo_self (d : Defl) (base : Nat) : srcTo d base base = [] := by
  simp [srcTo]

theorem srcTo_getD {j n : Nat} (h : base + j < n) : (srcTo d base n).getD j 0 = d.data.getD (base + j) 0 := by
  simp [srcTo, List.getD_eq_getElem?_getD, h]

/-- The `k` bytes of the source from `n` on. -/
def srcRun (d : Defl) (n k : Nat) : List Byte := (List.range k).map fun j => d.data.getD (n + j) 0

theorem srcRun_eq {n k : Nat} (hn : n + k ≤ dataEnd d) : srcRun d n k = (d.data.drop n).take k := by
  have hlen : n + k ≤ d.data.length := hn
  refine List.ext_getElem (by simp [srcRun]; omega) fun i hi hi' => ?_
  simp only [srcRun, List.length_map, List.length_range] at hi
  simp [srcRun, List.getElem_take, List.getElem_drop, List.getElem?_eq_getElem (show n + i < d.data.length by omega)]

theorem srcTo_add {n k : Nat} (hb : base ≤ n) (hn : n + k ≤ dataEnd d) :
    srcTo d base (n + k) = srcTo d base n ++ srcRun d n k := by
  have hlen : base ≤ (d.data.take n).length := by
    rw [List.length_take_of_le (le_trans (Nat.le_add_right n k) hn)]
    exact hb
  rw [srcRun_eq hn, srcTo, srcTo, List.take_add, List.drop_append_of_le_length hlen]

/-- What does not end past `n` does not change when the source grows. -/
theorem srcTo_append {e : Defl} {n : Nat} {xs : List Byte} (h : e.data = d.data ++ xs) (hn : n ≤ dataEnd d) :
    srcTo e base n = srcTo d base n := by
  rw [srcTo, srcTo, h, List.take_append_of_le_length hn]

/-- A byte of a valid match is the byte as many places back, and so, time and again, one of the `dist` bytes before it. -/
theorem data_of_validMatch {len dist j : Nat} (h : validMatch d p len dist) (hj : j < len) :
    d.data.getD (p + j) 0 = d.data.getD (p - dist + j % dist) 0 := by
  obtain ⟨-, -, h1, hbase, -, -, hsame⟩ := h
  have hback : ∀ i, i < len → d.data.getD (p + i) 0 = d.data.getD (p - dist + i) 0 := fun i hi => by
    rw [List.getD_eq_getElem?_getD, List.getD_eq_getElem?_getD, hsame i hi]
  induction j using Nat.strong_induction_on with
  | _ j ih =>
    rw [hback j hj]
    by_cases hlt : j < dist
    · rw [Nat.mod_eq_of_lt hlt]
    · have hmod : j % dist = (j - dist) % dist := Nat.mod_eq_sub_mod (Nat.not_lt.1 hlt)
      have hplace : p - dist + j = p + (j - dist) := by omega
      rw [hplace, hmod]
      exact ih (j - dist) (by omega) (by omega)

/-- A valid match copies the source. -/
theorem copyOf_of_validMatch {len dist : Nat} (h : validMatch d p len dist) (hp : base ≤ p) (hb : base ≤ d.histBase) :
    copyOf (srcTo d base p) len dist = srcRun d p len := by
  obtain ⟨-, -, h1, hbase, -, hend, -⟩ := id h
  have hlen := srcTo_length (base := base) (show p ≤ dataEnd d by omega)
  refine List.map_congr_left fun j hj => ?_
  have hmod := Nat.mod_lt j h1
  rw [hlen, srcTo_getD (by omega), data_of_validMatch h (List.mem_range.1 hj)]
  congr 1
  omega

theorem expands_of_validTokens {ts : List Token} (hp : base ≤ p) (hb : base ≤ d.histBase)
    (hend : p + (ts.map tokenLen).sum ≤ dataEnd d) (h : validTokens d p ts) :
    Expands (wsize d.wbits) (srcTo d base p) ts (srcTo d base (p + (ts.map tokenLen).sum)) := by
  induction ts generalizing p with
  | nil => exact .nil _
  | cons t ts ih =>
    simp only [List.map_cons, List.sum_cons, ← Nat.add_assoc] at hend ⊢
    have hs := srcTo_add hp (show p + tokenLen t ≤ dataEnd d by omega)
    cases t with
    | lit b =>
      simp only [tokenLen] at hs hend ⊢
      obtain ⟨hbyte, hrest⟩ := h
      have hrun : srcRun d p 1 = [b] := by simp [srcRun, hbyte]
      have := ih (by omega) hend hrest
      rw [hs, hrun] at this
      exact .lit b this
    | mat len dist =>
      simp only [tokenLen] at hs hend ⊢
      obtain ⟨hv, hrest⟩ := h
      have hcopy := copyOf_of_validMatch hv hp hb
      have := ih (by omega) hend hrest
      rw [hs, ← hcopy] at this
      obtain ⟨hlo, hhi, h1, hbase, hw, hlast, -⟩ := hv
      refine .mat hlo hhi h1 ?_ hw this
      rw [srcTo_length (by omega)]
      omega

end

end Sys2Proof.Machine
end

section
/-! PROOFS. The matcher's promises along a run (R290, R305): tokenising, input and the end of a block keep them, so that a planned
block codes its part of the source. -/

namespace Sys2Proof.Machine

section
variable {pr : Params} {d e : Defl} {c : DeflCtx} {base : Nat}

/-! ## Tokenising -/

theorem MatcherOk.lzStep (h : MatcherOk d) (hcore : d.Core pr) (ha : 0 < lookahead d ∨ d.deferred.valid = true) :
    MatcherOk (lzStep pr d) := by
  by_cases hlt : d.pos < dataEnd d
  · cases hm : stepMode pr d with
    | literal => exact h.step_literal hcore hlt hm
    | greedy => exact h.step_greedy hcore hlt hm
    | lazy =>
      cases hd : d.deferred.valid with
      | false => exact h.step_lazyFresh hcore hlt hm hd
      | true => exact h.step_lazyDeferred hcore hlt hd
  · have hla : lookahead d = 0 := Nat.sub_eq_zero_of_le (Nat.not_lt.1 hlt)
    exact h.step_atEnd hcore (Nat.not_lt.1 hlt) (ha.resolve_left (by omega))

theorem MatcherOk.tokenise (f : Flush) (n : Nat) (h : MatcherOk d) (hs : d.Sound pr) :
    MatcherOk (tokenise pr f n d).2 := by
  induction n generalizing d with
  | zero => exact h
  | succ n ih =>
    simp only [Machine.tokenise]
    split_ifs with hcan hfull
    · exact h.lzStep hs.toCore (canStep_ahead hcan)
    · exact ih (h.lzStep hs.toCore (canStep_ahead hcan))
        ((lzStep_full hs).toCore.sound_of_not_full (Bool.eq_false_iff.2 hfull))
    · exact h

/-! ## More input -/

/-- `e` is `d` with more of the source. -/
structure Grown (d e : Defl) : Prop where
  frame : e = { d with regs := e.regs, data := e.data, check := e.check, isize := e.isize, sat := e.sat }
  data : ∃ xs, e.data = d.data ++ xs

theorem grown_acceptLoop (k : Nat) (c : DeflCtx) : ∃ xs, (acceptLoop k c).d.data = c.d.data ++ xs := by
  induction k generalizing c with
  | zero => exact ⟨[], (List.append_nil _).symm⟩
  | succ k ih =>
    obtain ⟨xs, h⟩ := ih (acceptByte c)
    exact ⟨_, h.trans ((congrArg (· ++ xs) (acceptByte_d_data c)).trans (List.append_assoc _ _ _))⟩

theorem grown_accept (c : DeflCtx) : Grown c.d (accept c).d := by
  refine ⟨?_, ?_⟩
  · have h := accept_frame_d c
    generalize (accept c).d = e at *
    rw [h]
  · have hdata : (accept c).d.data = (acceptLoop (acceptCount c.d) c).d.data := by
      simp only [accept]
      split_ifs <;> rfl
    rw [hdata]
    exact grown_acceptLoop _ c

theorem Grown.dataEnd_le (h : Grown d e) : dataEnd d ≤ dataEnd e := by
  obtain ⟨xs, hx⟩ := h.data
  simp [dataEnd, hx]

theorem Grown.getElem? (h : Grown d e) {i : Nat} (hi : i < dataEnd d) : e.data[i]? = d.data[i]? := by
  obtain ⟨xs, hx⟩ := h.data
  rw [hx, List.getElem?_append_left hi]

theorem Grown.validMatch (h : Grown d e) {p len dist : Nat} (hv : validMatch d p len dist) : validMatch e p len dist := by
  obtain ⟨hlo, hhi, h1, hbase, hw, hend, hsame⟩ := hv
  have hhist : e.histBase = d.histBase := by rw [h.frame]
  have hwb : e.wbits = d.wbits := by rw [h.frame]
  refine ⟨hlo, hhi, h1, hhist ▸ hbase, hwb ▸ hw, hend.trans h.dataEnd_le, fun i hi => ?_⟩
  rw [h.getElem? (by omega), h.getElem? (by omega)]
  exact hsame i hi

theorem Grown.validTokens (h : Grown d e) {p : Nat} {ts : List Token} (hv : validTokens d p ts) : validTokens e p ts := by
  induction ts generalizing p with
  | nil => trivial
  | cons t ts ih =>
    cases t with
    | lit b =>
      obtain ⟨hb, hrest⟩ := hv
      obtain ⟨hlt, -⟩ := List.getElem?_eq_some_iff.1 hb
      exact ⟨(h.getElem? hlt).trans hb, ih hrest⟩
    | mat len dist =>
      obtain ⟨hm, hrest⟩ := hv
      exact ⟨h.validMatch hm, ih hrest⟩

theorem MatcherOk.grown (hm : MatcherOk d) (h : Grown d e) : MatcherOk e := by
  obtain ⟨hchain, hbase, htoks, hdef⟩ := hm
  have hv : Machine.validTokens e d.blockStart d.syms := h.validTokens htoks
  have hdef' : d.deferred.valid = true → Machine.validMatch e (d.pos - 1) d.deferred.len d.deferred.dist :=
    fun hd => h.validMatch (hdef hd)
  rw [h.frame] at hv hdef' ⊢
  exact ⟨hchain, hbase, hv, hdef'⟩

theorem matcherOk_tokenised {f : Flush} (h : MatcherOk c.d) (hs : c.Sound pr) : MatcherOk (tokenised pr f c).2 :=
  (h.grown (grown_accept c)).tokenise f _ (accept_sound hs).1

/-! ## The end of a block -/

theorem MatcherOk.closeBlock (h : MatcherOk d) (hd : d.CursorInv) (final : Bool) : MatcherOk (closeBlock pr final d) := by
  obtain ⟨hchain, hbase, -, hdef⟩ := h
  obtain ⟨hsum, -⟩ := hd
  have hle : d.histBase ≤ d.emitPos := by omega
  exact ⟨hchain, hle, trivial, hdef⟩

theorem validTokens_congr (hdata : e.data = d.data) (hbase : e.histBase = d.histBase) (hwb : e.wbits = d.wbits) {p : Nat}
    {ts : List Token} (h : validTokens d p ts) : validTokens e p ts := by
  induction ts generalizing p with
  | nil => trivial
  | cons t ts ih =>
    cases t with
    | lit b => exact ⟨hdata ▸ h.1, ih h.2⟩
    | mat len dist =>
      refine ⟨?_, ih h.2⟩
      have hm := h.1
      simp only [validMatch, dataEnd] at hm ⊢
      rwa [hdata, hbase, hwb]

/-- What keeps the matcher's promises: the writer, the stream parameters, the stage and the plan are not looked at. -/
theorem MatcherOk.congr (h : MatcherOk d) (he : e = { d with
    regs := e.regs, ec := e.ec, sticky := e.sticky, stage := e.stage, phase := e.phase, finishing := e.finishing
    sat := e.sat, blk := e.blk, bitBuf := e.bitBuf, bitCnt := e.bitCnt, pending := e.pending }) : MatcherOk e := by
  obtain ⟨hchain, hbase, htoks, hdef⟩ := h
  have ht : validTokens e d.blockStart d.syms := validTokens_congr (by rw [he]) (by rw [he]) (by rw [he]) htoks
  rw [he] at ht ⊢
  exact ⟨hchain, hbase, ht, hdef⟩

theorem chainsBelow_clear (h : chainsBelow d) : chainsBelow (lzClear d) := by
  obtain ⟨hle, -, hprev⟩ := h
  exact ⟨le_rfl, fun _ _ hq => (nomatch hq), fun k q hq => (hprev k q hq).trans_le hle⟩

/-- `LZ.CLEAR` where nothing is open: no match can reach back before it. -/
theorem MatcherOk.lzClear (h : MatcherOk d) (hs : d.syms = []) (hd : d.deferred.valid = false) (hp : d.pos ≤ d.blockStart) :
    MatcherOk (lzClear d) := by
  refine ⟨chainsBelow_clear h.1, hp, ?_, fun hv => absurd (hd.symm.trans hv) nofun⟩
  have hsyms : (Machine.lzClear d).syms = [] := hs
  rw [hsyms]
  trivial

/-! ## A planned block codes its part of the source (R398 to R401) -/

theorem planned_hbPlan (toks : List Token) (b : Blk) (final : Bool) (typ : BlockType) (raw : List Byte) :
    Planned { hbPlan toks b with final, typ, toks, raw } := by
  have ll := hbPlan_llLens toks b
  have d := hbPlan_dLens toks b
  have hlit := hbPlan_hlit toks b
  have hdist := hbPlan_hdist toks b
  have rl := hbPlan_rl toks b
  have cl := hbPlan_clLens toks b
  have hclen := hbPlan_hclen toks b
  generalize hbPlan toks b = p at *
  exact { ll, d, hlit, hdist, rl, cl, hclen }

theorem planned_closeBlock (pr : Params) (final : Bool) (d : Defl) : Planned (closeBlock pr final d).blk :=
  planned_hbPlan d.syms d.blk final _ _

theorem blockRaw_eq (hd : d.CursorInv) : blockRaw d = srcRun d d.blockStart (blockSpan d) := by
  obtain ⟨hsum, hpos, hle, -⟩ := hd
  exact (srcRun_eq (by unfold blockSpan; omega)).symm

theorem blkOf_closeBlock (h : MatcherOk d) (hf : d.Full pr) (hb : base ≤ d.histBase) (final : Bool) :
    BlkOf (wsize d.wbits) (srcTo d base d.blockStart) (closeBlock pr final d).blk (srcTo d base d.emitPos) := by
  obtain ⟨hsum, hpos, hle, -⟩ := id hf.cursor
  obtain ⟨-, hbase, htoks, -⟩ := h
  refine ⟨closeBlock_blk_inv hf final, fun ht => ?_, fun _ => ?_, fun _ => planned_closeBlock pr final d⟩
  · have hraw : (closeBlock pr final d).blk.raw = blockRaw d := if_pos ht
    have hspan : d.emitPos = d.blockStart + blockSpan d := by unfold blockSpan; omega
    rw [hraw, blockRaw_eq hf.cursor, ← srcTo_add (hb.trans hbase) (by omega), ← hspan]
  · have := expands_of_validTokens (hb.trans hbase) hb (by omega) htoks
    rwa [hsum] at this

end

end Sys2Proof.Machine
end

section
/-! PROOFS. What a run of `DEFL` has written (R372): a beginning, and behind it blocks that code the source up to the open block, all
along the work loop; at the end the padding and the trailer. -/

namespace Sys2Proof.Machine

/-! ## Markers are blocks (R404) -/

section
variable {pr : Params} {d e : Defl} {c : DeflCtx} {f : Flush} {base w : Nat}

/-- The modes that write a marker. -/
def marks (f : Flush) : Prop := f = .part ∨ f = .sync ∨ f = .full

theorem marker_of_not_marks (h : ¬marks f) (d : Defl) : marker f d = d ∧ markerBlock f d.blk = d.blk := by
  cases f with
  | part => exact absurd (.inl rfl) h
  | sync => exact absurd (.inr (.inl rfl)) h
  | full => exact absurd (.inr (.inr rfl)) h
  | none | block | finish | trees => exact ⟨rfl, rfl⟩

theorem fixedEob : blockBits fixLl fixD [] = List.replicate 7 false := by decide +kernel

theorem markerBlock_headerBits_stored (h : f = .sync ∨ f = .full) {b : Blk} (hb : b.final = false) (p : Nat) :
    blkBits p (markerBlock f b) = bitsOf 3 0 ++ List.replicate ((8 - (p + 3) % 8) % 8) false ++ bitsOf 16 0 ++ bitsOf 16 65535 := by
  have h3 : bitsOf 3 0 = [false] ++ bitsOf 2 0 := rfl
  rw [h3]
  rcases h with rfl | rfl <;> simp [blkBits, headerBits, headerRest, symbolBits, markerBlock, hb, blockTypeNum]

/-- A marker appends the bits of its block. -/
theorem appended_marker (h : marks f) (hb : d.BitsOk) (hf : d.blk.final = false) :
    Appended d (blkBits d.bitCnt (markerBlock f d.blk)) (marker f d) := by
  have hstored : ∀ g, (g = .sync ∨ g = .full) → Appended d (blkBits d.bitCnt (markerBlock g d.blk)) (marker g d) := by
    intro g hg
    have hcnt : (bwPut 0 3 d).bitCnt = (d.bitCnt + 3) % 8 := bwPut_bitCnt 0 3 d
    have happ := ((((Appended.refl hb).bwPut (v := 0) (n := 3) (by decide)).bwAlign).bwPut (v := 0) (n := 16) (by decide)).bwPut
      (v := 65535) (n := 16) (by decide)
    rw [hcnt] at happ
    rw [markerBlock_headerBits_stored hg hf, marker_stored hg]
    exact happ
  rcases h with rfl | h
  · have happ := ((Appended.refl hb).bwPut (v := 2) (n := 3) (by decide)).bwPut (v := revBits 7 0) (n := 7) (revBits_lt 7 0)
    have hbits : blkBits d.bitCnt (markerBlock .part d.blk) = [] ++ bitsOf 3 2 ++ bitsOf 7 (revBits 7 0) := by
      simp only [blkBits, headerBits, headerRest, symbolBits, markerBlock, hf, blockTypeNum, fixedEob]
      rfl
    rw [hbits]
    exact happ
  · exact hstored f h

theorem blkOf_marker (h : marks f) {b : Blk} (hb : b.Inv) (y : List Byte) : BlkOf w y (markerBlock f b) y where
  inv := hb.marker f
  stored ht := by
    rcases h with rfl | rfl | rfl
    · cases ht
    · exact (List.append_nil y).symm
    · exact (List.append_nil y).symm
  coded ht := by
    rcases h with rfl | rfl | rfl
    · exact .nil y
    · exact absurd rfl ht
    · exact absurd rfl ht
  planned ht := by rcases h with rfl | rfl | rfl <;> cases ht

/-! ## The invariant -/

/-- The bits of all a run has written, out and in hand. -/
def allBits (d : Defl) (out : List Byte) : List Bool := streamBits out ++ writtenBits d

/-- Between blocks: `pre`, and blocks that code the source from `base` up to the open block. -/
def Between (pre : List Bool) (base : Nat) (d : Defl) (out : List Byte) : Prop :=
  ∃ bits, allBits d out = pre ++ bits ∧ CodedTo (wsize d.wbits) bits (srcTo d base d.blockStart) d.blk

/-- Where the output stands: `pre`, and behind it blocks that code the source from `base` on. -/
inductive Standing (pre : List Bool) (base : Nat) (d : Defl) (out : List Byte) : Prop
  | collecting (hp : d.phase = .collect) (hf : d.finishing = false) (h : Between pre base d out)
  | planned (hp : d.phase = .blkHeader) {bits : List Bool} {y : List Byte} (he : allBits d out = pre ++ bits)
      (hc : Coded (wsize d.wbits) bits y) (hb : BlkOf (wsize d.wbits) y d.blk (srcTo d base d.blockStart))
      (hl : d.blk.final = true → d.blockStart = dataEnd d)
  | headed (hp : d.phase = .blkSymbols) {bits : List Bool} {y : List Byte}
      (he : allBits d out = pre ++ (bits ++ headerBits bits.length d.blk))
      (hc : Coded (wsize d.wbits) bits y) (hb : BlkOf (wsize d.wbits) y d.blk (srcTo d base d.blockStart))
      (hl : d.blk.final = true → d.blockStart = dataEnd d)
  | last (hp : d.phase = .trailer) {bits : List Bool} {y : List Byte}
      (he : allBits d out = pre ++ (bits ++ blkBits bits.length d.blk))
      (hc : Coded (wsize d.wbits) bits y) (hb : BlkOf (wsize d.wbits) y d.blk (srcTo d base d.blockStart))
      (hf : d.blk.final = true) (hl : d.blockStart = dataEnd d)
  | ended (hs : d.stage = .flushPending ∨ d.stage = .done) (hp : d.phase = .collect) (hf : d.finishing = true)
      (h0 : d.bitCnt = 0) (hq : d.stage = .done → d.pending = []) {bits : List Bool} {y : List Byte}
      (he : allBits d out = pre ++ (bits ++ blkBits bits.length d.blk ++
        List.replicate ((8 - (bits ++ blkBits bits.length d.blk).length % 8) % 8) false ++
          streamBits (trailerBytes d.wrap d.check d.isize)))
      (hc : Coded (wsize d.wbits) bits y) (hb : BlkOf (wsize d.wbits) y d.blk (srcTo d base d.blockStart))
      (hbf : d.blk.final = true) (hl : d.blockStart = dataEnd d)

/-- The invariant: the matcher has kept its promises, no match reaches back before `base`, and the output stands somewhere. -/
structure Encodes (pre : List Bool) (base : Nat) (d : Defl) (out : List Byte) : Prop where
  matcher : MatcherOk d
  base_le : base ≤ d.histBase
  standing : Standing pre base d out

variable {pre bits : List Bool} {out : List Byte}

/-- The number of bits in hand is what the bits behind a run of whole bytes leave beyond whole bytes. -/
theorem bitCnt_of_allBits (hd : d.BitsOk) (h8 : pre.length % 8 = 0) (he : allBits d out = pre ++ bits) :
    d.bitCnt = bits.length % 8 := by
  have hmod := writtenBits_length_mod hd.1
  have hlen := congrArg List.length he
  simp only [allBits, List.length_append, streamBits_length] at hlen
  omega

theorem allBits_append {bits' : List Bool} (h : Appended d bits' e) (he : allBits d out = pre ++ bits) :
    allBits e out = pre ++ (bits ++ bits') := by
  rw [allBits, h.written, ← List.append_assoc, ← allBits, he, List.append_assoc]

theorem Appended.headerDone (hd : d.blk.Inv) (hb : d.BitsOk) : Appended d (headerBits d.bitCnt d.blk) (headerDone d) :=
  have h := appended_hbEmitHeader hd hb
  ⟨h.ok, h.written⟩

theorem Appended.symbolsDone (hd : d.blk.Inv) (hb : d.BitsOk) : Appended d (symbolBits d.blk) (symbolsDone d) :=
  have h := appended_hbEmitSymbols hd hb
  ⟨h.ok, h.written⟩

/-! ## Every piece of work keeps it -/

theorem Encodes.headerDone (h8 : pre.length % 8 = 0) (hs : d.Sound pr) (hp : d.phase = .blkHeader) (h : Encodes pre base d out) :
    Encodes pre base (headerDone d) out := by
  obtain ⟨hm, hb, hst⟩ := h
  have hframe := headerDone_frame d
  refine ⟨hm.congr (by rw [hframe]), by rwa [hframe], ?_⟩
  cases hst with
  | planned _ he hc hblk hl =>
    have hcnt := bitCnt_of_allBits hs.bits h8 he
    have happ := allBits_append (Appended.headerDone hs.blk hs.bits) he
    rw [hcnt, headerBits_mod (Nat.mod_mod _ _)] at happ
    rw [hframe] at happ ⊢
    exact .headed rfl happ hc hblk hl
  | collecting hp' | headed hp' | last hp' | ended _ hp' => exact absurd (hp.symm.trans hp') nofun

theorem Encodes.symbolsDone (hs : d.Sound pr) (hp : d.phase = .blkSymbols) (h : Encodes pre base d out) :
    Encodes pre base (symbolsDone d) out := by
  obtain ⟨hm, hb, hst⟩ := h
  have hframe := symbolsDone_frame d
  obtain ⟨-, -, -, -, -, hfin⟩ := hs.stage
  refine ⟨hm.congr (by rw [hframe]), by rwa [hframe], ?_⟩
  cases hst with
  | headed _ he hc hblk hl =>
    have happ := allBits_append (Appended.symbolsDone hs.blk hs.bits) he
    rw [List.append_assoc, ← blkBits] at happ
    rw [hframe] at happ ⊢
    cases hf : d.blk.final with
    | true => exact .last rfl happ hc hblk hf (hl hf)
    | false => exact .collecting rfl (hfin.symm.trans hf) ⟨_, happ, .inr ⟨_, _, rfl, hc, hblk, hf⟩⟩
  | collecting hp' | planned hp' | last hp' | ended _ hp' => exact absurd (hp.symm.trans hp') nofun

theorem Encodes.trailerDone (h8 : pre.length % 8 = 0) (hs : d.Sound pr) (hp : d.phase = .trailer) (h : Encodes pre base d out) :
    Encodes pre base (trailerDone d) out := by
  obtain ⟨hm, hb, hst⟩ := h
  have hframe := trailerDone_frame d
  obtain ⟨-, -, -, -, htrailer, -⟩ := hs.stage
  refine ⟨hm.congr (by rw [hframe]), by rwa [hframe], ?_⟩
  cases hst with
  | last _ he hc hblk hf hl =>
    have hcnt := bitCnt_of_allBits hs.bits h8 he
    have h0 := trailerDone_bitCnt d
    have htrailed := writtenBits_trailer d hs.bits
    rw [hcnt] at htrailed
    have he' := congrArg (streamBits out ++ ·) htrailed
    simp only [← List.append_assoc] at he'
    rw [← allBits, ← allBits, he] at he'
    rw [hframe] at h0 he' ⊢
    refine .ended (.inl rfl) rfl ((htrailer hp)) h0 nofun (he'.trans ?_) hc hblk hf hl
    simp only [List.append_assoc]
  | collecting hp' | planned hp' | headed hp' | ended _ hp' => exact absurd (hp.symm.trans hp') nofun

/-! ## Collecting -/

/-- In stage `body` and phase `collect` the last block is still to come. -/
theorem Encodes.between (hs : d.Sound pr) (hr : d.running) (hst : d.stage ≠ .flushPending) (hp : d.phase = .collect)
    (h : Encodes pre base d out) : Between pre base d out ∧ d.finishing = false := by
  obtain ⟨-, -, -, hbody, -, -⟩ := hs.stage
  have hb := hr.resolve_right hst
  cases h.standing with
  | collecting _ hf hbetween => exact ⟨hbetween, hf⟩
  | planned hp' | headed hp' | last hp' => exact absurd (hp.symm.trans hp') nofun
  | ended hs' => rcases hs' with hs' | hs' <;> exact absurd (hb.symm.trans hs') nofun

theorem tokenised_wbits (pr : Params) (f : Flush) (c : DeflCtx) : (tokenised pr f c).2.wbits = c.d.wbits := by
  rw [onlyTokens_tokenised pr f c, accept_frame_d]

theorem tokenised_histBase (pr : Params) (f : Flush) (c : DeflCtx) : (tokenised pr f c).2.histBase = c.d.histBase := by
  rw [onlyTokens_tokenised pr f c, accept_frame_d]

theorem tokenised_blockStart (pr : Params) (f : Flush) (c : DeflCtx) : (tokenised pr f c).2.blockStart = c.d.blockStart := by
  rw [onlyTokens_tokenised pr f c, accept_frame_d]

theorem tokenised_grown (pr : Params) (f : Flush) (c : DeflCtx) : ∃ xs, (tokenised pr f c).2.data = c.d.data ++ xs := by
  obtain ⟨xs, h⟩ := (grown_accept c).data
  have ht := onlyTokens_tokenised pr f c
  exact ⟨xs, by rw [ht]; exact h⟩

theorem blockStart_le_dataEnd (hd : d.CursorInv) : d.blockStart ≤ dataEnd d := by
  obtain ⟨hsum, hpos, hle, -⟩ := hd
  omega

theorem Between.tokenised (hs : c.d.Sound pr) (h : Between pre base c.d out) : Between pre base (tokenised pr f c).2 out := by
  obtain ⟨bits, he, hc⟩ := h
  obtain ⟨xs, hdata⟩ := tokenised_grown pr f c
  obtain ⟨hcnt, hbuf, hpend⟩ := tokenised_bits pr f c
  refine ⟨bits, ?_, ?_⟩
  · rwa [allBits, writtenBits, hcnt, hbuf, hpend]
  · rwa [tokenised_wbits, tokenised_blockStart, tokenised_blk, srcTo_append hdata (blockStart_le_dataEnd hs.cursor)]

/-- A block is planned for what is open. -/
theorem encodes_closeBlock (hm : MatcherOk d) (hb : base ≤ d.histBase) (hf : d.Full pr) (h : Between pre base d out)
    (final fin : Bool) (hl : final = true → d.emitPos = dataEnd d) :
    Encodes pre base { closeBlock pr final d with finishing := fin } out := by
  obtain ⟨bits, he, hc⟩ := h
  exact ⟨(hm.closeBlock hf.cursor final).congr rfl, hb, .planned rfl he hc.coded (blkOf_closeBlock hm hf hb final) hl⟩

theorem Between.writeMarker (h8 : pre.length % 8 = 0) (hs : d.Sound pr) (hf : d.finishing = false) (h : Between pre base d out) :
    Between pre base (writeMarker f d) out := by
  by_cases hmark : marks f
  · obtain ⟨bits, he, hc⟩ := h
    obtain ⟨-, -, -, -, -, hfin⟩ := hs.stage
    have happ := appended_marker hmark hs.bits (hfin.trans hf)
    have hcnt := bitCnt_of_allBits hs.bits h8 he
    have he' := allBits_append (e := Machine.writeMarker f d) ⟨happ.ok, happ.written⟩ he
    rw [hcnt, blkBits_mod (Nat.mod_mod _ _)] at he'
    rw [writeMarker_frame] at he' ⊢
    exact ⟨_, he', .inr ⟨_, _, rfl, hc.coded, blkOf_marker hmark hs.blk _, (markerBlock_final f d.blk).trans (hfin.trans hf)⟩⟩
  · obtain ⟨hd, hblk⟩ := marker_of_not_marks hmark d
    have : Machine.writeMarker f d = d := by rw [Machine.writeMarker, hd, hblk]
    rwa [this]

theorem Between.congr (h : Between pre base d out) (hw : writtenBits e = writtenBits d) (hwb : e.wbits = d.wbits)
    (hdata : e.data = d.data) (hbs : e.blockStart = d.blockStart) (hblk : e.blk = d.blk) : Between pre base e out := by
  obtain ⟨bits, he, hc⟩ := h
  exact ⟨bits, by rwa [allBits, hw], by rwa [hwb, srcTo, hdata, hbs, hblk]⟩

theorem matcherOk_completeFlush (hm : MatcherOk d) (hd : d.CursorInv) (hsyms : d.syms = []) (hdef : d.deferred.valid = false) :
    MatcherOk (completeFlush f d) := by
  have hmark : MatcherOk (writeMarker f d) := hm.congr (by rw [writeMarker_frame])
  have hpos : (writeMarker f d).pos ≤ (writeMarker f d).blockStart := by
    obtain ⟨hsum, hcur, -⟩ := hd
    rw [hsyms] at hsum
    rw [hdef] at hcur
    rw [writeMarker_frame]
    simp at hsum hcur ⊢
    omega
  unfold completeFlush
  simp only
  split_ifs
  · exact (hmark.lzClear (by rw [writeMarker_frame]; exact hsyms) (by rw [writeMarker_frame]; exact hdef) hpos).congr rfl
  · exact hmark.congr rfl

theorem le_completeFlush_histBase (h : d.histBase ≤ d.pos) : d.histBase ≤ (completeFlush f d).histBase := by
  by_cases hf : f = .full
  · rw [hf, completeFlush_histBase]
    exact h
  · have hbase : (completeFlush f d).histBase = (writeMarker f d).histBase := by
      simp only [completeFlush, if_neg hf]
    rw [hbase, writeMarker_frame]

theorem writtenBits_completeFlush (f : Flush) (d : Defl) : writtenBits (completeFlush f d) = writtenBits (writeMarker f d) := by
  obtain ⟨hcnt, hbuf, hpend⟩ := completeFlush_bits f d
  rw [writtenBits, hcnt, hbuf, hpend]
  rfl

/-- The deciding step keeps the invariant. -/
theorem encodes_decide (h8 : pre.length % 8 = 0) (hs : c.d.Sound pr) (hcan : canStep f c.d = false) (hp : c.d.phase = .collect)
    (hf : c.d.finishing = false) (hm : MatcherOk c.d) (hb : base ≤ c.d.histBase) (h : Between pre base c.d out) :
    Encodes pre base (decideCollect pr f c).c.d out := by
  have hsame : Encodes pre base c.d out := ⟨hm, hb, .collecting hp hf h⟩
  refine decideCollect_cases (motive := fun r => Encodes pre base r.c.d out) ?_ ?_ ?_ ?_ ?_ ?_ ?_
  · exact fun _ => hsame
  · exact fun _ _ => hsame
  · intro ha hfin
    obtain ⟨hla, hdef⟩ := lookahead_of_stopped hcan (by rw [hfin]; nofun) ha
    refine encodes_closeBlock hm hb hs.toFull h true true fun _ => ?_
    obtain ⟨-, hcur, hle, -⟩ := hs.cursor
    rw [hdef] at hcur
    simp [lookahead] at hcur hla
    omega
  · intro _ _ _ _
    refine ⟨hm.congr (by rw [DeflCtx.cont, writeMarker_frame]), by rw [DeflCtx.cont, writeMarker_frame]; exact hb, ?_⟩
    exact .collecting (by rw [DeflCtx.cont, writeMarker_frame]; exact hp) (by rw [DeflCtx.cont, writeMarker_frame]; exact hf)
      (h.writeMarker h8 hs hf)
  · exact fun _ _ _ _ _ => hsame
  · exact fun _ _ _ _ _ => encodes_closeBlock hm hb hs.toFull h false _ nofun
  · intro ha hn _ _ hsyms
    obtain ⟨hla, hdef⟩ := lookahead_of_stopped hcan hn ha
    refine ⟨matcherOk_completeFlush hm hs.cursor hsyms hdef, hb.trans (le_completeFlush_histBase ?_), ?_⟩
    · obtain ⟨-, hle, -, -⟩ := hm
      obtain ⟨hsum, hcur, -⟩ := hs.cursor
      omega
    · refine .collecting (by rw [DeflCtx.cont, completeFlush_frame]; exact hp)
        (by rw [DeflCtx.cont, completeFlush_frame]; exact hf) ((h.writeMarker (f := f) h8 hs hf).congr ?_ ?_ ?_ ?_ ?_)
      · exact writtenBits_completeFlush f c.d
      · rw [DeflCtx.cont, completeFlush_frame, writeMarker_frame]
      · rw [DeflCtx.cont, completeFlush_frame, writeMarker_frame]
      · rw [DeflCtx.cont, completeFlush_frame, writeMarker_frame]
      · rw [DeflCtx.cont, completeFlush_frame, writeMarker_frame]

/-! ## Along a run -/

/-- Work keeps the invariant. -/
theorem Encodes.work (h8 : pre.length % 8 = 0) (hs : c.Sound pr) (hr : c.d.running) (hq : c.d.pending = [])
    (h : Encodes pre base c.d out) : Encodes pre base (deflWork pr f c).c.d out := by
  refine deflWork_cases (motive := fun r => Encodes pre base r.c.d out) ?_ ?_ ?_ ?_ ?_ ?_ ?_
  · intro hst hfin
    obtain ⟨hm, hb, hstand⟩ := h
    refine ⟨hm.congr rfl, hb, ?_⟩
    obtain ⟨-, hcollect, -⟩ := hs.1.stage
    cases hstand with
    | ended _ hp hf h0 _ he hc hblk hbf hl => exact .ended (.inr rfl) hp hf h0 (fun _ => hq) he hc hblk hbf hl
    | collecting _ hf => exact absurd (hf.symm.trans hfin) nofun
    | planned hp | headed hp | last hp => exact absurd (hp.symm.trans (hcollect hst)) nofun
  · intro hst hfin
    obtain ⟨hm, hb, hstand⟩ := h
    refine ⟨hm.congr rfl, hb, ?_⟩
    obtain ⟨-, hcollect, -⟩ := hs.1.stage
    cases hstand with
    | collecting hp hf h => exact .collecting hp hf h
    | ended _ _ hf => exact absurd (hf.symm.trans hfin) nofun
    | planned hp | headed hp | last hp => exact absurd (hp.symm.trans (hcollect hst)) nofun
  · exact fun _ hp => h.headerDone h8 hs.1 hp
  · exact fun _ hp => h.symbolsDone hs.1 hp
  · exact fun _ hp => h.trailerDone h8 hs.1 hp
  · intro hst hp ht
    obtain ⟨hbetween, hf⟩ := h.between hs.1 hr hst hp
    exact encodes_closeBlock (matcherOk_tokenised h.matcher hs) (tokenised_histBase pr f c ▸ h.base_le)
      ((tokenise_sound f _ (accept_sound hs).1).1 ht) (hbetween.tokenised hs.1) false _ nofun
  · intro hst hp ht
    obtain ⟨hbetween, hf⟩ := h.between hs.1 hr hst hp
    exact encodes_decide h8 (tokenised_sound hs.1 hs.2 ht) (tokenised_canStep hs.1 ht hs.2) ((tokenised_phase pr f c).trans hp)
      ((tokenised_finishing pr f c).trans hf) (matcherOk_tokenised h.matcher hs) (tokenised_histBase pr f c ▸ h.base_le)
      (hbetween.tokenised hs.1)

theorem allBits_bwTake (c : DeflCtx) (out : List Byte) :
    allBits (bwTake c).d (out ++ c.d.pending.take (takeCount c.d.pending c.d.regs)) = allBits c.d out := by
  rw [allBits, streamBits_append, List.append_assoc, writtenBits_bwTake, ← allBits]

theorem Standing.congr {out' : List Byte} (h : Standing pre base d out) (he : allBits e out' = allBits d out)
    (hframe : e = { d with regs := e.regs, ec := e.ec, sticky := e.sticky, pending := e.pending })
    (hq : d.pending = [] → e.pending = []) : Standing pre base e out' := by
  have hbits : ∀ bits, allBits d out = pre ++ bits → allBits e out' = pre ++ bits := fun _ h => he.trans h
  rw [hframe] at hq hbits ⊢
  cases h with
  | collecting hp hf h =>
    obtain ⟨bits, he, hc⟩ := h
    exact .collecting hp hf ⟨bits, hbits _ he, hc⟩
  | planned hp he hc hb hl => exact .planned hp (hbits _ he) hc hb hl
  | headed hp he hc hb hl => exact .headed hp (hbits _ he) hc hb hl
  | last hp he hc hb hf hl => exact .last hp (hbits _ he) hc hb hf hl
  | ended hs hp hf h0 hpend he hc hb hbf hl => exact .ended hs hp hf h0 (fun h => hq (hpend h)) (hbits _ he) hc hb hbf hl

theorem loopKeeps_encodes (h8 : pre.length % 8 = 0) (f : Flush) : LoopKeeps pr f (Encodes pre base) where
  take c out h := by
    have hframe := (bwTake_frame c).1
    have hst := h.standing.congr (allBits_bwTake c out) (by rw [hframe])
      fun hq => by rw [bwTake_pending, hq]; rfl
    rw [hframe] at hst ⊢
    exact ⟨h.matcher.congr rfl, h.base_le, hst⟩
  work c out hs hr hq h := h.work h8 hs hr hq

theorem running_ne_init (h : d.running) : d.stage ≠ .init := by
  rcases h with h | h <;> rw [h] <;> nofun

theorem deflWork_ne_init (hs : c.Sound pr) (hr : c.d.running) : (deflWork pr f c).c.d.stage ≠ .init := by
  cases hstop : (deflWork pr f c).stopped with
  | false => exact running_ne_init ((deflWork_ok f hs hr).2 hstop)
  | true =>
    rcases deflWork_stopped hstop with ⟨-, -, he⟩ | ⟨-, -, -, -, -, -, he⟩
    · rw [he]
      nofun
    · rw [he]
      show (tokenised pr f c).2.stage ≠ .init
      rw [onlyTokens_tokenised pr f c, accept_frame_d]
      exact running_ne_init hr

/-- What a run keeps once the header is written, or for the rest of a stream. -/
theorem runKeeps_started (pr : Params) (h8 : pre.length % 8 = 0) (base : Nat) :
    RunKeeps pr fun d out => d.stage ≠ .init ∧ Encodes pre base d out where
  loop f := {
    take := fun c out h => ⟨by rw [(bwTake_frame c).1]; exact h.1, (loopKeeps_encodes h8 f (pr := pr)).take c out h.2⟩
    work := fun c out hs hr hq h => ⟨deflWork_ne_init hs hr, h.2.work h8 hs hr hq⟩ }
  outside d out r e x h := ⟨h.1, h.2.matcher.congr rfl, h.2.base_le, h.2.standing.congr rfl rfl id⟩
  init d out _ hd h := absurd hd h.1

/-! ## From a `RESET` on -/

theorem containerHeader_congr (h : e.setup = d.setup) : containerHeader pr e = containerHeader pr d := by
  simp only [Defl.setup, Prod.mk.injEq] at h
  obtain ⟨-, -, hlevel, hwb, -, hstrategy, hwrap⟩ := h
  rw [containerHeader, hwrap, hwb, hstrategy, hlevel]
  rfl

/-- The bits of the header, once it is written (R381). -/
def headBits (pr : Params) (d : Defl) : List Bool := if d.stage = .init then [] else streamBits (containerHeader pr d)

theorem headBits_length_mod (pr : Params) (d : Defl) : (headBits pr d).length % 8 = 0 := by
  unfold headBits
  split_ifs
  · rfl
  · simp

theorem headBits_of_started (h : d.stage ≠ .init) : headBits pr d = streamBits (containerHeader pr d) := if_neg h

theorem headBits_congr (hs : e.setup = d.setup) (hd : d.stage ≠ .init) (he : e.stage ≠ .init) : headBits pr e = headBits pr d := by
  rw [headBits_of_started hd, headBits_of_started he, containerHeader_congr hs]

/-- All along a run from a `RESET`: before the header nothing is written, and the header is followed by blocks. -/
def RunEncodes (pr : Params) (d : Defl) (out : List Byte) : Prop :=
  Encodes (headBits pr d) 0 d out ∧ (d.stage = .init → allBits d out = [])

theorem RunEncodes.init (hs : d.Sound pr) (hd : d.stage = .init) (h : RunEncodes pr d out) :
    RunEncodes pr (deflInit pr d) out := by
  obtain ⟨⟨hm, hb, hst⟩, hnone⟩ := h
  have hempty := hnone hd
  obtain ⟨hphase, hfin⟩ := hs.stage.1 hd
  have hinit := deflInit_of_init (pr := pr) hd
  have hhead : headBits pr (deflInit pr d) = streamBits (containerHeader pr d) := by
    rw [headBits_of_started (running_ne_init (deflInit_running (by rw [hd]; nofun))), containerHeader_congr (deflInit_setup pr d)]
  obtain ⟨hout, hwritten⟩ := List.append_eq_nil_iff.1 hempty
  obtain ⟨hpend, hbits⟩ := List.append_eq_nil_iff.1 hwritten
  have hall : allBits (deflInit pr d) out = streamBits (containerHeader pr d) := by
    rw [hinit]
    simp [allBits, writtenBits, hout, hpend, hbits]
  refine ⟨⟨hm.congr (by rw [hinit]), by rw [hinit]; exact hb, ?_⟩, fun h => absurd h ?_⟩
  · rw [hhead]
    cases hst with
    | collecting hp hf hbetween =>
      obtain ⟨bits, he, hc⟩ := hbetween
      have hbits0 : bits = [] := by
        rw [hempty] at he
        exact (List.append_eq_nil_iff.1 he.symm).2
      rw [hinit] at hall ⊢
      exact .collecting rfl hf ⟨[], hall.trans (List.append_nil _).symm, hbits0 ▸ hc⟩
    | planned hp | headed hp | last hp => exact absurd (hphase.symm.trans hp) nofun
    | ended _ _ hf => exact absurd (hfin.symm.trans hf) nofun
  · exact running_ne_init (deflInit_running (by rw [hd]; nofun))

theorem runKeeps_runEncodes (pr : Params) : RunKeeps pr (RunEncodes pr) where
  loop f := {
    take := fun c out h => by
      have hhead : headBits pr (bwTake c).d = headBits pr c.d := by rw [(bwTake_frame c).1]; rfl
      refine ⟨hhead ▸ (loopKeeps_encodes (headBits_length_mod pr c.d) f (pr := pr)).take c out h.1, fun hd => ?_⟩
      rw [allBits_bwTake]
      rw [(bwTake_frame c).1] at hd
      exact h.2 hd
    work := fun c out hs hr hq h => by
      have hne : (deflWork pr f c).c.d.stage ≠ .init := deflWork_ne_init hs hr
      refine ⟨?_, fun hd => absurd hd hne⟩
      rw [headBits_congr (deflWork_setup pr f c) (running_ne_init hr) hne]
      exact h.1.work (headBits_length_mod pr c.d) hs hr hq }
  outside d out r e x h := ⟨⟨h.1.matcher.congr rfl, h.1.base_le, h.1.standing.congr rfl rfl id⟩, h.2⟩
  init d out hs hd h := h.init hs hd

theorem runEncodes_start (pr : Params) (c : Word) (r : StreamRegs) : RunEncodes pr (deflStart c r) [] := by
  refine ⟨⟨?_, le_rfl, .collecting rfl rfl ⟨[], rfl, .inl ⟨rfl, rfl⟩⟩⟩, fun _ => rfl⟩
  exact ⟨⟨le_rfl, fun _ _ h => (nomatch h), fun _ _ h => (nomatch h)⟩, le_rfl, trivial, nofun⟩

theorem DeflRun.encodes {s : State} (h : DeflRun s out) : RunEncodes s.params s.defl out :=
  h.keeps (runKeeps_runEncodes s.params) fun c r _ => runEncodes_start s.params c r

end

end Sys2Proof.Machine
end

section
/-! PROOFS. `INFL` on a stream (R460, R463): the micro-steps one after another, what is left to read, and what has been put out. -/

namespace Sys2Proof.Machine

/-! ## Micro-steps one after another (R463) -/

/-- Micro-steps that complete lead from one place to the other. -/
inductive Goes (pr : Params) : InflCtx → InflCtx → Prop
  | refl (c : InflCtx) : Goes pr c c
  | step {c c1 c2 : InflCtx} (h : inflMicro pr .none c = .complete c1) (hg : Goes pr (staleCtx c1) c2) : Goes pr c c2

section
variable {pr : Params} {c c1 c2 : InflCtx}

theorem Goes.trans (h : Goes pr c c1) (h' : Goes pr c1 c2) : Goes pr c c2 := by
  induction h with
  | refl => exact h'
  | step hm _ ih => exact .step hm (ih h')

theorem Goes.one (h : inflMicro pr .none c = .complete c1) : Goes pr c (staleCtx c1) := .step h (.refl _)

/-- What the work loop ends with does not depend on where it is entered. -/
theorem Goes.loop (h : Goes pr c c1) {n : Nat} {r : LoopEnd} (hl : inflLoop pr .none n c = some r) :
    ∃ m, inflLoop pr .none m c1 = some r := by
  induction h generalizing n with
  | refl => exact ⟨n, hl⟩
  | step hm _ ih =>
    cases n with
    | zero => cases hl
    | succ n =>
      rw [inflLoop, hm] at hl
      exact ih hl

theorem inflLoop_suspends {n : Nat} {r : LoopEnd} (h : inflMicro pr .none c = .suspend c1)
    (hl : inflLoop pr .none n c = some r) : r = .left false c1 := by
  cases n with
  | zero => cases hl
  | succ n =>
    rw [inflLoop, h] at hl
    exact (Option.some.inj hl).symm

theorem inflLoop_halts {n : Nat} {r : LoopEnd} (h : inflMicro pr .none c = .stop c1)
    (hl : inflLoop pr .none n c = some r) : r = .left true c1 := by
  cases n with
  | zero => cases hl
  | succ n =>
    rw [inflLoop, h] at hl
    exact (Option.some.inj hl).symm

end

/-! ## What has been put out (R468) -/

/-- What stays the same while a stream is decoded: the window, the container, and the room for output. -/
structure Setting where
  wbits : Nat
  wrap : Wrap
  room : Nat

section
variable {K : Setting} {y : List Byte} {c : InflCtx}

/-- `y` has been put out, to address 0 on. -/
structure Made (K : Setting) (y : List Byte) (c : InflCtx) : Prop where
  room_lt : K.room < 2 ^ 32
  wbits : c.e.wbits = K.wbits
  wrap : c.e.wrap = K.wrap
  produced : c.e.produced = y.length
  nextOut : c.e.regs.nextOut.toNat = y.length
  availOut : c.e.regs.availOut.toNat + y.length = K.room
  check : c.e.check = y.foldl (checkStep K.wrap) (checkInit K.wrap)
  isize : c.e.isize = BitVec.ofNat 32 y.length
  outWf : c.bus.outMem.wf
  out : bytesAt c.bus.outMem 0 y.length = y
  winWf : c.e.win.wf
  win : ∀ j, j < y.length → y.length ≤ j + wsize K.wbits → memRead c.e.win (j % wsize K.wbits) = y.getD j 0

theorem Made.availOut_ne (h : Made K y c) (hr : y.length < K.room) : c.e.regs.availOut ≠ 0 := by
  intro h0
  have := h.availOut
  rw [h0] at this
  have : (0 : Word).toNat = 0 := rfl
  omega

/-- One byte more. -/
theorem Made.emit (h : Made K y c) (hr : y.length < K.room) (v : Byte) : Made K (y ++ [v]) (inflEmit v c) := by
  have hlt := h.room_lt
  have hnext := h.nextOut
  have hone := (Emitted.nil h.outWf h.winWf).snoc v (by rw [List.length_nil, hnext]; omega)
  rw [List.nil_append] at hone
  constructor
  case room_lt => exact hlt
  case wbits => exact hone.config.1.trans h.wbits
  case wrap => exact hone.config.2.trans h.wrap
  case produced => rw [hone.produced, h.produced, List.length_append]
  case nextOut =>
    rw [hone.nextOut (by rw [hnext, List.length_singleton]; omega), hnext, List.length_append]
  case availOut =>
    have := h.availOut
    rw [hone.availOut, List.length_append]
    simp only [List.length_singleton]
    have hsub : (c.e.regs.availOut - BitVec.ofNat 32 1).toNat = c.e.regs.availOut.toNat - 1 := toNat_sub_one (h.availOut_ne hr)
    omega
  case check => rw [hone.check, h.check, h.wrap, List.foldl_append]
  case isize =>
    have : (inflEmit v c).e.isize = c.e.isize + 1 := rfl
    rw [this, h.isize, List.length_append, BitVec.ofNat_add]
    rfl
  case outWf => exact hone.outWf
  case out =>
    have hb := hone.out
    rw [hnext] at hb
    rw [List.length_append, bytesAt_add, Nat.zero_add, hb, bytesAt_congr fun j hj => hone.outside _ (.inl (by omega)), h.out]
  case winWf => exact hone.winWf
  case win =>
    intro j hj hw
    rw [List.length_append, List.length_singleton] at hj hw
    rcases Nat.lt_succ_iff_lt_or_eq.1 hj with hlt' | rfl
    · have hother : (y.length + 0) % wsize K.wbits ≠ j % wsize K.wbits := (mod_ne_of_lt hlt' (by omega)).symm
      rw [hone.winOther (j % wsize K.wbits) fun i hi => ?_, h.win j hlt' (by omega), List.getD_append _ _ _ _ hlt']
      rw [List.length_singleton, Nat.lt_one_iff] at hi
      rwa [hi, h.produced, h.wbits]
    · have hself := hone.win 0 (by simp) (by rw [h.wbits, List.length_singleton]; omega)
      rw [h.produced, h.wbits, Nat.add_zero] at hself
      rw [hself]
      simp

/-! ## What is left to read -/

/-- The parts of the engine that putting out works on. -/
def Infl.outs (i : Infl) : StreamRegs × Memory × Nat × Word × Word × Nat × Wrap :=
  (i.regs, i.win, i.produced, i.check, i.isize, i.wbits, i.wrap)

/-- The same, with the bits in hand. -/
def Infl.io (i : Infl) : Nat × Nat × StreamRegs × Memory × Nat × Word × Word × Nat × Wrap := (i.hold, i.cnt, i.outs)

/-- `bits` is left to read, `p` bits into the stream and with no whole byte in hand, and `y` has been put out. -/
structure At (K : Setting) (p : Nat) (y : List Byte) (bits : List Bool) (c : InflCtx) : Prop where
  unread : Unread p c bits
  slim : c.e.cnt ≤ 7
  made : Made K y c

variable {p : Nat} {bits : List Bool}

theorem Made.congr (h : Made K y c) {e : Infl} (he : e.outs = c.e.outs) : Made K y ⟨e, c.bus⟩ := by
  simp only [Infl.outs, Prod.mk.injEq] at he
  obtain ⟨hr, hwin, hprod, hcheck, hisize, hwb, hwrap⟩ := he
  constructor
  case room_lt => exact h.room_lt
  case wbits => exact hwb.trans h.wbits
  case wrap => exact hwrap.trans h.wrap
  case produced => exact hprod.trans h.produced
  case nextOut => exact hr ▸ h.nextOut
  case availOut => exact hr ▸ h.availOut
  case check => exact hcheck.trans h.check
  case isize => exact hisize.trans h.isize
  case outWf => exact h.outWf
  case out => exact h.out
  case winWf => exact hwin ▸ h.winWf
  case win => exact hwin ▸ h.win

theorem Unread.congr (h : Unread p c bits) {e : Infl} (he : e.io = c.e.io) : Unread p ⟨e, c.bus⟩ bits := by
  simp only [Infl.io, Infl.outs, Prod.mk.injEq] at he
  obtain ⟨hh, hc, hr, -⟩ := he
  refine ⟨?_, ?_, ?_, ?_⟩
  · show e.hold < 2 ^ e.cnt
    rw [hh, hc]
    exact h.fits
  · show e.regs.nextIn.toNat + e.regs.availIn.toNat ≤ 2 ^ 32
    rw [hr]
    exact h.room
  · show (p + e.cnt) % 8 = 0
    rw [hc]
    exact h.place
  · have hheld : heldBits e = heldBits c.e := by rw [heldBits, heldBits, hh, hc]
    show heldBits e ++ streamBits (bytesAt c.bus.inMem e.regs.nextIn.toNat e.regs.availIn.toNat) = bits
    rw [hheld, hr]
    exact h.bits_eq

theorem At.congr (h : At K p y bits c) {e : Infl} (he : e.io = c.e.io) : At K p y bits ⟨e, c.bus⟩ := by
  obtain ⟨-, hc, houts⟩ : e.hold = c.e.hold ∧ e.cnt = c.e.cnt ∧ e.outs = c.e.outs := by simpa only [Infl.io, Prod.mk.injEq] using he
  exact ⟨h.unread.congr he, hc.trans_le h.slim, h.made.congr houts⟩

theorem At.stale (h : At K p y bits c) : At K p y bits (staleCtx c) := h.congr rfl

/-- Reading leaves what has been put out. -/
theorem Made.readIn (h : Made K y c) {k : Nat} {d : InflCtx} (hr : ReadIn c k d) : Made K y d := by
  obtain ⟨hno, hao, -⟩ := hr.out
  have hframe := hr.frame
  have hout := hr.outMem
  constructor
  case room_lt => exact h.room_lt
  case wbits => rw [hframe]; exact h.wbits
  case wrap => rw [hframe]; exact h.wrap
  case produced => rw [hframe]; exact h.produced
  case nextOut => rw [hno]; exact h.nextOut
  case availOut => rw [hao]; exact h.availOut
  case check => rw [hframe]; exact h.check
  case isize => rw [hframe]; exact h.isize
  case outWf => rw [hout]; exact h.outWf
  case out => rw [hout]; exact h.out
  case winWf => rw [hframe]; exact h.winWf
  case win => rw [hframe]; exact h.win

/-- Putting out leaves what is left to read. -/
theorem Unread.emit (h : Unread p c bits) (v : Byte) : Unread p (inflEmit v c) bits := by
  have hbus : (inflEmit v c).bus.inMem = c.bus.inMem := by
    simp only [inflEmit, outByteBus, tickFree]
    split_ifs <;> rfl
  refine ⟨h.fits, h.room, h.place, ?_⟩
  have hb := h.bits_eq
  unfold nextBytes at hb ⊢
  rw [hbus]
  exact hb

theorem At.emit (h : At K p y bits c) (hr : y.length < K.room) (v : Byte) : At K p (y ++ [v]) bits (inflEmit v c) :=
  ⟨h.unread.emit v, h.slim, h.made.emit hr v⟩

end

/-! ## Reading a field -/

/-- `j` is `i` but for the reader, the stream parameters and `fresh`. -/
abbrev sameCore (i j : Infl) : Prop :=
  j = { i with regs := j.regs, hcrc := j.hcrc, hold := j.hold, cnt := j.cnt, fresh := j.fresh }

section
variable {K : Setting} {p n v : Nat} {y : List Byte} {bits : List Bool} {c : InflCtx} {pr : Params}

/-- The next `n` bits are fetched as far as they are not in hand, and no whole byte too many. -/
theorem Unread.need (h : Unread p c (bitsOf n v ++ bits)) (hs : c.e.cnt ≤ n + 7) (hm : Made K y c) (hv : v < 2 ^ n) :
    ∃ c1, Machine.brNeed n c = (true, c1) ∧ onlyReader c.e c1.e ∧ n ≤ c1.e.cnt ∧ brPeek n c1.e = v ∧
      At K (p + n) y bits ⟨brDrop n c1.e, c1.bus⟩ := by
  have hroom := h.room
  have hk : needCount n c.e ≤ c.e.regs.availIn.toNat := Nat.min_le_right _ _
  have hr : ReadIn c (needCount n c.e) (Machine.brNeed n c).2 := readIn_brNeed (by omega)
  obtain ⟨htrue, hn, hu'⟩ := h.brNeed (n := n) (by simp)
  obtain ⟨hpeek, hrest⟩ := hu'.split hn hv
  refine ⟨_, Prod.ext htrue rfl, hr.frame, hn, hpeek, hrest, ?_, (hm.readIn hr).congr rfl⟩
  show (Machine.brNeed n c).2.e.cnt - n ≤ 7
  have hle : needCount n c.e ≤ (n - c.e.cnt + 7) / 8 := Nat.min_le_left _ _
  rw [hr.cnt]
  omega

theorem At.need (h : At K p y (bitsOf n v ++ bits) c) (hv : v < 2 ^ n) : ∃ c1, brNeed n c = (true, c1) ∧ onlyReader c.e c1.e ∧
    n ≤ c1.e.cnt ∧ brPeek n c1.e = v ∧ At K (p + n) y bits ⟨brDrop n c1.e, c1.bus⟩ :=
  h.unread.need (h.slim.trans (Nat.le_add_left 7 n)) h.made hv

/-- A change that does not touch, and does not look at, the reader and what is put out. -/
structure Passive (g : Infl → Infl) : Prop where
  io : ∀ i, (g i).io = i.io
  core : ∀ i j, onlyReader i j → sameCore (g i) (g j)

theorem brDrop_io {i j : Infl} (h : j.io = i.io) (n : Nat) : (brDrop n j).io = (brDrop n i).io := by
  simp only [Infl.io, Infl.outs, Prod.mk.injEq, brDrop_hold, brDrop_cnt] at h ⊢
  obtain ⟨hh, hc, hrest⟩ := h
  exact ⟨by rw [hh], by rw [hc], hrest⟩

theorem sameCore.trans {i j k : Infl} (h : sameCore i j) (h' : sameCore j k) : sameCore i k := by
  unfold sameCore at *
  rw [h', h]

theorem sameCore.refl (i : Infl) : sameCore i i := rfl

/-- A micro-step that reads one field. -/
theorem At.read {G : InflCtx → Micro} {g : Infl → Infl} {c0 : InflCtx} (h : At K p y (bitsOf n v ++ bits) c) (hv : v < 2 ^ n)
    (hm : inflMicro pr .none c0 = needing n c G) (hg : Passive g)
    (hG : ∀ c1, onlyReader c.e c1.e → n ≤ c1.e.cnt → brPeek n c1.e = v → G c1 = .complete ⟨brDrop n (g c1.e), c1.bus⟩) :
    ∃ c', Goes pr c0 c' ∧ At K (p + n) y bits c' ∧ sameCore (g c.e) c'.e := by
  obtain ⟨c1, hneed, hr, hn, hpeek, hat⟩ := h.need hv
  have hstep : inflMicro pr .none c0 = .complete ⟨brDrop n (g c1.e), c1.bus⟩ := by
    rw [hm, ← hG c1 hr hn hpeek, needing, hneed]
    rfl
  exact ⟨_, .one hstep, (hat.congr (brDrop_io (hg.io c1.e) n)).stale, (hg.core _ _ hr).trans rfl⟩

/-- Peeking inside a peeked field. -/
theorem brPeek2_of_brPeek {k m : Nat} {i : Infl} (h : brPeek n i = v) (hk : k + m ≤ n) : brPeek2 k m i = v / 2 ^ k % 2 ^ m := by
  rw [← h, brPeek2, brPeek]
  refine Nat.eq_of_testBit_eq fun j => ?_
  simp only [Nat.testBit_mod_two_pow, Nat.testBit_div_two_pow]
  by_cases hj : j < m
  · simp [hj, show k + j < n by omega, Nat.add_comm]
  · simp [hj]

theorem brPeek_of_brPeek {m : Nat} {i : Infl} (h : brPeek n i = v) (hm : m ≤ n) : brPeek m i = v % 2 ^ m := by
  rw [← h, brPeek, brPeek, Nat.mod_mod_of_dvd _ (Nat.pow_dvd_pow 2 hm)]

end

/-! ## Reading a code (R447) -/

/-- A code table: no length beyond the limit, and the Kraft bound. -/
def CodeOk (lens : Lens) (max : Nat) : Prop := (∀ l ∈ lens, l ≤ max) ∧ kraft max lens ≤ 2 ^ max

theorem scanCodes_waits {lens : Lens} {codes : List Nat} {hold cnt m code : Nat} (hcnt : cnt < m)
    (hbits : ∀ n, n < cnt → hold / 2 ^ n % 2 = code / 2 ^ (m - (n + 1)) % 2)
    (hnone : ∀ n, 0 < n → n ≤ cnt → lookupFrom 0 n (code / 2 ^ (m - n)) lens codes = none)
    {left n : Nat} (hn : n ≤ cnt) (hleft : cnt < n + left) :
    scanCodes lens codes hold cnt left (n + 1) (code / 2 ^ (m - n)) = .more := by
  induction left generalizing n with
  | zero => omega
  | succ left ih =>
    rcases Nat.lt_or_eq_of_le hn with hlt | rfl
    · have hnext : 2 * (code / 2 ^ (m - n)) + hold / 2 ^ n % 2 = code / 2 ^ (m - (n + 1)) := by
        rw [hbits n hlt, show m - n = m - (n + 1) + 1 by omega, Nat.pow_succ, ← Nat.div_div_eq_div_mul]
        exact Nat.div_add_mod _ 2
      rw [scanCodes, if_neg (by omega), Nat.add_sub_cancel, hnext, hnone (n + 1) (Nat.succ_pos n) hlt]
      exact ih hlt (by omega)
    · rw [scanCodes, if_pos (Nat.lt_succ_self _)]

section
variable {lens : Lens} {max k : Nat}

/-- With a proper part of a code in hand, one pass over the bits asks for more. -/
theorem scan_waits (ho : CodeOk lens max) {bits more : List Bool} (h : bits ++ more = codeBits lens max k) (hm : more ≠ []) :
    scan lens max (bitsNum bits) bits.length = .more := by
  obtain ⟨hl, hk⟩ := ho
  have hlt : bits.length < lens.getD k 0 := by
    have hlen := congrArg List.length h
    have := List.length_pos_iff.2 hm
    rw [List.length_append, codeBits_length] at hlen
    omega
  have hpos : 0 < lens.getD k 0 := by omega
  have hmax : lens.getD k 0 ≤ maxLen lens := by
    rw [List.getD_eq_getElem _ _ (getD_pos_lt hpos)]
    exact le_maxLen (List.getElem_mem _)
  have hfit := hbCanon_fits hl hk hpos
  have hnone : ∀ n, 0 < n → n ≤ bits.length →
      lookupFrom 0 n ((hbCanon lens max).getD k 0 / 2 ^ (lens.getD k 0 - n)) lens (hbCanon lens max) = none := by
    intro n hn hnk
    refine lookupFrom_none (hbCanon_length lens max) (fun i _ hi hc => ?_) 0
    subst hi
    exact hbCanon_prefix_ne hl hn (by omega) (by rintro rfl; omega) hc.symm
  have hbits : ∀ n, n < bits.length → bitsNum bits / 2 ^ n % 2 =
      (hbCanon lens max).getD k 0 / 2 ^ (lens.getD k 0 - (n + 1)) % 2 := by
    intro n hn
    have hcode := codeBits_bit (lens := lens) (max := max) (k := k) (n := n) (by omega) []
    rw [List.append_nil, ← h, bitsNum_bit, List.getD_append _ _ _ _ hn, ← bitsNum_bit] at hcode
    exact hcode
  have hscan := scanCodes_waits (codes := hbCanon lens max) hlt hbits hnone (left := maxLen lens) (n := 0) (Nat.zero_le _) (by omega)
  rwa [Nat.sub_zero, Nat.div_eq_of_lt hfit] at hscan

end

section
variable {K : Setting} {p k : Nat} {y : List Byte} {bits : List Bool} {c : InflCtx} {pr : Params} {lens : Lens} {max : Nat}

theorem hold_eq_bitsNum (h : c.e.hold < 2 ^ c.e.cnt) : c.e.hold = bitsNum (heldBits c.e) := by
  rw [heldBits, bitsNum_bitsOf, Nat.mod_eq_of_lt h]

theorem heldBits_length (i : Infl) : (heldBits i).length = i.cnt := bitsOf_length _ _

/-- One more byte in hand. -/
theorem Unread.fetch (h : Unread p c bits) (ha : c.e.regs.availIn ≠ 0) : ReadIn c 1 (brFetch c) ∧ Unread p (brFetch c) bits := by
  have hroom := h.room
  have hpos := toNat_pos_of_ne ha
  have hr : ReadIn c 1 (brFetch c) := (ReadIn.zero c).snoc (by omega)
  exact ⟨hr, h.readIn hpos hr⟩

/-- More bits are left than are in hand only where there is input. -/
theorem Unread.availIn_ne (h : Unread p c bits) (hlt : c.e.cnt < bits.length) : c.e.regs.availIn ≠ 0 := by
  intro h0
  have hlen := congrArg List.length h.bits_eq
  rw [h0, List.length_append, heldBits_length, streamBits_length, bytesAt_length] at hlen
  have : (0 : Word).toNat = 0 := rfl
  omega

theorem Unread.heldBits_eq_take (hu : Unread p c bits) : heldBits c.e = bits.take c.e.cnt := by
  rw [← hu.bits_eq, List.take_left' (heldBits_length _)]

/-- With a whole code in hand. -/
theorem Unread.scan_found (hu : Unread p c (codeBits lens max k ++ bits)) (ho : CodeOk lens max) (hpos : 0 < lens.getD k 0)
    (hcnt : lens.getD k 0 ≤ c.e.cnt) : scan lens max c.e.hold c.e.cnt = .found k (lens.getD k 0) := by
  rw [hold_eq_bitsNum hu.fits, hu.heldBits_eq_take, List.take_append, List.take_of_length_le (by rwa [codeBits_length])]
  exact scan_code ho.1 ho.2 hpos hcnt _

/-- With a part of a code in hand. -/
theorem Unread.scan_more (hu : Unread p c (codeBits lens max k ++ bits)) (ho : CodeOk lens max)
    (hcnt : c.e.cnt < lens.getD k 0) : scan lens max c.e.hold c.e.cnt = .more := by
  have hheld : heldBits c.e = (codeBits lens max k).take c.e.cnt := by
    rw [hu.heldBits_eq_take, List.take_append_of_le_length (by rw [codeBits_length]; omega)]
  have hdrop : (codeBits lens max k).drop c.e.cnt ≠ [] := by
    rw [Ne, List.drop_eq_nil_iff, codeBits_length]
    omega
  have hscan := scan_waits (k := k) ho (List.take_append_drop c.e.cnt _) hdrop
  rwa [← hheld, ← hold_eq_bitsNum hu.fits, heldBits_length] at hscan

theorem hdDecodeLoop_found (ho : CodeOk lens max) (hpos : 0 < lens.getD k 0) {m : Nat} {c : InflCtx}
    (hu : Unread p c (codeBits lens max k ++ bits)) (hs : c.e.cnt ≤ lens.getD k 0 + 7) (hmade : Made K y c)
    (hm : lens.getD k 0 ≤ c.e.cnt + 8 * m) : ∃ c1, hdDecodeLoop lens max m c = (.found k (lens.getD k 0), c1) ∧
      onlyReader c.e c1.e ∧ lens.getD k 0 ≤ c1.e.cnt ∧ c1.e.cnt ≤ lens.getD k 0 + 7 ∧
        Unread p c1 (codeBits lens max k ++ bits) ∧ Made K y c1 := by
  have hlen : (codeBits lens max k).length = lens.getD k 0 := codeBits_length _ _ _
  induction m generalizing c with
  | zero =>
    have hcnt : lens.getD k 0 ≤ c.e.cnt := by simpa using hm
    exact ⟨c, by rw [hdDecodeLoop, hu.scan_found ho hpos hcnt], onlyReader.refl _, hcnt, hs, hu, hmade⟩
  | succ m ih =>
    by_cases hcnt : lens.getD k 0 ≤ c.e.cnt
    · exact ⟨c, by simp only [hdDecodeLoop, hu.scan_found ho hpos hcnt], onlyReader.refl _, hcnt, hs, hu, hmade⟩
    · have hin := hu.availIn_ne (by rw [List.length_append]; omega)
      obtain ⟨hr, hu'⟩ := hu.fetch hin
      have hcnt' : (brFetch c).e.cnt = c.e.cnt + 8 := rfl
      obtain ⟨c1, hloop, honly, hrest⟩ := ih hu' (by omega) (hmade.readIn hr) (by omega)
      refine ⟨c1, ?_, hr.frame.trans honly, hrest⟩
      simp only [hdDecodeLoop, hu.scan_more ho (by omega), if_neg hin, hloop]

end

end Sys2Proof.Machine
end

section
/-! PROOFS. `INFL` on the symbols of a block (R491 to R497): a code is read bit by bit, and the tokens of a block put out what they
expand to. -/

namespace Sys2Proof.Machine

/-! ## What reading a field keeps -/

section
variable {i j : Infl}

theorem sameCore.stage (h : sameCore i j) : j.stage = i.stage := (congrArg Infl.stage h :)
theorem sameCore.last (h : sameCore i j) : j.last = i.last := (congrArg Infl.last h :)
theorem sameCore.ll (h : sameCore i j) : j.ll = i.ll := (congrArg Infl.ll h :)
theorem sameCore.dt (h : sameCore i j) : j.dt = i.dt := (congrArg Infl.dt h :)
theorem sameCore.lit (h : sameCore i j) : j.lit = i.lit := (congrArg Infl.lit h :)
theorem sameCore.lsym (h : sameCore i j) : j.lsym = i.lsym := (congrArg Infl.lsym h :)
theorem sameCore.dsym (h : sameCore i j) : j.dsym = i.dsym := (congrArg Infl.dsym h :)
theorem sameCore.length (h : sameCore i j) : j.length = i.length := (congrArg Infl.length h :)
theorem sameCore.remaining (h : sameCore i j) : j.remaining = i.remaining := (congrArg Infl.remaining h :)
theorem sameCore.dist (h : sameCore i j) : j.dist = i.dist := (congrArg Infl.dist h :)

end

/-! ## Reading a code (R447) -/

theorem bitsOf_bitsNum (xs : List Bool) : bitsOf xs.length (bitsNum xs) = xs := by
  induction xs with
  | nil => rfl
  | cons b xs ih =>
    have hhalf : (b.toNat + 2 * bitsNum xs) / 2 = bitsNum xs := by
      cases b
      · simp
      · simp; omega
    have hlow : (b.toNat + 2 * bitsNum xs).testBit 0 = b := by
      cases b <;> simp [Nat.testBit_zero]
    rw [List.length_cons, bitsNum, bitsOf_succ, hhalf, ih, hlow]

section
variable {K : Setting} {p k : Nat} {y : List Byte} {bits : List Bool} {c : InflCtx} {pr : Params} {lens : Lens} {max : Nat}

theorem At.hdDecode (h : At K p y (codeBits lens max k ++ bits) c) (ho : CodeOk lens max) (hpos : 0 < lens.getD k 0) :
    ∃ c1, Machine.hdDecode lens max c = (.found k (lens.getD k 0), c1) ∧ onlyReader c.e c1.e ∧ lens.getD k 0 ≤ c1.e.cnt ∧
      c1.e.cnt ≤ lens.getD k 0 + 7 ∧ Unread p c1 (codeBits lens max k ++ bits) ∧ Made K y c1 := by
  have hmax : lens.getD k 0 ≤ maxLen lens := by
    rw [List.getD_eq_getElem _ _ (getD_pos_lt hpos)]
    exact le_maxLen (List.getElem_mem _)
  exact hdDecodeLoop_found ho hpos h.unread (h.slim.trans (Nat.le_add_left 7 _)) h.made (by omega)

theorem Unread.scan_waits (hu : Unread p c bits) (ho : CodeOk lens max) {more : List Bool}
    (hcode : bits ++ more = codeBits lens max k) (hm : more ≠ []) : scan lens max c.e.hold c.e.cnt = .more := by
  have hsplit : heldBits c.e ++ (bits.drop c.e.cnt ++ more) = codeBits lens max k := by
    rw [hu.heldBits_eq_take, ← List.append_assoc, List.take_append_drop, hcode]
  have hscan := Machine.scan_waits ho hsplit (by simp [hm])
  rwa [← hold_eq_bitsNum hu.fits, heldBits_length] at hscan

/-- Where the input ends inside a code, more is asked for. -/
theorem hdDecodeLoop_waits (ho : CodeOk lens max) {more : List Bool} (hcode : bits ++ more = codeBits lens max k) (hm : more ≠ [])
    (m : Nat) {c : InflCtx} (hu : Unread p c bits) (hmade : Made K y c) :
    ∃ c1, hdDecodeLoop lens max m c = (.more, c1) ∧ onlyReader c.e c1.e ∧ Made K y c1 := by
  have hscan := hu.scan_waits ho hcode hm
  induction m generalizing c with
  | zero => exact ⟨c, by rw [hdDecodeLoop, hscan], onlyReader.refl _, hmade⟩
  | succ m ih =>
    by_cases hin : c.e.regs.availIn = 0
    · exact ⟨c, by simp only [hdDecodeLoop, hscan, if_pos hin], onlyReader.refl _, hmade⟩
    · obtain ⟨hr, hu'⟩ := hu.fetch hin
      obtain ⟨c1, hloop, honly, hmade'⟩ := ih hu' (hmade.readIn hr) (hu'.scan_waits ho hcode hm)
      exact ⟨c1, by simp only [hdDecodeLoop, hscan, if_neg hin, hloop], hr.frame.trans honly, hmade'⟩

theorem codeBits_eq_bitsOf (lens : Lens) (max k : Nat) :
    codeBits lens max k = bitsOf (lens.getD k 0) (bitsNum (codeBits lens max k)) := by
  have h := bitsOf_bitsNum (codeBits lens max k)
  rw [codeBits_length] at h
  exact h.symm

theorem bitsNum_codeBits_lt (lens : Lens) (max k : Nat) : bitsNum (codeBits lens max k) < 2 ^ lens.getD k 0 := by
  have h := bitsNum_lt (codeBits lens max k)
  rwa [codeBits_length] at h

/-- A micro-step that reads one code and no more. -/
theorem At.code {act : Infl → Act} {g : Infl → Infl}
    (h : At K p y (codeBits lens max k ++ bits) c) (ho : CodeOk lens max) (hpos : 0 < lens.getD k 0)
    (hm : ∀ n c1, Machine.hdDecode lens max c = (.found k n, c1) → inflMicro pr .none c = finish n false c1 (act c1.e))
    (hg : Passive g) (hact : ∀ i, act i = .good (g i)) :
    ∃ c', Goes pr c c' ∧ At K (p + lens.getD k 0) y bits c' ∧ sameCore (g c.e) c'.e := by
  obtain ⟨c1, hd, hr, hn, hslim, hu, hmade⟩ := h.hdDecode ho hpos
  rw [codeBits_eq_bitsOf] at hu
  obtain ⟨-, hrest⟩ := hu.split hn (bitsNum_codeBits_lt _ _ _)
  have hat : At K (p + lens.getD k 0) y bits ⟨brDrop (lens.getD k 0) c1.e, c1.bus⟩ :=
    ⟨hrest, by show c1.e.cnt - _ ≤ 7; omega, hmade.congr rfl⟩
  have hstep := hm _ _ hd
  rw [hact] at hstep
  exact ⟨_, .one hstep, (hat.congr (brDrop_io (hg.io c1.e) _)).stale, (hg.core _ _ hr).trans rfl⟩

end

/-! ## Tokens (R492 to R497) -/

theorem le_largestLe {base : List Nat} {v n : Nat} (h0 : base.getD 0 0 ≤ v) : base.getD (largestLe base v n) 0 ≤ v := by
  induction n with
  | zero => exact h0
  | succ n ih =>
    rw [largestLe]
    split_ifs with hn
    · exact hn
    · exact ih

theorem lenBase_le {len : Nat} (h : 3 ≤ len) : lenBase.getD (lsymOf len) 0 ≤ len := by
  rw [lsymOf]
  split_ifs with h258
  · rw [h258]
    decide
  · exact le_largestLe h

theorem distBase_le {dist : Nat} (h : 1 ≤ dist) : distBase.getD (dsymOf dist) 0 ≤ dist := le_largestLe h

theorem copyOf_succ (y : List Byte) (n dist : Nat) :
    copyOf y (n + 1) dist = copyOf y n dist ++ [y.getD (y.length - dist + n % dist) 0] := by
  simp [copyOf, List.range_succ]

theorem Expands.length_le {w : Nat} {y z : List Byte} {ts : List Token} (h : Expands w y ts z) : y.length ≤ z.length := by
  induction h with
  | nil => exact Nat.le_refl _
  | lit b _ ih =>
    rw [List.length_append] at ih
    omega
  | mat _ _ _ _ _ _ ih =>
    rw [List.length_append] at ih
    omega

/-- The byte a match copies next is the byte as many places back. -/
theorem copyOf_next {y : List Byte} {n dist : Nat} (h1 : 1 ≤ dist) (hy : dist ≤ y.length) :
    (y ++ copyOf y n dist).getD ((y ++ copyOf y n dist).length - dist) 0 = y.getD (y.length - dist + n % dist) 0 := by
  rw [List.length_append, copyOf_length]
  by_cases hn : n < dist
  · rw [Nat.mod_eq_of_lt hn, List.getD_append _ _ _ _ (by omega)]
    congr 1
    omega
  · have hmod : n % dist = (n - dist) % dist := Nat.mod_eq_sub_mod (Nat.not_lt.1 hn)
    rw [List.getD_append_right _ _ _ _ (by omega), show y.length + n - dist - y.length = n - dist by omega, copyOf, hmod,
      List.getD_eq_getElem _ _ (by simp; omega), List.getElem_map, List.getElem_range]

/-- Inside a Huffman block (R491): the two tables, and whether the block is the last. -/
structure InBlock (L D : Lens) (last : Bool) (i : Infl) : Prop where
  ll : i.ll = L
  dt : i.dt = D
  last : i.last = last

section
variable {K : Setting} {p k : Nat} {y : List Byte} {bits : List Bool} {c : InflCtx} {pr : Params} {L D : Lens} {last : Bool}

theorem InBlock.of_sameCore {i j : Infl} (hs : sameCore i j) (h : InBlock L D last i) : InBlock L D last j :=
  ⟨hs.ll.trans h.ll, hs.dt.trans h.dt, hs.last.trans h.last⟩

theorem At.matchByte (h : At K p y bits c) (h1 : 1 ≤ c.e.dist) (hy : c.e.dist ≤ y.length) (hw : c.e.dist ≤ wsize K.wbits) :
    Machine.matchByte c.e = y.getD (y.length - c.e.dist) 0 := by
  rw [Machine.matchByte, h.made.produced, h.made.wbits]
  exact h.made.win _ (by omega) (by omega)

/-- One byte of a match. -/
theorem At.copyByte (h : At K p y bits c) (hr : y.length < K.room) :
    At K p (y ++ [Machine.matchByte c.e]) bits (staleCtx (copyByte c)) :=
  (h.emit hr _).congr rfl

/-- The bytes of a match left to copy (R497). -/
theorem At.copy {n m dist : Nat} (h : At K p (y ++ copyOf y n dist) bits c) (hs : c.e.stage = .mat) (hb : InBlock L D last c.e)
    (hdist : c.e.dist = dist) (hlen : c.e.length = m) (h1 : 1 ≤ dist) (hy : dist ≤ y.length) (hw : dist ≤ wsize K.wbits)
    (hroom : y.length + (n + m) ≤ K.room) :
    ∃ c', Goes pr c c' ∧ At K p (y ++ copyOf y (n + m) dist) bits c' ∧ InBlock L D last c'.e ∧ c'.e.stage = .sym := by
  induction m generalizing n c with
  | zero =>
    have hm : inflMicro pr .none c = .complete ⟨{ c.e with stage := .sym }, c.bus⟩ := by
      simp [inflMicro, hs, matchMicro, hlen, silently]
    exact ⟨_, .one hm, h.congr rfl, ⟨hb.ll, hb.dt, hb.last⟩, rfl⟩
  | succ m ih =>
    have hlen' : (y ++ copyOf y n dist).length = y.length + n := by simp
    have hout := h.made.availOut_ne (by omega)
    have hm : inflMicro pr .none c = .complete (Machine.copyByte c) := by
      simp only [inflMicro, hs, matchMicro, if_neg (show ¬c.e.length = 0 by omega), if_neg hout]
    have hbyte := h.matchByte (by omega) (by omega) (by omega)
    have hat := h.copyByte (by omega)
    rw [hbyte, hdist, copyOf_next h1 hy, List.append_assoc, ← copyOf_succ] at hat
    have hnext : (Machine.copyByte c).e.length = m := by
      show c.e.length - 1 = m
      omega
    obtain ⟨c', hg, hrest⟩ := ih hat hs ⟨hb.ll, hb.dt, hb.last⟩ hdist hnext (by omega)
    rw [Nat.add_right_comm] at hrest
    exact ⟨c', .step hm hg, hrest⟩

/-- A change to the fields of the symbol being read. -/
theorem passive_of {g : Infl → Infl} (hio : ∀ i, (g i).io = i.io)
    (hcore : ∀ (i : Infl) r hc ho cn, sameCore (g i) (g { i with regs := r, hcrc := hc, hold := ho, cnt := cn })) : Passive g :=
  ⟨hio, fun i j h => by
    rw [show j = _ from h]
    exact hcore i _ _ _ _⟩

theorem symMicro_found {n : Nat} {c1 : InflCtx} (hs : c.e.stage = .sym) (hd : Machine.hdDecode c.e.ll 15 c = (.found k n, c1)) :
    inflMicro pr .none c = finish n false c1 (symAct k c1.e) := by
  have hd' : Machine.hdDecode c.e.ll maxBits c = (.found k n, c1) := hd
  simp only [inflMicro, hs, symMicro, hd']

theorem distMicro_found {n : Nat} {c1 : InflCtx} (hs : c.e.stage = .dist) (hd : Machine.hdDecode c.e.dt 15 c = (.found k n, c1)) :
    inflMicro pr .none c = finish n false c1 (distAct k c1.e) := by
  have hd' : Machine.hdDecode c.e.dt maxBits c = (.found k n, c1) := hd
  simp only [inflMicro, hs, distMicro, hd']

/-- A literal (R492, R493). -/
theorem At.litToken {b : Byte} (h : At K p y (codeBits L 15 b.toNat ++ bits) c) (hs : c.e.stage = .sym)
    (hb : InBlock L D last c.e) (ho : CodeOk L 15) (hpos : 0 < L.getD b.toNat 0) (hroom : y.length < K.room) :
    ∃ c', Goes pr c c' ∧ At K (p + L.getD b.toNat 0) (y ++ [b]) bits c' ∧ InBlock L D last c'.e ∧ c'.e.stage = .sym := by
  have hbyte := b.isLt
  obtain ⟨c1, hg, hat, hsame⟩ := h.code (pr := pr) (act := symAct b.toNat) (g := fun i => { i with lit := b, stage := .lit }) ho hpos
    (fun n c1 hd => symMicro_found hs (hb.ll ▸ hd))
    (passive_of (fun _ => rfl) fun _ _ _ _ _ => rfl)
    (fun i => by rw [symAct, if_neg (by omega), if_pos hbyte, BitVec.ofNat_toNat, BitVec.setWidth_eq])
  have hlit : c1.e.lit = b := hsame.lit
  have hstage : c1.e.stage = .lit := hsame.stage
  have hb1 : InBlock L D last c1.e := InBlock.of_sameCore hsame ⟨hb.ll, hb.dt, hb.last⟩
  have hm : inflMicro pr .none c1 = .complete (litByte c1) := by
    simp only [inflMicro, hstage, litMicro, if_neg (hat.made.availOut_ne hroom)]
  have hat2 : At K (p + L.getD b.toNat 0) (y ++ [b]) bits (staleCtx (litByte c1)) := by
    have := hat.emit hroom c1.e.lit
    rw [hlit] at this
    rw [← hlit] at this ⊢
    exact this.congr rfl
  exact ⟨_, hg.trans (.one hm), hat2, ⟨hb1.ll, hb1.dt, hb1.last⟩, rfl⟩

/-- A micro-step that reads one field with an action that goes on. -/
theorem At.reading {n v : Nat} {act : Nat → Infl → Act} {g : Infl → Infl} (h : At K p y (bitsOf n v ++ bits) c) (hv : v < 2 ^ n)
    (hm : inflMicro pr .none c = Machine.reading n c act) (hg : Passive g)
    (hact : ∀ c1 : InflCtx, onlyReader c.e c1.e → act v c1.e = .good (g c1.e)) :
    ∃ c', Goes pr c c' ∧ At K (p + n) y bits c' ∧ sameCore (g c.e) c'.e := by
  refine h.read hv hm hg fun c1 hr _ hpeek => ?_
  rw [hpeek, hact c1 hr]
  rfl

/-- The length of a match (R492, R494). -/
theorem At.lenSymbol {len : Nat} (h : At K p y (codeBits L 15 (257 + lsymOf len) ++
      (bitsOf (lenXb.getD (lsymOf len) 0) (len - lenBase.getD (lsymOf len) 0) ++ bits)) c) (hs : c.e.stage = .sym)
    (hb : InBlock L D last c.e) (hL : CodeOk L 15) (hpos : 0 < L.getD (257 + lsymOf len) 0) (hlo : 3 ≤ len) (hhi : len ≤ 258) :
    ∃ c', Goes pr c c' ∧ At K (p + L.getD (257 + lsymOf len) 0 + lenXb.getD (lsymOf len) 0) y bits c' ∧
      InBlock L D last c'.e ∧ c'.e.stage = .dist ∧ c'.e.length = len := by
  have hlsym := lsymOf_le len
  obtain ⟨c1, hg1, hat1, hsame1⟩ := h.code (pr := pr) (act := symAct (257 + lsymOf len))
    (g := fun i => { i with lsym := lsymOf len, stage := .lenext }) hL hpos (fun n c1 hd => symMicro_found hs (hb.ll ▸ hd))
    (passive_of (fun _ => rfl) fun _ _ _ _ _ => rfl)
    (fun i => by rw [symAct, if_neg (by omega), if_neg (by omega), if_neg (by omega), Nat.add_sub_cancel_left])
  have hs1 : c1.e.stage = .lenext := hsame1.stage
  have hl1 : c1.e.lsym = lsymOf len := hsame1.lsym
  have hb1 : InBlock L D last c1.e := .of_sameCore hsame1 ⟨hb.ll, hb.dt, hb.last⟩
  obtain ⟨c2, hg2, hat2, hsame2⟩ := hat1.reading (pr := pr) (act := lenextAct)
    (g := fun i => { i with
      length := lenBase.getD i.lsym 0 + (len - lenBase.getD (lsymOf len) 0), stage := .dist }) (lenXb_fits hhi)
    (by simp only [inflMicro, hs1, hl1])
    (passive_of (fun _ => rfl) fun _ _ _ _ _ => rfl) (fun _ _ => rfl)
  have hlen : c2.e.length = lenBase.getD c1.e.lsym 0 + (len - lenBase.getD (lsymOf len) 0) := hsame2.length
  refine ⟨c2, hg1.trans hg2, hat2, .of_sameCore hsame2 ⟨hb1.ll, hb1.dt, hb1.last⟩, hsame2.stage, ?_⟩
  rw [hlen, hl1]
  exact Nat.add_sub_cancel' (lenBase_le hlo)

/-- The distance of a match (R495, R496). -/
theorem At.distSymbol {dist : Nat} (h : At K p y (codeBits D 15 (dsymOf dist) ++
      (bitsOf (distXb.getD (dsymOf dist) 0) (dist - distBase.getD (dsymOf dist) 0) ++ bits)) c) (hs : c.e.stage = .dist)
    (hb : InBlock L D last c.e) (hD : CodeOk D 15) (hpos : 0 < D.getD (dsymOf dist) 0) (h1 : 1 ≤ dist) (hy : dist ≤ y.length)
    (hw : dist ≤ wsize K.wbits) (h15 : dist ≤ 32768) :
    ∃ c', Goes pr c c' ∧ At K (p + D.getD (dsymOf dist) 0 + distXb.getD (dsymOf dist) 0) y bits c' ∧
      InBlock L D last c'.e ∧ c'.e.stage = .mat ∧ c'.e.length = c.e.length ∧ c'.e.dist = dist := by
  have hdsym := dsymOf_lt dist
  obtain ⟨c1, hg1, hat1, hsame1⟩ := h.code (pr := pr) (act := distAct (dsymOf dist))
    (g := fun i => { i with dsym := dsymOf dist, stage := .distext }) hD hpos (fun n c1 hd => distMicro_found hs (hb.dt ▸ hd))
    (passive_of (fun _ => rfl) fun _ _ _ _ _ => rfl) (distAct_eq hdsym)
  have hs1 : c1.e.stage = .distext := hsame1.stage
  have hd1 : c1.e.dsym = dsymOf dist := hsame1.dsym
  have hb1 : InBlock L D last c1.e := .of_sameCore hsame1 ⟨hb.ll, hb.dt, hb.last⟩
  have hsum : distBase.getD (dsymOf dist) 0 + (dist - distBase.getD (dsymOf dist) 0) = dist := Nat.add_sub_cancel' (distBase_le h1)
  have hwhave : dist ≤ whave c1.e := by
    rw [whave, hat1.made.produced, hat1.made.wbits]
    exact Nat.le_min.2 ⟨hy, hw⟩
  obtain ⟨c2, hg2, hat2, hsame2⟩ := hat1.reading (pr := pr) (act := distextAct)
    (g := fun i => { i with dist := dist, stage := .mat }) (distXb_fits h15) (by simp only [inflMicro, hs1, hd1])
    (passive_of (fun _ => rfl) fun _ _ _ _ _ => rfl) (fun d hr => by
      have hwd : whave d.e = whave c1.e := by
        rw [show d.e = _ from hr]
        rfl
      have hdd : d.e.dsym = dsymOf dist := by
        rw [show d.e = _ from hr]
        exact hd1
      rw [distextAct, hdd, hsum, hwd]
      exact if_neg (by omega))
  have hlen1 : c1.e.length = c.e.length := hsame1.length
  exact ⟨c2, hg1.trans hg2, hat2, .of_sameCore hsame2 ⟨hb1.ll, hb1.dt, hb1.last⟩, hsame2.stage,
    (hsame2.length : c2.e.length = c1.e.length).trans hlen1, hsame2.dist⟩

/-- Codes for every symbol that a token needs. -/
def tokenCoded (L D : Lens) : Token → Prop
  | .lit b => 0 < L.getD b.toNat 0
  | .mat len dist => 0 < L.getD (257 + lsymOf len) 0 ∧ 0 < D.getD (dsymOf dist) 0

/-- A match (R492 to R497). -/
theorem At.matToken {len dist : Nat} (h : At K p y (tokenBits L D (.mat len dist) ++ bits) c) (hs : c.e.stage = .sym)
    (hb : InBlock L D last c.e) (hL : CodeOk L 15) (hD : CodeOk D 15) (ht : tokenCoded L D (.mat len dist)) (hlo : 3 ≤ len)
    (hhi : len ≤ 258) (h1 : 1 ≤ dist) (hy : dist ≤ y.length) (hw : dist ≤ wsize K.wbits) (h15 : dist ≤ 32768)
    (hroom : y.length + len ≤ K.room) :
    ∃ c', Goes pr c c' ∧ At K (p + (tokenBits L D (.mat len dist)).length) (y ++ copyOf y len dist) bits c' ∧
      InBlock L D last c'.e ∧ c'.e.stage = .sym := by
  simp only [tokenBits, List.append_assoc] at h
  obtain ⟨c1, hg1, hat1, hb1, hs1, hlen1⟩ := h.lenSymbol (pr := pr) hs hb hL ht.1 hlo hhi
  obtain ⟨c2, hg2, hat2, hb2, hs2, hlen2, hdist2⟩ := hat1.distSymbol (pr := pr) hs1 hb1 hD ht.2 h1 hy hw h15
  rw [← List.append_nil y, ← show copyOf y 0 dist = [] from rfl] at hat2
  obtain ⟨c3, hg3, hat3, hb3, hs3⟩ := hat2.copy (pr := pr) hs2 hb2 hdist2 (hlen2.trans hlen1) h1 hy hw (by omega)
  rw [Nat.zero_add] at hat3
  refine ⟨c3, hg1.trans (hg2.trans hg3), ?_, hb3, hs3⟩
  simp only [tokenBits, List.length_append, codeBits_length, bitsOf_length, ← Nat.add_assoc]
  exact hat3

/-- The tokens of a block. -/
theorem At.tokens {z : List Byte} {toks : List Token} {w : Nat} (he : Expands w y toks z) (hL : CodeOk L 15) (hD : CodeOk D 15)
    (hc : ∀ t ∈ toks, tokenCoded L D t) (hw : w ≤ wsize K.wbits) (h15 : w ≤ 32768) (hroom : z.length ≤ K.room)
    (h : At K p y (toks.flatMap (tokenBits L D) ++ bits) c) (hs : c.e.stage = .sym) (hb : InBlock L D last c.e) :
    ∃ c', Goes pr c c' ∧ At K (p + (toks.flatMap (tokenBits L D)).length) z bits c' ∧ InBlock L D last c'.e ∧
      c'.e.stage = .sym := by
  induction he generalizing p c with
  | nil y => exact ⟨c, .refl _, h, hb, hs⟩
  | lit b he ih =>
    have hle := he.length_le
    simp only [List.flatMap_cons, List.append_assoc] at h
    obtain ⟨c1, hg, hat, hb1, hs1⟩ := h.litToken (pr := pr) hs hb hL (hc _ List.mem_cons_self) (by simp at hle; omega)
    obtain ⟨c2, hg2, hat2, hrest⟩ := ih (fun t ht => hc t (List.mem_cons_of_mem _ ht)) hroom hat hs1 hb1
    refine ⟨c2, hg.trans hg2, ?_, hrest⟩
    rw [List.flatMap_cons, List.length_append, ← Nat.add_assoc]
    simpa only [tokenBits, codeBits_length] using hat2
  | mat hlo hhi h1 hy hwd he ih =>
    have hle := he.length_le
    simp only [List.flatMap_cons, List.append_assoc] at h
    obtain ⟨c1, hg, hat, hb1, hs1⟩ := h.matToken (pr := pr) hs hb hL hD (hc _ List.mem_cons_self) hlo hhi h1 hy (hwd.trans hw)
      (hwd.trans h15) (by simp at hle; omega)
    obtain ⟨c2, hg2, hat2, hrest⟩ := ih (fun t ht => hc t (List.mem_cons_of_mem _ ht)) hroom hat hs1 hb1
    refine ⟨c2, hg.trans hg2, ?_, hrest⟩
    rwa [List.flatMap_cons, List.length_append, ← Nat.add_assoc]

/-- The end of a block (R492). -/
theorem At.endOfBlock (h : At K p y (codeBits L 15 256 ++ bits) c) (hs : c.e.stage = .sym) (hb : InBlock L D last c.e)
    (hL : CodeOk L 15) (hpos : 0 < L.getD 256 0) :
    ∃ c', Goes pr c c' ∧ At K (p + L.getD 256 0) y bits c' ∧ c'.e.stage = .blockType ∧ c'.e.last = last := by
  obtain ⟨c1, hg, hat, hsame⟩ := h.code (pr := pr) (act := symAct 256) (g := fun i => { i with stage := .blockType }) hL hpos
    (fun n c1 hd => symMicro_found hs (hb.ll ▸ hd)) (passive_of (fun _ => rfl) fun _ _ _ _ _ => rfl) (fun _ => rfl)
  exact ⟨c1, hg, hat, hsame.stage, hsame.last.trans hb.last⟩

end

end Sys2Proof.Machine
end

section
/-! PROOFS. `INFL` on stored blocks and on blocks with the fixed codes (R482 to R485). -/

namespace Sys2Proof.Machine

/-! ## The header of a block (R482) -/

/-- The bits of a stream element with one bit, then two. -/
theorem header_bits (final : Bool) {t : Nat} : [final] ++ bitsOf 2 t = bitsOf 3 (final.toNat + t * 2 ^ 1) := by
  have hfinal : bitsOf 1 final.toNat = [final] := by cases final <;> rfl
  rw [show 3 = 1 + 2 from rfl, bitsOf_add_mul (Bool.toNat_lt _), hfinal]

section
variable {K : Setting} {p : Nat} {y : List Byte} {bits : List Bool} {c : InflCtx} {pr : Params}

/-- The header of a block. -/
theorem At.blockHeader {final : Bool} {t : Nat} {g : Infl → Infl} (h : At K p y ([final] ++ bitsOf 2 t ++ bits) c)
    (hs : c.e.stage = .blockType) (hl : c.e.last = false) (ht : t < 4) (hg : Passive g)
    (hact : ∀ i, blkhdrAct final t i = .good (g i)) :
    ∃ c', Goes pr c c' ∧ At K (p + 3) y bits c' ∧ sameCore (g c.e) c'.e := by
  have hf := Bool.toNat_lt final
  rw [header_bits] at h
  refine h.read (by omega) (c0 := c) (G := fun c1 => finish 3 (decide (brPeek2 1 2 c1.e = 1) && Flush.none == .trees) c1
    (blkhdrAct (decide (brPeek 1 c1.e = 1)) (brPeek2 1 2 c1.e) c1.e)) ?_ hg fun c1 _ _ hpeek => ?_
  · simp only [inflMicro, hs, blockTypeMicro, hl]
    rw [if_neg fun h => by simp at h, if_neg (by decide)]
  · have ht' : brPeek2 1 2 c1.e = t := by
      rw [brPeek2_of_brPeek hpeek (by decide)]
      omega
    have hf' : brPeek 1 c1.e = final.toNat := by
      rw [brPeek_of_brPeek hpeek (by decide)]
      omega
    rw [ht', hf', show decide (final.toNat = 1) = final by cases final <;> rfl, hact]
    simp [finish]

/-! ## The fixed codes (R140, R141) -/

theorem codeOk_fixLl : CodeOk fixLl 15 := ⟨fixLl_le, kraft_fixed.1.le⟩

theorem codeOk_fixD : CodeOk fixD 15 := ⟨fixD_le, kraft_fixed.2.le⟩

theorem fixLl_pos {k : Nat} (hk : k < 288) : 0 < fixLl.getD k 0 := by
  have hall : ∀ l ∈ fixLl, 0 < l := by
    intro l hl
    simp only [fixLl, List.mem_append, List.mem_replicate] at hl
    omega
  have hlt : k < fixLl.length := by
    simp only [fixLl, List.length_append, List.length_replicate]
    exact hk
  rw [List.getD_eq_getElem _ _ hlt]
  exact hall _ (List.getElem_mem _)

theorem fixD_pos {k : Nat} (hk : k < 32) : 0 < fixD.getD k 0 := by
  have hall : ∀ l ∈ fixD, 0 < l := by decide
  have hlt : k < fixD.length := hk
  rw [List.getD_eq_getElem _ _ hlt]
  exact hall _ (List.getElem_mem _)

theorem tokenCoded_fix (t : Token) : tokenCoded fixLl fixD t := by
  cases t with
  | lit b => exact fixLl_pos (by have := b.isLt; omega)
  | mat len dist =>
    have hl := lsymOf_le len
    have hd := dsymOf_lt dist
    exact ⟨fixLl_pos (by omega), fixD_pos (by omega)⟩

/-- The tokens of a block with the fixed codes. -/
theorem At.fixedTokens {z : List Byte} {toks : List Token} {w : Nat} {final : Bool} (he : Expands w y toks z)
    (hw : w ≤ wsize K.wbits) (h15 : w ≤ 32768) (hroom : z.length ≤ K.room)
    (h : At K p y ([final] ++ bitsOf 2 1 ++ (toks.flatMap (tokenBits fixLl fixD) ++ bits)) c) (hs : c.e.stage = .blockType)
    (hl : c.e.last = false) :
    ∃ c', Goes pr c c' ∧ At K (p + 3 + (toks.flatMap (tokenBits fixLl fixD)).length) z bits c' ∧ InBlock fixLl fixD final c'.e ∧
      c'.e.stage = .sym := by
  obtain ⟨c1, hg1, hat1, hsame⟩ := h.blockHeader (pr := pr)
    (g := fun i => { i with last := final, ll := fixLl, dt := fixD, stage := .sym }) hs hl (by decide)
    (passive_of (fun _ => rfl) fun _ _ _ _ _ => rfl) (fun _ => rfl)
  obtain ⟨c2, hg2, hrest⟩ := At.tokens (pr := pr) he codeOk_fixLl codeOk_fixD (fun t _ => tokenCoded_fix t) hw h15
    hroom hat1 hsame.stage ⟨hsame.ll, hsame.dt, hsame.last⟩
  exact ⟨c2, hg1.trans hg2, hrest⟩

/-! ## Stored blocks (R484, R485) -/

/-- `BR.ALIGN` passes over the rest of the byte. -/
theorem At.align (h : At K p y (List.replicate ((8 - p % 8) % 8) false ++ bits) c) :
    At K (p + (8 - p % 8) % 8) y bits ⟨brAlign c.e, c.bus⟩ := by
  have hu := h.unread
  rw [h.unread.padding, ← bitsOf_zero_right] at hu
  rw [h.unread.padding]
  obtain ⟨-, hrest⟩ := hu.split (Nat.mod_le _ _) (Nat.two_pow_pos _)
  exact ⟨hrest, (Nat.sub_le _ _).trans h.slim, h.made.congr rfl⟩

/-- At a byte boundary nothing is in hand. -/
theorem At.cnt_eq (h : At K p y bits c) (hp : p % 8 = 0) : c.e.cnt = 0 := by
  have := h.unread.place
  have := h.slim
  omega

/-- At a byte boundary the next byte is read straight from `IN`. -/
theorem At.rawByte {v : Byte} (h : At K p y (bitsOf 8 v.toNat ++ bits) c) (hp : p % 8 = 0) :
    c.e.regs.availIn ≠ 0 ∧ inByteVal c.e.regs c.bus = v ∧
      At K (p + 8) y bits ⟨{ c.e with regs := inByteRegs c.e.regs c.bus }, inByteBus c.e.regs c.bus⟩ := by
  have hcnt := h.cnt_eq hp
  have hhold : c.e.hold = 0 := by
    have := h.unread.fits
    rw [hcnt] at this
    omega
  have hin : c.e.regs.availIn ≠ 0 := h.unread.availIn_ne (by simp [hcnt])
  obtain ⟨c1, hneed, -, -, hpeek, hat⟩ := h.need v.isLt
  have hc1 : c1 = brFetch c := by
    have hfetch : brNeed 8 c = (true, brFetch c) := by
      rw [brNeed, brNeedLoop, if_neg (by omega), if_neg hin, brNeedLoop, if_pos (by simp [hcnt])]
    rw [hfetch] at hneed
    exact (Prod.mk.inj hneed).2.symm
  have hval : brPeek 8 c1.e = (inByteVal c.e.regs c.bus).toNat := by
    rw [hc1, brPeek, brFetch_e_hold, hhold, hcnt, Nat.zero_add, Nat.pow_zero, Nat.mul_one]
    exact Nat.mod_eq_of_lt (inByteVal c.e.regs c.bus).isLt
  refine ⟨hin, BitVec.eq_of_toNat_eq (hval.symm.trans hpeek), ?_⟩
  rw [hc1] at hat
  refine hat.congr (Prod.ext ?_ (Prod.ext ?_ rfl))
  · show c.e.hold = (brDrop 8 (brFetch c).e).hold
    rw [brDrop_hold, brFetch_e_hold, hhold, hcnt, Nat.zero_add, Nat.pow_zero, Nat.mul_one]
    exact (Nat.div_eq_of_lt (inByteVal c.e.regs c.bus).isLt).symm
  · show c.e.cnt = (brDrop 8 (brFetch c).e).cnt
    rw [brDrop_cnt, brFetch_e_cnt, hcnt]

/-- The bytes of a stored block. -/
theorem At.storedBytes {raw : List Byte} {last : Bool} (h : At K p y (streamBits raw ++ bits) c) (hp : p % 8 = 0)
    (hs : c.e.stage = .storedCopy) (hl : c.e.last = last) (hrem : c.e.remaining = raw.length)
    (hroom : y.length + raw.length ≤ K.room) :
    ∃ c', Goes pr c c' ∧ At K (p + (streamBits raw).length) (y ++ raw) bits c' ∧ c'.e.stage = .blockType ∧ c'.e.last = last := by
  induction raw generalizing p y c with
  | nil =>
    have hm : inflMicro pr .none c = .complete ⟨{ c.e with stage := .blockType }, c.bus⟩ := by
      simp only [inflMicro, hs, storedCopyMicro, hrem]
      rfl
    refine ⟨_, .one hm, ?_, rfl, hl⟩
    rw [List.append_nil]
    exact h.congr rfl
  | cons v raw ih =>
    rw [List.length_cons] at hrem hroom
    have hbits : streamBits (v :: raw) = bitsOf 8 v.toNat ++ streamBits raw := rfl
    rw [hbits, List.append_assoc] at h
    obtain ⟨hin, hval, hat⟩ := h.rawByte hp
    have hout := h.made.availOut_ne (show y.length < K.room by omega)
    have hm : inflMicro pr .none c = .complete (storedByte v
        ⟨{ c.e with regs := inByteRegs c.e.regs c.bus }, inByteBus c.e.regs c.bus⟩) := by
      simp only [inflMicro, hs, storedCopyMicro, hval]
      rw [if_neg (by omega), if_neg (not_or.2 ⟨hin, hout⟩)]
    have hat1 := (hat.emit (by omega) v).congr (e := (storedByte v
      ⟨{ c.e with regs := inByteRegs c.e.regs c.bus }, inByteBus c.e.regs c.bus⟩).e) rfl
    obtain ⟨c', hg, hat', hrest⟩ := ih hat1.stale (by omega) hs hl
      (by show c.e.remaining - 1 = raw.length; omega) (by simp; omega)
    refine ⟨c', .step hm hg, ?_, hrest⟩
    rw [hbits, List.length_append, bitsOf_length, ← Nat.add_assoc]
    rwa [List.append_assoc] at hat'

theorem stolenAct_good {n : Nat} (hn : n ≤ 65535) (i : Infl) :
    stolenAct (BitVec.ofNat 16 n) (BitVec.ofNat 16 (65535 - n)) i = .good { i with remaining := n, stage := .storedCopy } := by
  have hlen : (BitVec.ofNat 16 n).toNat = n := by simp; omega
  have hnlen : (BitVec.ofNat 16 (65535 - n)).toNat = 65535 - n := by simp; omega
  rw [stolenAct, hlen, hnlen, if_neg (by omega)]

/-- The length of a stored block (R484). -/
theorem At.storedLen {n : Nat} {last : Bool} (h : At K p y (List.replicate ((8 - p % 8) % 8) false ++
      (bitsOf 16 n ++ (bitsOf 16 (65535 - n) ++ bits))) c) (hs : c.e.stage = .storedLen) (hl : c.e.last = last) (hn : n ≤ 65535) :
    ∃ c', Goes pr c c' ∧ At K (p + (8 - p % 8) % 8 + 32) y bits c' ∧ c'.e.stage = .storedCopy ∧ c'.e.last = last ∧
      c'.e.remaining = n := by
  have hat := h.align
  rw [← List.append_assoc, ← bitsOf_add_mul (by omega)] at hat
  obtain ⟨c', hg, hat', hsame⟩ := hat.read (pr := pr) (c0 := c) (g := fun i => { i with remaining := n, stage := .storedCopy })
    (G := fun c1 => finish 32 (Flush.none == .trees) c1
      (stolenAct (BitVec.ofNat 16 (brPeek 16 c1.e)) (BitVec.ofNat 16 (brPeek2 16 16 c1.e)) c1.e)) (by omega)
    (by simp only [inflMicro, hs, storedLenMicro]) (passive_of (fun _ => rfl) fun _ _ _ _ _ => rfl)
    (fun c1 _ _ hpeek => by
      have h1 : brPeek 16 c1.e = n := by
        rw [brPeek_of_brPeek hpeek (by decide), Nat.add_mul_mod_self_right, Nat.mod_eq_of_lt (by omega)]
      have h2 : brPeek2 16 16 c1.e = 65535 - n := by
        rw [brPeek2_of_brPeek hpeek (by decide), Nat.add_mul_div_right _ _ (by decide), Nat.div_eq_of_lt (by omega), Nat.zero_add,
          Nat.mod_eq_of_lt (by omega)]
      rw [h1, h2, stolenAct_good hn]
      rfl)
  exact ⟨c', hg, hat', hsame.stage, hsame.last.trans hl, hsame.remaining⟩

/-- A stored block. -/
theorem At.storedBlock {raw : List Byte} {final : Bool} (hroom : y.length + raw.length ≤ K.room) (hn : raw.length ≤ 65535)
    (h : At K p y ([final] ++ bitsOf 2 0 ++ (List.replicate ((8 - (p + 3) % 8) % 8) false ++
      (bitsOf 16 raw.length ++ (bitsOf 16 (65535 - raw.length) ++ (streamBits raw ++ bits))))) c)
    (hs : c.e.stage = .blockType) (hl : c.e.last = false) :
    ∃ c', Goes pr c c' ∧ At K (p + 3 + (8 - (p + 3) % 8) % 8 + 32 + (streamBits raw).length) (y ++ raw) bits c' ∧
      c'.e.stage = .blockType ∧ c'.e.last = final := by
  obtain ⟨c1, hg1, hat1, hsame⟩ := h.blockHeader (pr := pr)
    (g := fun i => { i with last := final, stage := .storedLen }) hs hl (by decide)
    (passive_of (fun _ => rfl) fun _ _ _ _ _ => rfl) (fun _ => rfl)
  obtain ⟨c2, hg2, hat2, hs2, hl2, hrem2⟩ := hat1.storedLen (pr := pr) hsame.stage hsame.last hn
  obtain ⟨c3, hg3, hrest⟩ := hat2.storedBytes (pr := pr) (by omega) hs2 hl2 hrem2 hroom
  exact ⟨c3, hg1.trans (hg2.trans hg3), hrest⟩

end

end Sys2Proof.Machine
end

section
/-! PROOFS. What the description of a dynamic block says (R342 to R348): every symbol of the block has a code, trailing zeros change no
code, and the run-length pairs can be read one after another. -/

namespace Sys2Proof.Machine

/-! ## Trailing zeros change no code (R342) -/

section
variable {lens : Lens} {n max : Nat}

theorem kraft_zeros {xs : Lens} (h : ∀ l ∈ xs, l = 0) : kraft max xs = 0 := by
  rw [List.eq_replicate_of_mem h, kraft_replicate, if_pos rfl, Nat.mul_zero]

theorem completeLens_take (h : completeLens lens max) (hz : ∀ l ∈ lens.drop n, l = 0) : completeLens (lens.take n) max := by
  obtain ⟨hle, hk⟩ := h
  refine ⟨fun l hl => hle l (List.mem_of_mem_take hl), ?_⟩
  have := kraft_append max (lens.take n) (lens.drop n)
  rw [List.take_append_drop, kraft_zeros hz, hk] at this
  exact this.symm

theorem getD_take_of_zeros (hz : ∀ l ∈ lens.drop n, l = 0) (k : Nat) : (lens.take n).getD k 0 = lens.getD k 0 := by
  by_cases hk : k < n
  · simp [List.getD_eq_getElem?_getD, hk]
  · rw [List.getD_eq_default _ _ (by rw [List.length_take]; omega)]
    by_cases hlt : k < lens.length
    · rw [List.getD_eq_getElem _ _ hlt]
      exact (hz _ (List.mem_drop_iff_getElem.2 ⟨k - n, by omega, by congr 1; omega⟩)).symm
    · rw [List.getD_eq_default _ _ (Nat.not_lt.1 hlt)]

theorem blCount_take (hz : ∀ l ∈ lens.drop n, l = 0) (b : Nat) : blCount (lens.take n) b = blCount lens b := by
  rw [blCount, blCount]
  split_ifs with hb
  · rfl
  · have hnone : (lens.drop n).count b = 0 := List.count_eq_zero.2 fun hm => hb (hz b hm)
    have := List.count_append (a := b) (l₁ := lens.take n) (l₂ := lens.drop n)
    rw [List.take_append_drop, hnone] at this
    exact this.symm

theorem firstCode_take (hz : ∀ l ∈ lens.drop n, l = 0) (b : Nat) : firstCode (lens.take n) b = firstCode lens b := by
  induction b with
  | zero => rfl
  | succ b ih => rw [firstCode, firstCode, ih, blCount_take hz]

theorem codeBits_take (hle : ∀ l ∈ lens, l ≤ max) (hz : ∀ l ∈ lens.drop n, l = 0) (k : Nat) :
    codeBits (lens.take n) max k = codeBits lens max k := by
  have hlen := getD_take_of_zeros hz k
  rcases Nat.eq_zero_or_pos (lens.getD k 0) with h0 | hpos
  · rw [codeBits, codeBits, hlen, h0]
    rfl
  · have hpos' : 0 < (lens.take n).getD k 0 := hlen ▸ hpos
    have hkn : k < n := by
      have := getD_pos_lt hpos'
      rw [List.length_take] at this
      omega
    have hrank : codeRank (lens.take n) k = codeRank lens k := by
      rw [codeRank, codeRank, hlen, List.take_take, Nat.min_eq_left hkn.le]
    rw [codeBits, codeBits, hlen, hbCanon_getD (fun l hl => hle l (List.mem_of_mem_take hl)) hpos', hbCanon_getD hle hpos, hlen,
      firstCode_take hz, hrank]

end

/-! ## Every symbol of a block is counted (R331, R345) -/

theorem getD_le_bump (i j : Nat) (f : List Nat) : f.getD j 0 ≤ (bump i f).getD j 0 := by
  by_cases hij : i = j
  · subst hij
    by_cases hlt : i < f.length
    · rw [getD_bump _ _ _ hlt]
      omega
    · rw [List.getD_eq_default _ _ (Nat.not_lt.1 hlt)]
      exact Nat.zero_le _
  · rw [getD_bump_ne hij]

theorem getD_le_llCount (toks : List Token) (f : List Nat) (j : Nat) : f.getD j 0 ≤ (llCount toks f).getD j 0 := by
  induction toks generalizing f with
  | nil => exact Nat.le_refl _
  | cons t toks ih => cases t <;> exact (getD_le_bump _ _ _).trans (ih _)

theorem getD_le_dCount (toks : List Token) (f : List Nat) (j : Nat) : f.getD j 0 ≤ (dCount toks f).getD j 0 := by
  induction toks generalizing f with
  | nil => exact Nat.le_refl _
  | cons t toks ih =>
    cases t with
    | lit b => exact ih _
    | mat len dist => exact (getD_le_bump _ _ _).trans (ih _)

/-- The literal/length symbol of a token. -/
def tokenSym : Token → Nat
  | .lit b => b.toNat
  | .mat len _ => 257 + lsymOf len

theorem tokenSym_lt (t : Token) : tokenSym t < 286 ∧ tokenSym t ≠ 256 := by
  cases t with
  | lit b =>
    have := b.isLt
    exact ⟨by simp only [tokenSym]; omega, by simp only [tokenSym]; omega⟩
  | mat len dist =>
    have := lsymOf_le len
    exact ⟨by simp only [tokenSym]; omega, by simp only [tokenSym]; omega⟩

theorem llCount_cons (t : Token) (toks : List Token) (f : List Nat) : llCount (t :: toks) f = llCount toks (bump (tokenSym t) f) := by
  cases t <;> rfl

theorem llCount_pos {toks : List Token} {t : Token} (ht : t ∈ toks) {f : List Nat} (hf : f.length = 286) :
    0 < (llCount toks f).getD (tokenSym t) 0 := by
  induction toks generalizing f with
  | nil => cases ht
  | cons u toks ih =>
    rw [llCount_cons]
    rcases List.mem_cons.1 ht with rfl | hmem
    · refine lt_of_lt_of_le ?_ (getD_le_llCount _ _ _)
      rw [getD_bump _ _ _ (hf ▸ (tokenSym_lt t).1), if_pos rfl]
      omega
    · exact ih hmem (by rw [bump_length, hf])

theorem llFreq_pos {toks : List Token} {t : Token} (ht : t ∈ toks) : 0 < (llFreq toks).getD (tokenSym t) 0 := by
  rw [llFreq, List.getD_eq_getElem?_getD, List.getElem?_set_ne (tokenSym_lt t).2.symm, ← List.getD_eq_getElem?_getD]
  exact llCount_pos ht List.length_replicate

theorem dCount_pos {toks : List Token} {len dist : Nat} (ht : .mat len dist ∈ toks) {f : List Nat} (hf : f.length = 30) :
    0 < (dCount toks f).getD (dsymOf dist) 0 := by
  induction toks generalizing f with
  | nil => cases ht
  | cons u toks ih =>
    rcases List.mem_cons.1 ht with rfl | hmem
    · refine lt_of_lt_of_le ?_ (getD_le_dCount toks (bump (dsymOf dist) f) (dsymOf dist))
      rw [getD_bump _ _ _ (hf ▸ dsymOf_lt dist), if_pos rfl]
      omega
    · cases u with
      | lit b => exact ih hmem hf
      | mat len' dist' => exact ih hmem (by rw [bump_length, hf])

theorem clFreq_pos {rl : List (Nat × Nat)} (hr : symbolsInRange rl) {q : Nat × Nat} (hq : q ∈ rl) : 0 < (clFreq rl).getD q.1 0 := by
  have hmono : ∀ (xs : List (Nat × Nat)) (f : List Nat) (j : Nat), f.getD j 0 ≤ (xs.foldl (fun f q => bump q.1 f) f).getD j 0 := by
    intro xs
    induction xs with
    | nil => exact fun f j => Nat.le_refl _
    | cons x xs ih => exact fun f j => (getD_le_bump _ _ _).trans (ih _ _)
  have hlen : (List.replicate 19 0).length = 19 := rfl
  rw [clFreq]
  generalize List.replicate 19 0 = f at hlen ⊢
  induction rl generalizing f with
  | nil => cases hq
  | cons x rl ih =>
    obtain ⟨hx, hrl⟩ := List.forall_mem_cons.1 hr
    rw [List.foldl_cons]
    rcases List.mem_cons.1 hq with rfl | hmem
    · refine lt_of_lt_of_le ?_ (hmono _ _ _)
      rw [getD_bump _ _ _ (by omega), if_pos rfl]
      omega
    · exact ih hrl hmem _ (by rw [bump_length, hlen])

/-! ## The first pair (R344) -/

theorem rleRun_head {v r : Nat} (hv : v ≠ 16) (hr : 0 < r) : ∃ q qs, rleRun v r = q :: qs ∧ q.1 ≠ 16 := by
  rw [rleRun]
  split_ifs with h0
  · rw [rleZeros]
    split_ifs with h11 h3
    · exact ⟨_, _, rfl, fun h => absurd h (by decide : (18 : Nat) ≠ 16)⟩
    · exact ⟨_, _, rfl, fun h => absurd h (by decide : (17 : Nat) ≠ 16)⟩
    · obtain ⟨r, rfl⟩ := Nat.exists_eq_succ_of_ne_zero (Nat.ne_of_gt hr)
      exact ⟨_, _, List.replicate_succ, by decide⟩
  · exact ⟨_, _, rfl, hv⟩

theorem rleFrom_head {v r : Nat} (hv : v ≠ 16) (hr : 0 < r) (ls : Lens) : ∃ q qs, rleFrom v r ls = q :: qs ∧ q.1 ≠ 16 := by
  induction ls generalizing r with
  | nil => exact rleRun_head hv hr
  | cons l ls ih =>
    rw [rleFrom]
    split_ifs
    · exact ih (Nat.succ_pos r)
    · obtain ⟨q, qs, hq, h16⟩ := rleRun_head hv hr
      exact ⟨q, qs ++ rleFrom l 1 ls, by rw [hq]; rfl, h16⟩

/-- A copy of the length before never comes first. -/
theorem hbRle_head {lens : Lens} (h : lens ≠ []) (hlt : ∀ l ∈ lens, l < 16) : ∃ q qs, hbRle lens = q :: qs ∧ q.1 ≠ 16 := by
  cases lens with
  | nil => exact absurd rfl h
  | cons l ls => exact rleFrom_head (Nat.ne_of_lt (hlt l List.mem_cons_self)) Nat.one_pos ls

end Sys2Proof.Machine
end

section
/-! PROOFS. `INFL` on a block with dynamic codes (R487 to R490): the counts, the code-length code, the two vectors of code lengths, and
the symbols. -/

namespace Sys2Proof.Machine

/-! ## What a plan promises (R348) -/

section
variable {b : Blk}

theorem Planned.transmittable_ll (h : Planned b) : transmittable (llFreq b.toks) b.llLens 15 := by
  rw [h.ll]
  exact hbBuild_transmittable (by rw [llFreq_length]; decide) (by rw [llFreq_length]; decide)

theorem Planned.transmittable_d (h : Planned b) : transmittable (dFreq b.toks) b.dLens 15 := by
  rw [h.d]
  exact hbBuild_transmittable (by rw [dFreq_length]; decide) (by rw [dFreq_length]; decide)

theorem Planned.transmittable_cl (h : Planned b) : transmittable (clFreq b.rl) b.clLens 7 := by
  rw [h.cl]
  exact hbBuild_transmittable (by rw [clFreq_length]; decide) (by rw [clFreq_length]; decide)

theorem Planned.ll_length (h : Planned b) : b.llLens.length = 286 := h.transmittable_ll.1.trans (llFreq_length _)

theorem Planned.d_length (h : Planned b) : b.dLens.length = 30 := h.transmittable_d.1.trans (dFreq_length _)

theorem Planned.cl_length (h : Planned b) : b.clLens.length = 19 := h.transmittable_cl.1.trans (clFreq_length _)

theorem Planned.hlit_mem (h : Planned b) : 257 ≤ b.hlit ∧ b.hlit ≤ 286 := by
  rw [h.hlit]
  exact ⟨le_trimTo _ _ _, trimTo_le _ (by decide)⟩

theorem Planned.hdist_mem (h : Planned b) : 1 ≤ b.hdist ∧ b.hdist ≤ 30 := by
  rw [h.hdist]
  exact ⟨le_trimTo _ _ _, trimTo_le _ (by decide)⟩

theorem Planned.hclen_mem (h : Planned b) : 4 ≤ b.hclen ∧ b.hclen ≤ 19 := by
  rw [h.hclen]
  exact ⟨le_trimTo _ _ _, trimTo_le _ (by decide)⟩

theorem Planned.ll_zeros (h : Planned b) : ∀ l ∈ b.llLens.drop b.hlit, l = 0 := by
  rw [h.hlit]
  exact mem_drop_trimTo h.ll_length.le

theorem Planned.d_zeros (h : Planned b) : ∀ l ∈ b.dLens.drop b.hdist, l = 0 := by
  rw [h.hdist]
  exact mem_drop_trimTo h.d_length.le

theorem Planned.cl_past (h : Planned b) {k : Nat} (hk : b.hclen ≤ k) (hk' : k < 19) : b.clLens.getD (clOrder.getD k 0) 0 = 0 := by
  rw [h.hclen] at hk
  rw [← getD_map_clOrder _ hk']
  exact getD_of_trimTo_le hk hk'

theorem Planned.ll_take_length (h : Planned b) : (b.llLens.take b.hlit).length = b.hlit :=
  List.length_take_of_le (h.ll_length ▸ h.hlit_mem.2)

theorem Planned.d_take_length (h : Planned b) : (b.dLens.take b.hdist).length = b.hdist :=
  List.length_take_of_le (h.d_length ▸ h.hdist_mem.2)

theorem Planned.ll_take_lt (h : Planned b) : ∀ l ∈ b.llLens.take b.hlit, l < 16 := fun l hl =>
  Nat.lt_succ_of_le (h.transmittable_ll.2.1.1 l (List.mem_of_mem_take hl))

theorem Planned.d_take_lt (h : Planned b) : ∀ l ∈ b.dLens.take b.hdist, l < 16 := fun l hl =>
  Nat.lt_succ_of_le (h.transmittable_d.2.1.1 l (List.mem_of_mem_take hl))

/-- The pairs expand to the two vectors. -/
theorem Planned.expand (h : Planned b) : expandLens [] b.rl = b.llLens.take b.hlit ++ b.dLens.take b.hdist := by
  rw [h.rl, expandLens_append, expandLens_hbRle h.ll_take_lt, expandLens_hbRle_append _ h.d_take_lt]

theorem Planned.symbols (h : Planned b) : symbolsInRange b.rl := by
  rw [h.rl]
  exact List.forall_mem_append.2 ⟨symbolsInRange_hbRle h.ll_take_lt, symbolsInRange_hbRle h.d_take_lt⟩

theorem Planned.rl_head (h : Planned b) : ∃ q qs, b.rl = q :: qs ∧ q.1 ≠ 16 := by
  have hne : b.llLens.take b.hlit ≠ [] := by
    intro h0
    have := h.ll_take_length
    rw [h0] at this
    have := h.hlit_mem.1
    simp at *
    omega
  obtain ⟨q, qs, hq, h16⟩ := hbRle_head hne h.ll_take_lt
  exact ⟨q, qs ++ hbRle (b.dLens.take b.hdist), by rw [h.rl, hq]; rfl, h16⟩

theorem codeOk_of_complete {lens : Lens} {max : Nat} (h : completeLens lens max) : CodeOk lens max := ⟨h.1, h.2.le⟩

/-- Every token of the block has its codes. -/
theorem Planned.tokenCoded (h : Planned b) {t : Token} (ht : t ∈ b.toks) : tokenCoded b.llLens b.dLens t := by
  have hll := h.transmittable_ll.2.2 _ (llFreq_pos ht)
  cases t with
  | lit v => exact hll
  | mat len dist => exact ⟨hll, h.transmittable_d.2.2 _ (dCount_pos ht List.length_replicate)⟩

theorem Planned.eob_coded (h : Planned b) : 0 < b.llLens.getD 256 0 :=
  h.transmittable_ll.2.2 256 (by rw [llFreq_eob]; decide)

end

/-! ## The counts (R487) -/

section
variable {K : Setting} {p : Nat} {y : List Byte} {bits : List Bool} {c : InflCtx} {pr : Params} {b : Blk} {last : Bool}

/-- Inside a dynamic header: the counts are known. -/
structure InHeader (b : Blk) (last : Bool) (i : Infl) : Prop where
  nlen : i.nlen = b.hlit
  ndist : i.ndist = b.hdist
  ncode : i.ncode = b.hclen
  last : i.last = last

theorem sameCore.inHeader {i j : Infl} (hs : sameCore i j) (h : InHeader b last i) : InHeader b last j :=
  ⟨(congrArg Infl.nlen hs :).trans h.nlen, (congrArg Infl.ndist hs :).trans h.ndist, (congrArg Infl.ncode hs :).trans h.ncode,
    hs.last.trans h.last⟩

theorem dynhdrAct_good (h : Planned b) (i : Infl) :
    dynhdrAct (BitVec.ofNat 5 (b.hlit - 257)) (BitVec.ofNat 5 (b.hdist - 1)) (BitVec.ofNat 4 (b.hclen - 4)) i =
      .good { i with
        nlen := b.hlit, ndist := b.hdist, ncode := b.hclen, cl := List.replicate 19 0, nhave := 0, stage := .dynClens } := by
  obtain ⟨hl, hl'⟩ := h.hlit_mem
  obtain ⟨hd, hd'⟩ := h.hdist_mem
  obtain ⟨hc, hc'⟩ := h.hclen_mem
  have h1 : (BitVec.ofNat 5 (b.hlit - 257)).toNat + 257 = b.hlit := by
    rw [BitVec.toNat_ofNat, Nat.mod_eq_of_lt (by omega)]
    omega
  have h2 : (BitVec.ofNat 5 (b.hdist - 1)).toNat + 1 = b.hdist := by
    rw [BitVec.toNat_ofNat, Nat.mod_eq_of_lt (by omega)]
    omega
  have h3 : (BitVec.ofNat 4 (b.hclen - 4)).toNat + 4 = b.hclen := by
    rw [BitVec.toNat_ofNat, Nat.mod_eq_of_lt (by omega)]
    omega
  simp only [dynhdrAct, h1, h2, h3]
  rw [if_neg (by omega)]

theorem At.dynCounts (hp : Planned b) (h : At K p y (bitsOf 5 (b.hlit - 257) ++ (bitsOf 5 (b.hdist - 1) ++
      (bitsOf 4 (b.hclen - 4) ++ bits))) c) (hs : c.e.stage = .dynCounts) (hl : c.e.last = last) :
    ∃ c', Goes pr c c' ∧ At K (p + 14) y bits c' ∧ InHeader b last c'.e ∧ c'.e.stage = .dynClens ∧
      c'.e.cl = List.replicate 19 0 ∧ c'.e.nhave = 0 := by
  obtain ⟨-, hl'⟩ := hp.hlit_mem
  obtain ⟨-, hd'⟩ := hp.hdist_mem
  obtain ⟨-, hc'⟩ := hp.hclen_mem
  have hA : b.hlit - 257 < 2 ^ 5 := by omega
  have hB : b.hdist - 1 < 2 ^ 5 := by omega
  have hC : b.hclen - 4 < 2 ^ 4 := by omega
  have hact := dynhdrAct_good hp
  generalize b.hlit - 257 = m at *
  generalize b.hdist - 1 = k at *
  generalize b.hclen - 4 = j at *
  rw [← List.append_assoc (bitsOf 5 k), ← bitsOf_add_mul hB, ← List.append_assoc, ← bitsOf_add_mul hA] at h
  obtain ⟨c', hg, hat, hsame⟩ := h.read (pr := pr) (c0 := c)
    (g := fun i => { i with
      nlen := b.hlit, ndist := b.hdist, ncode := b.hclen, cl := List.replicate 19 0, nhave := 0, stage := .dynClens })
    (G := fun c1 => finish 14 false c1
      (dynhdrAct (BitVec.ofNat 5 (brPeek 5 c1.e)) (BitVec.ofNat 5 (brPeek2 5 5 c1.e)) (BitVec.ofNat 4 (brPeek2 10 4 c1.e)) c1.e))
    (by omega) (by simp only [inflMicro, hs]) (passive_of (fun _ => rfl) fun _ _ _ _ _ => rfl)
    (fun c1 _ _ hpeek => by
      have h1 : brPeek 5 c1.e = m := by
        rw [brPeek_of_brPeek hpeek (by decide), Nat.add_mul_mod_self_right, Nat.mod_eq_of_lt hA]
      have h2 : brPeek2 5 5 c1.e = k := by
        rw [brPeek2_of_brPeek hpeek (by decide), Nat.add_mul_div_right _ _ (by decide), Nat.div_eq_of_lt hA, Nat.zero_add,
          Nat.add_mul_mod_self_right, Nat.mod_eq_of_lt hB]
      have h3 : brPeek2 10 4 c1.e = j := by
        rw [brPeek2_of_brPeek hpeek (by decide)]
        omega
      rw [h1, h2, h3, hact]
      rfl)
  exact ⟨c', hg, hat, hsame.inHeader ⟨rfl, rfl, rfl, hl⟩, hsame.stage, (congrArg Infl.cl hsame :), (congrArg Infl.nhave hsame :)⟩

/-! ## The code-length code (R488) -/

/-- The first `k` lengths of the code-length code have been read. -/
structure ClRead (lens : Lens) (k : Nat) (i : Infl) : Prop where
  nhave : i.nhave = k
  length : i.cl.length = 19
  read : ∀ j, j < k → i.cl.getD (clOrder.getD j 0) 0 = lens.getD (clOrder.getD j 0) 0
  rest : ∀ j, k ≤ j → j < 19 → i.cl.getD (clOrder.getD j 0) 0 = 0

theorem clOrder_inj : ∀ i < 19, ∀ j < 19, clOrder.getD i 0 = clOrder.getD j 0 → i = j := by decide

theorem clOrder_onto : ∀ s < 19, ∃ j < 19, clOrder.getD j 0 = s := by decide

theorem clOrder_lt : ∀ j < 19, clOrder.getD j 0 < 19 := by decide

theorem ClRead.step {lens : Lens} {k : Nat} {i j : Infl} (h : ClRead lens k i) (hk : k < 19) (hn : j.nhave = k + 1)
    (hcl : j.cl = i.cl.set (clOrder.getD k 0) (lens.getD (clOrder.getD k 0) 0)) : ClRead lens (k + 1) j := by
  have hlt : clOrder.getD k 0 < i.cl.length := h.length ▸ clOrder_lt k hk
  have hother : ∀ m, m < 19 → m ≠ k → j.cl.getD (clOrder.getD m 0) 0 = i.cl.getD (clOrder.getD m 0) 0 := fun m hm hne => by
    rw [hcl, List.getD_eq_getElem?_getD, List.getElem?_set_ne fun he => hne (clOrder_inj m hm k hk he.symm),
      ← List.getD_eq_getElem?_getD]
  refine ⟨hn, ?_, fun m hm => ?_, fun m hm hm' => ?_⟩
  · rw [hcl, List.length_set, h.length]
  · rcases Nat.lt_succ_iff_lt_or_eq.1 hm with hlt' | rfl
    · rw [hother m (by omega) (by omega), h.read m hlt']
    · rw [hcl, List.getD_eq_getElem?_getD, List.getElem?_set_self hlt, Option.getD_some]
  · rw [hother m hm' (by omega), h.rest m (by omega) hm']

/-- Once all that are sent have been read, the vector is complete. -/
theorem ClRead.eq {i : Infl} (hp : Planned b) (h : ClRead b.clLens b.hclen i) : i.cl = b.clLens := by
  refine List.ext_getElem (h.length.trans hp.cl_length.symm) fun s hs hs' => ?_
  rw [h.length] at hs
  obtain ⟨j, hj, rfl⟩ := clOrder_onto s hs
  rw [← List.getD_eq_getElem i.cl 0, ← List.getD_eq_getElem b.clLens 0]
  by_cases hk : j < b.hclen
  · exact h.read j hk
  · rw [h.rest j (Nat.not_lt.1 hk) hj, hp.cl_past (Nat.not_lt.1 hk) hj]

/-- The bits of the lengths from the `k`-th on. -/
def clBits (b : Blk) (k : Nat) : List Bool := ((clOrder.take b.hclen).drop k).flatMap fun s => bitsOf 3 (b.clLens.getD s 0)

theorem clBits_of_lt {k : Nat} (hk : k < b.hclen) (h19 : b.hclen ≤ 19) :
    clBits b k = bitsOf 3 (b.clLens.getD (clOrder.getD k 0) 0) ++ clBits b (k + 1) := by
  have hlt : k < (clOrder.take b.hclen).length := by rwa [List.length_take_of_le h19]
  have hk' : k < clOrder.length := Nat.lt_of_lt_of_le hk h19
  rw [clBits, List.drop_eq_getElem_cons hlt, List.flatMap_cons, List.getElem_take, List.getD_eq_getElem _ _ hk']
  rfl

theorem clBits_end : clBits b b.hclen = [] := by
  have : (clOrder.take b.hclen).drop b.hclen = [] := List.drop_eq_nil_of_le (List.length_take_le _ _)
  rw [clBits, this]
  rfl

theorem At.dynClens (hp : Planned b) {m k : Nat} (hk : k + m = b.hclen) (h : At K p y (clBits b k ++ bits) c)
    (hs : c.e.stage = .dynClens) (hh : InHeader b last c.e) (hcl : ClRead b.clLens k c.e) :
    ∃ c', Goes pr c c' ∧ At K (p + (clBits b k).length) y bits c' ∧ InHeader b last c'.e ∧ c'.e.stage = .dynLens ∧
      c'.e.clt = b.clLens ∧ c'.e.lens = [] := by
  obtain ⟨-, h19⟩ := hp.hclen_mem
  induction m generalizing k p c with
  | zero =>
    obtain rfl : k = b.hclen := hk
    rw [clBits_end] at h ⊢
    have hm : inflMicro pr .none c = .complete ⟨{ c.e with clt := b.clLens, lens := [], stage := .dynLens }, c.bus⟩ := by
      have hbuild : buildClt pr c.e = .good { c.e with clt := b.clLens, lens := [], stage := .dynLens } := by
        have hok : hdBuild pr c.e.cl maxClBits .codes = .ok b.clLens := by
          rw [hcl.eq hp]
          exact hdBuild_of_complete hp.transmittable_cl.2.1 pr .codes
        simp only [buildClt, hok]
      simp only [inflMicro, hs, dynClensMicro]
      rw [if_neg (by rw [hcl.nhave, hh.ncode]; omega), hbuild]
      simp [finish, brDrop]
    exact ⟨_, .one hm, h.congr rfl, ⟨hh.nlen, hh.ndist, hh.ncode, hh.last⟩, rfl, rfl, rfl⟩
  | succ m ih =>
    have hlt : k < b.hclen := by omega
    have hv : b.clLens.getD (clOrder.getD k 0) 0 < 2 ^ 3 := Nat.lt_succ_of_le (getD_le hp.transmittable_cl.2.1.1 _)
    rw [clBits_of_lt hlt h19, List.append_assoc] at h
    obtain ⟨c1, hg, hat, hsame⟩ := h.reading (pr := pr) (act := fun v i => cllenAct (BitVec.ofNat 3 v) i)
      (g := fun i => { i with
        cl := i.cl.set (clOrder.getD i.nhave 0) (b.clLens.getD (clOrder.getD k 0) 0), nhave := i.nhave + 1 }) hv
      (by
        simp only [inflMicro, hs, dynClensMicro]
        rw [if_pos (by rw [hcl.nhave, hh.ncode]; omega)])
      (passive_of (fun _ => rfl) fun _ _ _ _ _ => rfl)
      (fun c1 _ => by rw [cllenAct, BitVec.toNat_ofNat, Nat.mod_eq_of_lt hv])
    have hnext : ClRead b.clLens (k + 1) c1.e :=
      hcl.step (by omega) ((congrArg Infl.nhave hsame :).trans (congrArg (· + 1) hcl.nhave))
        ((congrArg Infl.cl hsame :).trans (by rw [hcl.nhave]))
    obtain ⟨c2, hg2, hat2, hrest⟩ := ih (by omega) hat (hsame.stage.trans hs)
      (hsame.inHeader ⟨hh.nlen, hh.ndist, hh.ncode, hh.last⟩) hnext
    refine ⟨c2, hg.trans hg2, ?_, hrest⟩
    rw [clBits_of_lt hlt h19, List.length_append, bitsOf_length, ← Nat.add_assoc]
    exact hat2

/-! ## The two vectors of code lengths (R489) -/

/-- The lengths one pair adds after `acc` (R146). -/
def pairLens (acc : Lens) (q : Nat × Nat) : Lens :=
  if q.1 < 16 then [q.1]
  else if q.1 = 16 then List.replicate (3 + q.2) (acc.getLastD 0)
  else if q.1 = 17 then List.replicate (3 + q.2) 0
  else List.replicate (11 + q.2) 0

theorem expandLens_cons (acc : Lens) (q : Nat × Nat) (qs : List (Nat × Nat)) :
    expandLens acc (q :: qs) = expandLens (acc ++ pairLens acc q) qs := rfl

theorem pairLens_length_pos (acc : Lens) (q : Nat × Nat) : 0 < (pairLens acc q).length := by
  rw [pairLens]
  split_ifs <;> simp

theorem length_le_expandLens (acc : Lens) (qs : List (Nat × Nat)) : acc.length ≤ (expandLens acc qs).length := by
  induction qs generalizing acc with
  | nil => exact Nat.le_refl _
  | cons q qs ih =>
    have := ih (acc ++ pairLens acc q)
    rw [List.length_append] at this
    rw [expandLens_cons]
    omega

theorem runAct_good {v n : Nat} {i : Infl} (h : i.lens.length + n ≤ i.nlen + i.ndist) :
    runAct v n i = .good { i with lens := i.lens ++ List.replicate n v } := by
  rw [runAct, if_neg (by omega)]

theorem clsymAct_good {q : Nat × Nat} {i : Infl} (h16 : i.lens = [] → q.1 ≠ 16)
    (hroom : i.lens.length + (pairLens i.lens q).length ≤ i.nlen + i.ndist) :
    clsymAct q.1 q.2 i = .good { i with lens := i.lens ++ pairLens i.lens q } := by
  obtain ⟨s, x⟩ := q
  rw [pairLens] at hroom ⊢
  rw [clsymAct]
  split_ifs at hroom ⊢ with hlt heq hseven
  · rfl
  · rw [List.length_replicate] at hroom
    have hne : i.lens ≠ [] := fun h0 => h16 h0 heq
    have hlast : i.lens.getLast? = some (i.lens.getLastD 0) := by
      rw [List.getLastD_eq_getLast?, List.getLast?_eq_some_getLast hne, Option.getD_some]
    simp only [hlast]
    exact runAct_good hroom
  · rw [List.length_replicate] at hroom
    exact runAct_good hroom
  · rw [List.length_replicate] at hroom
    exact runAct_good hroom

/-- The bits of the pairs. -/
def pairBits (b : Blk) (qs : List (Nat × Nat)) : List Bool := qs.flatMap fun q => codeBits b.clLens 7 q.1 ++ bitsOf (clXb q.1) q.2

/-- One pair (R489). -/
theorem At.pair {q : Nat × Nat} (hp : Planned b) (hq : 0 < b.clLens.getD q.1 0) (hx : q.2 < 2 ^ clXb q.1)
    (h : At K p y (codeBits b.clLens 7 q.1 ++ bitsOf (clXb q.1) q.2 ++ bits) c) (hs : c.e.stage = .dynLens)
    (hh : InHeader b last c.e) (hclt : c.e.clt = b.clLens) (h16 : c.e.lens = [] → q.1 ≠ 16)
    (hroom : c.e.lens.length + (pairLens c.e.lens q).length ≤ b.hlit + b.hdist) :
    ∃ c', Goes pr c c' ∧ At K (p + (b.clLens.getD q.1 0 + clXb q.1)) y bits c' ∧ InHeader b last c'.e ∧ c'.e.stage = .dynLens ∧
      c'.e.clt = b.clLens ∧ c'.e.lens = c.e.lens ++ pairLens c.e.lens q := by
  have hpos := pairLens_length_pos c.e.lens q
  have hcode := bitsNum_codeBits_lt b.clLens 7 q.1
  rw [List.append_assoc] at h
  obtain ⟨c1, hd, hr, hn, hslim, hu, hmade⟩ := h.hdDecode (codeOk_of_complete hp.transmittable_cl.2.1) hq
  rw [← List.append_assoc, codeBits_eq_bitsOf, ← bitsOf_add_mul hcode] at hu
  generalize b.clLens.getD q.1 0 = n at *
  generalize bitsNum (codeBits b.clLens 7 q.1) = v at *
  have hv : v + q.2 * 2 ^ n < 2 ^ (n + clXb q.1) := by
    rw [Nat.pow_add]
    nlinarith
  obtain ⟨c2, hneed, hr2, hn2, hpeek, hat⟩ := hu.need (by omega) hmade hv
  have honly := hr.trans hr2
  have hlens : c2.e.lens = c.e.lens := by
    rw [show c2.e = _ from honly]
  have hact : clsymAct q.1 q.2 c2.e = .good { c2.e with lens := c.e.lens ++ pairLens c.e.lens q } := by
    rw [← hlens]
    refine clsymAct_good (by rwa [hlens]) ?_
    rw [hlens, show c2.e = _ from honly]
    show c.e.lens.length + _ ≤ c.e.nlen + c.e.ndist
    rwa [hh.nlen, hh.ndist]
  have hx2 : brPeek2 n (clXb q.1) c2.e = q.2 := by
    rw [brPeek2_of_brPeek hpeek (Nat.le_refl _), Nat.add_mul_div_right _ _ (Nat.two_pow_pos n), Nat.div_eq_of_lt hcode, Nat.zero_add,
      Nat.mod_eq_of_lt hx]
  have hd' : Machine.hdDecode c.e.clt maxClBits c = (.found q.1 n, c1) := by
    rw [hclt]
    exact hd
  have hm : inflMicro pr .none c =
      .complete ⟨brDrop (n + clXb q.1) { c2.e with lens := c.e.lens ++ pairLens c.e.lens q }, c2.bus⟩ := by
    simp only [inflMicro, hs, dynLensMicro, hd']
    rw [if_pos (by rw [hh.nlen, hh.ndist]; omega), needing, hneed]
    simp only [if_true, hx2, hact]
    rfl
  have hcore : sameCore { c.e with lens := c.e.lens ++ pairLens c.e.lens q }
      (staleCtx ⟨brDrop (n + clXb q.1) { c2.e with lens := c.e.lens ++ pairLens c.e.lens q }, c2.bus⟩).e := by
    rw [show c2.e = _ from honly]
    rfl
  have hat' : At K (p + (n + clXb q.1)) y bits ⟨brDrop (n + clXb q.1) { c2.e with lens := c.e.lens ++ pairLens c.e.lens q }, c2.bus⟩ :=
    hat.congr rfl
  refine ⟨_, .one hm, hat'.stale, ?_, ?_, ?_, rfl⟩
  · exact hcore.inHeader ⟨hh.nlen, hh.ndist, hh.ncode, hh.last⟩
  · exact hcore.stage.trans hs
  · exact (congrArg Infl.clt hcore :).trans hclt

/-- All the pairs (R489). -/
theorem At.pairs {qs : List (Nat × Nat)} (hp : Planned b) (hq : ∀ q ∈ qs, 0 < b.clLens.getD q.1 0 ∧ q.2 < 2 ^ clXb q.1)
    (h : At K p y (pairBits b qs ++ bits) c) (hs : c.e.stage = .dynLens) (hh : InHeader b last c.e) (hclt : c.e.clt = b.clLens)
    (h16 : c.e.lens = [] → ∀ q ∈ qs.head?, q.1 ≠ 16) (hend : (expandLens c.e.lens qs).length = b.hlit + b.hdist) :
    ∃ c', Goes pr c c' ∧ At K (p + (pairBits b qs).length) y bits c' ∧ InHeader b last c'.e ∧ c'.e.stage = .dynLens ∧
      c'.e.lens = expandLens c.e.lens qs := by
  induction qs generalizing p c with
  | nil => exact ⟨c, .refl _, h, hh, hs, rfl⟩
  | cons q qs ih =>
    obtain ⟨⟨hpos, hx⟩, hqs⟩ := List.forall_mem_cons.1 hq
    have hle := length_le_expandLens (c.e.lens ++ pairLens c.e.lens q) qs
    rw [expandLens_cons] at hend
    rw [hend, List.length_append] at hle
    have hbits : pairBits b (q :: qs) = codeBits b.clLens 7 q.1 ++ bitsOf (clXb q.1) q.2 ++ pairBits b qs := rfl
    rw [hbits, List.append_assoc] at h
    obtain ⟨c1, hg, hat, hh1, hs1, hclt1, hlens1⟩ := At.pair (pr := pr) hp hpos hx h hs hh hclt (fun h0 => h16 h0 q rfl) hle
    have hne : c1.e.lens ≠ [] := by
      have := pairLens_length_pos c.e.lens q
      rw [hlens1, Ne, ← List.length_eq_zero_iff, List.length_append]
      omega
    obtain ⟨c2, hg2, hat2, hh2, hs2, hlens2⟩ := ih hqs hat hs1 hh1 hclt1 (fun h0 => absurd h0 hne) (by rwa [hlens1])
    refine ⟨c2, hg.trans hg2, ?_, hh2, hs2, by rw [hlens2, hlens1, expandLens_cons]⟩
    rw [hbits, List.length_append, List.length_append, codeBits_length, bitsOf_length, ← Nat.add_assoc]
    exact hat2

/-! ## The tables and the block (R490) -/

theorem buildTables_good (hp : Planned b) {i : Infl} (hh : InHeader b last i)
    (hlens : i.lens = b.llLens.take b.hlit ++ b.dLens.take b.hdist) :
    buildTables pr i = .good { i with ll := b.llLens.take b.hlit, dt := b.dLens.take b.hdist, stage := .sym } := by
  have heob : i.lens.getD 256 0 ≠ 0 := by
    have := hp.hlit_mem.1
    rw [hlens, List.getD_append _ _ _ _ (by rw [hp.ll_take_length]; omega), getD_take_of_zeros hp.ll_zeros]
    exact Nat.ne_of_gt hp.eob_coded
  have hll : i.lens.take i.nlen = b.llLens.take b.hlit := by
    rw [hlens, hh.nlen, List.take_left' hp.ll_take_length]
  have hd : (i.lens.drop i.nlen).take i.ndist = b.dLens.take b.hdist := by
    rw [hlens, hh.nlen, List.drop_left' hp.ll_take_length, hh.ndist, List.take_take, Nat.min_self]
  have hokl : hdBuild pr (i.lens.take i.nlen) maxBits .lens = .ok (b.llLens.take b.hlit) := by
    rw [hll]
    exact hdBuild_of_complete (completeLens_take hp.transmittable_ll.2.1 hp.ll_zeros) pr .lens
  have hokd : hdBuild pr ((i.lens.drop i.nlen).take i.ndist) maxBits .dists = .ok (b.dLens.take b.hdist) := by
    rw [hd]
    exact hdBuild_of_complete (completeLens_take hp.transmittable_d.2.1 hp.d_zeros) pr .dists
  simp only [buildTables, if_neg heob, hokl, hokd]

theorem tokenBits_take (hp : Planned b) (t : Token) :
    tokenBits (b.llLens.take b.hlit) (b.dLens.take b.hdist) t = tokenBits b.llLens b.dLens t := by
  have hl := codeBits_take hp.transmittable_ll.2.1.1 hp.ll_zeros
  have hd := codeBits_take hp.transmittable_d.2.1.1 hp.d_zeros
  cases t with
  | lit v => exact hl _
  | mat len dist => simp only [tokenBits, hl, hd]

theorem tokenCoded_take (hp : Planned b) {t : Token} (ht : t ∈ b.toks) :
    tokenCoded (b.llLens.take b.hlit) (b.dLens.take b.hdist) t := by
  have h := hp.tokenCoded ht
  cases t with
  | lit v => exact h.trans_eq (getD_take_of_zeros hp.ll_zeros _).symm
  | mat len dist =>
    obtain ⟨hl, hd⟩ := h
    exact ⟨hl.trans_eq (getD_take_of_zeros hp.ll_zeros _).symm, hd.trans_eq (getD_take_of_zeros hp.d_zeros _).symm⟩

theorem treeBits_eq (b : Blk) : treeBits b =
    bitsOf 5 (b.hlit - 257) ++ (bitsOf 5 (b.hdist - 1) ++ (bitsOf 4 (b.hclen - 4) ++ (clBits b 0 ++ pairBits b b.rl))) := by
  simp only [treeBits, clBits, pairBits, List.drop_zero, List.append_assoc]

/-- The description of the codes (R487 to R490). -/
theorem At.trees (hp : Planned b) (hfit : ∀ q ∈ b.rl, q.2 < 2 ^ clXb q.1) (h : At K p y (treeBits b ++ bits) c)
    (hs : c.e.stage = .dynCounts) (hl : c.e.last = last) :
    ∃ c', Goes pr c c' ∧ At K (p + (treeBits b).length) y bits c' ∧ c'.e.stage = .sym ∧
      InBlock (b.llLens.take b.hlit) (b.dLens.take b.hdist) last c'.e := by
  rw [treeBits_eq] at h ⊢
  simp only [List.append_assoc] at h
  obtain ⟨c1, hg1, hat1, hh1, hs1, hcl1, hn1⟩ := At.dynCounts (pr := pr) hp h hs hl
  have hstart : ClRead b.clLens 0 c1.e := by
    refine ⟨hn1, by rw [hcl1]; rfl, fun j hj => absurd hj (Nat.not_lt_zero j), fun j _ _ => ?_⟩
    rw [hcl1]
    exact getD_zeros 19 _
  obtain ⟨c2, hg2, hat2, hh2, hs2, hclt2, hlens2⟩ := At.dynClens (pr := pr) hp (Nat.zero_add _) hat1 hs1 hh1 hstart
  obtain ⟨q0, qs0, hrl, h16⟩ := hp.rl_head
  have hend : expandLens c2.e.lens b.rl = b.llLens.take b.hlit ++ b.dLens.take b.hdist := by rw [hlens2, hp.expand]
  obtain ⟨c3, hg3, hat3, hh3, hs3, hlens3⟩ := At.pairs (pr := pr) hp
    (fun q hq => ⟨hp.transmittable_cl.2.2 _ (clFreq_pos hp.symbols hq), hfit q hq⟩) hat2 hs2 hh2 hclt2
    (fun _ q hq => by
      rw [hrl] at hq
      obtain rfl := Option.some.inj hq
      exact h16)
    (by rw [hend, List.length_append, hp.ll_take_length, hp.d_take_length])
  rw [hend] at hlens3
  have hm : inflMicro pr .none c3 = .complete
      ⟨{ c3.e with ll := b.llLens.take b.hlit, dt := b.dLens.take b.hdist, stage := .sym }, c3.bus⟩ := by
    simp only [inflMicro, hs3, dynLensMicro]
    rw [if_neg, buildTables_good hp hh3 hlens3]
    · simp [finish, brDrop]
    · rw [hlens3, List.length_append, hp.ll_take_length, hp.d_take_length, hh3.nlen, hh3.ndist]
      exact Nat.lt_irrefl _
  refine ⟨_, hg1.trans (hg2.trans (hg3.trans (.one hm))), ?_, rfl, rfl, rfl, hh3.last⟩
  simp only [List.length_append, bitsOf_length, ← Nat.add_assoc]
  exact hat3.congr rfl

/-- The tokens of a block with dynamic codes. -/
theorem At.dynamicTokens {z : List Byte} {w : Nat} {final : Bool} (hp : Planned b) (hfit : ∀ q ∈ b.rl, q.2 < 2 ^ clXb q.1)
    (he : Expands w y b.toks z) (hw : w ≤ wsize K.wbits) (h15 : w ≤ 32768) (hroom : z.length ≤ K.room)
    (h : At K p y ([final] ++ bitsOf 2 2 ++ (treeBits b ++ (b.toks.flatMap (tokenBits b.llLens b.dLens) ++ bits))) c)
    (hs : c.e.stage = .blockType) (hl : c.e.last = false) :
    ∃ c', Goes pr c c' ∧
      At K (p + 3 + (treeBits b).length + (b.toks.flatMap (tokenBits b.llLens b.dLens)).length) z bits c' ∧
        InBlock (b.llLens.take b.hlit) (b.dLens.take b.hdist) final c'.e ∧ c'.e.stage = .sym := by
  obtain ⟨c1, hg1, hat1, hsame⟩ := h.blockHeader (pr := pr)
    (g := fun i => { i with last := final, stage := .dynCounts }) hs hl (by decide)
    (passive_of (fun _ => rfl) fun _ _ _ _ _ => rfl) (fun _ => rfl)
  obtain ⟨c2, hg2, hat2, hs2, hb2⟩ := At.trees (pr := pr) hp hfit hat1 hsame.stage hsame.last
  rw [← funext (tokenBits_take hp)] at hat2 ⊢
  obtain ⟨c3, hg3, hrest⟩ := At.tokens (pr := pr) he (codeOk_of_complete (completeLens_take hp.transmittable_ll.2.1 hp.ll_zeros))
    (codeOk_of_complete (completeLens_take hp.transmittable_d.2.1 hp.d_zeros)) (fun t ht => tokenCoded_take hp ht) hw h15 hroom
    hat2 hs2 hb2
  exact ⟨c3, hg1.trans (hg2.trans hg3), hrest⟩

end

end Sys2Proof.Machine
end

section
/-! PROOFS. `INFL` on a stream of blocks (R372): each block puts out what it codes, and so do blocks one after another. -/

namespace Sys2Proof.Machine

section
variable {K : Setting} {p w : Nat} {y z : List Byte} {bits bs : List Bool} {c : InflCtx} {pr : Params} {b : Blk}

theorem BlkOf.length_le (h : BlkOf w y b z) : y.length ≤ z.length := by
  by_cases ht : b.typ = .stored
  · rw [h.stored ht, List.length_append]
    exact Nat.le_add_right _ _
  · exact (h.coded ht).length_le

/-- The code lengths of a coded block's end. -/
def eobLens (b : Blk) : Lens := if b.typ = .dynamic then b.llLens else fixLl

/-- The bits of a coded block's tokens. -/
def bodyBits (b : Blk) : List Bool :=
  if b.typ = .dynamic then b.toks.flatMap (tokenBits b.llLens b.dLens) else b.toks.flatMap (tokenBits fixLl fixD)

theorem symbolBits_eq (ht : b.typ ≠ .stored) : symbolBits b = bodyBits b ++ codeBits (eobLens b) 15 256 := by
  unfold symbolBits bodyBits eobLens
  cases h : b.typ with
  | stored => exact absurd h ht
  | fixed => rfl
  | dynamic => rfl

/-- Where only the end of a coded block is left to read. -/
def AtEob (b : Blk) (i : Infl) : Prop :=
  i.stage = .sym ∧ ∃ L D, InBlock L D b.final i ∧ CodeOk L 15 ∧ 0 < L.getD 256 0 ∧ codeBits L 15 256 = codeBits (eobLens b) 15 256

/-- A coded block but for its end. -/
theorem At.codedBlock (ht : b.typ ≠ .stored) (hb : BlkOf w y b z) (hw : w ≤ wsize K.wbits) (h15 : w ≤ 32768)
    (hroom : z.length ≤ K.room) (h : At K p y (headerBits p b ++ (bodyBits b ++ bits)) c) (hs : c.e.stage = .blockType)
    (hl : c.e.last = false) :
    ∃ c', Goes pr c c' ∧ At K (p + (headerBits p b ++ bodyBits b).length) z bits c' ∧ AtEob b c'.e := by
  obtain ⟨-, -, -, -, hfit, -, -⟩ := hb.inv
  unfold headerBits headerRest bodyBits at h ⊢
  cases htyp : b.typ with
  | stored => exact absurd htyp ht
  | fixed =>
    rw [htyp] at h
    simp only [blockTypeNum, List.append_nil, if_neg (show ¬BlockType.fixed = .dynamic from nofun)] at h ⊢
    obtain ⟨c', hg, hat, hin, hs'⟩ := At.fixedTokens (pr := pr) (final := b.final) (hb.coded ht) hw h15 hroom h hs hl
    refine ⟨c', hg, ?_, hs', fixLl, fixD, hin, codeOk_fixLl, by decide, ?_⟩
    · simp only [List.length_append, List.length_singleton, bitsOf_length, ← Nat.add_assoc] at hat ⊢
      exact hat
    · rw [eobLens, htyp, if_neg nofun]
  | dynamic =>
    have hp := hb.planned htyp
    rw [htyp] at h
    simp only [blockTypeNum, if_true, List.append_assoc] at h ⊢
    obtain ⟨c', hg, hat, hin, hs'⟩ := At.dynamicTokens (pr := pr) (final := b.final) hp hfit (hb.coded ht) hw h15 hroom
      (by simpa only [List.append_assoc] using h) hs hl
    refine ⟨c', hg, ?_, hs', _, _, hin, codeOk_of_complete (completeLens_take hp.transmittable_ll.2.1 hp.ll_zeros),
      hp.eob_coded.trans_eq (getD_take_of_zeros hp.ll_zeros _).symm, ?_⟩
    · simp only [List.length_append, List.length_singleton, bitsOf_length, ← Nat.add_assoc] at hat ⊢
      exact hat
    · rw [eobLens, htyp, if_pos rfl, codeBits_take hp.transmittable_ll.2.1.1 hp.ll_zeros]

/-- A block. -/
theorem At.block (hb : BlkOf w y b z) (hw : w ≤ wsize K.wbits) (h15 : w ≤ 32768) (hroom : z.length ≤ K.room)
    (h : At K p y (blkBits p b ++ bits) c) (hs : c.e.stage = .blockType) (hl : c.e.last = false) :
    ∃ c', Goes pr c c' ∧ At K (p + (blkBits p b).length) z bits c' ∧ c'.e.stage = .blockType ∧ c'.e.last = b.final := by
  by_cases ht : b.typ = .stored
  · obtain ⟨-, -, -, -, -, -, hmax⟩ := hb.inv
    have hz := hb.stored ht
    have hraw := hmax ht
    rw [hz, List.length_append] at hroom
    simp only [blkBits, headerBits, headerRest, symbolBits, ht, blockTypeNum, List.append_assoc] at h ⊢
    obtain ⟨c', hg, hat, hrest⟩ := At.storedBlock (pr := pr) (final := b.final) hroom (hraw.trans (by decide))
      (by simpa only [List.append_assoc] using h) hs hl
    refine ⟨c', hg, ?_, hrest⟩
    rw [hz]
    simp only [List.length_append, List.length_singleton, bitsOf_length, List.length_replicate, ← Nat.add_assoc] at hat ⊢
    exact hat
  · rw [blkBits, symbolBits_eq ht] at h ⊢
    simp only [List.append_assoc] at h
    obtain ⟨c1, hg1, hat1, hs1, L, D, hin, hL, hpos, heob⟩ := At.codedBlock (pr := pr) ht hb hw h15 hroom h hs hl
    rw [← heob] at hat1 ⊢
    obtain ⟨c2, hg2, hat2, hrest⟩ := hat1.endOfBlock (pr := pr) hs1 hin hL hpos
    refine ⟨c2, hg1.trans hg2, ?_, hrest⟩
    simp only [List.length_append, codeBits_length, ← Nat.add_assoc] at hat2 ⊢
    exact hat2

/-- Blocks one after another. -/
theorem At.blocks (hc : Coded w bs z) (hp : p % 8 = 0) (hw : w ≤ wsize K.wbits) (h15 : w ≤ 32768) (hroom : z.length ≤ K.room)
    (h : At K p [] (bs ++ bits) c) (hs : c.e.stage = .blockType) (hl : c.e.last = false) :
    ∃ c', Goes pr c c' ∧ At K (p + bs.length) z bits c' ∧ c'.e.stage = .blockType ∧ c'.e.last = false := by
  induction hc generalizing bits with
  | nil => exact ⟨c, .refl _, h, hs, hl⟩
  | @snoc bs y z b _ hb hf ih =>
    rw [List.append_assoc] at h
    obtain ⟨c1, hg, hat, hs1, hl1⟩ := ih (hb.length_le.trans hroom) h
    have hmod : blkBits bs.length b = blkBits (p + bs.length) b := blkBits_mod (by omega) b
    rw [hmod] at hat ⊢
    obtain ⟨c2, hg2, hat2, hs2, hl2⟩ := At.block (pr := pr) hb hw h15 hroom hat hs1 hl1
    refine ⟨c2, hg.trans hg2, ?_, hs2, hl2.trans hf⟩
    rw [List.length_append, ← Nat.add_assoc]
    exact hat2

end

end Sys2Proof.Machine
end

section
/-! PROOFS. `INFL` on the headers of the containers (R470 to R480): the fields of whole bytes that stand before the first block, with the
CRC16 of the gzip header stepped by every byte of it (R275). -/

namespace Sys2Proof.Machine

/-! ## Fields of whole bytes -/

theorem streamBits_inj {xs ys : List Byte} (hlen : xs.length = ys.length) (h : streamBits xs = streamBits ys) : xs = ys := by
  have hx := leNat_lt xs
  have hy := leNat_lt ys
  have h256 : ∀ n, 256 ^ n = 2 ^ (8 * n) := fun n => by rw [Nat.pow_mul]
  rw [h256] at hx hy
  have hnum := congrArg bitsNum h
  rw [streamBits_eq_bitsOf, streamBits_eq_bitsOf, bitsNum_bitsOf, bitsNum_bitsOf, Nat.mod_eq_of_lt hx, Nat.mod_eq_of_lt hy] at hnum
  have hl := leBytes_leNat (Nat.le_refl xs.length)
  have hr := leBytes_leNat (Nat.le_refl ys.length)
  rw [List.take_length] at hl hr
  rw [← hl, ← hr, hnum, hlen]

section
variable {K : Setting} {p : Nat} {y : List Byte} {bits : List Bool} {c : InflCtx} {pr : Params}

/-- At a byte boundary a field of whole bytes is fetched, and nothing else. -/
theorem At.fetched {bs : List Byte} (h : At K p y (streamBits bs ++ bits) c) (hp : p % 8 = 0) {c1 : InflCtx}
    (hneed : brNeed (8 * bs.length) c = (true, c1)) :
    c1.e.hcrc = if headerCrcStage c.e.stage then crc32 c.e.hcrc bs else c.e.hcrc := by
  have hcnt := h.cnt_eq hp
  have hroom := h.unread.room
  have heq := h.unread.bits_eq
  have hheld : heldBits c.e = [] := by rw [heldBits, hcnt, bitsOf_zero]
  rw [hheld, List.nil_append] at heq
  have hlen := congrArg List.length heq
  rw [streamBits_length, bytesAt_length, List.length_append, streamBits_length] at hlen
  have hk : needCount (8 * bs.length) c.e = bs.length := by
    rw [needCount, hcnt, Nat.min_eq_left (by omega)]
    omega
  have hr : ReadIn c bs.length (brNeed (8 * bs.length) c).2 := by
    have := readIn_brNeed (n := 8 * bs.length) (c := c) (by rw [hk]; omega)
    rwa [hk] at this
  have hbytes : nextBytes c bs.length = bs := by
    refine streamBits_inj (bytesAt_length _ _ _) ?_
    have hsplit : c.e.regs.availIn.toNat = bs.length + (c.e.regs.availIn.toNat - bs.length) := by omega
    rw [nextBytes, hsplit, bytesAt_add, streamBits_append] at heq
    exact (List.append_inj heq (by rw [streamBits_length, streamBits_length, bytesAt_length])).1
  have := hr.hcrc
  rwa [hneed, hbytes] at this

/-- A micro-step that reads a field of whole bytes. -/
theorem At.field {bs : List Byte} {n : Nat} {act : Nat → Infl → Act} {g : Infl → Infl} (h : At K p y (streamBits bs ++ bits) c)
    (hp : p % 8 = 0) (hm : inflMicro pr .none c = Machine.reading n c act) (hn : n = 8 * bs.length) (hg : Passive g)
    (hgc : ∀ i, (g i).hcrc = i.hcrc) (hact : ∀ c1 : InflCtx, onlyReader c.e c1.e →
      c1.e.hcrc = (if headerCrcStage c.e.stage then crc32 c.e.hcrc bs else c.e.hcrc) → act (leNat bs) c1.e = .good (g c1.e)) :
    ∃ c', Goes pr c c' ∧ At K (p + 8 * bs.length) y bits c' ∧ sameCore (g c.e) c'.e ∧
      c'.e.hcrc = if headerCrcStage c.e.stage then crc32 c.e.hcrc bs else c.e.hcrc := by
  subst hn
  have hlt : leNat bs < 2 ^ (8 * bs.length) := by
    rw [Nat.pow_mul]
    exact leNat_lt bs
  have hbits := h
  rw [streamBits_eq_bitsOf] at hbits
  obtain ⟨c1, hneed, hr, hle, hpeek, hat⟩ := hbits.need hlt
  have hcrc := h.fetched hp hneed
  have hstep : inflMicro pr .none c = .complete ⟨brDrop (8 * bs.length) (g c1.e), c1.bus⟩ := by
    rw [hm, Machine.reading, needing, hneed]
    simp only [if_true, hpeek, hact c1 hr hcrc]
    rfl
  exact ⟨_, .one hstep, (hat.congr (brDrop_io (hg.io c1.e) _)).stale, (hg.core _ _ hr).trans rfl, (hgc c1.e).trans hcrc⟩

/-! ## The zlib header (R470) -/

theorem byteOf_pair (a b : Byte) : byteOf 0 (leNat [a, b]) = a ∧ byteOf 1 (leNat [a, b]) = b := by
  have ha := a.isLt
  have hb := b.isLt
  constructor <;> apply BitVec.eq_of_toNat_eq
  · rw [byteOf_zero, BitVec.toNat_ofNat]
    simp only [leNat_cons, leNat_nil]
    omega
  · rw [byteOf_one, BitVec.toNat_ofNat]
    simp only [leNat_cons, leNat_nil]
    omega

theorem At.zlibHeader {wb fl : Nat} (hfl : fl ≤ 3) (hlo : 8 ≤ wb) (hhi : wb ≤ 15) (hw : wb ≤ K.wbits)
    (h : At K p y (streamBits [BitVec.ofNat 8 (zencCmf wb), BitVec.ofNat 8 (zencFlg wb fl)] ++ bits) c) (hp : p % 8 = 0)
    (hs : c.e.stage = .zhdr) (hl : c.e.last = false) :
    ∃ c', Goes pr c c' ∧ At K (p + 16) y bits c' ∧ c'.e.stage = .blockType ∧ c'.e.last = false := by
  have hcmf : (BitVec.ofNat 8 (zencCmf wb)).toNat = zencCmf wb := Nat.mod_eq_of_lt (zencCmf_lt hhi)
  have hflg : (BitVec.ofNat 8 (zencFlg wb fl)).toNat = zencFlg wb fl := Nat.mod_eq_of_lt (zencFlg_lt _ hfl)
  have hdict : (BitVec.ofNat 8 (zencFlg wb fl)).getLsbD 5 = false := by
    have hbit := zencFlg_dictBit wb fl
    rw [← hflg] at hbit
    exact Bool.eq_false_iff.2 fun h1 => Nat.zero_ne_one (hbit.symm.trans ((getLsbD_iff _ 5).1 h1))
  have hcheck : zhdrCheck (BitVec.ofNat 8 (zencCmf wb)) (BitVec.ofNat 8 (zencFlg wb fl)) K.wbits = none :=
    zhdrCheck_eq_none (by rw [hcmf, hflg]; exact zencCmf_zencFlg_mod wb fl) (by rw [hcmf]; exact zencCmf_method wb)
      (by rw [hcmf, zencCmf_window hlo]; exact hw)
  obtain ⟨h0, h1⟩ := byteOf_pair (BitVec.ofNat 8 (zencCmf wb)) (BitVec.ofNat 8 (zencFlg wb fl))
  obtain ⟨c', hg, hat, hsame, -⟩ := h.field (pr := pr) (n := 16) (act := fun v i => zhdrAct (byteOf 0 v) (byteOf 1 v) i)
    (g := fun i => { i with stage := .blockType }) hp (by simp only [inflMicro, hs]) rfl
    (passive_of (fun _ => rfl) fun _ _ _ _ _ => rfl) (fun _ => rfl) (fun c1 hr _ => by
      have hwb : c1.e.wbits = K.wbits := by
        rw [show c1.e = _ from hr]
        exact h.made.wbits
      simp only [h0, h1, zhdrAct, hwb, hcheck, hdict]
      rfl)
  exact ⟨c', hg, hat, hsame.stage, hsame.last.trans hl⟩

/-! ## The gzip header (R472 to R480) -/

/-- In the gzip header, with the bytes `done` of it read. -/
structure InGz (g : GzHdr) (done : List Byte) (i : Infl) : Prop where
  flags : i.gzflags = BitVec.ofNat 8 (gzFlg g)
  hcrc : i.hcrc = crc32 0 done
  last : i.last = false

theorem gzFlag_bits {g : GzHdr} {done : List Byte} {i : Infl} (h : InGz g done i) : gzFlag 1 i = g.hcrc ∧
    gzFlag 2 i = g.extra.isSome ∧ gzFlag 3 i = g.name.isSome ∧ gzFlag 4 i = g.comment.isSome := by
  simp only [gzFlag, h.flags, gzFlg]
  generalize g.text = a
  generalize g.hcrc = b
  generalize g.extra.isSome = d
  generalize g.name.isSome = e
  generalize g.comment.isSome = f
  revert a b d e f
  decide

theorem crc32_append (xs ys : List Byte) (a : Word) : crc32 (crc32 a xs) ys = crc32 a (xs ++ ys) := List.foldl_append.symm

variable {g : GzHdr} {done : List Byte}

theorem InGz.congr {i j : Infl} (h : InGz g done i) (hs : sameCore i j) (hc : j.hcrc = i.hcrc) : InGz g done j :=
  ⟨(congrArg Infl.gzflags hs :).trans h.flags, hc.trans h.hcrc, hs.last.trans h.last⟩

/-- A field of the gzip header. -/
theorem At.gzField {bs : List Byte} {n : Nat} {act : Nat → Infl → Act} {u : Infl → Infl} (h : At K p y (streamBits bs ++ bits) c)
    (hp : p % 8 = 0) (hz : InGz g done c.e) (hs : headerCrcStage c.e.stage = true)
    (hm : inflMicro pr .none c = Machine.reading n c act) (hn : n = 8 * bs.length) (hu : Passive u)
    (huz : ∀ i, (u i).hcrc = i.hcrc ∧ (u i).gzflags = i.gzflags ∧ (u i).last = i.last)
    (hact : ∀ c1 : InflCtx, onlyReader c.e c1.e → act (leNat bs) c1.e = .good (u c1.e)) :
    ∃ c', Goes pr c c' ∧ At K (p + 8 * bs.length) y bits c' ∧ sameCore (u c.e) c'.e ∧ InGz g (done ++ bs) c'.e := by
  obtain ⟨c', hg, hat, hsame, hcrc⟩ := h.field hp hm hn hu (fun i => (huz i).1) fun c1 hr _ => hact c1 hr
  obtain ⟨-, hflags, hlast⟩ := huz c.e
  refine ⟨c', hg, hat, hsame, ⟨(congrArg Infl.gzflags hsame :).trans (hflags.trans hz.flags), ?_, hsame.last.trans (hlast.trans hz.last)⟩⟩
  rw [hcrc, if_pos hs, hz.hcrc, crc32_append]

/-- A stage of the gzip header without its field. -/
theorem At.gzSkip {st : IStage} (h : At K p y bits c) (hz : InGz g done c.e)
    (hm : inflMicro pr .none c = silently c { c.e with stage := st }) :
    ∃ c', Goes pr c c' ∧ At K p y bits c' ∧ InGz g done c'.e ∧ c'.e.stage = st :=
  ⟨_, .one hm, h.congr rfl, ⟨hz.flags, hz.hcrc, hz.last⟩, rfl⟩

/-- The ten bytes every header has. -/
theorem At.gzTen {strategy : Strategy} {level : Nat} (h : At K p y (streamBits (gzTen g strategy level) ++ bits) c) (hp : p % 8 = 0)
    (hs : c.e.stage = .gzMagic) (hc : c.e.hcrc = 0) (hl : c.e.last = false) :
    ∃ c', Goes pr c c' ∧ At K (p + 80) y bits c' ∧ InGz g (Machine.gzTen g strategy level) c'.e ∧
      c'.e.stage = if g.extra.isSome then .gzExlen else .gzName := by
  have hbytes : Machine.gzTen g strategy level = [0x1F, 0x8B] ++ ([8, BitVec.ofNat 8 (gzFlg g)] ++ (leBytes 4 g.mtime.toNat ++
      [g.xfl.getD (xflOf strategy level), g.os])) := rfl
  rw [hbytes] at h ⊢
  simp only [streamBits_append, List.append_assoc] at h
  obtain ⟨c1, hg1, hat1, hsame1, hcrc1⟩ := h.field (pr := pr) (n := 16) (act := fun v i => gzMagicAct (byteOf 0 v) (byteOf 1 v) i)
    (g := fun i => { i with stage := .gzCmflg }) hp (by simp only [inflMicro, hs]) rfl
    (passive_of (fun _ => rfl) fun _ _ _ _ _ => rfl) (fun _ => rfl) (fun c1 _ _ => by
      simp only [(byteOf_pair 0x1F 0x8B).1, (byteOf_pair 0x1F 0x8B).2]
      rfl)
  have hs1 : c1.e.stage = .gzCmflg := hsame1.stage
  obtain ⟨h0, h1⟩ := byteOf_pair 8 (BitVec.ofNat 8 (gzFlg g))
  obtain ⟨c2, hg2, hat2, hsame2, hcrc2⟩ := hat1.field (pr := pr) (n := 16) (act := fun v i => gzCmflgAct (byteOf 0 v) (byteOf 1 v) i)
    (g := fun i => { i with gzflags := BitVec.ofNat 8 (gzFlg g), stage := .gzMtime }) (by simp; omega)
    (by simp only [inflMicro, hs1]) rfl
    (passive_of (fun _ => rfl) fun _ _ _ _ _ => rfl) (fun _ => rfl) (fun c1 _ _ => by
      simp only [h0, h1, gzCmflgAct, gzCmflgCheck_gzFlg])
  have hs2 : c2.e.stage = .gzMtime := hsame2.stage
  rw [hs, hc] at hcrc1
  rw [hs1, hcrc1] at hcrc2
  have hz2 : InGz g ([0x1F, 0x8B] ++ [8, BitVec.ofNat 8 (gzFlg g)]) c2.e :=
    ⟨(congrArg Infl.gzflags hsame2 :), hcrc2.trans (crc32_append _ _ _), hsame2.last.trans (hsame1.last.trans hl)⟩
  obtain ⟨c3, hg3, hat3, hsame3, hz3⟩ := hat2.gzField (pr := pr) (n := 32) (act := fun v i => gzMtimeAct (BitVec.ofNat 32 v) i)
    (u := fun i => { i with stage := .gzXflos }) (by simp; omega) hz2 (by rw [hs2]; rfl) (by simp only [inflMicro, hs2]) rfl
    (passive_of (fun _ => rfl) fun _ _ _ _ _ => rfl) (fun _ => ⟨rfl, rfl, rfl⟩) (fun _ _ => rfl)
  have hs3 : c3.e.stage = .gzXflos := hsame3.stage
  obtain ⟨c4, hg4, hat4, hsame4, hz4⟩ := hat3.gzField (pr := pr) (n := 16) (act := fun v i => gzXflosAct (byteOf 0 v) (byteOf 1 v) i)
    (u := fun i => { i with stage := if gzFlag 2 i then .gzExlen else .gzName }) (by simp; omega) hz3 (by rw [hs3]; rfl)
    (by simp only [inflMicro, hs3]) rfl
    (passive_of (fun _ => rfl) fun _ _ _ _ _ => rfl) (fun _ => ⟨rfl, rfl, rfl⟩) (fun _ _ => rfl)
  have hs4 : c4.e.stage = if gzFlag 2 c3.e then .gzExlen else .gzName := hsame4.stage
  refine ⟨c4, hg1.trans (hg2.trans (hg3.trans hg4)), ?_, ?_, ?_⟩
  · exact hat4
  · exact hz4
  · rw [hs4, (gzFlag_bits hz3).2.1]

end

end Sys2Proof.Machine
end

section
/-! PROOFS. `INFL` on the optional fields of the gzip header (R476 to R480), and on the header of any container. -/

namespace Sys2Proof.Machine

section
variable {K : Setting} {p : Nat} {y : List Byte} {bits : List Bool} {c : InflCtx} {pr : Params} {g : GzHdr} {done : List Byte}

theorem byteOf_single (a : Byte) : byteOf 0 (leNat [a]) = a := by
  have ha := a.isLt
  apply BitVec.eq_of_toNat_eq
  rw [byteOf_zero, BitVec.toNat_ofNat]
  simp only [leNat_cons, leNat_nil]
  omega

theorem leNat_leBytes_two {n : Nat} (hn : n ≤ 65535) : leNat (leBytes 2 n) = n := by
  rw [leNat_leBytes]
  exact Nat.mod_eq_of_lt (Nat.lt_succ_of_le hn)

/-- The bytes of the extra field (R477). -/
theorem At.gzExtraBytes {x : List Byte} (h : At K p y (streamBits x ++ bits) c) (hp : p % 8 = 0) (hz : InGz g done c.e)
    (hs : c.e.stage = .gzExtra) (hx : c.e.xlen = x.length) :
    ∃ c', Goes pr c c' ∧ At K (p + (streamBits x).length) y bits c' ∧ InGz g (done ++ x) c'.e ∧ c'.e.stage = .gzName := by
  induction x generalizing p done c with
  | nil =>
    obtain ⟨c', hg, hat, hrest⟩ := h.gzSkip (pr := pr) (st := .gzName) hz (by
      simp only [inflMicro, hs]
      rw [if_pos (show c.e.xlen = 0 from hx)])
    rw [List.append_nil]
    exact ⟨c', hg, hat, hrest⟩
  | cons v x ih =>
    have hbits : streamBits (v :: x) = streamBits [v] ++ streamBits x := by rw [← streamBits_append]; rfl
    rw [hbits, List.append_assoc] at h
    rw [List.length_cons] at hx
    obtain ⟨c1, hg1, hat1, hsame1, hz1⟩ := h.gzField (pr := pr) (n := 8) (act := fun v i => gzExtraAct (byteOf 0 v) i)
      (u := fun i => { i with xlen := i.xlen - 1 }) hp hz (by rw [hs]; rfl)
      (by
        simp only [inflMicro, hs]
        rw [if_neg (by omega)])
      rfl (passive_of (fun _ => rfl) fun _ _ _ _ _ => rfl) (fun _ => ⟨rfl, rfl, rfl⟩) (fun _ _ => rfl)
    have hx1 : c1.e.xlen = c.e.xlen - 1 := (congrArg Infl.xlen hsame1 :)
    obtain ⟨c2, hg2, hat2, hz2, hs2⟩ := ih hat1 (by simp; omega) hz1 (hsame1.stage.trans hs) (by omega)
    refine ⟨c2, hg1.trans hg2, ?_, ?_, hs2⟩
    · rw [hbits, List.length_append, ← Nat.add_assoc]
      exact hat2
    · rwa [List.append_assoc] at hz2

/-- The extra field (R476, R477). -/
theorem At.gzExtra {x : List Byte} (hlen : x.length ≤ 65535) (h : At K p y (streamBits (leBytes 2 x.length ++ x) ++ bits) c)
    (hp : p % 8 = 0) (hz : InGz g done c.e) (hs : c.e.stage = .gzExlen) :
    ∃ c', Goes pr c c' ∧ At K (p + (streamBits (leBytes 2 x.length ++ x)).length) y bits c' ∧
      InGz g (done ++ (leBytes 2 x.length ++ x)) c'.e ∧ c'.e.stage = .gzName := by
  rw [streamBits_append, List.append_assoc] at h
  obtain ⟨c1, hg1, hat1, hsame1, hz1⟩ := h.gzField (pr := pr) (n := 16) (act := fun v i => gzXlenAct (BitVec.ofNat 16 v) i)
    (u := fun i => { i with xlen := x.length, stage := .gzExtra }) hp hz (by rw [hs]; rfl) (by simp only [inflMicro, hs]) rfl
    (passive_of (fun _ => rfl) fun _ _ _ _ _ => rfl) (fun _ => ⟨rfl, rfl, rfl⟩) (fun c1 _ => by
      rw [leNat_leBytes_two hlen, gzXlenAct, BitVec.toNat_ofNat, Nat.mod_eq_of_lt (Nat.lt_succ_of_le hlen)])
  obtain ⟨c2, hg2, hat2, hz2, hs2⟩ := hat1.gzExtraBytes (pr := pr) (by simp; omega) hz1 hsame1.stage (congrArg Infl.xlen hsame1 :)
  refine ⟨c2, hg1.trans hg2, ?_, ?_, hs2⟩
  · rw [streamBits_append, List.length_append, ← Nat.add_assoc, streamBits_length (leBytes _ _)]
    exact hat2
  · rwa [List.append_assoc] at hz2

/-- The extra field (R476, R477), if there is one. -/
theorem At.gzExtraField (hx : ∀ x, g.extra = some x → x.length ≤ 65535)
    (h : At K p y (streamBits (g.extra.elim [] fun x => leBytes 2 x.length ++ x) ++ bits) c) (hp : p % 8 = 0) (hz : InGz g done c.e)
    (hs : c.e.stage = if g.extra.isSome then .gzExlen else .gzName) :
    ∃ c', Goes pr c c' ∧ At K (p + (streamBits (g.extra.elim [] fun x => leBytes 2 x.length ++ x)).length) y bits c' ∧
      InGz g (done ++ g.extra.elim [] fun x => leBytes 2 x.length ++ x) c'.e ∧ c'.e.stage = .gzName := by
  cases hextra : g.extra with
  | none =>
    rw [hextra] at h hs
    rw [Option.elim_none, List.append_nil]
    exact ⟨c, .refl _, h, hz, hs⟩
  | some x =>
    rw [hextra] at h hs
    exact h.gzExtra (hx x hextra) hp hz hs

/-- A text of the header and the zero behind it (R478, R479). -/
theorem At.gzText {x : List Byte} {st st' : IStage} (hcrc : headerCrcStage st = true)
    (hm : ∀ (done : List Byte) (c : InflCtx), InGz g done c.e → c.e.stage = st → inflMicro pr .none c =
      Machine.reading 8 c fun v i => .good (if byteOf 0 v = 0 then { i with stage := st' } else i))
    (hx : 0 ∉ x) (h : At K p y (streamBits (x ++ [0]) ++ bits) c) (hp : p % 8 = 0) (hz : InGz g done c.e) (hs : c.e.stage = st) :
    ∃ c', Goes pr c c' ∧ At K (p + (streamBits (x ++ [0])).length) y bits c' ∧ InGz g (done ++ (x ++ [0])) c'.e ∧
      c'.e.stage = st' := by
  induction x generalizing p done c with
  | nil =>
    obtain ⟨c1, hg1, hat1, hsame1, hz1⟩ := h.gzField (pr := pr) (n := 8) (u := fun i => { i with stage := st' }) hp hz
      (by rw [hs]; exact hcrc) (hm done c hz hs) rfl (passive_of (fun _ => rfl) fun _ _ _ _ _ => rfl)
      (fun _ => ⟨rfl, rfl, rfl⟩) (fun _ _ => by rw [List.nil_append, byteOf_single, if_pos rfl])
    exact ⟨c1, hg1, hat1, hz1, hsame1.stage⟩
  | cons v x ih =>
    have hv : v ≠ 0 := fun h0 => hx (h0 ▸ List.mem_cons_self)
    have hx' : 0 ∉ x := fun h0 => hx (List.mem_cons_of_mem _ h0)
    have hbits : streamBits (v :: x ++ [0]) = streamBits [v] ++ streamBits (x ++ [0]) := by rw [← streamBits_append]; rfl
    rw [hbits, List.append_assoc] at h
    obtain ⟨c1, hg1, hat1, hsame1, hz1⟩ := h.gzField (pr := pr) (n := 8) (u := id) hp hz (by rw [hs]; exact hcrc)
      (hm done c hz hs) rfl (passive_of (fun _ => rfl) fun _ _ _ _ _ => rfl) (fun _ => ⟨rfl, rfl, rfl⟩)
      (fun _ _ => by rw [byteOf_single, if_neg hv]; rfl)
    obtain ⟨c2, hg2, hat2, hz2, hs2⟩ := ih hx' hat1 (by simp; omega) hz1 (hsame1.stage.trans hs)
    refine ⟨c2, hg1.trans hg2, ?_, ?_, hs2⟩
    · rw [hbits, List.length_append, ← Nat.add_assoc]
      exact hat2
    · rwa [List.append_assoc] at hz2

/-- The name (R478), if there is one. -/
theorem At.gzName (hx : ∀ x, g.name = some x → 0 ∉ x)
    (h : At K p y (streamBits (g.name.elim [] fun x => x ++ [0]) ++ bits) c) (hp : p % 8 = 0) (hz : InGz g done c.e)
    (hs : c.e.stage = .gzName) :
    ∃ c', Goes pr c c' ∧ At K (p + (streamBits (g.name.elim [] fun x => x ++ [0])).length) y bits c' ∧
      InGz g (done ++ g.name.elim [] fun x => x ++ [0]) c'.e ∧ c'.e.stage = .gzComment := by
  cases hname : g.name with
  | none =>
    rw [hname] at h
    rw [Option.elim_none, List.append_nil]
    exact h.gzSkip hz (by
      simp only [inflMicro, hs]
      rw [if_neg (by rw [(gzFlag_bits hz).2.2.1, hname]; nofun)])
  | some x =>
    rw [hname] at h
    exact h.gzText (st := .gzName) rfl (fun done c hz hs => by
      simp only [inflMicro, hs]
      rw [if_pos (by rw [(gzFlag_bits hz).2.2.1, hname]; rfl)]
      rfl) (hx x hname) hp hz hs

/-- The comment (R479), if there is one. -/
theorem At.gzComment (hx : ∀ x, g.comment = some x → 0 ∉ x)
    (h : At K p y (streamBits (g.comment.elim [] fun x => x ++ [0]) ++ bits) c) (hp : p % 8 = 0) (hz : InGz g done c.e)
    (hs : c.e.stage = .gzComment) :
    ∃ c', Goes pr c c' ∧ At K (p + (streamBits (g.comment.elim [] fun x => x ++ [0])).length) y bits c' ∧
      InGz g (done ++ g.comment.elim [] fun x => x ++ [0]) c'.e ∧ c'.e.stage = .gzHcrc := by
  cases hcomment : g.comment with
  | none =>
    rw [hcomment] at h
    rw [Option.elim_none, List.append_nil]
    exact h.gzSkip hz (by
      simp only [inflMicro, hs]
      rw [if_neg (by rw [(gzFlag_bits hz).2.2.2, hcomment]; nofun)])
  | some x =>
    rw [hcomment] at h
    exact h.gzText (st := .gzComment) rfl (fun done c hz hs => by
      simp only [inflMicro, hs]
      rw [if_pos (by rw [(gzFlag_bits hz).2.2.2, hcomment]; rfl)]
      rfl) (hx x hcomment) hp hz hs

/-- The CRC16 of the header (R480), if there is one. -/
theorem At.gzHcrc (h : At K p y (streamBits (if g.hcrc then leBytes 2 (crc32 0 done).toNat else []) ++ bits) c) (hp : p % 8 = 0)
    (hz : InGz g done c.e) (hs : c.e.stage = .gzHcrc) :
    ∃ c', Goes pr c c' ∧ At K (p + (streamBits (if g.hcrc then leBytes 2 (crc32 0 done).toNat else [])).length) y bits c' ∧
      c'.e.stage = .blockType ∧ c'.e.last = false := by
  have hflag := (gzFlag_bits hz).1
  cases hhcrc : g.hcrc with
  | false =>
    rw [hhcrc] at h hflag
    obtain ⟨c', hg, hat, hz', hs'⟩ := h.gzSkip (pr := pr) (st := .blockType) hz (by
      simp only [inflMicro, hs]
      rw [if_neg (by rw [hflag]; nofun)])
    exact ⟨c', hg, hat, hs', hz'.last⟩
  | true =>
    rw [hhcrc] at h hflag
    rw [if_pos rfl] at h ⊢
    obtain ⟨c', hg, hat, hsame, -⟩ := h.field (pr := pr) (n := 16) (act := fun v i => gzHcrcAct (BitVec.ofNat 16 v) i)
      (g := fun i => { i with stage := .blockType }) hp
      (by
        simp only [inflMicro, hs]
        rw [if_pos hflag])
      rfl (passive_of (fun _ => rfl) fun _ _ _ _ _ => rfl) (fun _ => rfl) (fun c1 _ hcrc => by
        have hc1 : c1.e.hcrc = crc32 0 done := by
          rw [hcrc, hs, hz.hcrc]
          rfl
        rw [gzHcrcAct, hc1, leNat_leBytes, BitVec.toNat_ofNat, if_neg]
        simp)
    refine ⟨c', hg, ?_, hsame.stage, hsame.last.trans hz.last⟩
    rw [streamBits_length]
    exact hat

/-- The whole gzip header (R472 to R480). -/
theorem At.gzHeader {strategy : Strategy} {level : Nat} (hlegal : gzHdrLegal g)
    (h : At K p y (streamBits (gzHeader g strategy level) ++ bits) c) (hp : p % 8 = 0) (hs : c.e.stage = .gzMagic)
    (hc : c.e.hcrc = 0) (hl : c.e.last = false) :
    ∃ c', Goes pr c c' ∧ At K (p + (streamBits (Machine.gzHeader g strategy level)).length) y bits c' ∧
      c'.e.stage = .blockType ∧ c'.e.last = false := by
  obtain ⟨hextra, hname, hcomment⟩ := hlegal
  rw [gzHeader_eq, gzFixed_eq, gzOptional] at h ⊢
  simp only [streamBits_append, List.append_assoc] at h ⊢
  obtain ⟨c1, hg1, hat1, hz1, hs1⟩ := h.gzTen (pr := pr) hp hs hc hl
  obtain ⟨c2, hg2, hat2, hz2, hs2⟩ := hat1.gzExtraField (pr := pr) hextra (by omega) hz1 hs1
  obtain ⟨c3, hg3, hat3, hz3, hs3⟩ := hat2.gzName (pr := pr) hname (by rw [streamBits_length]; omega) hz2 hs2
  obtain ⟨c4, hg4, hat4, hz4, hs4⟩ := hat3.gzComment (pr := pr) hcomment (by simp only [streamBits_length]; omega) hz3 hs3
  simp only [List.append_assoc] at hz4
  obtain ⟨c5, hg5, hat5, hrest⟩ := hat4.gzHcrc (pr := pr) (by simp only [streamBits_length]; omega) hz4 hs4
  refine ⟨c5, hg1.trans (hg2.trans (hg3.trans (hg4.trans hg5))), ?_, hrest⟩
  simp only [List.length_append, ← Nat.add_assoc]
  exact hat5

/-- The header of any container leads to the first block. -/
theorem At.header {d : Defl} (hd : d.ConfigInv) (hlegal : gzHdrLegal pr.gzHdr) (hw : d.wbits ≤ K.wbits)
    (h : At K p y (streamBits (containerHeader pr d) ++ bits) c) (hp : p % 8 = 0) (hs : c.e.stage = firstStage d.wrap)
    (hc : c.e.hcrc = 0) (hl : c.e.last = false) :
    ∃ c', Goes pr c c' ∧ At K (p + (streamBits (containerHeader pr d)).length) y bits c' ∧ c'.e.stage = .blockType ∧
      c'.e.last = false := by
  obtain ⟨-, hlo, hhi, -⟩ := hd
  unfold containerHeader at h ⊢
  cases hwrap : d.wrap with
  | none =>
    rw [hwrap] at h hs
    exact ⟨c, .refl _, h, hs, hl⟩
  | zlib =>
    rw [hwrap] at h hs
    exact h.zlibHeader (flevel_le _ _) (by omega) hhi hw hp hs hl
  | gzip =>
    rw [hwrap] at h hs
    exact h.gzHeader hlegal hp hs hc hl

end

end Sys2Proof.Machine
end

section
/-! PROOFS. `INFL` at the end of a stream (R499 to R501), and what a `WRITE none` in a fresh engine fed a stream comes to (R462 to
R466). -/

namespace Sys2Proof.Machine

/-! ## The end of a stream -/

section
variable {K : Setting} {p : Nat} {y : List Byte} {bits : List Bool} {c : InflCtx} {pr : Params}

/-- A word of four bytes, most significant first. -/
theorem beWord_beBytes (v : Word) : beWord (leNat (beBytes 4 v.toNat)) = v := by
  have hlen : (beBytes 4 v.toNat).length = 4 := by simp [beBytes]
  have hb := leBytes_leNat (n := 4) (bs := beBytes 4 v.toNat) hlen.ge
  rw [List.take_of_length_le hlen.le] at hb
  rw [beWord, hb, beBytes, List.reverse_reverse, leNat_leBytes]
  apply BitVec.eq_of_toNat_eq
  have := v.isLt
  rw [BitVec.toNat_ofNat]
  omega

/-- A micro-step that reads a field of whole bytes and stops. -/
theorem At.lastField {bs : List Byte} {n : Nat} {act : Nat → Infl → Act} {g : Infl → Infl}
    (h : At K p y (streamBits bs ++ bits) c)
    (hm : inflMicro pr .none c = needing n c fun c1 => finish n true c1 (act (brPeek n c1.e) c1.e)) (hn : n = 8 * bs.length)
    (hg : Passive g) (hact : ∀ c1 : InflCtx, onlyReader c.e c1.e → act (leNat bs) c1.e = .good (g c1.e)) :
    ∃ c', inflMicro pr .none c = .stop c' ∧ At K (p + n) y bits c' ∧ sameCore (g c.e) c'.e := by
  subst hn
  have hlt : leNat bs < 2 ^ (8 * bs.length) := by
    rw [Nat.pow_mul]
    exact leNat_lt bs
  rw [streamBits_eq_bitsOf] at h
  obtain ⟨c1, hneed, hr, hle, hpeek, hat⟩ := h.need hlt
  refine ⟨⟨brDrop (8 * bs.length) (g c1.e), c1.bus⟩, ?_, hat.congr (brDrop_io (hg.io c1.e) _), (hg.core _ _ hr).trans rfl⟩
  rw [hm, needing, hneed]
  simp only [if_true, hpeek, hact c1 hr]
  rfl

/-- The padding and the trailer after the last block end the stream. -/
theorem At.trailer {check isize : Word} (hcheck : check = y.foldl (checkStep K.wrap) (checkInit K.wrap))
    (hisize : isize = BitVec.ofNat 32 y.length)
    (h : At K p y (List.replicate ((8 - p % 8) % 8) false ++ (streamBits (trailerBytes K.wrap check isize) ++ bits)) c)
    (hs : c.e.stage = .blockType) (hl : c.e.last = true) :
    ∃ c1 c2 q, Goes pr c c1 ∧ inflMicro pr .none c1 = .stop c2 ∧ At K q y bits c2 ∧ c2.e.stage = .done := by
  have hm : inflMicro pr .none c = .complete ⟨{ brAlign c.e with stage := .trailer }, c.bus⟩ := by
    simp only [inflMicro, hs, blockTypeMicro, hl]
    rw [if_neg fun h => by simp at h, if_pos trivial]
    rfl
  have hat := (h.align.congr (e := { brAlign c.e with stage := .trailer }) rfl).stale
  have hs1 : (staleCtx ⟨{ brAlign c.e with stage := .trailer }, c.bus⟩).e.stage = .trailer := rfl
  have hg := Goes.one hm
  generalize staleCtx ⟨{ brAlign c.e with stage := .trailer }, c.bus⟩ = c1 at hat hs1 hg
  have hwrap := hat.made.wrap
  cases hw : K.wrap with
  | none =>
    rw [hw] at hat hwrap
    refine ⟨c1, _, _, hg, ?_, hat.congr (e := { c1.e with stage := .done }) rfl, rfl⟩
    simp only [inflMicro, hs1, trailerMicro, hwrap]
  | zlib =>
    rw [hw] at hat hwrap
    obtain ⟨c2, hstop, hat2, hsame⟩ := hat.lastField (pr := pr) (n := 32) (act := fun v i => ztrlAct (beWord v) i)
      (g := fun i => { i with stage := .done }) (by simp only [inflMicro, hs1, trailerMicro, hwrap]) rfl
      (passive_of (fun _ => rfl) fun _ _ _ _ _ => rfl) (fun c2 hr => by
        have hc : c2.e.check = check := by
          rw [show c2.e = _ from hr]
          exact hat.made.check.trans hcheck.symm
        rw [trailerBytes, beWord_beBytes, ztrlAct, hc, if_neg (not_not_intro rfl)])
    exact ⟨c1, c2, _, hg, hstop, hat2, hsame.stage⟩
  | gzip =>
    rw [hw] at hat hwrap
    have hword : ∀ v : Word, BitVec.ofNat 32 (leNat (leBytes 4 v.toNat)) = v := fun v => by
      have := v.isLt
      apply BitVec.eq_of_toNat_eq
      rw [leNat_leBytes, BitVec.toNat_ofNat]
      omega
    have hsplit : trailerBytes .gzip check isize = leBytes 4 check.toNat ++ leBytes 4 isize.toNat := rfl
    rw [hsplit, streamBits_append, List.append_assoc] at hat
    obtain ⟨c2, hg2, hat2, hsame, -⟩ := hat.field (pr := pr) (n := 32) (act := fun v i => gzCrcAct (BitVec.ofNat 32 v) i)
      (g := fun i => { i with stage := .gzIsize }) (by omega) (by simp only [inflMicro, hs1, trailerMicro, hwrap]) rfl
      (passive_of (fun _ => rfl) fun _ _ _ _ _ => rfl) (fun _ => rfl) (fun c2 hr _ => by
        have hc : c2.e.check = check := by
          rw [show c2.e = _ from hr]
          exact hat.made.check.trans hcheck.symm
        rw [hword, gzCrcAct, hc, if_neg (not_not_intro rfl)])
    have hs2 : c2.e.stage = .gzIsize := hsame.stage
    obtain ⟨c3, hstop, hat3, hsame3⟩ := hat2.lastField (pr := pr) (n := 32) (act := fun v i => gzIsizeAct (BitVec.ofNat 32 v) i)
      (g := fun i => { i with stage := .done }) (by simp only [inflMicro, hs2]) rfl
      (passive_of (fun _ => rfl) fun _ _ _ _ _ => rfl) (fun c3 hr => by
        have hc : c3.e.isize = isize := by
          rw [show c3.e = _ from hr]
          exact hat2.made.isize.trans hisize.symm
        rw [hword, gzIsizeAct, hc, if_neg (not_not_intro rfl)])
    exact ⟨c2, c3, _, hg.trans hg2, hstop, hat3, hsame3.stage⟩

/-- With everything read, no input is left. -/
theorem At.availIn_eq (h : At K p y [] c) : c.e.regs.availIn = 0 := by
  have hlen := congrArg List.length h.unread.bits_eq
  rw [List.length_append, streamBits_length, bytesAt_length, List.length_nil] at hlen
  apply BitVec.eq_of_toNat_eq
  show c.e.regs.availIn.toNat = 0
  omega

end

/-! ## A fresh engine, fed a stream -/

theorem memOf_append (bs : List Byte) (b : Byte) : memOf (bs ++ [b]) = memWrite (memOf bs) bs.length b := by
  rw [memOf, List.zipIdx_append, List.foldl_append, ← memOf]
  simp

theorem memRead_memOf {bs : List Byte} {k : Nat} (hk : k < bs.length) : memRead (memOf bs) k = bs.getD k 0 := by
  induction bs using List.reverseRecOn with
  | nil => simp at hk
  | append_singleton bs b ih =>
    rw [memOf_append]
    by_cases hlt : k < bs.length
    · rw [memRead_memWrite_other _ _ (Nat.ne_of_lt hlt), ih hlt, List.getD_append _ _ _ _ hlt]
    · have hk' : k = bs.length := by
        simp at hk
        omega
      rw [hk', memRead_memWrite_self (memOf_wf bs)]
      simp

theorem bytesAt_memOf (bs : List Byte) : bytesAt (memOf bs) 0 bs.length = bs := by
  refine List.ext_getElem (bytesAt_length _ _ _) fun k hk hk' => ?_
  rw [← List.getD_eq_getElem _ 0, memRead_bytesAt hk', Nat.zero_add, memRead_memOf hk', List.getD_eq_getElem]

/-- What `INFL` starts from when it is fed a stream. -/
def fedCtx (c : Word) (p : Params) (src : List Byte) (room : Nat) : InflCtx :=
  ⟨{ (inflFed c p src room).infl with fresh := true }, (inflFed c p src room).bus⟩

/-- The setting a configuration gives. -/
def settingOf (c : Word) (room : Nat) : Setting := ⟨cfgWindowBits c, (wrapOf (cfgWrap c)).getD .none, room⟩

section
variable {c : Word} {p : Params} {src : List Byte} {room : Nat}

theorem at_fedCtx (hsrc : src.length < 2 ^ 32) (hroom : room < 2 ^ 32) :
    At (settingOf c room) 0 [] (streamBits src) (fedCtx c p src room) := by
  have hlen : (BitVec.ofNat 32 src.length).toNat = src.length := Nat.mod_eq_of_lt hsrc
  have hu := Unread.of_empty (c := fedCtx c p src room) rfl rfl (by
    show (0 : Word).toNat + (BitVec.ofNat 32 src.length).toNat ≤ 2 ^ 32
    rw [hlen]
    show 0 + src.length ≤ 2 ^ 32
    omega)
  have hbytes : nextBytes (fedCtx c p src room) (fedCtx c p src room).e.regs.availIn.toNat = src := by
    show bytesAt (memOf src) 0 (BitVec.ofNat 32 src.length).toNat = src
    rw [hlen, bytesAt_memOf]
  rw [hbytes] at hu
  refine ⟨hu, Nat.zero_le 7, ?_⟩
  exact
    { room_lt := hroom, wbits := rfl, wrap := rfl, produced := rfl, nextOut := rfl
      availOut := Nat.mod_eq_of_lt hroom
      check := rfl, isize := rfl, outWf := Memory.wf_nil, out := rfl, winWf := Memory.wf_nil
      win := fun j hj => absurd hj (Nat.not_lt_zero j) }

/-- A `WRITE none` does the work of the loop. -/
theorem exec_inflFed (c : Word) (p : Params) (src : List Byte) (room : Nat) :
    ∃ n r, inflLoop p .none n (fedCtx c p src room) = some r ∧
      exec .inflWriteNone (inflFed c p src room) =
        .next (inflEnd .none (inflFed c p src room).infl.regs (inflFed c p src room) r) := by
  have hregs : regionOk (inflFed c p src room).infl.regs = true := by
    refine decide_eq_true ⟨?_, ?_⟩
    · show 0 + (BitVec.ofNat 32 src.length).toNat ≤ 2 ^ 32
      have := (BitVec.ofNat 32 src.length).isLt
      omega
    · show 0 + (BitVec.ofNat 32 room).toNat ≤ 2 ^ 32
      have := (BitVec.ofNat 32 room).isLt
      omega
  have hstage : (inflFed c p src room).infl.stage ≠ .done := by
    show firstStage _ ≠ .done
    cases (wrapOf (cfgWrap c)).getD .none <;> nofun
  have hsticky : (inflFed c p src room).infl.sticky = .ok := rfl
  have hrun : exec .inflWriteNone (inflFed c p src room) = inflRun .none (inflFed c p src room) := by
    have harm : ∀ s : State, exec .inflWriteNone s = inflWrite .none s := fun _ => rfl
    rw [harm, inflWrite, if_neg nofun, if_neg (not_not_intro hsticky), if_neg (by rw [hregs]; nofun), if_neg hstage]
  obtain ⟨t, ht⟩ := inflRun_ne_fault .none (inflFed c p src room)
  rw [hrun]
  rw [inflRun] at ht ⊢
  split at ht
  · cases ht
  · rename_i r hr
    exact ⟨_, r, hr, rfl⟩

variable {q : Nat} {y : List Byte} {bits : List Bool} {c1 c2 : InflCtx}

theorem Made.bytes {K : Setting} {c : InflCtx} (h : Made K y c) : bytesAt c.bus.outMem 0 c.e.produced = y := by
  rw [h.produced]
  exact h.out

/-- A stream that ends. -/
theorem inflates_ends (hg : Goes p (fedCtx c p src room) c1)
    (hm : inflMicro p .none c1 = .stop c2) (hat : At (settingOf c room) q y bits c2) (hs : c2.e.stage = .done) :
    ∃ t, exec .inflWriteNone (inflFed c p src room) = .next t ∧ t.infl.ec = .endOfStream ∧
      bytesAt t.bus.outMem 0 t.infl.produced = y ∧ t.infl.regs.availIn = c2.e.regs.availIn := by
  obtain ⟨n, r, hr, he⟩ := exec_inflFed c p src room
  obtain ⟨m, hr'⟩ := hg.loop hr
  obtain rfl := inflLoop_halts hm hr'
  exact ⟨_, he, if_pos hs, hat.made.bytes, rfl⟩

/-- A stream that breaks off. -/
theorem inflates_waits (hg : Goes p (fedCtx c p src room) c1)
    (hm : inflMicro p .none c1 = .suspend c2) (hmade : Made (settingOf c room) y c2) (hs : c2.e.stage ≠ .done) :
    ∃ t, exec .inflWriteNone (inflFed c p src room) = .next t ∧ t.infl.ec ∈ [Status.ok, .needBuffers] ∧
      bytesAt t.bus.outMem 0 t.infl.produced = y := by
  obtain ⟨n, r, hr, he⟩ := exec_inflFed c p src room
  obtain ⟨m, hr'⟩ := hg.loop hr
  obtain rfl := inflLoop_suspends hm hr'
  refine ⟨_, he, ?_, hmade.bytes⟩
  show inflCode .none _ false c2.e ∈ _
  rw [inflCode, if_neg hs, if_neg nofun]
  split_ifs <;> simp

end

end Sys2Proof.Machine
end

section
/-! PROOFS. Round trip (R374) and output grammar (R372): what a run of `DEFL` has written when it is done, `INFL` turns back into the
source. -/

namespace Sys2Proof.Machine

section
variable {K : Setting} {p w : Nat} {y z : List Byte} {bs more : List Bool} {c : InflCtx} {pr : Params} {b : Blk}
  {check isize : Word}

/-- Blocks, a final block, and the end of the stream. -/
theorem At.lastBlocks (hc : Coded w bs y) (hb : BlkOf w y b z) (hf : b.final = true) (hp : p % 8 = 0) (hw : w ≤ wsize K.wbits)
    (h15 : w ≤ 32768) (hroom : z.length ≤ K.room) (hcheck : check = z.foldl (checkStep K.wrap) (checkInit K.wrap))
    (hisize : isize = BitVec.ofNat 32 z.length)
    (h : At K p [] (bs ++ blkBits bs.length b ++ (List.replicate ((8 - (bs ++ blkBits bs.length b).length % 8) % 8) false ++
      (streamBits (trailerBytes K.wrap check isize) ++ more))) c) (hs : c.e.stage = .blockType) (hl : c.e.last = false) :
    ∃ c1 c2 q, Goes pr c c1 ∧ inflMicro pr .none c1 = .stop c2 ∧ At K q z more c2 ∧ c2.e.stage = .done := by
  have hmod : blkBits bs.length b = blkBits (p + bs.length) b := blkBits_mod (by omega) b
  have hpad : (8 - (bs ++ blkBits bs.length b).length % 8) % 8 = (8 - (p + bs.length + (blkBits bs.length b).length) % 8) % 8 := by
    rw [List.length_append]
    omega
  rw [hpad, hmod, List.append_assoc] at h
  obtain ⟨c1, hg1, hat1, hs1, hl1⟩ := At.blocks (pr := pr) hc hp hw h15 (hb.length_le.trans hroom) h hs hl
  obtain ⟨c2, hg2, hat2, hs2, hl2⟩ := At.block (pr := pr) hb hw h15 hroom hat1 hs1 hl1
  obtain ⟨c3, c4, q, hg3, hrest⟩ := hat2.trailer (pr := pr) hcheck hisize hs2 (hl2.trans hf)
  exact ⟨c3, c4, q, hg1.trans (hg2.trans hg3), hrest⟩

end

section
variable {d : Defl} {out : List Byte} {pre : List Bool} {base : Nat} {pr : Params} {s : State}

theorem srcTo_dataEnd (d : Defl) (base : Nat) : srcTo d base (dataEnd d) = d.data.drop base := by
  rw [srcTo, dataEnd, List.take_length]

theorem wsize_le_of_le {a b : Nat} (h : a ≤ b) : wsize a ≤ wsize b := Nat.pow_le_pow_right (by decide) h

theorem wsize_le_max {a : Nat} (h : a ≤ 15) : wsize a ≤ 32768 := wsize_le_of_le h

/-- A stream that is done is all written. -/
theorem Encodes.done (h : Encodes pre base d out) (hs : d.Sound pr) (hd : d.stage = .done) :
    ∃ bs y, streamBits out = pre ++ (bs ++ blkBits bs.length d.blk ++
        List.replicate ((8 - (bs ++ blkBits bs.length d.blk).length % 8) % 8) false ++
          streamBits (trailerBytes d.wrap d.check d.isize)) ∧
      Coded (wsize d.wbits) bs y ∧ BlkOf (wsize d.wbits) y d.blk (d.data.drop base) ∧ d.blk.final = true := by
  obtain ⟨-, -, hdone, -⟩ := hs.stage
  obtain ⟨hphase, hfin⟩ := hdone hd
  cases h.standing with
  | ended _ _ _ h0 hq he hc hb hbf hl =>
    have hall : allBits d out = streamBits out := by
      rw [allBits, writtenBits, hq hd, h0]
      exact List.append_nil _
    rw [hl, srcTo_dataEnd] at hb
    exact ⟨_, _, hall.symm.trans he, hc, hb, hbf⟩
  | collecting _ hf => exact absurd (hf.symm.trans hfin) nofun
  | planned hp | headed hp | last hp => exact absurd (hphase.symm.trans hp) nofun

/-- A fresh `INFL` with the container of a stream is past its header. -/
theorem fed_header {c : Word} {src : List Byte} {room : Nat} {bits : List Bool} (hd : d.ConfigInv) (hlegal : gzHdrLegal pr.gzHdr)
    (hw : d.wbits ≤ cfgWindowBits c) (hwrap : wrapOf (cfgWrap c) = some d.wrap) (hsrc : src.length < 2 ^ 32)
    (hroom : room < 2 ^ 32) (hbits : streamBits src = streamBits (containerHeader pr d) ++ bits) :
    ∃ c1, Goes pr (fedCtx c pr src room) c1 ∧
      At (settingOf c room) (streamBits (containerHeader pr d)).length [] bits c1 ∧ c1.e.stage = .blockType ∧
        c1.e.last = false := by
  have hat := at_fedCtx (c := c) (p := pr) hsrc hroom
  have hs : (fedCtx c pr src room).e.stage = firstStage d.wrap := by
    show firstStage ((wrapOf (cfgWrap c)).getD .none) = _
    rw [hwrap]
    rfl
  rw [hbits] at hat
  have := hat.header (pr := pr) hd hlegal hw rfl hs rfl rfl
  rwa [Nat.zero_add] at this

theorem settingOf_wrap {c : Word} (hwrap : wrapOf (cfgWrap c) = some d.wrap) (room : Nat) : (settingOf c room).wrap = d.wrap := by
  rw [settingOf, hwrap]
  rfl

end

/-- Round trip (R374). -/
theorem roundTrip : RoundTrip := by
  intro s out c hrun hdone hlegal _ hw hwrap hdata hout
  obtain ⟨hsound, -⟩ := hrun.sound
  obtain ⟨-, hlo, hhi, -⟩ := hsound.config
  have hne : s.defl.stage ≠ .init := by
    rw [hdone]
    nofun
  have henc := hrun.encodes.1
  rw [headBits_of_started hne] at henc
  obtain ⟨bs, y, he, hc, hb, hbf⟩ := henc.done hsound hdone
  rw [List.drop_zero] at hb
  obtain ⟨c1, hg1, hat1, hs1, hl1⟩ := fed_header (room := s.defl.data.length + 1) hsound.config hlegal hw hwrap hout hdata he
  have hsw := settingOf_wrap hwrap (s.defl.data.length + 1)
  rw [← hsw, List.append_assoc, ← List.append_nil (streamBits (trailerBytes _ _ _))] at hat1
  obtain ⟨c2, c3, q, hg2, hstop, hat3, hs3⟩ := At.lastBlocks (pr := s.params) hc hb hbf (by simp) (wsize_le_of_le hw)
    (wsize_le_max hhi) (Nat.le_succ _) (by rw [hsw]; exact hsound.check) hsound.isize hat1 hs1 hl1
  obtain ⟨t, hex, hec, hbytes, havail⟩ := inflates_ends (hg1.trans hg2) hstop hat3 hs3
  exact ⟨t, hex, hec, hbytes, havail.trans hat3.availIn_eq⟩

/-! ## The configuration a run latches (R378) -/

/-- `INFL` takes the configuration of `DEFL`, and with it the same window and container. -/
def Latched (d : Defl) : Prop :=
  inflLegal d.config = true ∧ d.wbits = cfgWindowBits d.config ∧ wrapOf (cfgWrap d.config) = some d.wrap

theorem Latched.congr {d e : Defl} (h : Latched d) (hs : e.setup = d.setup) : Latched e := by
  simp only [Defl.setup, Prod.mk.injEq] at hs
  obtain ⟨hconfig, -, -, hwbits, -, -, hwrap⟩ := hs
  unfold Latched
  rwa [hconfig, hwbits, hwrap]

theorem latched_start {c : Word} (h : deflLegal c = true) (r : StreamRegs) : Latched (deflStart c r) := by
  simp only [deflLegal, Bool.and_eq_true] at h
  obtain ⟨⟨⟨⟨⟨-, hw⟩, -⟩, -⟩, hwrap⟩, hres⟩ := h
  refine ⟨?_, rfl, ?_⟩
  · show inflLegal c = true
    rw [inflLegal, hw, hwrap, hres]
    rfl
  · show wrapOf (cfgWrap c) = some ((wrapOf (cfgWrap c)).getD .none)
    obtain ⟨x, hx⟩ := Option.isSome_iff_exists.1 hwrap
    rw [hx]
    rfl

theorem runKeeps_latched (pr : Params) : RunKeeps pr fun d _ => Latched d where
  loop f := {
    take := fun c _ h => h.congr (by rw [(bwTake_frame c).1]; rfl)
    work := fun c _ _ _ _ h => h.congr (deflWork_setup pr f c) }
  outside _ _ _ _ _ h := h.congr rfl
  init d _ _ _ h := h.congr (deflInit_setup pr d)

theorem DeflRun.latched {s : State} {out : List Byte} (h : DeflRun s out) : Latched s.defl :=
  h.keeps (runKeeps_latched s.params) fun _ r hl => latched_start hl r

/-- Output grammar (R372). -/
theorem outputGrammar : OutputGrammar := by
  intro s out hrun hdone hlegal hdata hout
  obtain ⟨hinfl, hw, hwrap⟩ := hrun.latched
  obtain ⟨t, hex, hec, hbytes, -⟩ := roundTrip s out s.defl.config hrun hdone hlegal hinfl hw.le hwrap hdata hout
  exact ⟨t, hex, by rw [hec]; exact List.mem_singleton_self _, hbytes⟩

end Sys2Proof.Machine
end

section
/-! PROOFS. Flush obligations (R376): what has been written up to a complete flush decodes to all that was consumed, and `INFL` asks for
more: at the next block's header, inside the last end of block, or inside the empty stored block that zero bits spell. -/

namespace Sys2Proof.Machine

/-! ## Where `INFL` asks for more (R465) -/

section
variable {K : Setting} {p w n : Nat} {y z : List Byte} {bits bs : List Bool} {c : InflCtx} {pr : Params} {b : Blk}

theorem At.waits (h : At K p y bits c) (hlt : bits.length < n) :
    ∃ c1, brNeed n c = (false, c1) ∧ onlyReader c.e c1.e ∧ Made K y c1 := by
  have hroom := h.unread.room
  have hk : needCount n c.e ≤ c.e.regs.availIn.toNat := Nat.min_le_right _ _
  have hr : ReadIn c (needCount n c.e) (brNeed n c).2 := readIn_brNeed (by omega)
  have hlen := congrArg List.length h.unread.bits_eq
  rw [List.length_append, heldBits_length, streamBits_length, bytesAt_length] at hlen
  refine ⟨_, Prod.ext ?_ rfl, hr.frame, h.made.readIn hr⟩
  rw [brNeed_eq_iterate]
  exact decide_eq_false (by omega)

theorem needing_waits {G : InflCtx → Micro} {c1 : InflCtx} (h : brNeed n c = (false, c1)) : needing n c G = .suspend c1 := by
  rw [needing, h]
  rfl

theorem onlyReader.stage {i j : Infl} (h : onlyReader i j) : j.stage = i.stage := (congrArg Infl.stage (show j = _ from h) :)

/-- Short of a block header. -/
theorem At.headerWaits (h : At K p y bits c) (hlt : bits.length < 3) (hs : c.e.stage = .blockType) (hl : c.e.last = false) :
    ∃ c1, inflMicro pr .none c = .suspend c1 ∧ Made K y c1 ∧ c1.e.stage ≠ .done := by
  obtain ⟨c1, hneed, hr, hmade⟩ := h.waits hlt
  refine ⟨c1, ?_, hmade, ?_⟩
  · simp only [inflMicro, hs, blockTypeMicro, hl]
    rw [if_neg fun h => by simp at h, if_neg (by decide), needing_waits hneed]
  · rw [hr.stage, hs]
    nofun

/-- Inside the end of a block. -/
theorem At.eobWaits {more : List Bool} (h : At K p y bits c) (he : AtEob b c.e)
    (hcode : bits ++ more = codeBits (eobLens b) 15 256) (hm : more ≠ []) :
    ∃ c1, inflMicro pr .none c = .suspend c1 ∧ Made K y c1 ∧ c1.e.stage ≠ .done := by
  obtain ⟨hs, L, D, hin, hL, -, heob⟩ := he
  obtain ⟨c1, hd, hr, hmade⟩ := hdDecodeLoop_waits hL (hcode.trans heob.symm) hm (maxLen L) h.unread h.made
  have hd' : Machine.hdDecode c.e.ll maxBits c = (.more, c1) := by
    rw [hin.ll]
    exact hd
  refine ⟨c1, ?_, hmade, ?_⟩
  · simp only [inflMicro, hs, symMicro, hd']
  · rw [hr.stage, hs]
    nofun

/-- Zero bits up to the end of a byte are at most the header of a stored block and its padding. -/
theorem At.zerosWait (h : At K p y (List.replicate ((8 - p % 8) % 8) false) c) (hs : c.e.stage = .blockType)
    (hl : c.e.last = false) :
    ∃ c1 c2, Goes pr c c1 ∧ inflMicro pr .none c1 = .suspend c2 ∧ Made K y c2 ∧ c2.e.stage ≠ .done := by
  by_cases hlt : (8 - p % 8) % 8 < 3
  · obtain ⟨c1, hrest⟩ := h.headerWaits (pr := pr) (by rwa [List.length_replicate]) hs hl
    exact ⟨c, c1, .refl _, hrest⟩
  · have hsplit : List.replicate ((8 - p % 8) % 8) false = [false] ++ bitsOf 2 0 ++ (List.replicate ((8 - (p + 3) % 8) % 8) false ++ []) := by
      have hthree : [false] ++ bitsOf 2 0 = List.replicate 3 false := rfl
      rw [hthree, List.append_nil, List.replicate_append_replicate]
      congr 1
      omega
    rw [hsplit] at h
    obtain ⟨c1, hg1, hat1, hsame⟩ := h.blockHeader (pr := pr) (g := fun i => { i with last := false, stage := .storedLen }) hs hl
      (by decide) (passive_of (fun _ => rfl) fun _ _ _ _ _ => rfl) (fun _ => rfl)
    have hs1 : c1.e.stage = .storedLen := hsame.stage
    obtain ⟨c2, hneed, hr, hmade⟩ := hat1.align.waits (n := 32) (by decide)
    refine ⟨c1, c2, hg1, ?_, hmade, ?_⟩
    · simp only [inflMicro, hs1, storedLenMicro]
      exact needing_waits hneed
    · rw [hr.stage]
      show c1.e.stage ≠ .done
      rw [hs1]
      nofun

end

/-! ## Where a flush leaves the output -/

section
variable {s t : State} {out : List Byte} {f : Flush} {c : Word}

theorem complete_started (hs : s.defl.Sound s.params) (hb : s.bus.Inv) (hfin : s.defl.finishing = false) (hf : f ≠ .trees)
    (hw : Wrote f s t) (hc : completeCall t) : t.defl.stage ≠ .init := by
  have hk : LoopKeeps s.params f fun _ _ => True := ⟨fun _ _ _ => trivial, fun _ _ _ _ _ _ => trivial⟩
  obtain ⟨-, e, -, hrun, -, -, -, -, -, -, -, -, hd, -⟩ := complete_stops (out := []) hk hs hb hfin hf trivial hw hc
  have hstage : t.defl.stage = e.d.stage := by
    rw [hd]
    show (tokenised s.params f e).2.stage = _
    rw [onlyTokens_tokenised s.params f e, accept_frame_d]
  rw [hstage]
  exact running_ne_init hrun

/-- After a flush: the header, and blocks that code all that was consumed. -/
structure Flushed (s : State) (out : List Byte) (bs : List Bool) : Prop where
  bits : streamBits out ++ bitsOf s.defl.bitCnt s.defl.bitBuf = streamBits (containerHeader s.params s.defl) ++ bs
  coded : CodedTo (wsize s.defl.wbits) bs s.defl.data s.defl.blk
  bitCnt : s.defl.bitCnt = bs.length % 8

theorem DeflRun.flushed (h : DeflRun s out) (hne : s.defl.stage ≠ .init) (he : Emptied s.defl) (hfin : s.defl.finishing = false)
    (hq : s.defl.pending = []) : ∃ bs, Flushed s out bs := by
  obtain ⟨hsound, -⟩ := h.sound
  obtain ⟨hphase, hsyms, hdef, hpos⟩ := he
  have hstart : s.defl.blockStart = dataEnd s.defl := by
    obtain ⟨hsum, hcur, -⟩ := hsound.cursor
    rw [hsyms] at hsum
    rw [hdef] at hcur
    simp at hsum hcur
    omega
  have henc := h.encodes.1
  have hmod := headBits_length_mod s.params s.defl
  rw [headBits_of_started hne] at henc hmod
  cases henc.standing with
  | collecting _ _ hbetween =>
    obtain ⟨bs, hall, hc⟩ := hbetween
    have hcnt := bitCnt_of_allBits hsound.bits hmod hall
    rw [allBits, writtenBits, hq] at hall
    rw [hstart, srcTo_dataEnd, List.drop_zero] at hc
    exact ⟨bs, hall, hc, hcnt⟩
  | planned hp | headed hp | last hp => exact absurd (hphase.symm.trans hp) nofun
  | ended _ _ hf => exact absurd (hfin.symm.trans hf) nofun

/-- What `INFL` needs of a run to follow it. -/
structure Follows (s : State) (c : Word) : Prop where
  sound : s.defl.Sound s.params
  legal : gzHdrLegal s.params.gzHdr
  window : s.defl.wbits ≤ cfgWindowBits c
  wrap : wrapOf (cfgWrap c) = some s.defl.wrap
  data : s.defl.data.length + 1 < 2 ^ 32

theorem Follows.wsize_le (h : Follows s c) (room : Nat) : wsize s.defl.wbits ≤ wsize (settingOf c room).wbits :=
  wsize_le_of_le h.window

theorem Follows.wsize_max (h : Follows s c) : wsize s.defl.wbits ≤ 32768 := by
  obtain ⟨-, -, hhi, -⟩ := h.sound.config
  exact wsize_le_max hhi

/-- Whole blocks, then zero bits to the end of the byte. -/
theorem Follows.zeros (h : Follows s c) {src : List Byte} {bs : List Bool} {z : List Byte} (hz : z.length ≤ s.defl.data.length)
    (hsrc : src.length < 2 ^ 32) (hc : Coded (wsize s.defl.wbits) bs z)
    (hbits : streamBits src = streamBits (containerHeader s.params s.defl) ++ (bs ++ List.replicate ((8 - bs.length % 8) % 8) false)) :
    ∃ t, exec .inflWriteNone (inflFed c s.params src (s.defl.data.length + 1)) = .next t ∧
      t.infl.ec ∈ [Status.ok, .needBuffers] ∧ bytesAt t.bus.outMem 0 t.infl.produced = z := by
  obtain ⟨c1, hg1, hat1, hs1, hl1⟩ := fed_header (room := s.defl.data.length + 1) h.sound.config h.legal h.window h.wrap hsrc h.data
    hbits
  obtain ⟨c2, hg2, hat2, hs2, hl2⟩ := At.blocks (pr := s.params) hc (by simp) (h.wsize_le _) h.wsize_max
    (hz.trans (Nat.le_succ _)) hat1 hs1 hl1
  have hpad : (8 - bs.length % 8) % 8 = (8 - ((streamBits (containerHeader s.params s.defl)).length + bs.length) % 8) % 8 := by
    rw [streamBits_length]
    omega
  rw [hpad] at hat2
  obtain ⟨c3, c4, hg3, hm, hmade, hs4⟩ := hat2.zerosWait (pr := s.params) hs2 hl2
  exact inflates_waits (hg1.trans (hg2.trans hg3)) hm hmade hs4

theorem Flushed.aligned {bs : List Bool} (h : Flushed s out bs) (h0 : s.defl.bitCnt = 0) :
    streamBits out = streamBits (containerHeader s.params s.defl) ++ (bs ++ List.replicate ((8 - bs.length % 8) % 8) false) := by
  have hb := h.bits
  have hcnt := h.bitCnt
  rw [h0] at hcnt hb
  rw [← hcnt]
  simpa using hb

/-- A stored block ends on a byte boundary. -/
theorem blkBits_stored_mod {b : Blk} (hb : b.typ = .stored) (p : Nat) : (p + (blkBits p b).length) % 8 = 0 := by
  simp only [blkBits, headerBits, headerRest, symbolBits, hb, List.length_append, List.length_singleton, bitsOf_length,
    List.length_replicate, streamBits_length]
  omega

theorem eobLens_fixed {b : Blk} (h : b.typ ≠ .dynamic) : (eobLens b).getD 256 0 = 7 := by
  rw [eobLens, if_neg h]
  rfl

/-- The bits in hand after a `partial` are the end of the last end-of-block code (R404; log 29). -/
theorem Flushed.inEob {bs : List Bool} (h : Flushed s out bs) (hk : s.defl.bitCnt ≤ 7) (h0 : s.defl.bitCnt ≠ 0)
    (hheld : dataHeld s.defl = false) : ∃ before y part rest, streamBits out = streamBits (containerHeader s.params s.defl) ++
      (before ++ (headerBits before.length s.defl.blk ++ (bodyBits s.defl.blk ++ part))) ∧ Coded (wsize s.defl.wbits) before y ∧
        BlkOf (wsize s.defl.wbits) y s.defl.blk s.defl.data ∧ s.defl.blk.typ ≠ .stored ∧
          part ++ rest = codeBits (eobLens s.defl.blk) 15 256 ∧ rest ≠ [] := by
  obtain ⟨hbits, hc, hcnt⟩ := h
  rcases hc with ⟨rfl, -⟩ | ⟨before, y, rfl, hc, hb, -⟩
  · exact absurd hcnt h0
  · have ht : s.defl.blk.typ ≠ .stored := fun ht => by
      have := blkBits_stored_mod ht before.length
      rw [List.length_append] at hcnt
      omega
    have hlen : s.defl.bitCnt ≤ (eobLens s.defl.blk).getD 256 0 := by
      by_cases hd : s.defl.blk.typ = .dynamic
      · rw [dataHeld, hd, beq_self_eq_true, Bool.true_and, decide_eq_false_iff_not] at hheld
        rw [eobLens, if_pos hd]
        exact Nat.not_lt.1 hheld
      · rw [eobLens_fixed hd]
        exact hk
    rw [blkBits, symbolBits_eq ht] at hbits
    simp only [← List.append_assoc] at hbits
    have hcode := List.take_append_drop ((eobLens s.defl.blk).getD 256 0 - s.defl.bitCnt) (codeBits (eobLens s.defl.blk) 15 256)
    rw [← hcode, ← List.append_assoc] at hbits
    have hrest : ((codeBits (eobLens s.defl.blk) 15 256).drop ((eobLens s.defl.blk).getD 256 0 - s.defl.bitCnt)).length =
        s.defl.bitCnt := by
      rw [List.length_drop, codeBits_length]
      omega
    obtain ⟨hout, hheldbits⟩ := List.append_inj' hbits (by rw [hrest, bitsOf_length])
    refine ⟨before, y, _, _, ?_, hc, hb, ht, hcode, ?_⟩
    · rw [hout]
      simp only [List.append_assoc]
    · rw [Ne, ← List.length_eq_zero_iff, hrest]
      exact h0

/-- Whole blocks, and the last one short of its end. -/
theorem Follows.inEob (h : Follows s c) {src : List Byte} {before part rest : List Bool} {y : List Byte} {b : Blk}
    (hsrc : src.length < 2 ^ 32) (hc : Coded (wsize s.defl.wbits) before y) (hb : BlkOf (wsize s.defl.wbits) y b s.defl.data)
    (ht : b.typ ≠ .stored) (hcode : part ++ rest = codeBits (eobLens b) 15 256) (hr : rest ≠ [])
    (hbits : streamBits src = streamBits (containerHeader s.params s.defl) ++
      (before ++ (headerBits before.length b ++ (bodyBits b ++ part)))) :
    ∃ t, exec .inflWriteNone (inflFed c s.params src (s.defl.data.length + 1)) = .next t ∧
      t.infl.ec ∈ [Status.ok, .needBuffers] ∧ bytesAt t.bus.outMem 0 t.infl.produced = s.defl.data := by
  obtain ⟨c1, hg1, hat1, hs1, hl1⟩ := fed_header (room := s.defl.data.length + 1) h.sound.config h.legal h.window h.wrap hsrc h.data
    hbits
  obtain ⟨c2, hg2, hat2, hs2, hl2⟩ := At.blocks (pr := s.params) hc (by simp) (h.wsize_le _) h.wsize_max
    (hb.length_le.trans (Nat.le_succ _)) hat1 hs1 hl1
  have hmod : before.length % 8 = ((streamBits (containerHeader s.params s.defl)).length + before.length) % 8 := by
    rw [streamBits_length]
    omega
  rw [headerBits_mod hmod] at hat2
  obtain ⟨c3, hg3, hat3, he⟩ := At.codedBlock (pr := s.params) ht hb (h.wsize_le _) h.wsize_max (Nat.le_succ _) hat2 hs2 hl2
  obtain ⟨c4, hm, hmade, hs4⟩ := hat3.eobWaits (pr := s.params) he hcode hr
  exact inflates_waits (hg1.trans (hg2.trans hg3)) hm hmade hs4

end

/-! ## The obligations -/

section
variable {s t : State} {out : List Byte} {f : Flush} {c : Word}

theorem Wrote.params (h : Wrote f s t) : t.params = s.params := by rw [h.frame]

/-- The configuration of a call stays. -/
theorem Wrote.setup (hs : s.defl.Sound s.params) (hb : s.bus.Inv) (h : Wrote f s t) : t.defl.setup = s.defl.setup := by
  have hk : RunKeeps s.params fun d _ => d.setup = s.defl.setup :=
    { loop := fun f => ⟨fun c _ h => (by rw [(bwTake_frame c).1]; exact h), fun c _ _ _ _ h => (deflWork_setup s.params f c).trans h⟩
      outside := fun _ _ _ _ _ h => h
      init := fun d _ _ _ h => (deflInit_setup s.params d).trans h }
  exact hk.call (out := []) hs hb h rfl

/-- A complete flush leaves everything consumed in blocks. -/
theorem DeflRun.complete (hrun : DeflRun s out) (hfin : s.defl.finishing = false) (hn : f ≠ .none) (hf : f ≠ .trees)
    (he : exec (deflWriteInstr f) s = .next t) (hc : completeCall t) : Emptied t.defl ∧ t.defl.pending = [] ∧
      (4 ≤ flushRank f → t.defl.bitCnt = 0) ∧ ¬(f = .part ∧ dataHeld t.defl = true) ∧
        ∃ bs, Flushed t (out ++ writtenBytes s.defl.regs t.defl.regs t.bus.outMem) bs := by
  obtain ⟨hs, hb⟩ := hrun.sound
  have hrun' : DeflRun t (out ++ writtenBytes s.defl.regs t.defl.regs t.bus.outMem) := by
    obtain ⟨a, hl, hba, hfrom⟩ := hrun
    exact ⟨a, hl, hba, .write s t out f hfrom he⟩
  obtain ⟨-, hfin', hq, hrank, hheld⟩ := complete_leaves hs hb hfin hn hf (wrote he) hc
  have hpos : 1 ≤ flushRank f := by
    cases f with
    | none => exact absurd rfl hn
    | block | part | trees | sync | full | finish => decide
  obtain ⟨hem, hsat4, -⟩ := hrun'.settled hfin' (hpos.trans hrank)
  refine ⟨hem, hq, fun h4 => (hsat4 (h4.trans hrank)).1, hheld, hrun'.flushed ?_ hem hfin' hq⟩
  exact complete_started hs hb hfin hf (wrote he) hc

theorem DeflRun.follows (hrun : DeflRun s out) (hlegal : gzHdrLegal s.params.gzHdr) (he : exec (deflWriteInstr f) s = .next t)
    (hw : s.defl.wbits ≤ cfgWindowBits c) (hwrap : wrapOf (cfgWrap c) = some s.defl.wrap)
    (hdata : t.defl.data.length + 1 < 2 ^ 32) : Follows t c := by
  obtain ⟨hs, hb⟩ := hrun.sound
  have hrun' : DeflRun t (out ++ writtenBytes s.defl.regs t.defl.regs t.bus.outMem) := by
    obtain ⟨a, hl, hba, hfrom⟩ := hrun
    exact ⟨a, hl, hba, .write s t out f hfrom he⟩
  have hpr := (wrote he).params
  have hset := (wrote he).setup hs hb
  simp only [Defl.setup, Prod.mk.injEq] at hset
  obtain ⟨-, -, -, hwb, -, -, hwr⟩ := hset
  exact ⟨hrun'.sound.1, by rwa [hpr], by rwa [hwb], by rwa [hwr], hdata⟩

/-- Flush obligations (R376). -/
theorem flushObligation (hf : f = .part ∨ f = .sync ∨ f = .full) : FlushObligation f := by
  intro s t out c hrun hfin hlegal he hc _ hw hwrap hdata hout
  have hn : f ≠ .none := by rcases hf with rfl | rfl | rfl <;> nofun
  have ht : f ≠ .trees := by rcases hf with rfl | rfl | rfl <;> nofun
  obtain ⟨-, -, hcnt, hheld, bs, hfl⟩ := hrun.complete hfin hn ht he hc
  have hfo := hrun.follows hlegal he hw hwrap hdata
  have hpr := (wrote he).params
  have h7 : t.defl.bitCnt ≤ 7 := hfo.sound.bits.1
  unfold inflatesTo
  rw [← hpr]
  by_cases h0 : t.defl.bitCnt = 0
  · exact hfo.zeros (Nat.le_refl _) hout hfl.coded.coded (hfl.aligned h0)
  · have hpart : f = .part := hf.resolve_right fun hsf => h0 (hcnt (storedMark.rank hsf))
    have hnotheld : dataHeld t.defl = false := Bool.eq_false_iff.2 fun h => hheld ⟨hpart, h⟩
    obtain ⟨before, y, part, rest, hbits, hcoded, hblk, htyp, hcode, hrest⟩ := hfl.inEob h7 h0 hnotheld
    exact hfo.inEob hout hcoded hblk htyp hcode hrest hbits

/-- For `block`, with the bits in hand in one more byte (R376). -/
theorem blockFlush : BlockFlush := by
  intro s t out c hrun hfin hlegal he hc
  obtain ⟨hem, hq, -, -, bs, hfl⟩ := hrun.complete (f := .block) hfin (by decide) (by decide) he hc
  have hrun' : DeflRun t (out ++ writtenBytes s.defl.regs t.defl.regs t.bus.outMem) := by
    obtain ⟨a, hl, hba, hfrom⟩ := hrun
    exact ⟨a, hl, hba, .write s t out .block hfrom he⟩
  have hsound := hrun'.sound.1
  have h7 : t.defl.bitCnt ≤ 7 := hsound.bits.1
  refine ⟨⟨?_, hem.syms, hem.phase, hq, h7⟩, fun _ hw hwrap hdata hout => ?_⟩
  · obtain ⟨hsum, hcur, -⟩ := hsound.cursor
    have hpos := hem.pos
    rw [hem.syms] at hsum
    rw [hem.deferred] at hcur
    simp at hsum hcur
    omega
  · have hfo := hrun.follows hlegal he hw hwrap hdata
    have hpr := (wrote he).params
    unfold inflatesTo
    rw [← hpr]
    by_cases h0 : t.defl.bitCnt = 0
    · rw [if_pos h0, List.append_nil]
      exact hfo.zeros (Nat.le_refl _) (by omega) hfl.coded.coded (hfl.aligned h0)
    · rw [if_neg h0]
      refine hfo.zeros (bs := bs) (Nat.le_refl _) (by rw [List.length_append]; simpa using hout) hfl.coded.coded ?_
      have hbuf : t.defl.bitBuf < 2 ^ t.defl.bitCnt := hsound.bits.2
      have hbyte : streamBits [BitVec.ofNat 8 t.defl.bitBuf] =
          bitsOf t.defl.bitCnt t.defl.bitBuf ++ List.replicate (8 - t.defl.bitCnt) false := by
        rw [← bitsOf_add_zeros hbuf, Nat.add_sub_cancel' (by omega)]
        show bitsOf 8 (BitVec.ofNat 8 t.defl.bitBuf).toNat ++ [] = _
        rw [List.append_nil, BitVec.toNat_ofNat, bitsOf_mod]
      have hpad : (8 - bs.length % 8) % 8 = 8 - t.defl.bitCnt := by
        have := hfl.bitCnt
        omega
      rw [streamBits_append, hbyte, ← List.append_assoc, hfl.bits, hpad, List.append_assoc]

end

end Sys2Proof.Machine
end

section
/-! PROOFS. After a complete `full` nothing reaches back before it (R376): what follows is a raw stream of its own. -/

namespace Sys2Proof.Machine

section
variable {s t u : State} {out more : List Byte} {c : Word}

/-- The configuration of a run stays. -/
theorem DeflFrom.setup (h : DeflFrom t u more) (hs : t.defl.Sound t.params) (hb : t.bus.Inv) : u.defl.setup = t.defl.setup := by
  have hk : RunKeeps t.params fun d _ => d.setup = t.defl.setup :=
    { loop := fun f => ⟨fun c _ h => (by rw [(bwTake_frame c).1]; exact h), fun c _ _ _ _ h => (deflWork_setup t.params f c).trans h⟩
      outside := fun _ _ _ _ _ h => h
      init := fun d _ _ _ h => (deflInit_setup t.params d).trans h }
  exact hk.run (pre := []) hs hb rfl h

/-- After a complete `full` a new stream of blocks begins, with nothing of the source before it in reach. -/
theorem encodes_afterFull (hrun : DeflRun s out) (hfin : s.defl.finishing = false) (he : exec (deflWriteInstr .full) s = .next t)
    (hc : completeCall t) : t.defl.stage ≠ .init ∧ Encodes [] t.defl.data.length t.defl [] := by
  obtain ⟨hs, hb⟩ := hrun.sound
  have hrun' : DeflRun t (out ++ writtenBytes s.defl.regs t.defl.regs t.bus.outMem) := by
    obtain ⟨a, hl, hba, hfrom⟩ := hrun
    exact ⟨a, hl, hba, .write s t out .full hfrom he⟩
  obtain ⟨-, hfin', hq, hrank, -⟩ := complete_leaves hs hb hfin (by decide) (by decide) (wrote he) hc
  have hsat : t.defl.sat = 5 := le_antisymm hrun'.sound.1.sat hrank
  obtain ⟨⟨hphase, hsyms, hdef, hpos⟩, hcnt, hbase⟩ := hrun'.settled hfin' (by omega)
  obtain ⟨hcnt0, -⟩ := hcnt (by omega)
  have hbase' : t.defl.histBase = t.defl.data.length := (hbase hsat).trans hpos
  have hstart : t.defl.blockStart = t.defl.data.length := by
    obtain ⟨hsum, hcur, -⟩ := hrun'.sound.1.cursor
    rw [hsyms] at hsum
    rw [hdef] at hcur
    simp [dataEnd] at hsum hcur hpos
    omega
  refine ⟨complete_started hs hb hfin (by decide) (wrote he) hc, hrun'.encodes.1.matcher, hbase'.ge, ?_⟩
  refine .collecting hphase hfin' ⟨[], ?_, .inl ⟨rfl, ?_⟩⟩
  · rw [allBits, writtenBits, hq, hcnt0]
    rfl
  · rw [hstart]
    exact srcTo_self _ _

/-- A fresh raw `INFL` is where blocks are read. -/
theorem fed_raw {pr : Params} {src : List Byte} {room : Nat} (hwrap : wrapOf (cfgWrap c) = some .none) (hsrc : src.length < 2 ^ 32)
    (hroom : room < 2 ^ 32) : At (settingOf c room) 0 [] (streamBits src) (fedCtx c pr src room) ∧
      (fedCtx c pr src room).e.stage = .blockType ∧ (settingOf c room).wrap = .none := by
  refine ⟨at_fedCtx hsrc hroom, ?_, ?_⟩
  · show firstStage ((wrapOf (cfgWrap c)).getD .none) = _
    rw [hwrap]
    rfl
  · rw [settingOf, hwrap]
    rfl

/-- For `full`, what follows is decoded on its own (R376). -/
theorem fullChunk : FullChunk := by
  intro s t u out more c hrun hfin he hc hfrom hdone _ hw hwrap hdata hmore
  obtain ⟨hs, hb⟩ := hrun.sound
  have hpr := (wrote he).params
  have hanswers := deflWrite_answers .full hs hb t ((exec_deflWriteInstr .full s).symm.trans he)
  rw [← hpr] at hanswers
  obtain ⟨hst, hbt⟩ := hanswers
  obtain ⟨hne, henc⟩ := encodes_afterFull hrun hfin he hc
  obtain ⟨hpru, hsu, -⟩ := hfrom.sound hst hbt
  have hset := (hfrom.setup hst hbt).trans ((wrote he).setup hs hb)
  simp only [Defl.setup, Prod.mk.injEq] at hset
  obtain ⟨-, -, -, hwb, -, -, -⟩ := hset
  obtain ⟨-, -, hhi, -⟩ := hsu.config
  have hkept := (runKeeps_started t.params (pre := []) rfl t.defl.data.length).run hst hbt (pre := []) ⟨hne, henc⟩ hfrom
  obtain ⟨bs, y, hbits, hcoded, hblk, hbf⟩ := hkept.2.done (hpru ▸ hsu) hdone
  rw [List.nil_append] at hbits
  generalize hz : u.defl.data.drop t.defl.data.length = z at hblk ⊢
  have hzlen : z.length ≤ u.defl.data.length := by
    rw [← hz, List.length_drop]
    exact Nat.sub_le _ _
  obtain ⟨hat, hs0, hkw⟩ := fed_raw (pr := s.params) (room := z.length + 1) hwrap hmore (by omega)
  have htrail : ∀ a b : Word, streamBits (trailerBytes (settingOf c (z.length + 1)).wrap a b) = [] := fun a b => by
    rw [hkw]
    rfl
  rw [hbits, List.append_assoc, List.nil_append, ← List.nil_append (streamBits (trailerBytes _ _ _)), ← htrail
    (z.foldl (checkStep (settingOf c (z.length + 1)).wrap) (checkInit (settingOf c (z.length + 1)).wrap)) (BitVec.ofNat 32 z.length)]
    at hat
  obtain ⟨c2, c3, q, hg2, hstop, hat3, hs3⟩ := At.lastBlocks (pr := s.params) hcoded hblk hbf rfl
    (wsize_le_of_le (hwb.trans_le hw)) (wsize_le_max hhi) (Nat.le_succ _) rfl rfl hat hs0 rfl
  obtain ⟨t', hex, hec, hbytes, -⟩ := inflates_ends hg2 hstop hat3 hs3
  exact ⟨t', hex, by rw [hec]; exact List.mem_singleton_self _, hbytes⟩

end

end Sys2Proof.Machine
end

section
/-! PROOFS. The work of `DEFL` looks at no stream parameter but `AVAIL_IN` and the bytes of `IN` under the cursor (R375 (d)): every
operation commutes with a change of the stream parameters and of the code last returned. -/

namespace Sys2Proof.Machine

/-! ## Operations that do not look at the stream parameters -/

/-- The engine with other stream parameters and another code. -/
def Defl.withIo (r : StreamRegs) (e : Status) (d : Defl) : Defl := { d with regs := r, ec := e }

section
variable (r : StreamRegs) (e : Status) (d : Defl)

@[simp] theorem withIo_pos : (d.withIo r e).pos = d.pos := rfl
@[simp] theorem withIo_level : (d.withIo r e).level = d.level := rfl
@[simp] theorem withIo_deferred : (d.withIo r e).deferred = d.deferred := rfl
@[simp] theorem withIo_nextIns : (d.withIo r e).nextIns = d.nextIns := rfl
@[simp] theorem withIo_dataEnd : dataEnd (d.withIo r e) = dataEnd d := rfl
@[simp] theorem withIo_lookahead : lookahead (d.withIo r e) = lookahead d := rfl
@[simp] theorem withIo_stepMode (pr : Params) : stepMode pr (d.withIo r e) = stepMode pr d := rfl

end

/-- An operation that does not look at the stream parameters and the code. -/
def IoBlind (g : Defl → Defl) : Prop := ∀ (r : StreamRegs) (e : Status) (d : Defl), g (d.withIo r e) = (g d).withIo r e

theorem IoBlind.comp {g h : Defl → Defl} (hg : IoBlind g) (hh : IoBlind h) : IoBlind fun d => g (h d) := fun r e d =>
  (congrArg g (hh r e d)).trans (hg r e (h d))

theorem IoBlind.foldl {α : Type} {h : Defl → α → Defl} (hh : ∀ x, IoBlind fun d => h d x) (xs : List α) :
    IoBlind fun d => xs.foldl h d := by
  intro r e d
  induction xs generalizing d with
  | nil => rfl
  | cons x xs ih =>
    exact (congrArg (xs.foldl h) (hh x r e d)).trans (ih (h d x))

section
variable (v n p : Nat) (pr : Params) (b : Blk) (f : Flush)

/-! ## The bit writer and the blocks -/

theorem ioBlind_bwPut : IoBlind (bwPut v n) := fun _ _ _ => rfl

theorem ioBlind_bwPutcode : IoBlind (bwPutcode v n) := fun _ _ _ => rfl

theorem ioBlind_bwAlign : IoBlind bwAlign := fun r e d => by
  have hc : (d.withIo r e).bitCnt = d.bitCnt := rfl
  rw [bwAlign, bwAlign, hc]
  split_ifs <;> rfl

theorem ioBlind_emitStoredLen : IoBlind (emitStoredLen n) :=
  ((ioBlind_bwPut _ _).comp (ioBlind_bwPut _ _)).comp ioBlind_bwAlign

theorem ioBlind_emitTrees : IoBlind (emitTrees b) := by
  have hcounts : IoBlind fun d => bwPut (b.hclen - 4) 4 (bwPut (b.hdist - 1) 5 (bwPut (b.hlit - 257) 5 d)) :=
    (ioBlind_bwPut _ _).comp ((ioBlind_bwPut _ _).comp (ioBlind_bwPut _ _))
  exact (IoBlind.foldl (fun q => fun _ _ _ => rfl) b.rl).comp
    ((IoBlind.foldl (fun s => ioBlind_bwPut (b.clLens.getD s 0) 3) (clOrder.take b.hclen)).comp hcounts)

theorem ioBlind_hbEmitHeader : IoBlind (hbEmitHeader b) := by
  intro r e d
  have hfirst : bwPut (blockTypeNum b.typ) 2 (bwPut b.final.toNat 1 (d.withIo r e)) =
      (bwPut (blockTypeNum b.typ) 2 (bwPut b.final.toNat 1 d)).withIo r e := (ioBlind_bwPut _ _).comp (ioBlind_bwPut _ _) r e d
  simp only [hbEmitHeader, hfirst]
  cases b.typ with
  | stored => exact ioBlind_emitStoredLen _ r e _
  | fixed => rfl
  | dynamic => exact ioBlind_emitTrees b r e _

theorem ioBlind_emitSymbol (lc ll dc dl : List Nat) (t : Token) : IoBlind fun d => emitSymbol lc ll dc dl d t := by
  cases t <;> exact fun _ _ _ => rfl

theorem ioBlind_emitCoded (toks : List Token) (ll dl : Lens) : IoBlind (emitCoded toks ll dl) :=
  (ioBlind_bwPutcode _ _).comp (IoBlind.foldl (ioBlind_emitSymbol _ _ _ _) toks)

theorem ioBlind_hbEmitSymbols : IoBlind (hbEmitSymbols b) := by
  intro r e d
  simp only [hbEmitSymbols]
  cases b.typ with
  | stored => exact IoBlind.foldl (fun x => ioBlind_bwPut x.toNat 8) b.raw r e d
  | fixed => exact ioBlind_emitCoded _ _ _ r e d
  | dynamic => exact ioBlind_emitCoded _ _ _ r e d

theorem ioBlind_headerDone : IoBlind headerDone := fun r e d => by
  have h := ioBlind_hbEmitHeader d.blk r e d
  have hb : (d.withIo r e).blk = d.blk := rfl
  rw [headerDone, hb, h]
  rfl

theorem ioBlind_symbolsDone : IoBlind symbolsDone := fun r e d => by
  have h := ioBlind_hbEmitSymbols d.blk r e d
  have hb : (d.withIo r e).blk = d.blk := rfl
  rw [symbolsDone, hb, h]
  rfl

theorem ioBlind_trailerDone : IoBlind trailerDone := fun r e d => by
  rw [trailerDone, ioBlind_bwAlign r e d]
  rfl

theorem ioBlind_marker : IoBlind (marker f) := by
  have hstored : IoBlind fun d => bwPut 0xFFFF 16 (bwPut 0 16 (bwAlign (bwPut 0 3 d))) :=
    ((ioBlind_bwPut _ _).comp (ioBlind_bwPut _ _)).comp (ioBlind_bwAlign.comp (ioBlind_bwPut _ _))
  cases f with
  | sync | full => exact hstored
  | part | none | block | finish | trees => exact fun _ _ _ => rfl

theorem ioBlind_writeMarker : IoBlind (writeMarker f) := fun r e d => by
  rw [writeMarker, ioBlind_marker f r e d]
  rfl

theorem ioBlind_completeFlush : IoBlind (completeFlush f) := fun r e d => by
  simp only [completeFlush, ioBlind_writeMarker f r e d]
  split_ifs <;> rfl

theorem closeBlock_withIo (final : Bool) (r : StreamRegs) (e : Status) (d : Defl) :
    closeBlock pr final (d.withIo r e) = (closeBlock pr final d).withIo r e := rfl

/-! ## The matcher -/

theorem ioBlind_lzInsertLoop (k : Nat) : IoBlind (lzInsertLoop k p) := by
  induction k with
  | zero => exact fun _ _ _ => rfl
  | succ k ih =>
    intro r e d
    have hone : insertOne (d.withIo r e) = (insertOne d).withIo r e := rfl
    simp only [lzInsertLoop, withIo_nextIns, withIo_dataEnd, hone, ih r e (insertOne d)]
    split_ifs <;> rfl

theorem ioBlind_lzInsert : IoBlind (lzInsert p) := fun r e d => ioBlind_lzInsertLoop p (p + 1 - d.nextIns) r e d

theorem ioBlind_lzInsertBelow : IoBlind (lzInsertBelow p) := fun r e d => by
  rw [lzInsertBelow, lzInsertBelow, ioBlind_lzInsert]
  split_ifs <;> rfl

theorem findLoop_withIo (r : StreamRegs) (e : Status) (d : Defl) (maxlen nice : Nat) (cand : Option Nat) (best : Nat × Nat) :
    findLoop (d.withIo r e) p maxlen nice n cand best = findLoop d p maxlen nice n cand best := by
  induction n generalizing cand best with
  | zero => rfl
  | succ n ih =>
    cases cand with
    | none => rfl
    | some q =>
      simp only [findLoop, ih]
      rfl

theorem lzFind_withIo (r : StreamRegs) (e : Status) (d : Defl) (chain : Nat) :
    lzFind pr p chain (d.withIo r e) = lzFind pr p chain d := by
  have hloop := findLoop_withIo (n := chain) (p := p) r e d
  rw [lzFind, lzFind, findChain, findChain, hloop]
  rfl

theorem lazySearch_withIo (r : StreamRegs) (e : Status) (d : Defl) (pl : Nat) :
    lazySearch pr p pl (d.withIo r e) = lazySearch pr p pl d := by
  rw [lazySearch, lazySearch, lzFind_withIo]
  rfl

theorem ioBlind_stepGreedy : IoBlind (stepGreedy pr) := fun r e d => by
  simp only [stepGreedy, withIo_pos, withIo_level, ioBlind_lzInsertBelow d.pos r e d, lzFind_withIo, ioBlind_lzInsert d.pos r e _]
  split_ifs <;> rfl

theorem ioBlind_stepLazyFresh : IoBlind (stepLazyFresh pr) := fun r e d => by
  simp only [stepLazyFresh, withIo_pos, withIo_level, ioBlind_lzInsertBelow d.pos r e d, lzFind_withIo, ioBlind_lzInsert d.pos r e _]
  split_ifs <;> rfl

theorem ioBlind_stepLazyDeferred : IoBlind (stepLazyDeferred pr) := fun r e d => by
  simp only [stepLazyDeferred, withIo_pos, withIo_deferred, ioBlind_lzInsertBelow d.pos r e d, lazySearch_withIo, ioBlind_lzInsert d.pos r e _]
  split_ifs <;> rfl

theorem ioBlind_lzStep : IoBlind (lzStep pr) := fun r e d => by
  rw [lzStep, lzStep, withIo_stepMode, withIo_deferred]
  by_cases hpos : d.pos < dataEnd d
  · rw [if_pos (show (d.withIo r e).pos < dataEnd (d.withIo r e) from hpos), if_pos hpos]
    cases stepMode pr d with
    | literal => rfl
    | greedy => exact ioBlind_stepGreedy pr r e d
    | lazy =>
      have hl := ioBlind_stepLazyDeferred pr r e d
      have hf := ioBlind_stepLazyFresh pr r e d
      simp only [hl, hf]
      split_ifs <;> rfl
  · rw [if_neg (show ¬ (d.withIo r e).pos < dataEnd (d.withIo r e) from hpos), if_neg hpos]
    split_ifs <;> rfl

/-! ## Tokenising -/

theorem canStep_withIo (r : StreamRegs) (e : Status) (d : Defl) (h : r.availIn = d.regs.availIn) :
    canStep f (d.withIo r e) = canStep f d := by
  have ha : (d.withIo r e).regs.availIn = d.regs.availIn := h
  simp only [canStep, ha, withIo_lookahead, withIo_deferred]

theorem tokenise_withIo (r : StreamRegs) (e : Status) (d : Defl) (h : r.availIn = d.regs.availIn) :
    tokenise pr f n (d.withIo r e) = ((tokenise pr f n d).1, (tokenise pr f n d).2.withIo r e) := by
  induction n generalizing d with
  | zero => rfl
  | succ n ih =>
    have hregs : (lzStep pr d).regs = d.regs := by
      rw [onlyTokens_lzStep pr d]
    have hfull : blockFull ((lzStep pr d).withIo r e) = blockFull (lzStep pr d) := rfl
    rw [tokenise, tokenise, canStep_withIo f r e d h, ioBlind_lzStep pr r e d, hfull, ih _ (h.trans (congrArg _ hregs.symm))]
    split_ifs <;> rfl

end

end Sys2Proof.Machine
end

section
/-! PROOFS. Two engines that differ in the output region only do the same work (R375 (d)). -/

namespace Sys2Proof.Machine

/-! ## The same engine with the same input -/

/-- The engines agree but for the stream parameters and the code last returned. -/
def SameEngine (d d' : Defl) : Prop := ∃ r e, d' = d.withIo r e

theorem SameEngine.data {d d' : Defl} (h : SameEngine d d') : d'.data = d.data := by
  obtain ⟨r, e, rfl⟩ := h
  rfl

theorem SameEngine.map {g : Defl → Defl} (hg : IoBlind g) {d d' : Defl} (h : SameEngine d d') : SameEngine (g d) (g d') := by
  obtain ⟨r, e, rfl⟩ := h
  exact ⟨r, e, hg r e d⟩

/-- The input not yet consumed. -/
def remaining (c : DeflCtx) : List Byte := bytesAt c.bus.inMem c.d.regs.nextIn.toNat c.d.regs.availIn.toNat

/-- The regions lie in their spaces, and `OUT` is in canonical form. -/
def DeflCtx.hosted (c : DeflCtx) : Prop := c.bus.outMem.wf ∧ regionOk c.d.regs = true

/-- The same engine with the same input, whatever the output region. -/
structure Twin (c c' : DeflCtx) : Prop where
  engine : SameEngine c.d c'.d
  input : remaining c' = remaining c
  left : c.hosted
  right : c'.hosted

section
variable {pr : Params} {f : Flush} {c c' e e' : DeflCtx} {k k' : Nat} {xs xs' : List Byte}

theorem Moved.hosted (h : Moved c k xs e) (hc : c.hosted) : e.hosted := ⟨h.outWf, h.regionOk hc.2⟩

theorem Moved.remaining (h : Moved c k xs e) (hc : c.hosted) : remaining e = (remaining c).drop k := by
  have ha : c.d.regs.availIn.toNat = k + e.d.regs.availIn.toNat := by rw [Nat.add_comm, h.availIn]
  rw [Machine.remaining, Machine.remaining, ha, bytesAt_add, List.drop_left' (bytesAt_length _ _ _), h.inMem]
  rcases h.nextIn_or hc.2 with hn | hz
  · rw [hn]
  · rw [hz, bytesAt_zero, bytesAt_zero]

theorem Twin.availIn (h : Twin c c') : c'.d.regs.availIn = c.d.regs.availIn := by
  have hlen := congrArg List.length h.input
  simp only [remaining, bytesAt_length] at hlen
  exact BitVec.eq_of_toNat_eq hlen

/-- Twins that moved to the same engine are twins: the source tells how much was consumed. -/
theorem Twin.moved (h : Twin c c') (hm : Moved c k xs e) (hm' : Moved c' k' xs' e') (he : SameEngine e.d e'.d) : Twin e e' := by
  have hk : k' = k := by
    have hlen := congrArg List.length he.data
    rw [hm'.data, hm.data, h.engine.data] at hlen
    simpa using hlen
  refine ⟨he, ?_, hm.hosted h.left, hm'.hosted h.right⟩
  rw [hm'.remaining h.right, hm.remaining h.left, h.input, hk]

/-! ## Accepting and tokenising -/

theorem Twin.inByteVal (h : Twin c c') (ha : c.d.regs.availIn ≠ 0) :
    inByteVal c'.d.regs c'.bus = inByteVal c.d.regs c.bus := by
  have hin := h.input
  obtain ⟨n, hn⟩ := Nat.exists_eq_succ_of_ne_zero (availIn_toNat_pos.2 ha).ne'
  rw [remaining, remaining, h.availIn, hn, bytesAt_succ, bytesAt_succ] at hin
  exact (List.cons.inj hin).1

theorem Twin.acceptByte (h : Twin c c') (ha : c.d.regs.availIn ≠ 0) : Twin (acceptByte c) (acceptByte c') := by
  have ha' : c'.d.regs.availIn ≠ 0 := h.availIn ▸ ha
  refine h.moved (moved_acceptByte h.left.1 ha) (moved_acceptByte h.right.1 ha') ?_
  obtain ⟨r, e, he⟩ := h.engine
  refine ⟨inByteRegs c'.d.regs c'.bus, e, ?_⟩
  rw [Machine.acceptByte, h.inByteVal ha, he]
  rfl

theorem Twin.acceptLoop {n : Nat} (h : Twin c c') (hn : n ≤ c.d.regs.availIn.toNat) :
    Twin (acceptLoop n c) (acceptLoop n c') := by
  induction n generalizing c c' with
  | zero => exact h
  | succ n ih =>
    have ha : c.d.regs.availIn ≠ 0 := availIn_toNat_pos.1 (by omega)
    have hleft := (moved_acceptByte h.left.1 ha).availIn
    exact ih (h.acceptByte ha) (by omega)

theorem Twin.acceptCount (h : Twin c c') : acceptCount c'.d = acceptCount c.d := by
  rw [Machine.acceptCount, h.availIn]
  obtain ⟨r, e, he⟩ := h.engine
  rw [he]
  rfl

theorem Twin.accept (h : Twin c c') : Twin (accept c) (accept c') := by
  refine h.moved (moved_accept h.left.1 h.left.2) (moved_accept h.right.1 h.right.2) ?_
  obtain ⟨r, e, he⟩ := (h.acceptLoop (acceptCount_le c.d)).engine
  rw [Machine.accept, Machine.accept, h.acceptCount]
  split_ifs
  · exact ⟨r, e, congrArg (fun d : Defl => { d with sat := 0 }) he⟩
  · exact ⟨r, e, he⟩

theorem Twin.tokenised (h : Twin c c') :
    (tokenised pr f c').1 = (tokenised pr f c).1 ∧ SameEngine (tokenised pr f c).2 (tokenised pr f c').2 := by
  have hacc := h.accept
  have ha := hacc.availIn
  obtain ⟨r, e, he⟩ := hacc.engine
  rw [he] at ha
  have hfuel : tokeniseFuel ((Machine.accept c).d.withIo r e) = tokeniseFuel (Machine.accept c).d := rfl
  have ht : Machine.tokenised pr f c' = ((Machine.tokenised pr f c).1, (Machine.tokenised pr f c).2.withIo r e) := by
    rw [Machine.tokenised, he, hfuel]
    exact tokenise_withIo _ _ _ r e _ ha
  rw [ht]
  exact ⟨rfl, r, e, rfl⟩

/-! ## Work -/

/-- Two rounds of work end alike. -/
def SameRound (x x' : DeflRound) : Prop := x'.stopped = x.stopped ∧ SameEngine x.c.d x'.c.d

theorem SameRound.cont {d d' : Defl} (h : SameEngine d d') (trees : Bool) : SameRound (c.cont trees d) (c'.cont trees d') := ⟨rfl, h⟩

theorem SameRound.halt {d d' : Defl} (h : SameEngine d d') (trees : Bool) : SameRound (c.halt trees d) (c'.halt trees d') := ⟨rfl, h⟩

theorem SameEngine.closeBlock {d d' : Defl} (h : SameEngine d d') (final : Bool) :
    SameEngine (closeBlock pr final d) (closeBlock pr final d') := h.map fun r e d => closeBlock_withIo pr final r e d

theorem sameRound_decideCollect (h : SameEngine c.d c'.d) (ha : c'.d.regs.availIn = c.d.regs.availIn) :
    SameRound (decideCollect pr f c) (decideCollect pr f c') := by
  have hlast : IoBlind fun d => { closeBlock pr true d with finishing := true } := fun r e d =>
    congrArg (fun d : Defl => { d with finishing := true }) (closeBlock_withIo pr true r e d)
  have hsat : c'.d.sat = c.d.sat := by obtain ⟨r, e, he⟩ := h; rw [he]; rfl
  have hheld : dataHeld c'.d = dataHeld c.d := by obtain ⟨r, e, he⟩ := h; rw [he]; rfl
  have hsyms : c'.d.syms = c.d.syms := by obtain ⟨r, e, he⟩ := h; rw [he]; rfl
  simp only [decideCollect, ha, hsat, hheld, hsyms]
  split_ifs
  · exact .cont h false
  · exact .halt h false
  · exact .cont (h.map hlast) false
  · exact .cont (h.map (ioBlind_writeMarker f)) false
  · exact .halt h false
  · exact .cont (h.closeBlock false) false
  · exact .cont (h.map (ioBlind_completeFlush f)) false

theorem Twin.collect (h : Twin c c') : SameRound (collect pr f c) (collect pr f c') := by
  obtain ⟨hfull, htok⟩ := h.tokenised (pr := pr) (f := f)
  cases ht : (Machine.tokenised pr f c).1 with
  | true =>
    rw [collect_full ht, collect_full (hfull.trans ht)]
    exact .cont (htok.closeBlock false) false
  | false =>
    have hreg : ∀ b : DeflCtx, (Machine.tokenised pr f b).2.regs = (Machine.accept b).d.regs := fun b => by
      rw [onlyTokens_tokenised pr f b]
    rw [collect_open ht, collect_open (hfull.trans ht)]
    refine sameRound_decideCollect htok ?_
    show (Machine.tokenised pr f c').2.regs.availIn = (Machine.tokenised pr f c).2.regs.availIn
    rw [hreg, hreg, h.accept.availIn]

theorem Twin.round (h : Twin c c') : SameRound (deflWork pr f c) (deflWork pr f c') := by
  have hdone : IoBlind fun d => { d with stage := .done } := fun _ _ _ => rfl
  have hbody : IoBlind fun d => { d with stage := .body } := fun _ _ _ => rfl
  have hstage : c'.d.stage = c.d.stage := by obtain ⟨r, e, he⟩ := h.engine; rw [he]; rfl
  have hphase : c'.d.phase = c.d.phase := by obtain ⟨r, e, he⟩ := h.engine; rw [he]; rfl
  have hfin : c'.d.finishing = c.d.finishing := by obtain ⟨r, e, he⟩ := h.engine; rw [he]; rfl
  by_cases hs : c.d.stage = .flushPending
  · cases hf : c.d.finishing with
    | true =>
      rw [deflWork_ended hs hf, deflWork_ended (hstage.trans hs) (hfin.trans hf)]
      exact .halt (h.engine.map hdone) false
    | false =>
      rw [deflWork_flushed hs hf, deflWork_flushed (hstage.trans hs) (hfin.trans hf)]
      exact .cont (h.engine.map hbody) false
  · have hs' : c'.d.stage ≠ .flushPending := hstage ▸ hs
    cases hp : c.d.phase with
    | blkHeader =>
      rw [deflWork_blkHeader hs hp, deflWork_blkHeader hs' (hphase.trans hp)]
      exact .cont (h.engine.map ioBlind_headerDone) _
    | blkSymbols =>
      rw [deflWork_blkSymbols hs hp, deflWork_blkSymbols hs' (hphase.trans hp)]
      exact .cont (h.engine.map ioBlind_symbolsDone) _
    | trailer =>
      rw [deflWork_trailer hs hp, deflWork_trailer hs' (hphase.trans hp)]
      exact .cont (h.engine.map ioBlind_trailerDone) _
    | collect =>
      rw [deflWork_collect hs hp, deflWork_collect hs' (hphase.trans hp)]
      exact h.collect

/-- Twins stop alike and go on as twins. -/
theorem Twin.work (h : Twin c c') : (deflWork pr f c').stopped = (deflWork pr f c).stopped ∧
    Twin (deflWork pr f c).c (deflWork pr f c').c := by
  obtain ⟨hstop, he⟩ := h.round (pr := pr) (f := f)
  obtain ⟨_, hm⟩ := moved_deflWork (pr := pr) (f := f) h.left.1 h.left.2
  obtain ⟨_, hm'⟩ := moved_deflWork (pr := pr) (f := f) h.right.1 h.right.2
  exact ⟨hstop, h.moved hm hm' he⟩

end

end Sys2Proof.Machine
end

section
/-! PROOFS. The sequence of work that goes on until it has nothing left to do, without regard to output space (R375 (d), R382): its
end is one, it is the same for twins, and after the end work stops again. -/

namespace Sys2Proof.Machine

/-! ## Work to its end -/

/-- The engine with its queue put out. -/
def noQueue (c : DeflCtx) : DeflCtx := { c with d := { c.d with pending := [] } }

/-- Work goes on from `c`, with the bytes `out` put out or queued, until it stops with a source and all its output. -/
inductive Ends (pr : Params) (g : Flush) : DeflCtx → List Byte → List Byte × List Byte → Prop
  | stop (c : DeflCtx) (out : List Byte) (h : (deflWork pr g c).stopped = true) : Ends pr g c out ((deflWork pr g c).c.d.data, out)
  | go (c : DeflCtx) (out : List Byte) (z : List Byte × List Byte) (h : (deflWork pr g c).stopped = false)
      (rest : Ends pr g (noQueue (deflWork pr g c).c) (out ++ (deflWork pr g c).c.d.pending) z) : Ends pr g c out z

section
variable {pr : Params} {f g : Flush} {c c' e : DeflCtx} {out : List Byte} {z z' : List Byte × List Byte}

theorem noQueue_of_empty (h : c.d.pending = []) : noQueue c = c :=
  congrArg (fun p => { c with d := { c.d with pending := p } }) h.symm

theorem Ends.unique (h : Ends pr g c out z) (h' : Ends pr g c out z') : z = z' := by
  induction h with
  | stop c out hs =>
    cases h' with
    | stop => rfl
    | go _ _ _ hn => exact absurd (hs.symm.trans hn) nofun
  | go c out z hn _ ih =>
    cases h' with
    | stop _ _ hs => exact absurd (hs.symm.trans hn) nofun
    | go _ _ _ _ rest => exact ih rest

theorem Twin.symm (h : Twin c c') : Twin c' c := by
  refine ⟨?_, h.input.symm, h.right, h.left⟩
  obtain ⟨r, e, he⟩ := h.engine
  exact ⟨c.d.regs, c.d.ec, by rw [he]; rfl⟩

theorem Twin.noQueue (h : Twin c c') : Twin (noQueue c) (noQueue c') := by
  refine ⟨?_, h.input, h.left, h.right⟩
  obtain ⟨r, e, he⟩ := h.engine
  exact ⟨r, e, congrArg (fun d : Defl => { d with pending := [] }) he⟩

theorem Twin.pending (h : Twin c c') : c'.d.pending = c.d.pending := by
  obtain ⟨r, e, he⟩ := h.engine
  rw [he]
  rfl

/-- Twins end alike. -/
theorem Ends.twin (h : Ends pr g c out z) (ht : Twin c c') : Ends pr g c' out z := by
  induction h generalizing c' with
  | stop c out hs =>
    obtain ⟨hstop, hw⟩ := ht.work (pr := pr) (f := g)
    rw [← hw.engine.data]
    exact .stop c' out (hstop.trans hs)
  | go c out z hn _ ih =>
    obtain ⟨hstop, hw⟩ := ht.work (pr := pr) (f := g)
    refine .go c' out z (hstop.trans hn) ?_
    rw [hw.pending]
    exact ih hw.noQueue

/-! ## After the end -/

/-- Work that stopped before the end of the stream stops again at once, with the same source. -/
theorem stops_again (hs : c.Sound pr) (hst : c.d.stage ≠ .flushPending) (hstop : (deflWork pr g c).stopped = true) :
    (deflWork pr g (deflWork pr g c).c).stopped = true ∧
      (deflWork pr g (deflWork pr g c).c).c.d.data = (deflWork pr g c).c.d.data := by
  obtain ⟨hpend, -⟩ | ⟨-, hp, hopen, ha, hnf, hcond, hw⟩ := deflWork_stopped hstop
  · exact absurd hpend hst
  · rw [hw]
    set d := (tokenised pr g c).2 with hd
    let e : DeflCtx := ((Machine.accept c).halt false d).c
    have hstage : d.stage = c.d.stage := by rw [hd, onlyTokens_tokenised pr g c, accept_frame_d]
    have hphase : d.phase = .collect := (tokenised_phase pr g c).trans hp
    have htok : tokenised pr g e = (false, d) := by
      rw [tokenised, accept_of_empty (c := e) ha]
      exact tokenise_of_not_canStep (tokenised_canStep hs.1 hopen hs.2) _
    have hagain : deflWork pr g e = e.halt false d := by
      rw [deflWork_collect (c := e) (hstage ▸ hst) hphase, collect_open (by rw [htok]), htok, accept_of_empty (c := e) ha]
      refine decideCollect_cases (c := e) (motive := fun r => r = e.halt false d) ?_ ?_ ?_ ?_ ?_ ?_ ?_
      · exact fun h => absurd ha h
      · exact fun _ _ => rfl
      · exact fun _ h => absurd h hnf
      · rintro - rfl - hheld
        obtain h | ⟨-, hm⟩ := hcond
        · exact absurd h nofun
        · exact absurd ⟨rfl, hheld⟩ hm
      · exact fun _ _ _ _ _ => rfl
      · intro _ hn _ hlt
        exact absurd hlt (Nat.not_lt.2 (hcond.resolve_left hn).1)
      · intro _ hn _ hlt
        exact absurd hlt (Nat.not_lt.2 (hcond.resolve_left hn).1)
    exact ⟨congrArg DeflRound.stopped hagain, congrArg (fun r : DeflRound => r.c.d.data) hagain⟩

/-! ## The mode of a run -/

theorem finishing_deflWork (hf : f ≠ .finish) : (deflWork pr f c).c.d.finishing = c.d.finishing := by
  have ht := tokenised_finishing pr f c
  refine deflWork_cases (motive := fun r => r.c.d.finishing = c.d.finishing) ?_ ?_ ?_ ?_ ?_ ?_ ?_
  · exact fun _ _ => rfl
  · exact fun _ _ => rfl
  · exact fun _ _ => by rw [DeflCtx.cont, headerDone_frame]
  · exact fun _ _ => by rw [DeflCtx.cont, symbolsDone_frame]
  · exact fun _ _ => by rw [DeflCtx.cont, trailerDone_frame]
  · exact fun _ _ _ => ht
  · intro _ _ _
    refine decideCollect_cases (motive := fun r => r.c.d.finishing = c.d.finishing) ?_ ?_ ?_ ?_ ?_ ?_ ?_
    · exact fun _ => ht
    · exact fun _ _ => ht
    · exact fun _ h => absurd h hf
    · exact fun _ _ _ _ => by rw [DeflCtx.cont, writeMarker_frame]; exact ht
    · exact fun _ _ _ _ _ => ht
    · exact fun _ _ _ _ _ => ht
    · exact fun _ _ _ _ _ => by rw [DeflCtx.cont, completeFlush_frame]; exact ht

theorem effective_finish (d : Defl) : effective .finish d = .finish := ite_self _

/-- All calls of one mode work in one mode. -/
theorem effective_deflWork (h : effective f c.d = g) : effective f (deflWork pr g c).c.d = g := by
  by_cases hf : f = .finish
  · subst hf
    exact (effective_finish _).trans ((effective_finish _).symm.trans h)
  cases hfin : c.d.finishing with
  | true =>
    rw [effective_of_finishing (deflWork_finishing hfin), ← h, effective_of_finishing hfin]
  | false =>
    rw [effective_of_not_finishing hfin] at h
    subst h
    exact effective_of_not_finishing ((finishing_deflWork hf).trans hfin)

end

end Sys2Proof.Machine
end

section
/-! PROOFS. Portioning output space is invisible (R375 (d)): every call of a mode, whatever its output region, goes on with the work
that the call before left, and a drained engine has come to its end. -/

namespace Sys2Proof.Machine

/-! ## Where the calls of a mode lead -/

/-- What the next call starts from, without its output region and with the queue put out. -/
def resumed (s : State) : DeflCtx := noQueue (atStart (withRoom 0 0 [] s))

/-- The source and the output the calls of a mode lead to, from a state before which `out` was written. -/
def Finishes (f : Flush) (s : State) (out : List Byte) (z : List Byte × List Byte) : Prop :=
  (s.defl.stage = .done ∧ z = (s.defl.data, out)) ∨
    (s.defl.stage ≠ .done ∧ Ends s.params (effective f s.defl) (resumed s) (out ++ (atStart s).d.pending) z)

/-- Calls are not refused for a recorded error or for the input region. -/
def Defl.alive (d : Defl) : Prop := d.sticky = .ok ∧ d.regs.nextIn.toNat + d.regs.availIn.toNat ≤ 2 ^ 32

section
variable {f : Flush} {s t : State} {out : List Byte} {z z' : List Byte × List Byte} {no ao : Word} {m : Memory}

theorem Finishes.unique (h : Finishes f s out z) (h' : Finishes f s out z') : z = z' := by
  rcases h with ⟨hd, h⟩ | ⟨hd, h⟩ <;> rcases h' with ⟨hd', h'⟩ | ⟨hd', h'⟩
  · exact h.trans h'.symm
  · exact absurd hd hd'
  · exact absurd hd' hd
  · exact h.unique h'

theorem ioBlind_deflInit (pr : Params) : IoBlind (deflInit pr) := by
  intro r e d
  by_cases hs : d.stage = .init
  · rw [deflInit_of_init hs, deflInit_of_init (d := d.withIo r e) hs]
    rfl
  · rw [deflInit_of_started hs, deflInit_of_started (d := d.withIo r e) hs]

theorem atStart_withRoom (s : State) : (atStart (withRoom no ao m s)).d =
    (atStart s).d.withIo { s.defl.regs with nextOut := no, availOut := ao } s.defl.ec := ioBlind_deflInit _ _ _ _

theorem resumed_regs (s : State) : (resumed s).d.regs = { s.defl.regs with nextOut := 0, availOut := 0 } :=
  atStart_regs (withRoom 0 0 [] s)

theorem resumed_hosted (h : s.defl.alive) : (resumed s).hosted :=
  ⟨Memory.wf_nil, (regionOk_iff _).2
    (resumed_regs s ▸ ⟨h.2, show (0 : Word).toNat + (0 : Word).toNat ≤ 2 ^ 32 by decide⟩)⟩

/-- An engine that would go on from the same place with the same input. -/
theorem twin_resumed {c : DeflCtx} (h : s.defl.alive) (hc : c.hosted) (he : SameEngine (atStart s).d c.d)
    (hin : c.bus.inMem = s.bus.inMem) (hnext : c.d.regs.nextIn = s.defl.regs.nextIn)
    (hav : c.d.regs.availIn = s.defl.regs.availIn) : Twin (resumed s) (noQueue c) := by
  refine ⟨?_, ?_, resumed_hosted h, hc⟩
  · obtain ⟨r, e, he⟩ := he
    refine ⟨r, e, ?_⟩
    rw [noQueue, he, resumed, noQueue, atStart_withRoom]
    rfl
  · show bytesAt c.bus.inMem c.d.regs.nextIn.toNat c.d.regs.availIn.toNat =
      bytesAt s.bus.inMem (resumed s).d.regs.nextIn.toNat (resumed s).d.regs.availIn.toNat
    rw [hin, hnext, hav, resumed_regs]

/-- Another code and another output region lead to the same end. -/
theorem Finishes.room {e : Status} (ha : s.defl.alive)
    (h : Finishes f { withRoom no ao m s with defl := { (withRoom no ao m s).defl with ec := e } } out z) : Finishes f s out z := by
  set t : State := { withRoom no ao m s with defl := { (withRoom no ao m s).defl with ec := e } } with ht
  have hstart : SameEngine (atStart s).d (atStart t).d :=
    ⟨_, _, ioBlind_deflInit s.params { s.defl.regs with nextOut := no, availOut := ao } e s.defl⟩
  have hpend : (atStart t).d.pending = (atStart s).d.pending := by
    obtain ⟨r, e, he⟩ := hstart
    rw [he]
    rfl
  rcases h with ⟨hd, h⟩ | ⟨hd, h⟩
  · exact .inl ⟨hd, h⟩
  · refine .inr ⟨hd, ?_⟩
    rw [hpend] at h
    have hsame : SameEngine (atStart s).d (atStart (withRoom 0 0 [] t)).d :=
      ⟨_, _, ioBlind_deflInit s.params { s.defl.regs with nextOut := 0, availOut := 0 } e s.defl⟩
    have htwin : Twin (resumed s) (resumed t) :=
      twin_resumed (c := atStart (withRoom 0 0 [] t)) ha (resumed_hosted (s := t) ha) hsame rfl
        (by rw [atStart_regs]; rfl) (by rw [atStart_regs]; rfl)
    exact h.twin htwin.symm

/-! ## Calls that do no work -/

theorem deflCode_endOfStream {r : StreamRegs} {trees : Bool} {d : Defl} (h : deflCode r trees d = .endOfStream) : d.stage = .done := by
  unfold deflCode at h
  split_ifs at h with hd
  exact hd

theorem deflCode_needBuffers {r : StreamRegs} {trees : Bool} {d : Defl} (h : deflCode r trees d = .needBuffers) : trees = false := by
  unfold deflCode at h
  split_ifs at h with hd hm
  exact Bool.of_not_eq_true fun ht => hm (.inr (.inr ht))

/-- A recorded error or an input region past the end of the space refuses the call. -/
theorem refused_of_not_alive (hs : s.defl.Sound s.params) (ha : ¬s.defl.alive) (h : exec (deflWriteInstr f) s = .next t) :
    t = deflReturn .streamError s := by
  rw [exec_deflWriteInstr] at h
  by_cases hc : s.defl.configured = false
  · rw [deflWrite_unconfigured hc] at h
    exact (Host.Outcome.next.inj h).symm
  have hc := Bool.of_not_eq_false hc
  by_cases hst : s.defl.sticky = .ok
  · have hr : regionOk s.defl.regs = false := Bool.of_not_eq_true fun hr => ha ⟨hst, ((regionOk_iff _).1 hr).1⟩
    rw [deflWrite_region hc hst hr] at h
    exact (Host.Outcome.next.inj h).symm
  · rw [deflWrite_sticky hc hst, hs.sticky.resolve_left hst] at h
    exact (Host.Outcome.next.inj h).symm

theorem not_drained_of_streamError (h : s.defl.ec = .streamError) : ¬drained s := by
  rintro (he | ⟨he, -⟩) <;> exact absurd (h.symm.trans he) nofun

end

/-! ## A call that works -/

/-- Inside a call of mode `g` that started from `c` with the bytes `out` written: to go on from `e` is to go on from `c`. -/
structure GoesOn (pr : Params) (f g : Flush) (c : DeflCtx) (out : List Byte) (e : DeflCtx) : Prop where
  sound : e.Sound pr
  running : e.d.running
  mode : effective f e.d = g
  leads : ∃ k xs, Moved c k xs e ∧
    ∀ z, Ends pr g (noQueue e) (out ++ xs ++ e.d.pending) z → Ends pr g (noQueue c) (out ++ c.d.pending) z

section
variable {pr : Params} {f g : Flush} {c e : DeflCtx} {out : List Byte}

theorem GoesOn.start (hs : c.Sound pr) (hrun : c.d.running) (hm : effective f c.d = g) : GoesOn pr f g c out c :=
  ⟨hs, hrun, hm, 0, [], .refl hs.2.2, fun z h => by rwa [List.append_nil] at h⟩

theorem GoesOn.take (hc : c.hosted) (h : GoesOn pr f g c out e) : GoesOn pr f g c out (bwTake e) := by
  obtain ⟨hs, hrun, hmode, k, xs, hm, hz⟩ := h
  have hhost := hm.hosted hc
  have htake := moved_bwTake hhost.1 hhost.2
  obtain ⟨hf, hnext, hav, -, hin⟩ := bwTake_frame e
  refine ⟨bwTake_sound hs, bwTake_running hrun, ?_, _, _, hm.trans htake hc.2, fun z h => hz z ?_⟩
  · rw [effective, bwTake_finishing]
    exact hmode
  · rw [bwTake_pending, ← List.append_assoc, List.append_assoc, List.take_append_drop] at h
    refine h.twin ⟨⟨e.d.regs, e.d.ec, ?_⟩, ?_, htake.hosted hhost, hhost⟩
    · rw [noQueue, noQueue, hf]
      rfl
    · show bytesAt e.bus.inMem e.d.regs.nextIn.toNat e.d.regs.availIn.toNat =
        bytesAt (bwTake e).bus.inMem (bwTake e).d.regs.nextIn.toNat (bwTake e).d.regs.availIn.toNat
      rw [hin, hnext, hav]

/-- Work ends here, or goes on from what it leaves. -/
theorem GoesOn.leads_work (hc : c.hosted) (h : GoesOn pr f g c out e) (hp : e.d.pending = []) :
    ∃ k xs, Moved c k xs (deflWork pr g e).c ∧
      ((deflWork pr g e).stopped = true → Ends pr g (noQueue c) (out ++ c.d.pending) ((deflWork pr g e).c.d.data, out ++ xs)) ∧
      ((deflWork pr g e).stopped = false → ∀ z, Ends pr g (noQueue (deflWork pr g e).c) (out ++ xs ++ (deflWork pr g e).c.d.pending) z →
        Ends pr g (noQueue c) (out ++ c.d.pending) z) := by
  obtain ⟨hs, hrun, hmode, k, xs, hm, hz⟩ := h
  rw [hp, noQueue_of_empty hp, List.append_nil] at hz
  have hhost := hm.hosted hc
  obtain ⟨n, hw⟩ := moved_deflWork (pr := pr) (f := g) hhost.1 hhost.2
  have hall := hm.trans hw hc.2
  rw [List.append_nil] at hall
  exact ⟨_, xs, hall, fun hstop => hz _ (.stop _ _ hstop), fun hgo z h => hz z (.go _ _ _ hgo h)⟩

theorem GoesOn.work (hc : c.hosted) (h : GoesOn pr f g c out e) (hp : e.d.pending = []) (hgo : (deflWork pr g e).stopped = false) :
    GoesOn pr f g c out (deflWork pr g e).c := by
  obtain ⟨hs', hrun'⟩ := deflWork_ok g h.sound h.running
  obtain ⟨k, xs, hm, -, hz⟩ := h.leads_work hc hp
  exact ⟨hs', hrun' hgo, effective_deflWork h.mode, k, xs, hm, hz hgo⟩

theorem GoesOn.loop {n : Nat} {r : Bool × DeflCtx} (hc : c.hosted) (h : GoesOn pr f g c out c)
    (hl : deflLoop pr g n false c = some r) : DeflStop pr g (fun _ e => GoesOn pr f g c out e) r :=
  deflLoop_rule (fun _ _ h => h.take hc) (fun _ h hp hgo => h.work hc hp hgo) h hl

end

end Sys2Proof.Machine
end

section
/-! PROOFS. Drained runs of one mode have written the same bytes (R375 (d)), and with that the last part of what `DEFL` is for
(R372 to R376). -/

namespace Sys2Proof.Machine

section
variable {f : Flush} {a s t : State} {out out' : List Byte} {no ao : Word} {m : Memory} {z : List Byte × List Byte}

/-! ## One call -/

/-- What a call with this output region adds to the output. -/
abbrev wroteInRoom (s t : State) (no ao : Word) : List Byte :=
  writtenBytes ⟨s.defl.regs.nextIn, s.defl.regs.availIn, no, ao, 0, 0⟩ t.defl.regs t.bus.outMem

/-- A call leads to the end its start leads to; where it leaves a drained engine, that end is reached. -/
structure Resumes (f : Flush) (s : State) (out : List Byte) (t : State) (out' : List Byte) : Prop where
  goesOn : t.defl.alive → s.defl.alive ∧ ∀ z, Finishes f t out' z → Finishes f s out z
  ends : drained t → s.defl.alive ∧ Finishes f s out (t.defl.data, out')

/-- A call that only left another code. -/
theorem resumes_of_code {e x : Status} (hx : x = s.defl.sticky ∨ x = .streamError)
    (ht : t = { withRoom no ao m s with defl := { (withRoom no ao m s).defl with ec := e, sticky := x } })
    (hd : drained t → s.defl.alive ∧ s.defl.stage = .done) : Resumes f s out t (out ++ wroteInRoom s t no ao) := by
  have hnone : wroteInRoom s t no ao = [] := by
    have hprod : produced ⟨s.defl.regs.nextIn, s.defl.regs.availIn, no, ao, 0, 0⟩ t.defl.regs = 0 := by
      rw [ht]
      exact Nat.sub_self _
    rw [wroteInRoom, writtenBytes, hprod, bytesAt_zero]
  rw [hnone, List.append_nil]
  constructor
  case goesOn =>
    rintro ⟨hok, hin⟩
    rw [ht] at hok hin
    obtain rfl : x = s.defl.sticky := hx.resolve_right fun hx => absurd (hx.symm.trans hok) nofun
    have ha : s.defl.alive := ⟨hok, hin⟩
    exact ⟨ha, fun z h => Finishes.room (no := no) (ao := ao) (m := m) (e := e) ha (ht ▸ h)⟩
  case ends =>
    intro h
    obtain ⟨ha, hdone⟩ := hd h
    exact ⟨ha, .inl ⟨hdone, by rw [ht]; rfl⟩⟩

/-- What the calls lead to from an engine that the loop left before the end of the stream. -/
theorem finishes_left {e : DeflCtx} {ec : Status} (hinit : e.d.stage ≠ .init) (hdone : e.d.stage ≠ .done) (hh : e.hosted)
    (ha : t.defl.alive) (hd : t.defl = { e.d with ec }) (hb : t.bus = e.bus) (h : Finishes f t out z) :
    Ends t.params (effective f e.d) (noQueue e) (out ++ e.d.pending) z := by
  have hstart : (atStart t).d = { e.d with ec } := by
    rw [atStart, hd]
    exact deflInit_of_started (d := { e.d with ec }) hinit
  rcases h with ⟨h, -⟩ | ⟨-, h⟩
  · rw [hd] at h
    exact absurd h hdone
  · rw [hstart, hd] at h
    refine h.twin (twin_resumed ha hh ⟨e.d.regs, e.d.ec, ?_⟩ (by rw [hb]) (by rw [hd]) (by rw [hd]))
    rw [hstart]
    rfl

/-- From where the loop starts, with this output region, the calls lead where they lead from the state. -/
theorem finishes_of_start (hm : m.wf) (hr : (withRoom no ao m s).defl.ready) (hd : s.defl.stage ≠ .done)
    (h : Ends s.params (effective f s.defl) (noQueue (atStart (withRoom no ao m s)))
      (out ++ (atStart (withRoom no ao m s)).d.pending) z) : Finishes f s out z := by
  obtain ⟨hc, hs, hreg⟩ := hr
  have ha : s.defl.alive := ⟨hs, ((regionOk_iff _).1 hreg).1⟩
  rw [atStart_withRoom] at h
  have hhost : (atStart (withRoom no ao m s)).hosted := ⟨hm, by rw [atStart_regs]; exact hreg⟩
  refine .inr ⟨hd, h.twin (twin_resumed ha hhost ⟨_, _, atStart_withRoom s⟩ rfl ?_ ?_).symm⟩
  · rw [atStart_regs]
    rfl
  · rw [atStart_regs]
    rfl

/-! ## A call that worked -/

/-- A call with an output region passed the entry checks, and its loop stopped at `r`. -/
structure RanInRoom (f : Flush) (s : State) (no ao : Word) (m : Memory) (r : Bool × DeflCtx) (t : State) : Prop where
  sound : s.defl.Sound s.params
  bus : s.bus.Inv
  wf : m.wf
  ready : (withRoom no ao m s).defl.ready
  unended : s.defl.stage ≠ .done
  loop : deflLoop s.params (effective f s.defl) (deflFuel (atStart (withRoom no ao m s)).d) false (atStart (withRoom no ao m s)) =
    some r
  left : t = { withRoom no ao m s with
    defl := { r.2.d with ec := deflCode (withRoom no ao m s).defl.regs r.1 r.2.d }, bus := r.2.bus }

section
variable {r : Bool × DeflCtx}

theorem RanInRoom.alive (h : RanInRoom f s no ao m r t) : s.defl.alive := ⟨h.ready.2.1, ((regionOk_iff _).1 h.ready.2.2).1⟩

theorem RanInRoom.hosted (h : RanInRoom f s no ao m r t) : (atStart (withRoom no ao m s)).hosted :=
  ⟨h.wf, by rw [atStart_regs]; exact h.ready.2.2⟩

theorem RanInRoom.defl (h : RanInRoom f s no ao m r t) :
    t.defl = { r.2.d with ec := deflCode (withRoom no ao m s).defl.regs r.1 r.2.d } := by rw [h.left]

theorem RanInRoom.stops (h : RanInRoom f s no ao m r t) : DeflStop s.params (effective f s.defl)
    (fun _ e => GoesOn s.params f (effective f s.defl) (atStart (withRoom no ao m s)) out e) r := by
  have hsound : (atStart (withRoom no ao m s)).Sound s.params :=
    atStart_sound (s := withRoom no ao m s) { h.sound with } ⟨h.bus.1, h.wf⟩
  have hmode : effective f (atStart (withRoom no ao m s)).d = effective f s.defl := by
    rw [atStart, deflInit_frame]
    rfl
  exact GoesOn.loop h.hosted (.start hsound (deflInit_running h.unended) hmode) h.loop

theorem RanInRoom.wrote {k : Nat} {xs : List Byte} (h : RanInRoom f s no ao m r t)
    (hm : Moved (atStart (withRoom no ao m s)) k xs r.2) : wroteInRoom s t no ao = xs := by
  have hw := hm.writtenBytes
  rw [atStart_regs] at hw
  rw [h.left]
  exact hw

/-- The next call starts from where the loop stopped. -/
theorem RanInRoom.finishes (h : RanInRoom f s no ao m r t) (hinit : r.2.d.stage ≠ .init) (hdone : r.2.d.stage ≠ .done)
    (hmode : effective f r.2.d = effective f s.defl) {k : Nat} {xs : List Byte}
    (hm : Moved (atStart (withRoom no ao m s)) k xs r.2) (ha : t.defl.alive) (hz : Finishes f t out z) :
    Ends s.params (effective f s.defl) (noQueue r.2) (out ++ r.2.d.pending) z := by
  have hparams : t.params = s.params := by rw [h.left]; rfl
  have hz := finishes_left hinit hdone (hm.hosted h.hosted) ha h.defl (by rw [h.left]) hz
  rwa [hmode, hparams] at hz

/-- The loop stopped for want of space, or at a tree boundary. -/
theorem RanInRoom.resumes_short (h : RanInRoom f s no ao m r t)
    (hg : GoesOn s.params f (effective f s.defl) (atStart (withRoom no ao m s)) out r.2) (hnd : ¬drained t) :
    Resumes f s out t (out ++ wroteInRoom s t no ao) := by
  obtain ⟨-, hrun, hmode, k, xs, hm, hleads⟩ := hg
  refine ⟨fun ha => ⟨h.alive, fun z hz => finishes_of_start h.wf h.ready h.unended (hleads z ?_)⟩, fun hdr => absurd hdr hnd⟩
  rw [h.wrote hm] at hz
  exact h.finishes (by rcases hrun with hs | hs <;> simp [hs]) (by rcases hrun with hs | hs <;> simp [hs]) hmode hm ha hz

/-- Where work said stop before the end of the stream, it stops again at once. -/
theorem RanInRoom.finishes_stopped {e : DeflCtx} {k : Nat} {xs : List Byte} (h : RanInRoom f s no ao m r t) (hs : e.Sound s.params)
    (hrun : e.d.running) (hmode : effective f e.d = effective f s.defl) (hp : e.d.pending = [])
    (hm : Moved (atStart (withRoom no ao m s)) k xs r.2) (hstop : (deflWork s.params (effective f s.defl) e).stopped = true)
    (hr : r.2 = (deflWork s.params (effective f s.defl) e).c) (ha : t.defl.alive) (hz : Finishes f t out z) :
    z = (r.2.d.data, out) := by
  rcases deflWork_stopped hstop with ⟨-, -, hw⟩ | ⟨hst, -, -, -, -, -, hw⟩
  · have hdone : t.defl.stage = .done := by rw [h.defl, hr, hw]; rfl
    rcases hz with ⟨-, hz⟩ | ⟨hne, -⟩
    · rw [hz, h.defl]
    · exact absurd hdone hne
  · have hframe := onlyTokens_tokenised s.params (effective f s.defl) e
    have hstage : r.2.d.stage = e.d.stage := by
      rw [hr, hw, DeflCtx.halt, hframe, accept_frame_d]
    have hpend : r.2.d.pending = [] := by
      rw [hr, hw]
      exact (tokenised_bits s.params (effective f s.defl) e).2.2.trans hp
    have hbody : r.2.d.stage = .body := hstage.trans (hrun.resolve_right hst)
    have hends := h.finishes (by simp [hbody]) (by simp [hbody]) (hr ▸ effective_deflWork hmode) hm ha hz
    rw [noQueue_of_empty hpend, hpend, List.append_nil] at hends
    obtain ⟨hagain, hdata⟩ := stops_again hs hst hstop
    rw [← hr] at hagain hdata
    exact hends.unique (hdata ▸ Ends.stop r.2 out hagain)

/-- Work said stop: the end is reached. -/
theorem RanInRoom.resumes_stopped {e : DeflCtx} (h : RanInRoom f s no ao m r t)
    (hg : GoesOn s.params f (effective f s.defl) (atStart (withRoom no ao m s)) out e) (hp : e.d.pending = [])
    (hstop : (deflWork s.params (effective f s.defl) e).stopped = true)
    (hr : r.2 = (deflWork s.params (effective f s.defl) e).c) : Resumes f s out t (out ++ wroteInRoom s t no ao) := by
  obtain ⟨k, xs, hm, hend, -⟩ := hg.leads_work h.hosted hp
  rw [← hr] at hm hend
  have hreach := finishes_of_start h.wf h.ready h.unended (hend hstop)
  rw [h.wrote hm]
  refine ⟨fun ha => ⟨h.alive, fun z hz => ?_⟩, fun _ => ⟨h.alive, ?_⟩⟩
  · obtain rfl := h.finishes_stopped hg.sound hg.running hg.mode hp hm hstop hr ha hz
    exact hreach
  · rw [h.defl]
    exact hreach

theorem RanInRoom.resumes (h : RanInRoom f s no ao m r t) : Resumes f s out t (out ++ wroteInRoom s t no ao) := by
  have hec : t.defl.ec = deflCode (withRoom no ao m s).defl.regs r.1 r.2.d := by rw [h.defl]
  have hregs : t.defl.regs = r.2.d.regs := by rw [h.defl]
  have hgoing : ∀ {e : DeflCtx}, e.d.running → deflCode (withRoom no ao m s).defl.regs r.1 e.d ≠ .endOfStream := fun hrun he => by
    rcases hrun with hs | hs <;> exact absurd (hs.symm.trans (deflCode_endOfStream he)) nofun
  have hstops := h.stops (out := out)
  cases hstops with
  | space trees e hg hp hroom =>
    refine h.resumes_short hg ?_
    rintro (hend | ⟨-, -, hao⟩)
    · exact hgoing hg.running (hec.symm.trans hend)
    · exact hao (hregs ▸ hroom)
  | boundary e hg hp =>
    refine h.resumes_short hg ?_
    rintro (hend | ⟨hneed, -⟩)
    · exact hgoing hg.running (hec.symm.trans hend)
    · exact absurd (deflCode_needBuffers (hec.symm.trans hneed)) nofun
  | work e hg hp hstop => exact h.resumes_stopped hg hp hstop rfl

end

/-! ## Runs -/

/-- Every call leads where its start leads. -/
theorem resumes_of_call (hm : m.wf) (hs : s.defl.Sound s.params) (hb : s.bus.Inv)
    (h : exec (deflWriteInstr f) (withRoom no ao m s) = .next t) : Resumes f s out t (out ++ wroteInRoom s t no ao) := by
  have hs' : (withRoom no ao m s).defl.Sound s.params := { hs with }
  by_cases ha : s.defl.alive
  · cases wrote h with
    | refused e x he hx ht =>
      have hec : t.defl.ec = .streamError := by
        rw [ht]
        exact ne_ok_of_refused (s := withRoom no ao m s) hs' he
      exact resumes_of_code hx ht fun hd => absurd hd (not_drained_of_streamError hec)
    | ended hd ht => exact resumes_of_code (.inl rfl) ht fun _ => ⟨ha, hd⟩
    | ran r hr hd hi hl ht => exact RanInRoom.resumes ⟨hs, hb, hm, hr, hd, hl, ht⟩
  · have ht := refused_of_not_alive (s := withRoom no ao m s) hs' ha h
    have hec : t.defl.ec = .streamError := by rw [ht]; rfl
    exact resumes_of_code (.inl rfl) ht fun hd => absurd hd (not_drained_of_streamError hec)

/-- What a run of one mode keeps: the invariant, and the end it leads to. -/
structure LeadsOn (f : Flush) (a s : State) (out : List Byte) : Prop where
  sound : s.defl.Sound s.params
  bus : s.bus.Inv
  leads : s.defl.alive → a.defl.alive ∧ ∀ z, Finishes f s out z → Finishes f a [] z

theorem LeadsOn.call (h : LeadsOn f a s out) (hm : m.wf) (he : exec (deflWriteInstr f) (withRoom no ao m s) = .next t) :
    LeadsOn f a t (out ++ wroteInRoom s t no ao) ∧ (drained t → Finishes f a [] (t.defl.data, out ++ wroteInRoom s t no ao)) := by
  have hr := resumes_of_call (out := out) hm h.sound h.bus he
  have hparams : t.params = s.params := by rw [(wrote he).frame]; rfl
  rw [exec_deflWriteInstr] at he
  obtain ⟨hs, hb⟩ := deflWrite_answers f (s := withRoom no ao m s) { h.sound with } ⟨h.bus.1, hm⟩ t he
  refine ⟨⟨hparams ▸ hs, hb, fun ha => ?_⟩, fun hd => ?_⟩
  · obtain ⟨ha, hz⟩ := hr.goesOn ha
    obtain ⟨ha, hz'⟩ := h.leads ha
    exact ⟨ha, fun z h => hz' z (hz z h)⟩
  · obtain ⟨ha, hz⟩ := hr.ends hd
    exact (h.leads ha).2 _ hz

theorem leadsOn_of_portioned (ha : a.Inv) (h : Portioned f a s out) :
    LeadsOn f a s out ∧ (drained s → Finishes f a [] (s.defl.data, out)) := by
  induction h with
  | first t no ao m hm e => exact LeadsOn.call (out := []) ⟨ha.sound, ha.busInv, fun h => ⟨h, fun _ h => h⟩⟩ hm e
  | again s t out no ao m hm h e ih => exact ih.1.call hm e

theorem portioningIsInvisible : PortioningIsInvisible := by
  intro f a s t out out' ha hs ht hds hdt
  have h := ((leadsOn_of_portioned ha hs).2 hds).unique ((leadsOn_of_portioned ha ht).2 hdt)
  exact ⟨congrArg Prod.snd h, congrArg Prod.fst h⟩

end

end Sys2Proof.Machine

open Sys2Proof Sys2Proof.Machine

/-- Settles O23: the decoder follows the blocks, flushes and trailers a run wrote, and a run of one mode goes on with the same work
whatever the output regions. -/
theorem roundTrips : Obligations.RoundTrips :=
  ⟨roundTrip, outputGrammar, flushObligation (.inl rfl), flushObligation (.inr (.inl rfl)),
    flushObligation (.inr (.inr rfl)), fullChunk, blockFlush, portioningIsInvisible⟩

end
